-- ==== Sys2Proof/Word.lean ====
section
/-! DEFINITION. The byte, the tag, and the units the whole model counts time in. -/

namespace Sys2Proof

/-- One byte of a host frame or a line frame (R156, R207). -/
abbrev Byte := BitVec 8

/-- The tag a host request carries and its answer echoes (R207: bytes 2 and 3). -/
abbrev Tag := BitVec 16

/-- Microseconds of internal timebase in a second (00_scope, Units). -/
def microsPerSecond : Nat := 1000000

/-- A section second is a 32-bit count that wraps to 0 (R125). -/
def wrapSecond (n : Nat) : Nat := n % 2 ^ 32

end Sys2Proof
end

