-- ==== Sys2Proof/Syntax.lean ====
section
/-! DEFINITION. The commands of the block: one constructor of Instr per row of spec/opcode_table.json,
with the operands each row takes. -/

namespace Sys2Proof

/-- The two branch lines. -/
inductive Branch where
  | west | east
  deriving DecidableEq, Repr

/-- A site name by its place in site-name order (R190): 0 to 31 are W1 to W32, 32 to 63 are E1 to E32. -/
abbrev SiteName := Fin 64

/-- A lease entry, 0 to 15 for the numbers 1 to 16 of R70. -/
abbrev EntryNo := Fin 16

/-- What raised a power-on reset (R148). -/
inductive PowerCause where
  | powerOn | brownOut
  deriving DecidableEq, Repr

/-- The levels at BRANCH1 and BRANCH0, true for high (R174). -/
structure StrapPins where
  branch1 : Bool
  branch0 : Bool
  deriving DecidableEq, Repr, Inhabited

/-- Strictness of a survey lease (R70). -/
inductive Strictness where
  | strict | lenient
  deriving DecidableEq, Repr

/-- An interruption pattern: ON and OFF time in 100 ms, off-read delay in 10 ms (R70). -/
structure Pattern where
  onTime  : Nat
  offTime : Nat
  offRead : Nat
  deriving DecidableEq, Repr

/-- Direction of a relay slot; a WRITE has its data byte (R168). -/
inductive RelayDirection where
  | write (data : Byte)
  | read
  deriving DecidableEq, Repr

/-- Before-action of a relay slot (R168). -/
inductive RelayBefore where
  | none | start | restart
  deriving DecidableEq, Repr

/-- After-action of a relay slot (R168). -/
inductive RelayAfter where
  | ack | nack | nackStop | stop
  deriving DecidableEq, Repr

/-- One slot of a relay transfer (R168). -/
structure RelaySlot where
  direction : RelayDirection
  before    : RelayBefore
  after     : RelayAfter
  deriving DecidableEq, Repr

/-- The operands of a host request, or `none` where the payload's length or content does not fit the request
code (R199: the request still reaches its block, which answers RANGE before its other checks; assumption log 50). Numbers are as the frame carries them,
so a value outside its range is an operand like any other. -/
abbrev Arg (α : Type) := Option α

/-- CLEAR FAULTS: site code or 00h for COORDINATOR, and the selection's bits (R147, R207). -/
structure ClearFaultsArgs where
  target    : Nat
  selection : Nat
  deriving DecidableEq, Repr

/-- DRAFT SET: site code, field code by its place in the table of R31, and the value; on or off is 1 or 0. -/
structure DraftSetArgs where
  site  : Nat
  field : Nat
  value : Int
  deriving DecidableEq, Repr

/-- LEASE REQUEST (R74). -/
structure LeaseRequestArgs where
  first      : Nat
  last       : Nat
  pattern    : Pattern
  start      : Nat
  stop       : Nat
  strictness : Strictness
  requester  : Nat
  deriving DecidableEq, Repr

/-- A lease handle as a request carries it: entry number 1 to 16 and generation (R71). -/
structure HandleArgs where
  entry      : Nat
  generation : Nat
  deriving DecidableEq, Repr

/-- LEASE READ: a handle and the first outcome index, which may be absent (R208). -/
structure LeaseReadArgs where
  handle : HandleArgs
  index  : Option Nat
  deriving DecidableEq, Repr

/-- LEASE EXTEND: a handle and a new end (R110). -/
structure LeaseExtendArgs where
  handle : HandleArgs
  newEnd : Nat
  deriving DecidableEq, Repr

/-- LEASE REPATTERN: a handle and a new pattern (R115). -/
structure LeaseRepatternArgs where
  handle  : HandleArgs
  pattern : Pattern
  deriving DecidableEq, Repr

/-- RELAY: a site and its slots (R168). -/
structure RelayArgs where
  site  : Nat
  slots : List RelaySlot
  deriving DecidableEq, Repr

/-- The six parameters of the section configuration (R203). -/
structure SectionConfig where
  refreshInterval : Nat
  holdPeriod      : Nat
  pollPeriod      : Nat
  threshold       : Nat
  counting        : Bool
  holdoverLimit   : Nat
  draftLifetime   : Nat
  deriving DecidableEq, Repr

/-- What the read-back of a slot write shows (R194, R195): the image that was written with a good check,
or a write failure. A single-bit error that ECC corrects is one or the other (assumption log 48). -/
inductive ReadBack where
  | good | bad
  deriving DecidableEq, Repr

/-- The commands of the block, in the order of spec/opcode_table.json. `moment` is the point of the internal
timebase, in microseconds since the reset, at which the event falls (assumption log 2). -/
inductive Instr where
  | powerOnReset (cause : PowerCause) (pins : StrapPins)
  | pinReset (pins : StrapPins)
  | exchangeStart (moment : Nat)
  | exchangeEnd (moment : Nat) (mosi : List Byte)
  | answerReady
  | nop
  | siteRead (tag : Tag) (site : Arg Nat)
  | siteFind (tag : Tag) (serial : Arg Nat)
  | siteList (tag : Tag) (fit : Arg Unit)
  | retire (tag : Tag) (site : Arg Nat)
  | adopt (tag : Tag) (site : Arg Nat)
  | clearFaults (tag : Tag) (args : Arg ClearFaultsArgs)
  | draftOpen (tag : Tag) (site : Arg Nat)
  | draftSet (tag : Tag) (args : Arg DraftSetArgs)
  | draftRead (tag : Tag) (site : Arg Nat)
  | draftCommit (tag : Tag) (site : Arg Nat)
  | draftDiscard (tag : Tag) (site : Arg Nat)
  | leaseRequest (tag : Tag) (args : Arg LeaseRequestArgs)
  | leaseRead (tag : Tag) (args : Arg LeaseReadArgs)
  | leaseExtend (tag : Tag) (args : Arg LeaseExtendArgs)
  | leaseRepattern (tag : Tag) (args : Arg LeaseRepatternArgs)
  | leaseRelease (tag : Tag) (args : Arg HandleArgs)
  | leaseDismiss (tag : Tag) (args : Arg HandleArgs)
  | snap (tag : Tag) (fit : Arg Unit)
  | unsnap (tag : Tag) (fit : Arg Unit)
  | timeSet (tag : Tag) (second : Arg Nat)
  | discover (tag : Tag) (branch : Arg Nat)
  | train (tag : Tag) (branch : Arg Nat)
  | persist (tag : Tag) (fit : Arg Unit)
  | relay (tag : Tag) (args : Arg RelayArgs)
  | relayResult (tag : Tag) (fit : Arg Unit)
  | sectionRead (tag : Tag) (fit : Arg Unit)
  | sectionConfig (tag : Tag) (args : Arg SectionConfig)
  | changes (tag : Tag) (fit : Arg Unit)
  | eventMask (tag : Tag) (mask : Arg Nat)
  | sectionReset (tag : Tag) (fit : Arg Unit)
  | ppsEdge (moment : Nat)
  | ppsExpiry (moment : Nat)
  | timebaseSecond (moment : Nat) (lossLater : Bool)
  | holdoverExpiry
  | syncExpiry (branch : Branch) (moment : Nat)
  | strayTimeExpiry (site : SiteName)
  | arbiterGrant (branch : Branch) (moment : Nat) (carrier : Bool)
  | syncSent (branch : Branch) (moment : Nat)
  | answerFrame (branch : Branch) (moment : Nat) (frame : List Byte)
  | replyTimeout (branch : Branch) (moment : Nat)
  | draftExpiry (site : SiteName) (moment : Nat)
  | leaseArming (entry : EntryNo)
  | armDeadline (entry : EntryNo)
  | leaseStart (entry : EntryNo)
  | cycleEnd (entry : EntryNo) (moment : Nat)
  | extendDeadline (entry : EntryNo)
  | repatternDeadline (entry : EntryNo) (moment : Nat)
  | windowEnd (entry : EntryNo)
  | probeDue (branch : Branch) (moment : Nat)
  | heldItemPlaced (branch : Branch)
  | partialDiscovery (branch : Branch)
  | slotWriteDone (result : ReadBack)
  deriving DecidableEq, Repr

end Sys2Proof
end

