-- ==== Sys2Proof/WellFormed.lean ====
section
/-! DEFINITION. Well-formed commands: every operand of a host request fits the field of the request frame that
carries it (R156, R207). The commands of the part's own events have typed operands, so they are all well
formed. A field that fits may still lie outside its range; the block that serves it checks that. -/

namespace Sys2Proof

/-- A number that fits n bytes. -/
def fitsBytes (n v : Nat) : Bool := decide (v < 256 ^ n)

/-- A pattern that fits its three fields. -/
def Pattern.fits (p : Pattern) : Bool := fitsBytes 2 p.onTime && fitsBytes 2 p.offTime && fitsBytes 2 p.offRead

/-- A handle that fits its two bytes. -/
def HandleArgs.fits (h : HandleArgs) : Bool := fitsBytes 1 h.entry && fitsBytes 1 h.generation

/-- The form of a draft field's value in a frame (R31, R156): unsigned in one or two bytes, or signed in two. -/
inductive FieldForm where
  | one | two | signed
  deriving DecidableEq, Repr

/-- The form of a draft field by its code, the place of the field in the table of R31; `none` where no field has
the code. -/
def fieldForm? : Nat → Option FieldForm
  | 0 | 7 | 10 | 11 => some .one
  | 1 | 2 | 3 | 4 | 5 | 6 | 12 | 13 => some .two
  | 8 | 9 => some .signed
  | _ => none

/-- A value that fits the form; a code that names no field carries no value, written 0. -/
def fieldValueFits (field : Nat) (v : Int) : Bool :=
  match fieldForm? field with
  | some .one => decide (0 ≤ v ∧ v < 256)
  | some .two => decide (0 ≤ v ∧ v < 65536)
  | some .signed => decide (-32768 ≤ v ∧ v < 32768)
  | none => decide (v = 0)

/-- Whether an operand that a payload gives satisfies a check; a payload that did not fit has none to check. -/
def Arg.all {α : Type} (p : α → Bool) : Arg α → Bool
  | some a => p a
  | none => true

/-- Whether a command is well formed. -/
def Instr.wellFormed : Instr → Bool
  | .siteRead _ a | .retire _ a | .adopt _ a | .draftOpen _ a | .draftRead _ a | .draftCommit _ a
  | .draftDiscard _ a => Arg.all (fitsBytes 1) a
  | .discover _ a | .train _ a => Arg.all (fitsBytes 1) a
  | .siteFind _ a | .timeSet _ a => Arg.all (fitsBytes 4) a
  | .clearFaults _ a => Arg.all (fun x => fitsBytes 1 x.target && fitsBytes 2 x.selection) a
  | .draftSet _ a => Arg.all (fun x => fitsBytes 1 x.site && fitsBytes 1 x.field && fieldValueFits x.field x.value) a
  | .leaseRequest _ a =>
    Arg.all (fun x => fitsBytes 1 x.first && fitsBytes 1 x.last && x.pattern.fits && fitsBytes 4 x.start
      && fitsBytes 4 x.stop && fitsBytes 2 x.requester) a
  | .leaseRead _ a => Arg.all (fun x => x.handle.fits && Arg.all (fitsBytes 1) x.index) a
  | .leaseExtend _ a => Arg.all (fun x => x.handle.fits && fitsBytes 4 x.newEnd) a
  | .leaseRepattern _ a => Arg.all (fun x => x.handle.fits && x.pattern.fits) a
  | .leaseRelease _ a | .leaseDismiss _ a => Arg.all HandleArgs.fits a
  | .relay _ a => Arg.all (fun x => fitsBytes 1 x.site && fitsBytes 1 x.slots.length) a
  | .sectionConfig _ a =>
    Arg.all (fun x => fitsBytes 1 x.refreshInterval && fitsBytes 1 x.holdPeriod && fitsBytes 2 x.pollPeriod
      && fitsBytes 1 x.threshold && fitsBytes 2 x.holdoverLimit && fitsBytes 1 x.draftLifetime) a
  | .eventMask _ a => Arg.all (fitsBytes 2) a
  | .siteList .. | .snap .. | .unsnap .. | .persist .. | .relayResult .. | .sectionRead .. | .changes ..
  | .sectionReset .. => true
  | .powerOnReset .. | .pinReset .. | .exchangeStart .. | .exchangeEnd .. | .answerReady | .nop | .ppsEdge ..
  | .ppsExpiry .. | .timebaseSecond .. | .holdoverExpiry | .syncExpiry .. | .strayTimeExpiry .. | .arbiterGrant ..
  | .syncSent .. | .answerFrame .. | .replyTimeout .. | .draftExpiry .. | .leaseArming .. | .armDeadline ..
  | .leaseStart .. | .cycleEnd .. | .extendDeadline .. | .repatternDeadline .. | .windowEnd .. | .probeDue ..
  | .heldItemPlaced .. | .partialDiscovery .. | .slotWriteDone .. => true

end Sys2Proof
end

