-- ==== Sys2Proof/Decode.lean ====
section
/-! DEFINITION. The command a word of the opcode table's bits spells. No row of spec/opcode_table.json gives
bits, so no word spells a command. Host request frames and line frames, whose bytes the spec does give, are read
in Machine/Operands.lean and Machine/Frames.lean, inside the commands that carry them. -/

namespace Sys2Proof

/-- The command a word spells by the table's bits: none, since no row gives any. -/
def decodeTableWord (_nbits _w : Nat) : Option Instr := none

end Sys2Proof
end

