-- ==== Sys2Proof/Config.lean ====
section
/-! DEFINITION. The free values: what the spec leaves open and the machine goes on with. Each is a constant
with no body, so that no proof can see what it is (assumption log 5, 7, 8, 10, 21, 22, 23). -/

namespace Sys2Proof

/-- What is left in a slot whose write a reset cut short (R196): its old image, its new image, or an erased or
partly written slot, which fails its ECC check. -/
inductive CutSlot where
  | oldImage | newImage | unreadable
  deriving DecidableEq, Repr, Inhabited

/-- R196 does not say which of the three a cut write leaves: a fresh choice for each reset. -/
opaque Config.cutWrite : Nat → CutSlot

/-- R195: "The slot holds what the second write left". What a failed second write leaves: nothing readable, or
the image that was to be written, with or without a single-bit error, or the image of before. -/
inductive LeftSlot where
  | unreadable | erased | newImage | newImageOneBit | oldImage
  deriving DecidableEq, Repr, Inhabited

/-- What the second failed write of a slot leaves in it (R195): a fresh choice for each. -/
opaque Config.failedWrite : Nat → LeftSlot

/-- R125 gives the interval estimate as a mean and not how a mean that is no whole number of microseconds is
rounded: true for up. The arguments are the sum of the intervals and their number. -/
opaque Config.roundMeanUp : Nat → Nat → Bool

/-- R33 sets the idle age to 0 by a DRAFT READ and R35 shows it: true where the answer shows the age from
before the request. -/
opaque Config.draftReadShowsOldAge : Bool

/-- R174 reads BRANCH1 and BRANCH0 at every start-up sequence. The levels that a soft reset finds there: a fresh
reading for each. -/
opaque Config.strapLevels : Nat → StrapPins

/-- R207 gives a count 1 byte and R140 lets polls since snapshot reach 65,535: the byte sent for a count above 255. -/
opaque Config.wideCountByte : Nat → Byte

/-- R20 gives the content of the SITE LIST answer; its packing in one frame is not given. The arguments are
the 64 entries as lists of numbers. -/
opaque Config.siteListBytes : List (List Nat) → List Byte

/-- The value a FRAME_ERROR answer echoes for a byte of the request that was never shifted in (R199). -/
opaque Config.missingByte : Nat → Byte

end Sys2Proof
end

