-- ==== Sys2Proof/Machine/State.lean ====
section
/-! DEFINITION. The state of the block: every piece of state the spec gives it, as plain data, and the state
right after a reset. -/

namespace Sys2Proof.Machine

open Sys2Proof

/-! ### Site records (chapter 1) -/

/-- The seven states of a site record (R2). -/
inductive SiteState where
  | vacant | discovered | commissioning | commissioned | unreachable | mismatch | retiring
  deriving DecidableEq, Repr

/-- Mode of a site node (R2, R55). -/
inductive NodeMode where
  | attended | standalone | fresh
  deriving DecidableEq, Repr

/-- A rectifier's rated current and rated voltage (R2). -/
structure Nameplate where
  current : Nat
  voltage : Nat
  deriving DecidableEq, Repr

/-- What the record knows of the node it is for (R4); present together in every state but VACANT (R3).
`pollFrom` is the point of the timebase the poll age counts from (R7). -/
structure NodeIdent where
  serial       : Nat
  plate        : Nameplate
  hostPlate    : Bool
  mode         : Option NodeMode
  pollFrom     : Nat
  deriving DecidableEq, Repr

/-- The node that answers at the site where it differs from the recorded one (R4). -/
structure FoundNode where
  serial : Nat
  plate  : Nameplate
  mode   : NodeMode
  deriving DecidableEq, Repr

/-- How the node regulates its rectifier (R31). -/
inductive SetMode where
  | current | trimmed | voltage
  deriving DecidableEq, Repr

/-- The set-point block, in the order of R31. -/
structure Block where
  mode             : SetMode
  targetCurrent    : Nat
  targetVoltage    : Nat
  currentLimit     : Nat
  voltageLimit     : Nat
  trimFloor        : Nat
  trimCeiling      : Nat
  trimStep         : Nat
  protectLimit     : Int
  overprotectLimit : Int
  windowCount      : Nat
  deriving DecidableEq, Repr

/-- Trim status (R66). -/
inductive TrimStatus where
  | active | waitingSurvey | suspended
  deriving DecidableEq, Repr

/-- Commissioned content (R5), present together. `refreshFrom` is the point of the timebase the refresh age
counts from (R7). The effective limit is derived. -/
structure Commissioned where
  block       : Block
  applied     : Nat
  refreshFrom : Nat
  trim        : Option TrimStatus
  deriving DecidableEq, Repr

/-- IR offset in millivolts with the section second of its survey cycle (R6, R105). -/
structure IrOffset where
  millivolts : Int
  second     : Nat
  deriving DecidableEq, Repr

/-- Live or frozen readings of a site (R140). -/
structure Readings where
  outputCurrent : Nat
  outputVoltage : Nat
  on            : Option Int
  instantOff    : Option Int
  pollTime      : Option Nat
  polls         : Nat
  leastOn       : Option Int
  mostOn        : Option Int
  deriving DecidableEq, Repr

/-- The nine fault kinds, in the order of R11. -/
inductive FaultKind where
  | overcurrent | acLost | setpointMismatch | underProtected | overProtected | nodeRestarted | limitClamped
  | orphanCycle | linkLost
  deriving DecidableEq, Repr

/-- The fault set: one bit per kind in the order of R11, latched and condition present. -/
structure FaultSet where
  latched : BitVec 9
  present : BitVec 9
  deriving DecidableEq, Repr

/-- A lease handle (R71). -/
structure Handle where
  entry      : EntryNo
  generation : Nat
  deriving DecidableEq, Repr

/-- Purpose of the Pending APPLY or RELEASE of a site (R9). -/
inductive Purpose where
  | commit | adopt | restore | retire | clean
  deriving DecidableEq, Repr

/-- Where the Pending call stands: in the host-driven FIFO, on the line, or held (R9, R40, R165). -/
inductive Stage where
  | queued | inFlight | held
  deriving DecidableEq, Repr

/-- The Pending entry of a site with the sent applied current of R41. -/
structure PendingCall where
  purpose     : Purpose
  stage       : Stage
  sentApplied : Option Nat
  deriving DecidableEq, Repr

/-- One site record (R2). -/
structure SiteRecord where
  state      : SiteState
  node       : Option NodeIdent
  comm       : Option Commissioned
  found      : Option FoundNode
  lineDelay  : Option Nat
  irOffset   : Option IrOffset
  readings   : Option Readings
  faults     : FaultSet
  lineErrors : Nat
  holder     : Option Handle
  stray      : Option Nat
  pending    : Option PendingCall
  dirty      : Bool
  deriving DecidableEq, Repr

/-- A record as every reset leaves it before bring-up (R28). -/
def SiteRecord.blank : SiteRecord where
  state := .vacant
  node := none
  comm := none
  found := none
  lineDelay := none
  irOffset := none
  readings := none
  faults := ⟨0, 0⟩
  lineErrors := 0
  holder := none
  stray := none
  pending := none
  dirty := false

/-- What the Upkeep Engine holds for a site (R48). -/
structure Upkeep where
  acknowledged : Option Nat
  unconfirmed  : Option Nat
  due          : Bool
  restoreSpent : Bool
  underCount   : Nat
  overCount    : Nat
  deriving DecidableEq, Repr

/-- The reset values of R48. -/
def Upkeep.blank : Upkeep := ⟨none, none, false, false, 0, 0⟩

/-! ### Drafts (chapter 2) -/

/-- Reason of a REFUSED answer (R155), in the order of R156. -/
inductive Reason where
  | fresh | occupied | notCycling | badTime | range
  deriving DecidableEq, Repr

/-- Last commit result of a draft (R30). -/
inductive CommitResult where
  | range (field : Nat)
  | noAnswer
  | brk
  | refused (reason : Reason)
  deriving DecidableEq, Repr

/-- A draft (R30); `idleFrom` is the point of the timebase its idle age counts from (R33). -/
structure Draft where
  site         : SiteName
  committing   : Bool
  block        : Block
  hostPlate    : Bool
  ratedCurrent : Option Nat
  ratedVoltage : Option Nat
  idleFrom     : Nat
  lastResult   : Option CommitResult
  deriving DecidableEq, Repr

/-! ### Leases (chapters 4 and 5) -/

/-- States of a lease that is held; an entry with no lease is FREE (R70). -/
inductive LeaseState where
  | granted | arming | armed | running | stopping | closed
  deriving DecidableEq, Repr

/-- Status of a site outcome (R72). -/
inductive OutcomeStatus where
  | waiting | armed | cycling | dropped | stopped | stopFailed
  deriving DecidableEq, Repr

/-- Failure of a site outcome (R72). -/
inductive Failure where
  | noAnswer | brk | refused (reason : Reason) | notInTime | lost | fresh
  deriving DecidableEq, Repr

/-- Close cause (R70). -/
inductive CloseCause where
  | ended | released | armFailed | siteLost | patternFailed | timeLost
  deriving DecidableEq, Repr

/-- Last change result (R70). -/
inductive ChangeResult where
  | taken | refusedBySite | partly | reverted
  deriving DecidableEq, Repr

/-- How a site's call ended in a pending change (R111, R116). -/
inductive ChangeEnd where
  | done | refused (reason : Reason) | noAnswer | brk | notInTime
  deriving DecidableEq, Repr

/-- A lease call (R81); EXTEND carries its end and REPATTERN its pattern and boundary T in tenths of a
section second. -/
inductive LeaseCall where
  | arm | disarm | stop | check
  | extend (newEnd : Nat)
  | repattern (pattern : Pattern) (boundary : Nat)
  deriving DecidableEq, Repr

/-- The call of a lease that is queued or in flight for a site. `counts` is false once the decision it was
sent for has been taken without it (R85, R112, R116, R118). -/
structure PlacedCall where
  call     : LeaseCall
  inFlight : Bool
  counts   : Bool
  deriving DecidableEq, Repr

/-- The last exchange of a lease with a site's node, as the table of R79 tells them apart. -/
inductive LastExchange where
  | noArm | armRefused | armOccupied | armUnanswered | armDone | cycleGone | stopFailed
  deriving DecidableEq, Repr

/-- One span site of a lease: its outcome (R72), its end in the pending change (R208: `some none` is expected
and not yet ended), and the Sequencer's work record for it (R81, R100). -/
structure LeaseSite where
  site      : SiteName
  status    : OutcomeStatus
  failure   : Option Failure
  skipped   : Nat
  lastOff   : Option Int
  change    : Option (Option ChangeEnd)
  call      : Option PlacedCall
  waiting   : List LeaseCall
  exchange  : LastExchange
  endBound  : Option Nat
  deriving DecidableEq, Repr

/-- Pending change of a lease (R70); `reverting` while a STRICT extension takes its new end back (R113). -/
inductive PendingChange where
  | extend (newEnd : Nat) (reverting : Bool)
  | repattern (pattern : Pattern) (boundary : Nat)
  deriving DecidableEq, Repr

/-- A pattern that boundaries up to `upTo` still follow, after a repattern was taken (R116): its origin, its
period and the number of its next boundary, in tenths of a section second. -/
structure OldPattern where
  origin : Nat
  period : Nat
  next   : Nat
  upTo   : Nat
  deriving DecidableEq, Repr

/-- Run record (R100), in tenths of a section second: the pattern origin and the number of the next boundary,
and the patterns whose boundaries come before the origin. -/
structure RunRecord where
  origin : Nat
  next   : Nat
  old    : List OldPattern
  deriving DecidableEq, Repr

/-- A lease held in an entry (R70). `stopCause` is the cause a STOPPING lease will close with (R90). -/
structure Lease where
  state      : LeaseState
  requester  : Nat
  first      : SiteName
  last       : SiteName
  pattern    : Pattern
  start      : Nat
  stop       : Nat
  strictness : Strictness
  sites      : List LeaseSite
  change     : Option PendingChange
  lastResult : Option ChangeResult
  closeCause : Option CloseCause
  stopCause  : Option CloseCause
  run        : Option RunRecord
  deriving DecidableEq, Repr

/-- A lease entry: its generation, and its lease where it is not FREE (R70, R71). -/
structure LeaseEntry where
  generation : Nat
  lease      : Option Lease
  deriving DecidableEq, Repr

/-! ### Section time (chapter 6) -/

/-- Time state (R123). -/
inductive TimeState where
  | unset | locked | holdover | lost
  deriving DecidableEq, Repr

/-- Last set outcome (R123). -/
inductive SetOutcome where
  | stepped | lockedAt | dropped | abandoned
  deriving DecidableEq, Repr

/-- The Section Clock (R123). `intervals` are the last 16 intervals between good edges taken in LOCKED, newest
first; the interval estimate is derived from them (R125). -/
structure Clock where
  state       : TimeState
  count       : Option Nat
  provisional : Option Nat
  instant     : Option Nat
  reference   : Option Nat
  goodRun     : Nat
  intervals   : List Nat
  holdover    : Option Nat
  setRequest  : Option Nat
  lastSet     : Option SetOutcome
  deriving DecidableEq, Repr

/-- The reset values of R123. -/
def Clock.blank : Clock := ⟨.unset, none, none, none, none, 0, [], none, none, none⟩

/-! ### The section line (chapter 8) -/

/-- One item for each branch. -/
structure Pair (α : Type) where
  west : α
  east : α
  deriving DecidableEq, Repr

/-- Cycle state a node reports (R98). -/
inductive CycleState where
  | none | armed | running
  deriving DecidableEq, Repr

/-- DONE payload of an ENUM (R154). -/
structure EnumAnswer where
  serial   : Nat
  plate    : Nameplate
  mode     : NodeMode
  cycle    : CycleState
  cycleEnd : Option Nat
  endFlag  : Bool
  deriving DecidableEq, Repr

/-- A call with its content, as it was sent (R154). -/
inductive Call where
  | enum
  | echo
  | apply (block : Block) (applied : Nat) (lineDelay : Option Nat) (hold : Nat)
  | refresh (applied : Nat) (lineDelay : Option Nat) (hold : Nat)
  | poll
  | arm (pattern : Pattern) (start stop : Nat)
  | disarm
  | stop
  | extend (newEnd : Nat)
  | repattern (pattern : Pattern) (boundary : Nat)
  | check
  | release
  | relay (slots : List RelaySlot)
  deriving DecidableEq, Repr

/-- The block and purpose that placed a transaction (R157). A detached call's purpose has been withdrawn while
it was in flight (R9). -/
inductive Owner where
  | pending (site : SiteName)
  | detached (site : SiteName)
  | refresh (site : SiteName)
  | routinePoll (site : SiteName)
  | leasePoll (site : SiteName) (handle : Handle) (cycle : Nat) (second : Nat)
  | leaseCall (site : SiteName) (handle : Handle)
  | discovery
  | training
  | orphan (site : SiteName) (cycleEnd : Nat)
  | probe
  | relay
  deriving DecidableEq, Repr

/-- The transaction in flight (R157); `timeout` in microseconds from `sentAt` (R158). -/
structure Transaction where
  call    : Call
  dest    : Nat
  second  : Bool
  timeout : Nat
  sentAt  : Nat
  owner   : Owner
  deriving DecidableEq, Repr

/-- A SYNC: its seconds and the instant its age counts from (R133). -/
structure Sync where
  seconds : Nat
  instant : Nat
  deriving DecidableEq, Repr

/-- Items of the host-driven FIFO (R165). The call of `pending` is the one the site's Pending entry names, so
that a purpose which takes over a queue place keeps the item. -/
inductive HostItem where
  | pending (site : SiteName)
  | relay
  | enum (position : Nat)
  | echo (position : Nat)
  | orphan (site : SiteName) (running : Bool) (cycleEnd : Nat)
  | probe
  deriving DecidableEq, Repr

/-- An item of the lease-call FIFO (R166). -/
structure LeaseItem where
  handle : Handle
  site   : SiteName
  deriving DecidableEq, Repr

/-- A pending lease poll with its cycle number and the second in which that cycle ended (R102, R105). -/
structure LeasePoll where
  site   : SiteName
  handle : Handle
  cycle  : Nat
  second : Nat
  deriving DecidableEq, Repr

/-- Break record (R157): position, time of the next probe, and whether that probe has been placed (R163). -/
structure BreakRecord where
  position : Nat
  probeAt  : Nat
  placed   : Bool
  deriving DecidableEq, Repr

/-- Branch activity (R157). -/
inductive Activity where
  | idle | sendingSync | awaitingAnswer
  deriving DecidableEq, Repr

/-- A Line Controller (R157). `sent` is the frame last sent down the branch. -/
structure Line where
  activity   : Activity
  txn        : Option Transaction
  sync       : Option Sync
  hostFifo   : List HostItem
  held       : List HostItem
  leaseFifo  : List LeaseItem
  leasePolls : List LeasePoll
  brk        : Option BreakRecord
  sent       : List Byte
  deriving DecidableEq, Repr

/-- The reset values of R157. -/
def Line.blank : Line := ⟨.idle, none, none, [], [], [], [], none, []⟩

/-- State of the relay transfer (R168). -/
inductive RelayState where
  | idle | queued | inFlight
  deriving DecidableEq, Repr

/-- Outcome of a relay slot with the byte read (R169, R170). -/
inductive SlotOutcome where
  | acked (byte : Option Byte)
  | nacked (byte : Option Byte)
  | notSent
  deriving DecidableEq, Repr

/-- Line outcome of a relay transfer (R170, R171). -/
inductive LineOutcome where
  | done | refused (reason : Reason) | noAnswer | brk | lost
  deriving DecidableEq, Repr

/-- Result of a relay transfer (R170). -/
structure RelayResult where
  site    : SiteName
  slots   : List SlotOutcome
  outcome : LineOutcome
  deriving DecidableEq, Repr

/-- The relay transfer (R168). -/
structure Relay where
  state  : RelayState
  work   : Option (SiteName × List RelaySlot)
  result : Option RelayResult
  deriving DecidableEq, Repr

/-! ### Bring-up (chapter 9) -/

/-- The BRANCH strap (R174). -/
inductive Strap where
  | east | west | both
  deriving DecidableEq, Repr

/-- Phase of a branch (R173). -/
inductive Phase where
  | loading | discovering | training | applying | ready
  deriving DecidableEq, Repr

/-- Job of a branch (R173). -/
inductive Job where
  | none | discover | partly | train
  deriving DecidableEq, Repr

/-- Training position (R173) with what R188 needs: ECHOes ended here, least round trip here, least round trip
at the position before, and the sum of the hop delays so far in half microseconds. -/
structure Training where
  position : Nat
  ended    : Nat
  least    : Option Nat
  before   : Nat
  sum      : Nat
  deriving DecidableEq, Repr

/-- Stage of the walk a branch is on (R175): none, ENUMs going out from `first`, walked and waiting for
reconciliation, waiting for orphan calls, training, or waiting for the RESTOREs of step 8. -/
inductive Walk where
  | none
  | asking (first : Nat)
  | walked (first : Nat)
  | orphans
  | training (t : Training)
  | applying
  deriving DecidableEq, Repr

/-- What the Bring-up Controller holds for a branch (R173). `orphans` and `restores` are the calls of R183 and
of step 8 that have not ended. -/
structure BringUp where
  phase      : Phase
  job        : Job
  request    : Option (Nat × EnumAnswer)
  found      : List (Nat × EnumAnswer)
  extent     : Nat
  overlength : Bool
  walk       : Walk
  orphans    : List SiteName
  restores   : List SiteName
  deriving DecidableEq, Repr

/-- The reset values of R173. -/
def BringUp.blank : BringUp := ⟨.loading, .none, none, [], 0, false, .none, [], []⟩

/-! ### The Record Store (chapter 10) -/

/-- A slot as it reads: erased or with more than one bit in error, or an image that reads clean or with one
bit corrected (R192). -/
inductive Slot (α : Type) where
  | erased
  | damaged
  | holds (image : α) (corrected : Bool)
  deriving DecidableEq, Repr

/-- A commissioned image (R191). -/
structure SiteImage where
  serial    : Nat
  plate     : Nameplate
  hostPlate : Bool
  block     : Block
  applied   : Nat
  irOffset  : Option IrOffset
  deriving DecidableEq, Repr

/-- The image of the section slot (R191). -/
structure SectionImage where
  config    : SectionConfig
  bootCount : Nat
  deriving DecidableEq, Repr

/-- A slot by its place in the order of R190: a site slot, or the section slot. -/
inductive SlotName where
  | site (site : SiteName)
  | section_
  deriving DecidableEq, Repr

/-- Outcome of a load report entry (R190). -/
inductive LoadOutcome where
  | corrected | lost | duplicate | writeFailed
  deriving DecidableEq, Repr

/-- The image being written to a slot (R194); `none` for a site slot is the empty image. -/
inductive WriteImage where
  | site (site : SiteName) (image : Option SiteImage)
  | section_ (image : SectionImage)
  deriving DecidableEq, Repr

/-- A running pass: the slot being written, whether this is the second write of it (R195), and whether the
pass is the one-slot write of step 3 (R193). -/
structure Pass where
  writing : WriteImage
  again   : Bool
  boot    : Bool
  deriving DecidableEq, Repr

/-- Step 3 of the start-up sequence (R175, R193): not waiting, waiting to be taken, or waiting with a SECTION CONFIG
taken since the reset. -/
inductive StepThree where
  | idle | waiting | configured
  deriving DecidableEq, Repr

/-- The Record Store (R190). The pass state is RUNNING while `pass` is present. -/
structure Store where
  siteSlots    : Vector (Slot (Option SiteImage)) 64
  sectionSlot  : Slot SectionImage
  sectionDirty : Bool
  stepThree    : StepThree
  pass         : Option Pass
  report       : List (SlotName × LoadOutcome)
  deriving DecidableEq, Repr

/-! ### The Host Port (chapter 11) -/

/-- The twelve event flags, in the order of R204. -/
inductive EventFlag where
  | sitesChanged | faultRaised | leasesChanged | timeChanged | lineBreak | draftDropped | persistDone
  | bringupDone | trainDone | discoverDone | relayDone | storeError
  deriving DecidableEq, Repr

/-- Status codes, in the order of R201. -/
inductive Status where
  | ok | accepted | busy | full | range | state | conflict | held | noTime | tooLate | unknown | starting
  | leaseActive | frameError | notReady
  deriving DecidableEq, Repr

/-- What SITE READ shows (R18, R143): the record as it stands, its derived fields, and the readings by the
Readings View. Ages are in whole seconds. -/
structure SiteAnswer where
  site           : SiteName
  record         : SiteRecord
  effectiveLimit : Option Nat
  refreshAge     : Option Nat
  pollAge        : Option Nat
  frozen         : Bool
  readings       : Option Readings
  snapTime       : Option Nat
  draft          : Option Bool
  deriving DecidableEq, Repr

/-- One entry of SITE LIST (R20); the draft is true while COMMITTING. -/
structure SiteEntry where
  state   : SiteState
  latched : Bool
  held    : Bool
  stray   : Bool
  draft   : Option Bool
  purpose : Option Purpose
  deriving DecidableEq, Repr

/-- What DRAFT READ shows (R35). -/
structure DraftAnswer where
  draft   : Draft
  idleAge : Nat
  deriving DecidableEq, Repr

/-- What LEASE READ shows (R93, R208): the entry's lease and up to 32 of its outcomes from an index. -/
structure LeaseAnswer where
  handle   : Handle
  lease    : Lease
  index    : Nat
  outcomes : List LeaseSite
  deriving DecidableEq, Repr

/-- A branch as SECTION READ shows it (R202); `none` where the strap did not select it. -/
structure BranchAnswer where
  phase      : Phase
  job        : Job
  request    : Bool
  brk        : Option Nat
  overlength : Bool
  deriving DecidableEq, Repr

/-- Reset cause (R197). -/
inductive ResetCause where
  | powerOn | brownOut | pin | soft
  deriving DecidableEq, Repr

/-- What SECTION READ shows (R202). -/
structure SectionAnswer where
  timeState  : TimeState
  count      : Option Nat
  holdover   : Option Nat
  setRequest : Option Nat
  lastSet    : Option SetOutcome
  branches   : Pair (Option BranchAnswer)
  strap      : Strap
  bootCount  : Nat
  cause      : ResetCause
  restarted  : Bool
  supplyLow  : Bool
  frozen     : Bool
  snapTime   : Option Nat
  persisting : Bool
  report     : List (SlotName × LoadOutcome)
  drafts     : Nat
  liveLeases : Nat
  relay      : RelayState
  relayHeld  : Bool
  config     : SectionConfig
  flags      : BitVec 12
  mask       : BitVec 12
  deriving DecidableEq, Repr

/-- Content of an answer's payload, by what the rules say it carries. -/
inductive Body where
  | empty
  | namesSite (site : SiteName)
  | namesHolder (site : SiteName) (holder : Option Handle)
  | namesField (field : Nat)
  | handle (handle : Handle)
  | site (answer : SiteAnswer)
  | found (site : SiteName) (state : SiteState) (asFound : Bool)
  | list (entries : List SiteEntry)
  | faults (latched present : BitVec 9)
  | count (n : Nat)
  | draft (answer : DraftAnswer)
  | lease (answer : LeaseAnswer)
  | snapped (time : Option Nat) (already : Bool)
  | unsnapped (released : Bool)
  | relay (result : RelayResult)
  | sectionState (answer : SectionAnswer)
  | changes (flags : BitVec 12) (sites : List (SiteName × Option SiteName)) (leases : List EntryNo)
  | mask (before flags : BitVec 12)
  deriving DecidableEq, Repr

/-- An answer frame before its bytes are laid out: echoed code and tag, status and payload (R207). -/
structure Answer where
  code   : Byte
  tag    : Tag
  status : Status
  body   : Body
  deriving DecidableEq, Repr

/-- The pending answer (R197, R198): ready; in preparation, with the request handed to its block; or built by
the block and not yet ready. -/
inductive PendingAnswer where
  | ready (answer : Answer)
  | serving (code : Byte) (tag : Tag) (request : Instr)
  | built (answer : Answer)
  deriving DecidableEq, Repr

/-- The exchange in progress: whether the pending answer was ready when it began, and the frame shifted out on
MISO (R198, R200). -/
structure Exchange where
  beganReady : Bool
  miso       : List Byte
  deriving DecidableEq, Repr

/-- The Host Port (R197). `shifted` is what the last exchange shifted out on MISO (R198). The site change set is kept in
pipeline order, the lease change set in ascending order. -/
structure HostPort where
  answer       : PendingAnswer
  exchange     : Option Exchange
  shifted      : List Byte
  flags        : BitVec 12
  mask         : BitVec 12
  siteChanges  : List (SiteName × Option SiteName)
  leaseChanges : List EntryNo
  cause        : ResetCause
  restarted    : Bool
  supplyLow    : Bool
  deriving DecidableEq, Repr

/-- The restart answer (R198). -/
def restartAnswer (code : Byte) (tag : Tag) : Answer := ⟨code, tag, .ok, .empty⟩

/-! ### The whole block -/

/-- The state of the block. -/
structure State where
  /-- The commands waiting, first in first out (assumption log 1). -/
  pending         : List Instr
  /-- Microseconds of internal timebase since the reset (R123; assumption log 2). -/
  timebase        : Nat
  /-- Levels at BRANCH1 and BRANCH0 as the last reset read them (R174; assumption log 5). -/
  pins            : StrapPins
  /-- The 64 site records (R1). -/
  sites           : Vector SiteRecord 64
  /-- Upkeep items of each site (R48). -/
  upkeep          : Vector Upkeep 64
  /-- REFRESH in flight on each branch (R48). -/
  refreshing      : Pair (Option SiteName)
  /-- The point of the timebase each site's attempt age counts from (R135). -/
  attemptFrom     : Vector (Option Nat) 64
  /-- Routine poll in flight on each branch (R135). -/
  polling         : Pair (Option SiteName)
  /-- Whether the Readings View is frozen (R135). -/
  frozen          : Bool
  /-- Snap time (R135). -/
  snapTime        : Option Nat
  /-- Frozen readings of each site name (R135). -/
  frozenReadings  : Vector (Option Readings) 64
  /-- The Draft Pool (R29). -/
  drafts          : List Draft
  /-- The 16 lease entries (R70). -/
  leases          : Vector LeaseEntry 16
  /-- The close order, oldest close first (R70). -/
  closeOrder      : List EntryNo
  /-- The Section Clock (R123). -/
  clock           : Clock
  /-- The two Line Controllers (R157). -/
  lines           : Pair Line
  /-- The relay transfer (R168). -/
  relay           : Relay
  /-- The latched strap (R173). -/
  strap           : Strap
  /-- What the Bring-up Controller holds for each branch (R173). -/
  bringup         : Pair BringUp
  /-- Bring-up done (R173). -/
  bringupDone     : Bool
  /-- The Record Store (R190). -/
  store           : Store
  /-- The boot count as shown (R193). -/
  bootCount       : Nat
  /-- The section configuration in force (R203). -/
  config          : SectionConfig
  /-- The Host Port (R197). -/
  host            : HostPort
  /-- The model's own counter that a fresh free value is drawn with (assumption log 7). -/
  freeIndex       : Nat
  deriving DecidableEq, Repr

/-- The defaults of R203. -/
def SectionConfig.default : SectionConfig := ⟨10, 30, 60, 3, true, 120, 15⟩

/-- The Host Port as a reset of a given cause leaves it (R148, R197, R198). An exchange in progress is dropped (assumption
log 44). -/
def HostPort.afterReset (cause : ResetCause) (supplyLow : Bool) (answer : Answer) : HostPort where
  answer := .ready answer
  exchange := none
  shifted := []
  flags := 0
  mask := 0
  siteChanges := []
  leaseChanges := []
  cause := cause
  restarted := true
  supplyLow := supplyLow

/-- A part that has never been written: every slot erased (assumption log 6). -/
def Store.blank : Store where
  siteSlots := Vector.replicate 64 .erased
  sectionSlot := .erased
  sectionDirty := false
  stepThree := .idle
  pass := none
  report := []

/-- The state right after a power-on reset, before step 1 of the start-up sequence: every item at the value
its chapter's "After every reset" gives (R28, R47, R48, R96, R123, R135, R157, R168, R173, R190, R197). -/
def State.reset : State where
  pending := []
  timebase := 0
  pins := ⟨false, false⟩
  sites := Vector.replicate 64 SiteRecord.blank
  upkeep := Vector.replicate 64 Upkeep.blank
  refreshing := ⟨none, none⟩
  attemptFrom := Vector.replicate 64 none
  polling := ⟨none, none⟩
  frozen := false
  snapTime := none
  frozenReadings := Vector.replicate 64 none
  drafts := []
  leases := Vector.replicate 16 ⟨0, none⟩
  closeOrder := []
  clock := Clock.blank
  lines := ⟨Line.blank, Line.blank⟩
  relay := ⟨.idle, none, none⟩
  strap := .both
  bringup := ⟨BringUp.blank, BringUp.blank⟩
  bringupDone := false
  store := Store.blank
  bootCount := 0
  config := SectionConfig.default
  host := HostPort.afterReset .powerOn false (restartAnswer 0 0)
  freeIndex := 0

/-- Reasons a command stops with a fault: the spec gives the block none, so the type has no constructor. -/
inductive Fault where
  deriving DecidableEq, Repr

/-- Reasons a command is refused. -/
inductive Refusal where
  /-- Raised by exec for a row of the table that has no meaning yet. Safe: nothing can be proved of its effect.
  No arm of exec raises it. -/
  | notModelled (mnemonic : String)
  deriving DecidableEq, Repr

end Sys2Proof.Machine
end

