-- ==== Sys2Proof/Machine/Names.lean ====
section
/-! DEFINITION. Site names, their order, branches, and the accessors of the per-site, per-entry and per-branch
tables. -/

namespace Sys2Proof.Machine

open Sys2Proof

/-! ### Site names and their orders -/

/-- The branch of a site name (00_scope, Site names and pipeline order). -/
def branchOf (n : SiteName) : Branch := if n.val < 32 then .west else .east

/-- The position of a site on its branch, 1 to 32 (R151). -/
def positionOf (n : SiteName) : Nat := n.val % 32 + 1

/-- The site at a position of a branch, for positions 1 to 32. -/
def siteAt? (b : Branch) (position : Nat) : Option SiteName :=
  if h : 1 ≤ position ∧ position ≤ 32 then
    match b with
    | .west => some ⟨position - 1, by omega⟩
    | .east => some ⟨position + 31, by omega⟩
  else none

/-- The one-byte encoding of a site: 01h to 40h (R201). -/
def siteCode (n : SiteName) : Nat := n.val + 1

/-- The site a code names, for codes 01h to 40h (R201). -/
def siteOfCode? (code : Nat) : Option SiteName :=
  if h : 1 ≤ code ∧ code ≤ 64 then some ⟨code - 1, by omega⟩ else none

/-- The branch a code names: 01h WEST, 02h EAST (R201). -/
def branchOfCode? (code : Nat) : Option Branch :=
  if code = 1 then some .west else if code = 2 then some .east else none

/-- All site names in site-name order (R190). -/
def siteNames : List SiteName := List.finRange 64

/-- All entries in ascending number. -/
def entryNames : List EntryNo := List.finRange 16

/-- Place of a site in pipeline order: W32 is 0, W1 is 31, E1 is 32, E32 is 63 (00_scope). -/
def pipelineIndex (n : SiteName) : Nat := if n.val < 32 then 31 - n.val else n.val

/-- The site at a place of the pipeline order; the order reverses the west half and keeps the east half. -/
def siteAtPipeline (i : Fin 64) : SiteName := if i.val < 32 then ⟨31 - i.val, by omega⟩ else i

/-- All site names in pipeline order. -/
def pipelineOrder : List SiteName := siteNames.map siteAtPipeline

/-- The sites of a span, in pipeline order, both ends included. -/
def spanSites (first last : SiteName) : List SiteName :=
  pipelineOrder.filter fun n =>
    decide (pipelineIndex first ≤ pipelineIndex n) && decide (pipelineIndex n ≤ pipelineIndex last)

/-- The sites of a branch in order of position, nearest the coordinator first. -/
def branchSites : Branch → List SiteName
  | .west => siteNames.take 32
  | .east => siteNames.drop 32

/-! ### Per-branch tables -/

/-- The item of one branch. -/
def Pair.get {α : Type} (p : Pair α) : Branch → α
  | .west => p.west
  | .east => p.east

/-- A pair with the item of one branch replaced. -/
def Pair.put {α : Type} (p : Pair α) (b : Branch) (x : α) : Pair α :=
  match b with
  | .west => { p with west := x }
  | .east => { p with east := x }

/-- Whether the strap selects a branch (R174). -/
def Strap.selects : Strap → Branch → Bool
  | .both, _ => true
  | .west, b => b == .west
  | .east, b => b == .east

/-- The strap the two inputs give (R174). -/
def strapOf (pins : StrapPins) : Strap :=
  match pins.branch1, pins.branch0 with
  | false, true => .west
  | true, false => .east
  | _, _ => .both

/-- The branches the strap selects, west first. -/
def Strap.branches (s : Strap) : List Branch := [Branch.west, Branch.east].filter s.selects

/-! ### Accessors of State -/

/-- The record of a site. -/
def State.site (s : State) (n : SiteName) : SiteRecord := s.sites.get n

/-- Writes a record as it is given, with none of the Site Table's own bookkeeping. -/
def State.setSite (s : State) (n : SiteName) (r : SiteRecord) : State :=
  { s with sites := s.sites.set n.val r n.isLt }

/-- The upkeep items of a site. -/
def State.upkeepOf (s : State) (n : SiteName) : Upkeep := s.upkeep.get n

/-- Writes the upkeep items of a site. -/
def State.setUpkeep (s : State) (n : SiteName) (u : Upkeep) : State :=
  { s with upkeep := s.upkeep.set n.val u n.isLt }

/-- The point the attempt age of a site counts from. -/
def State.attemptOf (s : State) (n : SiteName) : Option Nat := s.attemptFrom.get n

/-- Writes the point the attempt age of a site counts from. -/
def State.setAttempt (s : State) (n : SiteName) (t : Option Nat) : State :=
  { s with attemptFrom := s.attemptFrom.set n.val t n.isLt }

/-- Frozen readings of a site name. -/
def State.frozenOf (s : State) (n : SiteName) : Option Readings := s.frozenReadings.get n

/-- Writes the frozen readings of a site name. -/
def State.setFrozen (s : State) (n : SiteName) (r : Option Readings) : State :=
  { s with frozenReadings := s.frozenReadings.set n.val r n.isLt }

/-- A lease entry. -/
def State.entry (s : State) (e : EntryNo) : LeaseEntry := s.leases.get e

/-- Writes a lease entry. -/
def State.setEntry (s : State) (e : EntryNo) (x : LeaseEntry) : State :=
  { s with leases := s.leases.set e.val x e.isLt }

/-- The lease in an entry, where it is not FREE. -/
def State.leaseOf (s : State) (e : EntryNo) : Option Lease := (s.entry e).lease

/-- Writes the lease of an entry and keeps its generation. -/
def State.setLease (s : State) (e : EntryNo) (l : Lease) : State :=
  s.setEntry e { s.entry e with lease := some l }

/-- The present handle of an entry (R71). -/
def State.handleOf (s : State) (e : EntryNo) : Handle := ⟨e, (s.entry e).generation⟩

/-- The Line Controller of a branch. -/
def State.line (s : State) (b : Branch) : Line := s.lines.get b

/-- Writes the Line Controller of a branch. -/
def State.setLine (s : State) (b : Branch) (l : Line) : State := { s with lines := s.lines.put b l }

/-- What the Bring-up Controller holds for a branch. -/
def State.bring (s : State) (b : Branch) : BringUp := s.bringup.get b

/-- Writes what the Bring-up Controller holds for a branch. -/
def State.setBring (s : State) (b : Branch) (x : BringUp) : State := { s with bringup := s.bringup.put b x }

/-- The section clock with one change. -/
def State.setClock (s : State) (c : Clock) : State := { s with clock := c }

/-- The timebase moved to the moment of an event; a moment that has passed is taken as now (assumption
log 2). -/
def State.atMoment (s : State) (moment : Nat) : State := { s with timebase := max s.timebase moment }

/-- Whole seconds of timebase since a point of it (R7, R33, R135). -/
def State.ageFrom (s : State) (point : Nat) : Nat := (s.timebase - point) / microsPerSecond

/-- Section time, where it is known: "Now" of the conventions (00_scope). -/
def State.now (s : State) : Option Nat := s.clock.count

/-- Section time for a comparison. Absent time compares as second 0; the rules that compare are reached only
with time known. -/
def State.nowD (s : State) : Nat := s.clock.count.getD 0

/-- Section time in tenths of a second, by the count and the timebase elapsed since the second instant (R101). -/
def State.nowTenths (s : State) : Nat :=
  s.nowD * 10 + (s.timebase - s.clock.instant.getD s.timebase) / 100000

/-- A site's name resolved as R1 checks it: one of the 64, on a branch the strap selected. -/
def State.strapped? (s : State) (code : Nat) : Option SiteName :=
  match siteOfCode? code with
  | some n => if s.strap.selects (branchOf n) then some n else none
  | none => none

/-- A branch resolved as R185 checks it: WEST or EAST, selected by the strap. -/
def State.strappedBranch? (s : State) (code : Nat) : Option Branch :=
  match branchOfCode? code with
  | some b => if s.strap.selects b then some b else none
  | none => none

end Sys2Proof.Machine
end

