-- ==== Sys2Proof/Machine/Flags.lean ====
section
/-! DEFINITION. Event flags and ATTN, the two change sets, and the fault set with its latch rule. -/

namespace Sys2Proof.Machine

open Sys2Proof

/-! ### Event flags (R204) -/

/-- The bit of a flag (R204). -/
def EventFlag.bit : EventFlag → Nat
  | .sitesChanged => 0
  | .faultRaised => 1
  | .leasesChanged => 2
  | .timeChanged => 3
  | .lineBreak => 4
  | .draftDropped => 5
  | .persistDone => 6
  | .bringupDone => 7
  | .trainDone => 8
  | .discoverDone => 9
  | .relayDone => 10
  | .storeError => 11

/-- The mask with a flag's one bit. -/
def EventFlag.mask (f : EventFlag) : BitVec 12 := 1#12 <<< f.bit

/-- Whether a flag is set. -/
def State.flagSet (s : State) (f : EventFlag) : Bool := s.host.flags.getLsbD f.bit

/-- Raises a flag; one that is set stays set (R204). -/
def State.raise (s : State) (f : EventFlag) : State :=
  { s with host := { s.host with flags := s.host.flags ||| f.mask } }

/-- ATTN is asserted while some flag is set and enabled (R204). -/
def State.attnAsserted (s : State) : Bool := (s.host.flags &&& s.host.mask) != 0

/-! ### Change sets (R205) -/

/-- A name joins the set at its place in pipeline order; one already in it is not added twice, and a marker
given names the latest source (R205). -/
def insertSite (n : SiteName) (marker : Option SiteName) :
    List (SiteName × Option SiteName) → List (SiteName × Option SiteName)
  | [] => [(n, marker)]
  | (m, old) :: rest =>
    if m = n then (m, marker.or old) :: rest
    else if pipelineIndex n < pipelineIndex m then (n, marker) :: (m, old) :: rest
    else (m, old) :: insertSite n marker rest

/-- An entry number joins the set in ascending order, once (R205). -/
def insertEntry (e : EntryNo) : List EntryNo → List EntryNo
  | [] => [e]
  | f :: rest => if f = e then f :: rest else if e < f then e :: f :: rest else f :: insertEntry e rest

/-- A site joins the site change set and SITES_CHANGED is raised. -/
def State.siteChanged (s : State) (n : SiteName) : State :=
  { s with host := { s.host with
      siteChanges := insertSite n none s.host.siteChanges
      flags := s.host.flags ||| EventFlag.sitesChanged.mask } }

/-- A moved site joins with the SITE_MOVED marker naming its source (R181, R205). -/
def State.siteMoved (s : State) (n source : SiteName) : State :=
  { s with host := { s.host with
      siteChanges := insertSite n (some source) s.host.siteChanges
      flags := s.host.flags ||| EventFlag.sitesChanged.mask } }

/-- An entry joins the lease change set and LEASES_CHANGED is raised (R95). -/
def State.leaseChanged (s : State) (e : EntryNo) : State :=
  { s with host := { s.host with
      leaseChanges := insertEntry e s.host.leaseChanges
      flags := s.host.flags ||| EventFlag.leasesChanged.mask } }

/-- Whether a site is in the site change set. -/
def State.inSiteChanges (s : State) (n : SiteName) : Bool := s.host.siteChanges.any fun p => p.1 == n

/-- Whether an entry is in the lease change set. -/
def State.inLeaseChanges (s : State) (e : EntryNo) : Bool := s.host.leaseChanges.contains e

/-! ### The fault set (R11) -/

/-- The bit of a fault kind, in the order of R11 (R207). -/
def FaultKind.bit : FaultKind → Nat
  | .overcurrent => 0
  | .acLost => 1
  | .setpointMismatch => 2
  | .underProtected => 3
  | .overProtected => 4
  | .nodeRestarted => 5
  | .limitClamped => 6
  | .orphanCycle => 7
  | .linkLost => 8

/-- The mask with a kind's one bit. -/
def FaultKind.mask (k : FaultKind) : BitVec 9 := 1#9 <<< k.bit

/-- Whether a fault is latched. -/
def FaultSet.isLatched (f : FaultSet) (k : FaultKind) : Bool := f.latched.getLsbD k.bit

/-- Whether a fault's condition is present. -/
def FaultSet.isPresent (f : FaultSet) (k : FaultKind) : Bool := f.present.getLsbD k.bit

/-- The set with a fault latched. -/
def FaultSet.latch (f : FaultSet) (k : FaultKind) : FaultSet := { f with latched := f.latched ||| k.mask }

/-- The set with a condition present or not. -/
def FaultSet.setPresent (f : FaultSet) (k : FaultKind) (p : Bool) : FaultSet :=
  { f with present := if p then f.present ||| k.mask else f.present &&& ~~~k.mask }

/-- Entry into DISCOVERED ends four conditions and keeps the latches (R11). -/
def FaultSet.onDiscovered (f : FaultSet) : FaultSet :=
  { f with present := f.present &&& ~~~(FaultKind.setpointMismatch.mask ||| FaultKind.underProtected.mask
      ||| FaultKind.overProtected.mask ||| FaultKind.limitClamped.mask) }

/-- CLEAR FAULTS clears each selected latch whose condition is not present (R147). -/
def FaultSet.clear (f : FaultSet) (selection : BitVec 9) : FaultSet :=
  { f with latched := f.latched &&& ~~~(selection &&& ~~~f.present) }

/-- Latches a fault on a site: the site joins the change set and FAULT_RAISED and SITES_CHANGED are raised. A
fault that is already latched is latched again with no new effect (R11). -/
def State.latchFault (s : State) (n : SiteName) (k : FaultKind) : State :=
  let r := s.site n
  if r.faults.isLatched k then s
  else ((s.setSite n { r with faults := r.faults.latch k }).siteChanged n).raise .faultRaised

/-- Sets a condition of a site. A condition that goes from not present to present latches its fault (R11). -/
def State.setCondition (s : State) (n : SiteName) (k : FaultKind) (p : Bool) : State :=
  let r := s.site n
  let s' := s.setSite n { r with faults := r.faults.setPresent k p }
  if p && !r.faults.isPresent k then s'.latchFault n k else s'

/-- Whether some record holds a latched fault. -/
def State.anyLatched (s : State) : Bool := siteNames.any fun n => (s.site n).faults.latched != 0

/-- The FAULT line is released exactly when some record holds a latched fault or RESTARTED or SUPPLY_LOW is set;
otherwise the part drives it low (R149). -/
def State.faultReleased (s : State) : Bool := s.anyLatched || s.host.restarted || s.host.supplyLow

end Sys2Proof.Machine
end

