-- ==== Sys2Proof/Machine/Frames.lean ====
section
/-! DEFINITION. Frames of the section line (R154, R156): the CRC, the packing of fields, the call frames the
part sends, and how a frame that arrives up a branch reads. -/

namespace Sys2Proof.Machine

open Sys2Proof

/-! ### The CRC and the packing of fields (R156) -/

/-- One bit of the CRC-16 of generator 1021h, most significant bit first. -/
def crcBit (c : BitVec 16) : BitVec 16 := if c.msb then (c <<< 1) ^^^ 0x1021#16 else c <<< 1

/-- One byte of the CRC-16. -/
def crcByte (c : BitVec 16) (b : Byte) : BitVec 16 :=
  crcBit (crcBit (crcBit (crcBit (crcBit (crcBit (crcBit (crcBit (c ^^^ (b.zeroExtend 16 <<< 8)))))))))

/-- CRC-16 with initial value FFFFh over a list of bytes (R156). -/
def crc16 (bytes : List Byte) : BitVec 16 := bytes.foldl crcByte 0xFFFF#16

/-- A number in n bytes, most significant byte first. -/
def packNat : Nat → Nat → List Byte
  | 0, _ => []
  | n + 1, v => BitVec.ofNat 8 (v >>> (8 * n)) :: packNat n v

/-- A signed number in two bytes, two's complement. -/
def packInt (v : Int) : List Byte := packNat 2 (BitVec.ofInt 16 v).toNat

/-- A flag in one byte: 01h for on, yes or set. -/
def packBool (b : Bool) : List Byte := packNat 1 (if b then 1 else 0)

/-- An optional field, left out where absent. -/
def packOpt {α : Type} (f : α → List Byte) : Option α → List Byte
  | some x => f x
  | none => []

/-- Presence bits: bit 0 for the first optional field (R156, R207), in n bytes as one number, high byte first (assumption
log 10). -/
def packPresence (n : Nat) (present : List Bool) : List Byte :=
  packNat n (present.foldr (fun b acc => 2 * acc + if b then 1 else 0) 0)

/-- Bytes closed by their CRC-16, high byte first. -/
def closed (bytes : List Byte) : List Byte := bytes ++ packNat 2 (crc16 bytes).toNat

/-- Whether a list of bytes ends in the CRC-16 of what stands before it. -/
def crcGood (bytes : List Byte) : Bool :=
  decide (2 ≤ bytes.length) &&
    bytes.drop (bytes.length - 2) == packNat 2 (crc16 (bytes.take (bytes.length - 2))).toNat

/-- Reads a number of n bytes, most significant byte first. -/
def readNat : Nat → List Byte → Option (Nat × List Byte)
  | 0, rest => some (0, rest)
  | _ + 1, [] => none
  | n + 1, b :: rest =>
    match readNat n rest with
    | some (v, rest') => some (b.toNat * 256 ^ n + v, rest')
    | none => none

/-- Reads a signed number of two bytes. -/
def readInt (bytes : List Byte) : Option (Int × List Byte) :=
  match readNat 2 bytes with
  | some (v, rest) => some ((BitVec.ofNat 16 v).toInt, rest)
  | none => none

/-- Reads a flag: 00h or 01h. -/
def readBool (bytes : List Byte) : Option (Bool × List Byte) :=
  match readNat 1 bytes with
  | some (0, rest) => some (false, rest)
  | some (1, rest) => some (true, rest)
  | _ => none

/-- Reads an optional field that its presence bit says is there. -/
def readOpt {α : Type} (present : Bool) (f : List Byte → Option (α × List Byte)) (bytes : List Byte) :
    Option (Option α × List Byte) :=
  if present then
    match f bytes with
    | some (x, rest) => some (some x, rest)
    | none => none
  else some (none, bytes)

/-! ### Encodings of the enumerated fields (R156) -/

/-- Node modes. -/
def NodeMode.code : NodeMode → Nat
  | .attended => 0 | .standalone => 1 | .fresh => 2

/-- The node mode a byte names. -/
def nodeModeOf? : Nat → Option NodeMode
  | 0 => some .attended | 1 => some .standalone | 2 => some .fresh | _ => none

/-- Set-point modes. -/
def SetMode.code : SetMode → Nat
  | .current => 0 | .trimmed => 1 | .voltage => 2

/-- The set-point mode a byte names. -/
def setModeOf? : Nat → Option SetMode
  | 0 => some .current | 1 => some .trimmed | 2 => some .voltage | _ => none

/-- The cycle state a byte names. -/
def cycleStateOf? : Nat → Option CycleState
  | 0 => some .none | 1 => some .armed | 2 => some .running | _ => none

/-- Cycle states. -/
def CycleState.code : CycleState → Nat
  | .none => 0 | .armed => 1 | .running => 2

/-- Refusal reasons. -/
def Reason.code : Reason → Nat
  | .fresh => 1 | .occupied => 2 | .notCycling => 3 | .badTime => 4 | .range => 5

/-- The refusal reason a status byte names. -/
def reasonOf? : Nat → Option Reason
  | 1 => some .fresh | 2 => some .occupied | 3 => some .notCycling | 4 => some .badTime | 5 => some .range
  | _ => none

/-- Reads an enumerated field of one byte. -/
def readEnum {α : Type} (f : Nat → Option α) (bytes : List Byte) : Option (α × List Byte) :=
  match readNat 1 bytes with
  | some (v, rest) =>
    match f v with
    | some x => some (x, rest)
    | none => none
  | none => none

/-! ### Calls (R154, R156) -/

/-- The eleven block fields in the order of R31, with the widths of R156. -/
def packBlock (b : Block) : List Byte :=
  packNat 1 b.mode.code ++ packNat 2 b.targetCurrent ++ packNat 2 b.targetVoltage ++ packNat 2 b.currentLimit
    ++ packNat 2 b.voltageLimit ++ packNat 2 b.trimFloor ++ packNat 2 b.trimCeiling ++ packNat 1 b.trimStep
    ++ packInt b.protectLimit ++ packInt b.overprotectLimit ++ packNat 1 b.windowCount

/-- A pattern: ON time, OFF time and off-read delay. -/
def packPattern (p : Pattern) : List Byte :=
  packNat 2 p.onTime ++ packNat 2 p.offTime ++ packNat 2 p.offRead

/-- Before-actions. -/
def relayBeforeCode : RelayBefore → Nat
  | .none => 0 | .start => 1 | .restart => 2

/-- The before-action a byte names. -/
def relayBeforeOf? : Nat → Option RelayBefore
  | 0 => some .none | 1 => some .start | 2 => some .restart | _ => none

/-- After-actions. -/
def relayAfterCode : RelayAfter → Nat
  | .ack => 0 | .nack => 1 | .nackStop => 2 | .stop => 3

/-- The after-action a byte names. -/
def relayAfterOf? : Nat → Option RelayAfter
  | 0 => some .ack | 1 => some .nack | 2 => some .nackStop | 3 => some .stop | _ => none

/-- A relay slot: direction, the data byte of a WRITE, before-action, after-action (assumption log 10). -/
def packSlot (s : RelaySlot) : List Byte :=
  (match s.direction with
    | .write d => [0#8, d]
    | .read => [1#8]) ++ packNat 1 (relayBeforeCode s.before) ++ packNat 1 (relayAfterCode s.after)

/-- The kind byte of a call (R156). -/
def Call.kind : Call → Nat
  | .enum => 1
  | .echo => 2
  | .apply .. => 3
  | .refresh .. => 4
  | .poll => 5
  | .arm .. => 6
  | .disarm => 7
  | .stop => 8
  | .extend _ => 9
  | .repattern .. => 10
  | .check => 11
  | .release => 12
  | .relay _ => 13

/-- The payload of a call: the fields of R154 in table order. The slots of a RELAY follow a byte with their number
(assumption log 35). -/
def Call.payload : Call → List Byte
  | .apply block applied lineDelay hold =>
    packPresence 1 [lineDelay.isSome] ++ packBlock block ++ packNat 2 applied ++ packOpt (packNat 2) lineDelay
      ++ packNat 1 hold
  | .refresh applied lineDelay hold =>
    packPresence 1 [lineDelay.isSome] ++ packNat 2 applied ++ packOpt (packNat 2) lineDelay ++ packNat 1 hold
  | .arm pattern from_ upTo => packPattern pattern ++ packNat 4 from_ ++ packNat 4 upTo
  | .extend newEnd => packNat 4 newEnd
  | .repattern pattern boundary =>
    packPattern pattern ++ packNat 4 (boundary / 10) ++ packNat 1 (boundary % 10)
  | .relay slots => packNat 1 slots.length ++ slots.flatMap packSlot
  | .enum | .echo | .poll | .disarm | .stop | .check | .release => []

/-- A call frame of R156: kind, hop count, payload length, payload, CRC-16. -/
def callFrame (kind hop : Nat) (payload : List Byte) : List Byte :=
  closed (packNat 1 kind ++ packNat 1 hop ++ packNat 1 payload.length ++ payload)

/-- The frame of an addressed call; the hop count is the destination's position (R152, R158). -/
def Call.frame (c : Call) (dest : Nat) : List Byte := callFrame c.kind dest c.payload

/-- The frame of a SYNC: hop count 0, its seconds and its age in microseconds (R133, R156). -/
def Sync.frame (y : Sync) (age : Nat) : List Byte :=
  callFrame 14 0 (packNat 4 y.seconds ++ packNat 4 age)

/-! ### Answers (R154, R156) -/

/-- DONE payload of an APPLY (R154). -/
structure ApplyAnswer where
  serial : Nat
  plate  : Nameplate
  mode   : NodeMode
  echo   : Nat
  deriving DecidableEq, Repr

/-- DONE payload of a POLL (R138). -/
structure PollAnswer where
  serial        : Nat
  plate         : Nameplate
  mode          : NodeMode
  cycle         : CycleState
  cycleEnd      : Option Nat
  echo          : Nat
  outputCurrent : Nat
  outputVoltage : Nat
  on            : Option Int
  instantOff    : Option (Int × Nat)
  overcurrent   : Bool
  mainsLost     : Bool
  deriving DecidableEq, Repr

/-- DONE payloads by the call they answer (R154). -/
inductive DonePayload where
  | plain
  | enum (a : EnumAnswer)
  | apply (a : ApplyAnswer)
  | refresh (mode : NodeMode) (echo : Nat)
  | poll (a : PollAnswer)
  | check (cycle : CycleState) (cycleEnd : Option Nat)
  | relay (slots : List SlotOutcome)
  deriving DecidableEq, Repr

/-- How a transaction ends (R158, R159, R162). -/
inductive End where
  | done (payload : DonePayload)
  | refused (reason : Reason)
  | failure
  | brk (position : Nat)
  deriving DecidableEq, Repr

/-- A frame that has arrived, before it is judged against the transaction: a bad CRC, one of the three answer
kinds, or any other frame. -/
inductive LineFrame where
  | bad
  | done (source : Nat) (payload : List Byte)
  | refused (source : Nat) (reason : Reason)
  | brk (source : Nat)
  | other
  deriving DecidableEq, Repr

/-- Reads an answer frame of R156. A byte count that disagrees with the payload length fails the CRC check. A DONE or BREAK
frame with a status other than 00h, and a REFUSED one whose status names no reason, are frames of no meaning, and the
payload of a REFUSED or BREAK frame is not looked at (assumption log 46). -/
def readAnswerFrame (bytes : List Byte) : LineFrame :=
  match bytes with
  | kind :: source :: status :: len :: rest =>
    if rest.length != len.toNat + 2 || !crcGood bytes then .bad
    else if kind == 0x80#8 && status == 0#8 then .done source.toNat (rest.take len.toNat)
    else if kind == 0x81#8 then
      match reasonOf? status.toNat with
      | some r => .refused source.toNat r
      | none => .other
    else if kind == 0x82#8 && status == 0#8 then .brk source.toNat
    else .other
  | _ => .bad

/-- The bit of a presence byte; a bit that stands for no field is not looked at (assumption log 16). -/
def presenceBit (presence i : Nat) : Bool := presence.testBit i

/-- Reads a nameplate: rated current and rated voltage. -/
def readPlate (bytes : List Byte) : Option (Nameplate × List Byte) := do
  let (current, r) ← readNat 2 bytes
  let (voltage, r) ← readNat 2 r
  return (⟨current, voltage⟩, r)

/-- Reads the DONE payload of an ENUM. -/
def readEnumAnswer (bytes : List Byte) : Option (EnumAnswer × List Byte) := do
  let (presence, r) ← readNat 1 bytes
  let (serial, r) ← readNat 4 r
  let (plate, r) ← readPlate r
  let (mode, r) ← readEnum nodeModeOf? r
  let (cycle, r) ← readEnum cycleStateOf? r
  let (cycleEnd, r) ← readOpt (presenceBit presence 0) (readNat 4) r
  let (endFlag, r) ← readBool r
  return (⟨serial, plate, mode, cycle, cycleEnd, endFlag⟩, r)

/-- Reads the DONE payload of an APPLY. -/
def readApplyAnswer (bytes : List Byte) : Option (ApplyAnswer × List Byte) := do
  let (serial, r) ← readNat 4 bytes
  let (plate, r) ← readPlate r
  let (mode, r) ← readEnum nodeModeOf? r
  let (echo, r) ← readNat 2 r
  return (⟨serial, plate, mode, echo⟩, r)

/-- Reads an instant-OFF potential with its cycle number. -/
def readInstantOff (bytes : List Byte) : Option ((Int × Nat) × List Byte) := do
  let (off, r) ← readInt bytes
  let (number, r) ← readNat 2 r
  return ((off, number), r)

/-- Reads the DONE payload of a POLL, in the order of R138. -/
def readPollAnswer (bytes : List Byte) : Option (PollAnswer × List Byte) := do
  let (presence, r) ← readNat 1 bytes
  let (serial, r) ← readNat 4 r
  let (plate, r) ← readPlate r
  let (mode, r) ← readEnum nodeModeOf? r
  let (cycle, r) ← readEnum cycleStateOf? r
  let (cycleEnd, r) ← readOpt (presenceBit presence 0) (readNat 4) r
  let (echo, r) ← readNat 2 r
  let (outputCurrent, r) ← readNat 2 r
  let (outputVoltage, r) ← readNat 2 r
  let (on, r) ← readOpt (presenceBit presence 1) readInt r
  let (instantOff, r) ← readOpt (presenceBit presence 2) readInstantOff r
  let (overcurrent, r) ← readBool r
  let (mainsLost, r) ← readBool r
  return (⟨serial, plate, mode, cycle, cycleEnd, echo, outputCurrent, outputVoltage, on, instantOff, overcurrent,
    mainsLost⟩, r)

/-- Reads a slot's outcome with the byte read where its presence bit says so (R169, R207). -/
def readSlotOutcome (present : Bool) (bytes : List Byte) : Option (SlotOutcome × List Byte) := do
  let (code, r) ← readNat 1 bytes
  let (byte, r) ← readOpt present (readNat 1) r
  let byte := byte.map (BitVec.ofNat 8)
  match code with
  | 0 => return (.acked byte, r)
  | 1 => return (.nacked byte, r)
  | 2 => return (.notSent, r)
  | _ => none

/-- Reads the outcomes of a number of slots, bit i of the presence byte being for the byte read of slot i, whatever its
direction (assumption log 35). -/
def readSlots (presence : Nat) : Nat → Nat → List Byte → Option (List SlotOutcome × List Byte)
  | _, 0, bytes => some ([], bytes)
  | i, n + 1, bytes => do
    let (o, r) ← readSlotOutcome (presenceBit presence i) bytes
    let (os, r) ← readSlots presence (i + 1) n r
    return (o :: os, r)

/-- A value read from the whole of a payload. -/
def whole {α : Type} : Option (α × List Byte) → Option α
  | some (x, []) => some x
  | _ => none

/-- The DONE payload a call's layout gives (R154); `none` where the bytes do not fit it (assumption log 11). -/
def Call.readDone (c : Call) (payload : List Byte) : Option DonePayload :=
  match c with
  | .enum => (whole (readEnumAnswer payload)).map .enum
  | .apply .. => (whole (readApplyAnswer payload)).map .apply
  | .refresh .. =>
    whole do
      let (mode, r) ← readEnum nodeModeOf? payload
      let (told, r) ← readNat 2 r
      return (.refresh mode told, r)
  | .poll => (whole (readPollAnswer payload)).map .poll
  | .check =>
    whole do
      let (presence, r) ← readNat 1 payload
      let (cycle, r) ← readEnum cycleStateOf? r
      let (cycleEnd, r) ← readOpt (presenceBit presence 0) (readNat 4) r
      return (.check cycle cycleEnd, r)
  | .relay slots =>
    whole do
      let (presence, r) ← readNat 1 payload
      let (outcomes, r) ← readSlots presence 0 slots.length r
      return (.relay outcomes, r)
  | .echo | .arm .. | .disarm | .stop | .extend _ | .repattern .. | .release =>
    if payload.isEmpty then some .plain else none

/-- The DONE payload a node sends, laid out by R154; the inverse of `Call.readDone`. -/
def DonePayload.bytes : DonePayload → List Byte
  | .plain => []
  | .enum a =>
    packPresence 1 [a.cycleEnd.isSome] ++ packNat 4 a.serial ++ packNat 2 a.plate.current
      ++ packNat 2 a.plate.voltage ++ packNat 1 a.mode.code ++ packNat 1 a.cycle.code
      ++ packOpt (packNat 4) a.cycleEnd ++ packBool a.endFlag
  | .apply a =>
    packNat 4 a.serial ++ packNat 2 a.plate.current ++ packNat 2 a.plate.voltage ++ packNat 1 a.mode.code
      ++ packNat 2 a.echo
  | .refresh mode echo => packNat 1 mode.code ++ packNat 2 echo
  | .poll a =>
    packPresence 1 [a.cycleEnd.isSome, a.on.isSome, a.instantOff.isSome] ++ packNat 4 a.serial
      ++ packNat 2 a.plate.current ++ packNat 2 a.plate.voltage ++ packNat 1 a.mode.code ++ packNat 1 a.cycle.code
      ++ packOpt (packNat 4) a.cycleEnd ++ packNat 2 a.echo ++ packNat 2 a.outputCurrent
      ++ packNat 2 a.outputVoltage ++ packOpt packInt a.on
      ++ packOpt (fun p : Int × Nat => packInt p.1 ++ packNat 2 p.2) a.instantOff ++ packBool a.overcurrent
      ++ packBool a.mainsLost
  | .check cycle cycleEnd =>
    packPresence 1 [cycleEnd.isSome] ++ packNat 1 cycle.code ++ packOpt (packNat 4) cycleEnd
  | .relay slots =>
    packPresence 1 (slots.map fun o =>
        match o with
        | .acked b => b.isSome
        | .nacked b => b.isSome
        | .notSent => false)
      ++ slots.flatMap fun o =>
        match o with
        | .acked b => 0#8 :: packOpt (fun x => [x]) b
        | .nacked b => 1#8 :: packOpt (fun x => [x]) b
        | .notSent => [2#8]

/-- An answer frame of R156 with a good CRC. -/
def answerBytes (kind source status : Nat) (payload : List Byte) : List Byte :=
  closed (packNat 1 kind ++ packNat 1 source ++ packNat 1 status ++ packNat 1 payload.length ++ payload)

/-- A DONE frame. -/
def doneFrame (source : Nat) (payload : DonePayload) : List Byte := answerBytes 0x80 source 0 payload.bytes

/-- A REFUSED frame. -/
def refusedFrame (source : Nat) (reason : Reason) : List Byte := answerBytes 0x81 source reason.code []

/-- A BREAK frame. -/
def breakFrame (source : Nat) : List Byte := answerBytes 0x82 source 0 []

end Sys2Proof.Machine
end

