-- ==== Sys2Proof/Machine/Operands.lean ====
section
/-! DEFINITION. Operands of the host requests: the request catalogue of R201 and the reading and laying out of
request payloads by the encodings of R156, R201 and R207 (assumption log 10). -/

namespace Sys2Proof.Machine

open Sys2Proof

/-- The request code of a command of the catalogue (R201). -/
def requestCode? : Instr → Option Nat
  | .nop => some 0x00
  | .siteRead .. => some 0x01
  | .siteFind .. => some 0x02
  | .siteList .. => some 0x03
  | .retire .. => some 0x04
  | .adopt .. => some 0x05
  | .clearFaults .. => some 0x06
  | .draftOpen .. => some 0x10
  | .draftSet .. => some 0x11
  | .draftRead .. => some 0x12
  | .draftCommit .. => some 0x13
  | .draftDiscard .. => some 0x14
  | .leaseRequest .. => some 0x20
  | .leaseRead .. => some 0x21
  | .leaseExtend .. => some 0x22
  | .leaseRepattern .. => some 0x23
  | .leaseRelease .. => some 0x24
  | .leaseDismiss .. => some 0x25
  | .snap .. => some 0x30
  | .unsnap .. => some 0x31
  | .timeSet .. => some 0x32
  | .discover .. => some 0x40
  | .train .. => some 0x41
  | .persist .. => some 0x42
  | .relay .. => some 0x43
  | .relayResult .. => some 0x44
  | .sectionRead .. => some 0x50
  | .sectionConfig .. => some 0x51
  | .changes .. => some 0x52
  | .eventMask .. => some 0x53
  | .sectionReset .. => some 0x54
  | .powerOnReset .. | .pinReset .. | .exchangeStart .. | .exchangeEnd .. | .answerReady | .ppsEdge ..
  | .ppsExpiry .. | .timebaseSecond .. | .holdoverExpiry | .syncExpiry .. | .strayTimeExpiry .. | .arbiterGrant ..
  | .syncSent .. | .answerFrame .. | .replyTimeout .. | .draftExpiry .. | .leaseArming .. | .armDeadline ..
  | .leaseStart .. | .cycleEnd .. | .extendDeadline .. | .repatternDeadline .. | .windowEnd .. | .probeDue ..
  | .heldItemPlaced .. | .partialDiscovery .. | .slotWriteDone .. => none

/-- The code byte a request's answer echoes; commands outside the catalogue have none. -/
def codeByte (i : Instr) : Byte := BitVec.ofNat 8 ((requestCode? i).getD 0)

/-- Strictness codes, by their place in R70. -/
def strictnessCode : Strictness → Nat
  | .strict => 0 | .lenient => 1

/-- The strictness a byte names. -/
def strictnessOf? : Nat → Option Strictness
  | 0 => some .strict | 1 => some .lenient | _ => none

/-- Reads a pattern. -/
def readPattern (bytes : List Byte) : Option (Pattern × List Byte) := do
  let (onTime, r) ← readNat 2 bytes
  let (offTime, r) ← readNat 2 r
  let (offRead, r) ← readNat 2 r
  return (⟨onTime, offTime, offRead⟩, r)

/-- Reads a handle: entry number and generation. -/
def readHandle (bytes : List Byte) : Option (HandleArgs × List Byte) := do
  let (entry, r) ← readNat 1 bytes
  let (generation, r) ← readNat 1 r
  return (⟨entry, generation⟩, r)

/-- Reads the value of a draft field in its form (R31, R156). What follows a code that names no field is not
read, since check 5 of R34 refuses the request before its value is looked at. -/
def readFieldValue (field : Nat) (bytes : List Byte) : Option (Int × List Byte) :=
  match fieldForm? field with
  | some .one => (readNat 1 bytes).map fun p => ((p.1 : Int), p.2)
  | some .two => (readNat 2 bytes).map fun p => ((p.1 : Int), p.2)
  | some .signed => readInt bytes
  | none => some (0, [])

/-- Lays out the value of a draft field. -/
def packFieldValue (field : Nat) (v : Int) : List Byte :=
  match fieldForm? field with
  | some .one => packNat 1 v.toNat
  | some .two => packNat 2 v.toNat
  | some .signed => packInt v
  | none => []

/-- Reads the direction of a relay slot: WRITE with its data byte, or READ. -/
def readDirection (bytes : List Byte) : Option (RelayDirection × List Byte) :=
  match readNat 1 bytes with
  | some (0, d :: rest) => some (.write d, rest)
  | some (1, rest) => some (.read, rest)
  | _ => none

/-- Reads a relay slot. -/
def readRelaySlot (bytes : List Byte) : Option (RelaySlot × List Byte) := do
  let (direction, r) ← readDirection bytes
  let (before, r) ← readEnum relayBeforeOf? r
  let (after, r) ← readEnum relayAfterOf? r
  return (⟨direction, before, after⟩, r)

/-- Reads a number of relay slots. -/
def readRelaySlots : Nat → List Byte → Option (List RelaySlot × List Byte)
  | 0, bytes => some ([], bytes)
  | n + 1, bytes => do
    let (slot, r) ← readRelaySlot bytes
    let (slots, r) ← readRelaySlots n r
    return (slot :: slots, r)

/-- A payload of one number of n bytes. -/
def oneNat (n : Nat) (payload : List Byte) : Arg Nat := whole (readNat n payload)

/-- A payload with no field. -/
def noField (payload : List Byte) : Arg Unit := if payload.isEmpty then some () else none

/-- The operands of CLEAR FAULTS. -/
def readClearFaults (payload : List Byte) : Arg ClearFaultsArgs := whole do
  let (target, r) ← readNat 1 payload
  let (selection, r) ← readNat 2 r
  return (⟨target, selection⟩, r)

/-- The operands of DRAFT SET. -/
def readDraftSet (payload : List Byte) : Arg DraftSetArgs := whole do
  let (site, r) ← readNat 1 payload
  let (field, r) ← readNat 1 r
  let (value, r) ← readFieldValue field r
  return (⟨site, field, value⟩, r)

/-- The operands of LEASE REQUEST, in the order of R74. -/
def readLeaseRequest (payload : List Byte) : Arg LeaseRequestArgs := whole do
  let (first, r) ← readNat 1 payload
  let (last, r) ← readNat 1 r
  let (pattern, r) ← readPattern r
  let (start, r) ← readNat 4 r
  let (stop, r) ← readNat 4 r
  let (strictness, r) ← readEnum strictnessOf? r
  let (requester, r) ← readNat 2 r
  return (⟨first, last, pattern, start, stop, strictness, requester⟩, r)

/-- The operands of LEASE READ; the index is an optional field (R208), and bits 1 to 7 of the presence byte are not looked
at (assumption log 16). -/
def readLeaseRead (payload : List Byte) : Arg LeaseReadArgs := whole do
  let (presence, r) ← readNat 1 payload
  let (handle, r) ← readHandle r
  let (index, r) ← readOpt (presenceBit presence 0) (readNat 1) r
  return (⟨handle, index⟩, r)

/-- The operands of LEASE EXTEND. -/
def readLeaseExtend (payload : List Byte) : Arg LeaseExtendArgs := whole do
  let (handle, r) ← readHandle payload
  let (newEnd, r) ← readNat 4 r
  return (⟨handle, newEnd⟩, r)

/-- The operands of LEASE REPATTERN. -/
def readLeaseRepattern (payload : List Byte) : Arg LeaseRepatternArgs := whole do
  let (handle, r) ← readHandle payload
  let (pattern, r) ← readPattern r
  return (⟨handle, pattern⟩, r)

/-- The operands of RELAY: a site, a slot count and the slots. -/
def readRelayArgs (payload : List Byte) : Arg RelayArgs := whole do
  let (site, r) ← readNat 1 payload
  let (n, r) ← readNat 1 r
  let (slots, r) ← readRelaySlots n r
  return (⟨site, slots⟩, r)

/-- The operands of SECTION CONFIG, in the order of R203. The counting enable is the place of its value in "enabled or
disabled" (R156): 00h enabled, 01h disabled. -/
def readSectionConfig (payload : List Byte) : Arg SectionConfig := whole do
  let (refreshInterval, r) ← readNat 1 payload
  let (holdPeriod, r) ← readNat 1 r
  let (pollPeriod, r) ← readNat 2 r
  let (threshold, r) ← readNat 1 r
  let (uncounted, r) ← readBool r
  let (holdoverLimit, r) ← readNat 2 r
  let (draftLifetime, r) ← readNat 1 r
  return (⟨refreshInterval, holdPeriod, pollPeriod, threshold, !uncounted, holdoverLimit, draftLifetime⟩, r)

/-- The request a code, a tag and a payload give; `none` where the code is not in the catalogue of R201. -/
def readRequest (code : Nat) (tag : Tag) (payload : List Byte) : Option Instr :=
  match code with
  | 0x00 => some .nop
  | 0x01 => some (.siteRead tag (oneNat 1 payload))
  | 0x02 => some (.siteFind tag (oneNat 4 payload))
  | 0x03 => some (.siteList tag (noField payload))
  | 0x04 => some (.retire tag (oneNat 1 payload))
  | 0x05 => some (.adopt tag (oneNat 1 payload))
  | 0x06 => some (.clearFaults tag (readClearFaults payload))
  | 0x10 => some (.draftOpen tag (oneNat 1 payload))
  | 0x11 => some (.draftSet tag (readDraftSet payload))
  | 0x12 => some (.draftRead tag (oneNat 1 payload))
  | 0x13 => some (.draftCommit tag (oneNat 1 payload))
  | 0x14 => some (.draftDiscard tag (oneNat 1 payload))
  | 0x20 => some (.leaseRequest tag (readLeaseRequest payload))
  | 0x21 => some (.leaseRead tag (readLeaseRead payload))
  | 0x22 => some (.leaseExtend tag (readLeaseExtend payload))
  | 0x23 => some (.leaseRepattern tag (readLeaseRepattern payload))
  | 0x24 => some (.leaseRelease tag (whole (readHandle payload)))
  | 0x25 => some (.leaseDismiss tag (whole (readHandle payload)))
  | 0x30 => some (.snap tag (noField payload))
  | 0x31 => some (.unsnap tag (noField payload))
  | 0x32 => some (.timeSet tag (oneNat 4 payload))
  | 0x40 => some (.discover tag (oneNat 1 payload))
  | 0x41 => some (.train tag (oneNat 1 payload))
  | 0x42 => some (.persist tag (noField payload))
  | 0x43 => some (.relay tag (readRelayArgs payload))
  | 0x44 => some (.relayResult tag (noField payload))
  | 0x50 => some (.sectionRead tag (noField payload))
  | 0x51 => some (.sectionConfig tag (readSectionConfig payload))
  | 0x52 => some (.changes tag (noField payload))
  | 0x53 => some (.eventMask tag (oneNat 2 payload))
  | 0x54 => some (.sectionReset tag (noField payload))
  | _ => none

/-- The six parameters as `readSectionConfig` reads them (R203), the poll period and the holdover limit in 2 bytes
(assumption log 10). -/
def configBytes (c : SectionConfig) : List Byte :=
  packNat 1 c.refreshInterval ++ packNat 1 c.holdPeriod ++ packNat 2 c.pollPeriod ++ packNat 1 c.threshold
    ++ packBool (!c.counting) ++ packNat 2 c.holdoverLimit ++ packNat 1 c.draftLifetime

/-- The payload of a host request, laid out by the same encodings; `none` for a command that is no request or
whose payload did not fit. -/
def requestPayload? : Instr → Option (List Byte)
  | .nop => some []
  | .siteRead _ a | .retire _ a | .adopt _ a | .draftOpen _ a | .draftRead _ a | .draftCommit _ a
  | .draftDiscard _ a | .discover _ a | .train _ a => a.map (packNat 1)
  | .siteFind _ a | .timeSet _ a => a.map (packNat 4)
  | .siteList _ a | .snap _ a | .unsnap _ a | .persist _ a | .relayResult _ a | .sectionRead _ a | .changes _ a
  | .sectionReset _ a => a.map fun _ => []
  | .clearFaults _ a => a.map fun x => packNat 1 x.target ++ packNat 2 x.selection
  | .draftSet _ a => a.map fun x => packNat 1 x.site ++ packNat 1 x.field ++ packFieldValue x.field x.value
  | .leaseRequest _ a => a.map fun x =>
      packNat 1 x.first ++ packNat 1 x.last ++ packPattern x.pattern ++ packNat 4 x.start ++ packNat 4 x.stop
        ++ packNat 1 (strictnessCode x.strictness) ++ packNat 2 x.requester
  | .leaseRead _ a => a.map fun x =>
      packPresence 1 [x.index.isSome] ++ packNat 1 x.handle.entry ++ packNat 1 x.handle.generation
        ++ packOpt (packNat 1) x.index
  | .leaseExtend _ a => a.map fun x =>
      packNat 1 x.handle.entry ++ packNat 1 x.handle.generation ++ packNat 4 x.newEnd
  | .leaseRepattern _ a => a.map fun x =>
      packNat 1 x.handle.entry ++ packNat 1 x.handle.generation ++ packPattern x.pattern
  | .leaseRelease _ a | .leaseDismiss _ a => a.map fun x => packNat 1 x.entry ++ packNat 1 x.generation
  | .relay _ a => a.map fun x => packNat 1 x.site ++ packNat 1 x.slots.length ++ x.slots.flatMap packSlot
  | .sectionConfig _ a => a.map configBytes
  | .eventMask _ a => a.map (packNat 2)
  | .powerOnReset .. | .pinReset .. | .exchangeStart .. | .exchangeEnd .. | .answerReady | .ppsEdge ..
  | .ppsExpiry .. | .timebaseSecond .. | .holdoverExpiry | .syncExpiry .. | .strayTimeExpiry .. | .arbiterGrant ..
  | .syncSent .. | .answerFrame .. | .replyTimeout .. | .draftExpiry .. | .leaseArming .. | .armDeadline ..
  | .leaseStart .. | .cycleEnd .. | .extendDeadline .. | .repatternDeadline .. | .windowEnd .. | .probeDue ..
  | .heldItemPlaced .. | .partialDiscovery .. | .slotWriteDone .. => none

/-- A request frame of R207: payload length, code, tag, payload, CRC-16. -/
def requestFrame (code : Nat) (tag : Tag) (payload : List Byte) : List Byte :=
  closed (packNat 1 payload.length ++ packNat 1 code ++ packNat 2 tag.toNat ++ payload)

/-- What R199 makes of the bytes shifted in, once NOT_READY is ruled out: FRAME_ERROR with the code and tag as
received, or the request that is taken. -/
inductive Judged where
  | frameError (code : Byte) (tag : Tag)
  | taken (code : Byte) (tag : Tag) (request : Instr)
  deriving DecidableEq, Repr

/-- A byte of the request as received; one that was never shifted in is a free value (R199). -/
def byteAt (mosi : List Byte) (i : Nat) : Byte := mosi.getD i (Config.missingByte i)

/-- Checks 2 to 4 of R199, in order: length, CRC, catalogue. Bytes after the frame are ignored (R198). -/
def judgeFrame (mosi : List Byte) : Judged :=
  let code := byteAt mosi 1
  let tag : Tag := byteAt mosi 2 ++ byteAt mosi 3
  match mosi with
  | [] => .frameError code tag
  | len :: _ =>
    if mosi.length < len.toNat + 6 || 250 < len.toNat then .frameError code tag
    else
      let frame := mosi.take (len.toNat + 6)
      if !crcGood frame then .frameError code tag
      else
        match readRequest code.toNat tag ((frame.drop 4).take len.toNat) with
        | none => .frameError code tag
        | some request => .taken code tag request

end Sys2Proof.Machine
end

