-- ==== Sys2Proof/Machine/Answers.lean ====
section
/-! DEFINITION. Answer frames of the host port: what each answer shows and how its bytes are laid out
(R201, R207, R208; assumption log 10). -/

namespace Sys2Proof.Machine

open Sys2Proof

/-! ### Codes of the enumerated fields, by their places in the lists that define them (R156) -/

/-- Status codes (R201). -/
def Status.code : Status → Nat
  | .ok => 0x00 | .accepted => 0x01 | .busy => 0x02 | .full => 0x03 | .range => 0x04 | .state => 0x05
  | .conflict => 0x06 | .held => 0x07 | .noTime => 0x08 | .tooLate => 0x09 | .unknown => 0x0A
  | .starting => 0x0B | .leaseActive => 0x0C | .frameError => 0x0D | .notReady => 0x0E

/-- Site states (R2). -/
def SiteState.code : SiteState → Nat
  | .vacant => 0 | .discovered => 1 | .commissioning => 2 | .commissioned => 3 | .unreachable => 4
  | .mismatch => 5 | .retiring => 6

/-- Trim status (R2). -/
def TrimStatus.code : TrimStatus → Nat
  | .active => 0 | .waitingSurvey => 1 | .suspended => 2

/-- Purposes (R9). -/
def Purpose.code : Purpose → Nat
  | .commit => 0 | .adopt => 1 | .restore => 2 | .retire => 3 | .clean => 4

/-- Stages of a Pending call (R9): a held one, which R40 does not count as queued, is the third, 02h (assumption log 10). -/
def Stage.code : Stage → Nat
  | .queued => 0 | .inFlight => 1 | .held => 2

/-- Lease states, FREE being 0 (R70). -/
def LeaseState.code : LeaseState → Nat
  | .granted => 1 | .arming => 2 | .armed => 3 | .running => 4 | .stopping => 5 | .closed => 6

/-- Outcome statuses (R72). -/
def OutcomeStatus.code : OutcomeStatus → Nat
  | .waiting => 0 | .armed => 1 | .cycling => 2 | .dropped => 3 | .stopped => 4 | .stopFailed => 5

/-- Failure bytes (R208). -/
def failureCode : Option Failure → Nat
  | none => 0x00
  | some .noAnswer => 0x01
  | some .brk => 0x02
  | some .notInTime => 0x03
  | some .lost => 0x04
  | some .fresh => 0x05
  | some (.refused r) => 0x10 + r.code

/-- Change end bytes (R208). -/
def changeEndCode : Option (Option ChangeEnd) → Nat
  | none => 0x00
  | some none => 0x01
  | some (some .done) => 0x02
  | some (some .noAnswer) => 0x03
  | some (some .brk) => 0x04
  | some (some .notInTime) => 0x05
  | some (some (.refused r)) => 0x10 + r.code

/-- Last change results (R70). -/
def ChangeResult.code : ChangeResult → Nat
  | .taken => 0 | .refusedBySite => 1 | .partly => 2 | .reverted => 3

/-- Close causes (R70). -/
def CloseCause.code : CloseCause → Nat
  | .ended => 0 | .released => 1 | .armFailed => 2 | .siteLost => 3 | .patternFailed => 4 | .timeLost => 5

/-- Time states (R123). -/
def TimeState.code : TimeState → Nat
  | .unset => 0 | .locked => 1 | .holdover => 2 | .lost => 3

/-- Last set outcomes (R123). -/
def SetOutcome.code : SetOutcome → Nat
  | .stepped => 0 | .lockedAt => 1 | .dropped => 2 | .abandoned => 3

/-- Phases (R173). -/
def Phase.code : Phase → Nat
  | .loading => 0 | .discovering => 1 | .training => 2 | .applying => 3 | .ready => 4

/-- Jobs (R173). -/
def Job.code : Job → Nat
  | .none => 0 | .discover => 1 | .partly => 2 | .train => 3

/-- Straps (R173). -/
def Strap.code : Strap → Nat
  | .east => 0 | .west => 1 | .both => 2

/-- Reset causes (R197). -/
def ResetCause.code : ResetCause → Nat
  | .powerOn => 0 | .brownOut => 1 | .pin => 2 | .soft => 3

/-- Relay states (R168). -/
def RelayState.code : RelayState → Nat
  | .idle => 0 | .queued => 1 | .inFlight => 2

/-- Load outcomes (R190). -/
def LoadOutcome.code : LoadOutcome → Nat
  | .corrected => 0 | .lost => 1 | .duplicate => 2 | .writeFailed => 3

/-- A slot by its place in site-name order, from 1; the section slot is 65 (R190; assumption log 10). -/
def SlotName.code : SlotName → Nat
  | .site n => siteCode n
  | .section_ => 65

/-- Last commit results (R30): RANGE with its field code, or LINE_FAILED with its cause. -/
def CommitResult.bytes : CommitResult → List Byte
  | .range field => packNat 1 0 ++ packNat 1 field
  | .noAnswer => packNat 1 1 ++ packNat 1 0
  | .brk => packNat 1 1 ++ packNat 1 1
  | .refused r => packNat 1 1 ++ packNat 1 2 ++ packNat 1 r.code

/-- Line outcomes of a relay transfer, in the order of R170, LOST last (R171). -/
def LineOutcome.bytes : LineOutcome → List Byte
  | .done => packNat 1 0
  | .refused r => packNat 1 1 ++ packNat 1 r.code
  | .noAnswer => packNat 1 2
  | .brk => packNat 1 3
  | .lost => packNat 1 4

/-! ### Payloads -/

/-- A handle in an answer: entry number 1 to 16 and generation. -/
def Handle.bytes (h : Handle) : List Byte := packNat 1 (h.entry.val + 1) ++ packNat 1 h.generation

/-- The found node: serial, rated current, rated voltage, mode. -/
def FoundNode.bytes (f : FoundNode) : List Byte :=
  packNat 4 f.serial ++ packNat 2 f.plate.current ++ packNat 2 f.plate.voltage ++ packNat 1 f.mode.code

/-- The 24 presence bits of the site record answer, in the order of R207. -/
def SiteAnswer.presence (a : SiteAnswer) : List Bool :=
  let r := a.record
  [r.node.isSome, r.node.isSome, r.node.isSome, (r.node.bind (·.mode)).isSome, r.found.isSome,
    r.comm.isSome, r.comm.isSome, a.effectiveLimit.isSome, (r.comm.bind (·.trim)).isSome,
    r.lineDelay.isSome, r.irOffset.isSome, a.refreshAge.isSome, a.pollAge.isSome,
    a.readings.isSome, (a.readings.bind (·.on)).isSome, (a.readings.bind (·.instantOff)).isSome,
    (a.readings.bind (·.pollTime)).isSome, (a.readings.bind (·.leastOn)).isSome,
    (a.readings.bind (·.mostOn)).isSome, a.snapTime.isSome,
    r.holder.isSome, r.stray.isSome, a.draft.isSome, r.pending.isSome]

/-- Polls since snapshot in the 1 byte of a count; what is sent for one above 255 is left open (R140, R207; assumption
log 10). -/
def pollCount (n : Nat) : List Byte := if n < 256 then packNat 1 n else [Config.wideCountByte n]

/-- Readings, with their optional fields left out where absent. -/
def Readings.bytes (x : Readings) : List Byte :=
  packNat 2 x.outputCurrent ++ packNat 2 x.outputVoltage ++ packOpt packInt x.on ++ packOpt packInt x.instantOff
    ++ packOpt (packNat 4) x.pollTime ++ pollCount x.polls ++ packOpt packInt x.leastOn ++ packOpt packInt x.mostOn

/-- The site record answer in the order of R207. -/
def SiteAnswer.bytes (a : SiteAnswer) : List Byte :=
  let r := a.record
  packNat 1 (siteCode a.site) ++ packNat 1 r.state.code ++ packBool a.frozen ++ packPresence 3 a.presence
    ++ packOpt (fun x : NodeIdent => packNat 4 x.serial ++ packNat 2 x.plate.current ++ packNat 2 x.plate.voltage
        ++ packBool x.hostPlate ++ packOpt (fun m : NodeMode => packNat 1 m.code) x.mode) r.node
    ++ packOpt FoundNode.bytes r.found
    ++ packOpt (fun c : Commissioned => packBlock c.block ++ packNat 2 c.applied
        ++ packOpt (packNat 2) a.effectiveLimit ++ packOpt (fun t : TrimStatus => packNat 1 t.code) c.trim) r.comm
    ++ packOpt (packNat 2) r.lineDelay
    ++ packOpt (fun x : IrOffset => packInt x.millivolts ++ packNat 4 x.second) r.irOffset
    ++ packOpt (packNat 4) a.refreshAge ++ packOpt (packNat 4) a.pollAge
    ++ packOpt Readings.bytes a.readings ++ packOpt (packNat 4) a.snapTime
    ++ packNat 2 r.faults.latched.toNat ++ packNat 2 r.faults.present.toNat
    ++ packNat 1 r.lineErrors ++ packOpt Handle.bytes r.holder ++ packOpt (packNat 4) r.stray
    ++ packOpt packBool a.draft
    ++ packOpt (fun p : PendingCall => packNat 1 p.purpose.code ++ packNat 1 p.stage.code) r.pending
    ++ packBool r.dirty

/-- One entry of SITE LIST as numbers, an absent field as the empty list's place (R20). -/
def SiteEntry.numbers (x : SiteEntry) : List Nat :=
  [x.state.code, if x.latched then 1 else 0, if x.held then 1 else 0, if x.stray then 1 else 0]
    ++ (match x.draft with
        | none => [0]
        | some committing => [if committing then 2 else 1])
    ++ (match x.purpose with
        | none => [0]
        | some p => [p.code + 1])

/-- The draft answer (R35). -/
def DraftAnswer.bytes (a : DraftAnswer) : List Byte :=
  let d := a.draft
  packPresence 1 [d.ratedCurrent.isSome, d.ratedVoltage.isSome, d.lastResult.isSome] ++ packBool d.committing
    ++ packNat 4 a.idleAge ++ packBlock d.block ++ packBool d.hostPlate ++ packOpt (packNat 2) d.ratedCurrent
    ++ packOpt (packNat 2) d.ratedVoltage ++ packOpt CommitResult.bytes d.lastResult

/-- One site outcome in 6 bytes (R208). -/
def LeaseSite.bytes (x : LeaseSite) : List Byte :=
  packNat 1 x.status.code ++ packNat 1 (failureCode x.failure) ++ packNat 1 (changeEndCode x.change)
    ++ packNat 1 x.skipped
    ++ (match x.lastOff with
        | some v => packInt v
        | none => packNat 2 0x8000)

/-- A pending change: its kind with the new end, or with the new pattern and T. -/
def PendingChange.bytes : PendingChange → List Byte
  | .extend newEnd _ => packNat 1 0 ++ packNat 4 newEnd
  | .repattern pattern boundary =>
    packNat 1 1 ++ packPattern pattern ++ packNat 4 (boundary / 10) ++ packNat 1 (boundary % 10)

/-- The lease answer (R208). -/
def LeaseAnswer.bytes (a : LeaseAnswer) : List Byte :=
  let l := a.lease
  a.handle.bytes ++ packNat 1 l.state.code ++ packNat 2 l.requester ++ packNat 1 (siteCode l.first)
    ++ packNat 1 (siteCode l.last) ++ packNat 1 l.sites.length ++ packPattern l.pattern ++ packNat 4 l.start
    ++ packNat 4 l.stop ++ packNat 1 (strictnessCode l.strictness)
    ++ packPresence 1 [l.change.isSome, l.lastResult.isSome, l.closeCause.isSome]
    ++ packOpt PendingChange.bytes l.change ++ packOpt (fun r : ChangeResult => packNat 1 r.code) l.lastResult
    ++ packOpt (fun c : CloseCause => packNat 1 c.code) l.closeCause
    ++ packNat 1 a.index ++ packNat 1 a.outcomes.length ++ a.outcomes.flatMap LeaseSite.bytes

/-- The result of a relay transfer, its site first; bit i of the presence byte is for the byte read of slot i (assumption
logs 10, 35). -/
def RelayResult.bytes (x : RelayResult) : List Byte :=
  packPresence 1 (x.slots.map fun o =>
      match o with
      | .acked b => b.isSome
      | .nacked b => b.isSome
      | .notSent => false)
    ++ packNat 1 (siteCode x.site) ++ packNat 1 x.slots.length
    ++ (x.slots.flatMap fun o =>
      match o with
      | .acked b => 0#8 :: packOpt (fun y => [y]) b
      | .nacked b => 1#8 :: packOpt (fun y => [y]) b
      | .notSent => [2#8])
    ++ x.outcome.bytes

/-- A branch in SECTION READ: 00h unstrapped, or 01h and its fields (R202; assumption log 10). -/
def branchBytes : Option BranchAnswer → List Byte
  | none => packNat 1 0
  | some b =>
    packNat 1 1 ++ packNat 1 b.phase.code ++ packNat 1 b.job.code ++ packBool b.request
      ++ packOpt (packNat 1) b.brk ++ packBool b.overlength

/-- The section answer in the order of R202. The holdover seconds and the flags and mask in 2 bytes each, and the number of
load report entries before them, are the model's (assumption log 10). So is the WEST branch before the EAST one, in the
fields and in the presence bits of the break positions (assumption log 56). -/
def SectionAnswer.bytes (a : SectionAnswer) : List Byte :=
  packPresence 1 [a.count.isSome, a.holdover.isSome, a.setRequest.isSome, a.lastSet.isSome,
      (a.branches.west.bind (·.brk)).isSome, (a.branches.east.bind (·.brk)).isSome, a.snapTime.isSome]
    ++ packNat 1 a.timeState.code ++ packOpt (packNat 4) a.count ++ packOpt (packNat 2) a.holdover
    ++ packOpt (packNat 4) a.setRequest ++ packOpt (fun o : SetOutcome => packNat 1 o.code) a.lastSet
    ++ branchBytes a.branches.west ++ branchBytes a.branches.east
    ++ packNat 1 a.strap.code ++ packNat 4 a.bootCount ++ packNat 1 a.cause.code ++ packBool a.restarted
    ++ packBool a.supplyLow ++ packBool a.frozen ++ packOpt (packNat 4) a.snapTime ++ packBool a.persisting
    ++ packNat 1 a.report.length ++ (a.report.flatMap fun e => packNat 1 e.1.code ++ packNat 1 e.2.code)
    ++ packNat 1 a.drafts ++ packNat 1 a.liveLeases ++ packNat 1 a.relay.code ++ packBool a.relayHeld
    ++ configBytes a.config ++ packNat 2 a.flags.toNat ++ packNat 2 a.mask.toNat

/-- The payload of an answer. The faults still latched after CLEAR FAULTS are two masks of the nine kinds, the latched and
the present ones (assumption log 10). -/
def Body.bytes : Body → List Byte
  | .empty => []
  | .namesSite n => packNat 1 (siteCode n)
  | .namesHolder n h => packPresence 1 [h.isSome] ++ packNat 1 (siteCode n) ++ packOpt Handle.bytes h
  | .namesField f => packNat 1 f
  | .handle h => h.bytes
  | .site a => a.bytes
  | .found n state asFound => packNat 1 (siteCode n) ++ packNat 1 state.code ++ packBool asFound
  | .list entries => Config.siteListBytes (entries.map SiteEntry.numbers)
  | .faults latched present => packNat 2 latched.toNat ++ packNat 2 present.toNat
  | .count n => packNat 1 n
  | .draft a => a.bytes
  | .lease a => a.bytes
  | .snapped time already => packPresence 1 [time.isSome] ++ packOpt (packNat 4) time ++ packBool already
  | .unsnapped released => packBool (!released)
  | .relay r => r.bytes
  | .sectionState a => a.bytes
  | .changes flags sites leases =>
    packNat 2 flags.toNat ++ packNat 1 sites.length
      ++ (sites.flatMap fun p => packNat 1 (siteCode p.1) ++ packNat 1 ((p.2.map siteCode).getD 0))
      ++ packNat 1 leases.length ++ leases.flatMap fun e => packNat 1 (e.val + 1)
  | .mask before flags => packNat 2 before.toNat ++ packNat 2 flags.toNat

/-- An answer frame of R207: payload length, echoed code, echoed tag, status, payload, CRC-16. -/
def Answer.frame (a : Answer) : List Byte :=
  let payload := a.body.bytes
  closed (packNat 1 payload.length ++ [a.code] ++ packNat 2 a.tag.toNat ++ packNat 1 a.status.code ++ payload)

/-- The serving block has built the answer to a request; it is not yet ready (R198). -/
def State.reply (s : State) (code : Byte) (tag : Tag) (status : Status) (body : Body) : State :=
  { s with host := { s.host with answer := .built ⟨code, tag, status, body⟩ } }

end Sys2Proof.Machine
end

