-- ==== Sys2Proof/Machine/Ops.lean ====
section
/-! DEFINITION. The shared operations: a claim on a site record, the draft of a site, and the Pending call of a
site with its place in the host-driven queue. -/

namespace Sys2Proof.Machine

open Sys2Proof

/-- Applies an operation for each item of a list, in order. -/
def State.each {α : Type} (s : State) (xs : List α) (f : State → α → State) : State := xs.foldl f s

/-- Applies an operation where a condition holds. -/
def State.whenever (s : State) (c : Bool) (f : State → State) : State := if c then f s else s

/-! ### Drafts (R29) -/

/-- The draft of a site. -/
def State.draftOf (s : State) (n : SiteName) : Option Draft := s.drafts.find? fun d => d.site == n

/-- Whether a site has a draft in COMMITTING. -/
def State.committing (s : State) (n : SiteName) : Bool := (s.draftOf n).any (·.committing)

/-- The Draft field of a site's record: `some true` for COMMITTING (R2). -/
def State.draftField (s : State) (n : SiteName) : Option Bool := (s.draftOf n).map (·.committing)

/-- Replaces the draft of a site that has one. -/
def State.putDraft (s : State) (d : Draft) : State :=
  { s with drafts := s.drafts.map fun x => if x.site = d.site then d else x }

/-- Takes the draft of a site out of the pool, with no trace left in it. -/
def State.removeDraft (s : State) (n : SiteName) : State :=
  { s with drafts := s.drafts.filter fun x => x.site != n }

/-! ### The record: what its state lets it carry and the bound on its applied current -/

/-- The effective limit: the smaller of current limit and rated current (R2, R62). -/
def effectiveLimit (b : Block) (p : Nameplate) : Nat := min b.currentLimit p.current

/-- The effective limit of a record with a set-point block. -/
def SiteRecord.effective (r : SiteRecord) : Option Nat :=
  match r.node, r.comm with
  | some i, some c => some (effectiveLimit c.block i.plate)
  | _, _ => none

/-- The applied current a recomputation of the limit gives, by mode (R62). -/
def boundApplied (b : Block) (p : Nameplate) (applied : Nat) : Nat :=
  match b.mode with
  | .trimmed => min applied (effectiveLimit b p)
  | .current | .voltage => min b.targetCurrent (effectiveLimit b p)

/-- Clears every field that the record's state does not carry (R3); the override is off in DISCOVERED (R4). -/
def SiteRecord.fit (r : SiteRecord) : SiteRecord :=
  match r.state with
  | .vacant => { SiteRecord.blank with dirty := r.dirty }
  | .discovered =>
    { r with node := r.node.map fun i => { i with hostPlate := false }
             comm := none
             found := none
             irOffset := none
             holder := none }
  | .commissioning => { r with found := none, holder := none }
  | .commissioned | .unreachable => { r with found := none }
  | .mismatch => { r with pending := none }
  | .retiring => { r with holder := none }

/-- The record with its applied current bounded (R62). -/
def SiteRecord.bounded (r : SiteRecord) : SiteRecord :=
  match r.node, r.comm with
  | some i, some c => { r with comm := some { c with applied := boundApplied c.block i.plate c.applied } }
  | _, _ => r

/-- The trim status of a set-point block (R66). -/
def trimStatus (mode : SetMode) (surveyed suspended : Bool) : Option TrimStatus :=
  match mode with
  | .trimmed => some (if !surveyed then .waitingSurvey else if suspended then .suspended else .active)
  | .current | .voltage => none

/-- The record with its trim status recomputed (R66). -/
def SiteRecord.withTrim (r : SiteRecord) (committing : Bool) : SiteRecord :=
  match r.comm with
  | some c =>
    let suspended := r.holder.isSome || committing || r.state != .commissioned
    { r with comm := some { c with trim := trimStatus c.block.mode r.irOffset.isSome suspended } }
  | none => r

/-- A record as the Site Table writes it. -/
def SiteRecord.settled (r : SiteRecord) (committing : Bool) : SiteRecord := (r.fit.bounded).withTrim committing

/-- The fields that the Record Store keeps (R10). -/
def SiteRecord.stored (r : SiteRecord) :
    Option (Nat × Nameplate × Bool) × Option (Block × Nat) × Option IrOffset :=
  (r.node.map fun i => (i.serial, i.plate, i.hostPlate), r.comm.map fun c => (c.block, c.applied), r.irOffset)

/-- Whether the record is written as a commissioned image (R191). -/
def SiteRecord.writtenCommissioned (r : SiteRecord) : Bool :=
  match r.state with
  | .commissioned | .unreachable | .mismatch | .retiring => true
  | .commissioning => r.pending.any fun p => p.purpose == .adopt
  | .discovered | .vacant => false

/-- The image a record is written as (R191); `none` is the empty image. -/
def SiteRecord.image (r : SiteRecord) : Option SiteImage :=
  if r.writtenCommissioned then
    match r.node, r.comm with
    | some i, some c => some ⟨i.serial, i.plate, i.hostPlate, c.block, c.applied, r.irOffset⟩
    | _, _ => none
  else none

/-- The fields whose every change adds the site to the site change set: state and Found node (R12), Holder
(R77), Stray cycle until (R78, R80) and Trim status (R66). -/
def SiteRecord.shown (r : SiteRecord) :
    SiteState × Option FoundNode × Option Handle × Option Nat × Option TrimStatus :=
  (r.state, r.found, r.holder, r.stray, r.comm.bind (·.trim))

/-- The LIMIT_CLAMPED condition follows from the effective limit (R62). -/
def State.limitCondition (s : State) (n : SiteName) : State :=
  match (s.site n).node, (s.site n).comm with
  | some i, some c => s.setCondition n .limitClamped (decide (effectiveLimit c.block i.plate < c.block.currentLimit))
  | _, _ => s

/-- Refresh due is set on a site (R51). -/
def State.setDue (s : State) (n : SiteName) : State := s.setUpkeep n { s.upkeepOf n with due := true }

/-- The under and over counts of a site are set to 0 (R65). -/
def State.zeroCounts (s : State) (n : SiteName) : State := s.setUpkeep n { s.upkeepOf n with underCount := 0, overCount := 0 }

/-- A clamp of the applied current sets refresh due, sets the window counts to 0 and adds the site to the
change set (R62, R65). -/
def State.clamped (s : State) (n : SiteName) : State := ((s.setDue n).zeroCounts n).siteChanged n

/-- A claim on a site record, taken whole: the record takes the new content as its state lets it carry it, its
applied current is bounded and its trim status recomputed, Dirty is set where a stored field or the image
changes, the site joins the change set where a shown field changes, and LIMIT_CLAMPED follows the limit
(R3, R10, R12, R62, R66). -/
def State.claim (s : State) (n : SiteName) (r : SiteRecord) : State :=
  let old := s.site n
  let new := r.settled (s.committing n)
  let dirty := new.dirty || decide (new.stored ≠ old.stored) || decide (new.image.isSome ≠ old.image.isSome)
  (((s.setSite n { new with dirty := dirty }).whenever
      (decide (new.comm.map (·.applied) ≠ r.fit.comm.map (·.applied))) fun s => s.clamped n).whenever
    (decide (new.shown ≠ old.shown)) fun s => s.siteChanged n).limitCondition n

/-- A claim that changes a record. -/
def State.change (s : State) (n : SiteName) (f : SiteRecord → SiteRecord) : State := s.claim n (f (s.site n))

/-- A claim that changes the identity of a record that has one. -/
def State.changeNode (s : State) (n : SiteName) (f : NodeIdent → NodeIdent) : State :=
  s.change n fun r => { r with node := r.node.map f }

/-- A claim that changes the commissioned content of a record that has it. -/
def State.changeComm (s : State) (n : SiteName) (f : Commissioned → Commissioned) : State :=
  s.change n fun r => { r with comm := r.comm.map f }

/-- Marks a record for the next persist pass. -/
def State.markDirty (s : State) (n : SiteName) : State := s.change n fun r => { r with dirty := true }

/-- The site that holds a serial as its Node serial, other than a given one (R27). -/
def State.otherHolding? (s : State) (n : SiteName) (serial : Nat) : Option SiteName :=
  siteNames.find? fun m => m != n && (s.site m).node.any fun i => i.serial == serial

/-! ### Holder and stray time (R77, R78) -/

/-- Clears the holder of a site. -/
def State.clearHolder (s : State) (n : SiteName) : State := s.change n fun r => { r with holder := none }

/-- Writes a stray time on a site that has no holder: the later of two is kept, and a VACANT record takes none
(R78). -/
def State.writeStray (s : State) (n : SiteName) (t : Nat) : State :=
  s.change n fun r => if r.holder.isSome then r else { r with stray := some (r.stray.elim t fun old => max old t) }

/-- Clears the stray time of a site (R80). -/
def State.clearStray (s : State) (n : SiteName) : State := s.change n fun r => { r with stray := none }

/-! ### The host-driven queue (R165) -/

/-- Items a host-driven FIFO holds at most (R165). -/
def fifoSize : Nat := 16

/-- Whether a branch's host-driven FIFO is full. -/
def Line.full (l : Line) : Bool := decide (fifoSize ≤ l.hostFifo.length)

/-- The line with an item placed at the tail of its FIFO, or among its held items where the FIFO is full. -/
def Line.push (l : Line) (item : HostItem) : Line :=
  if l.full then { l with held := l.held ++ [item] } else { l with hostFifo := l.hostFifo ++ [item] }

/-- The line without an item, which leaves its slot or the held items at once. -/
def Line.drop (l : Line) (item : HostItem) : Line :=
  { l with hostFifo := l.hostFifo.filter (· != item), held := l.held.filter (· != item) }

/-- Where an item that has been placed stands. -/
def Line.stageOf (l : Line) (item : HostItem) : Stage := if l.hostFifo.contains item then .queued else .held

/-- Places an item of a block of the part. -/
def State.pushHost (s : State) (b : Branch) (item : HostItem) : State := s.setLine b ((s.line b).push item)

/-- Withdraws an item. -/
def State.dropHost (s : State) (b : Branch) (item : HostItem) : State := s.setLine b ((s.line b).drop item)

/-! ### Pending (R9) -/

/-- The Pending call of a site is one that is an APPLY. -/
def Purpose.isApply : Purpose → Bool
  | .commit | .adopt | .restore => true
  | .retire | .clean => false

/-- Writes the Pending entry of a site. -/
def State.setPending (s : State) (n : SiteName) (p : Option PendingCall) : State :=
  s.change n fun r => { r with pending := p }

/-- A COMMIT, ADOPT or RETIRE takes over the queue place of the call that is queued for the site, or else a new
place at the tail (R9, R165). -/
def State.takePlace (s : State) (n : SiteName) (purpose : Purpose) : State :=
  let b := branchOf n
  let l := s.line b
  let item := HostItem.pending n
  let l' := if l.hostFifo.contains item then l else (l.drop item).push item
  (s.setLine b l').setPending n (some ⟨purpose, l'.stageOf item, none⟩)

/-- A claim of a block of the part for an APPLY or a RELEASE on a site: folded into a call that is Pending, held
while the site is UNREACHABLE, placed in the queue otherwise (R9, R26, R40, R58). -/
def State.claimCall (s : State) (n : SiteName) (purpose : Purpose) : State :=
  let r := s.site n
  if r.pending.isSome then s
  else if r.state = .unreachable then s.setPending n (some ⟨purpose, .held, none⟩)
  else
    let b := branchOf n
    let l' := (s.line b).push (.pending n)
    (s.setLine b l').setPending n (some ⟨purpose, l'.stageOf (.pending n), none⟩)

/-- A RESTORE claim (R58). -/
def State.claimRestore (s : State) (n : SiteName) : State := s.claimCall n .restore

/-- A CLEAN claim for a DISCOVERED site whose node is driven and that has no Pending (R26, R182). -/
def State.claimClean (s : State) (n : SiteName) : State :=
  let r := s.site n
  if r.state = .discovered ∧ r.pending = none ∧
      (r.node.bind (·.mode) = some .attended ∨ r.node.bind (·.mode) = some .standalone)
  then s.claimCall n .clean else s

/-- Whether an APPLY to a site is in flight: its Pending one, or one whose purpose was withdrawn (R9). -/
def State.applyInFlight (s : State) (n : SiteName) : Bool :=
  match (s.line (branchOf n)).txn with
  | some t =>
    match t.call with
    | .apply .. => t.owner == .pending n || t.owner == .detached n
    | _ => false
  | none => false

/-- Whether the site's own CLEAN RELEASE is in flight. -/
def State.cleanInFlight (s : State) (n : SiteName) : Bool :=
  (s.site n).pending.any fun p => p.purpose == .clean && p.stage == .inFlight

/-- Whether a RESTORE or CLEAN of the site stands in the FIFO, so that its place can be taken. -/
def State.placeToTake (s : State) (n : SiteName) (purposes : List Purpose) : Bool :=
  (s.site n).pending.any fun p => purposes.contains p.purpose && p.stage == .queued

/-- Takes a site's Pending call out of its queue. -/
def State.unqueue (s : State) (n : SiteName) : State := s.dropHost (branchOf n) (.pending n)

/-- A Pending call in flight loses its purpose and runs to its end (R9). -/
def State.detach (s : State) (n : SiteName) : State :=
  let b := branchOf n
  let l := s.line b
  match l.txn with
  | some t => if t.owner = .pending n then s.setLine b { l with txn := some { t with owner := .detached n } } else s
  | none => s

/-! ### Drafts and the claims that meet them -/

/-- The trim status of a site is recomputed (R66). -/
def State.retrim (s : State) (n : SiteName) : State := s.change n id

/-- A draft is freed: the site joins the change set (R29). -/
def State.freeDraft (s : State) (n : SiteName) : State := ((s.removeDraft n).siteChanged n).retrim n

/-- A draft is dropped, with DRAFT_DROPPED (R45, R46). -/
def State.dropDraft (s : State) (n : SiteName) : State :=
  if (s.draftOf n).isSome then (s.freeDraft n).raise .draftDropped else s

/-- A COMMITTING draft returns to OPEN with its last commit result, and its idle age starts again (R33, R43). -/
def State.reopenDraft (s : State) (n : SiteName) (result : CommitResult) : State :=
  match s.draftOf n with
  | some d =>
    if d.committing then
      ((s.putDraft { d with committing := false, lastResult := some result, idleFrom := s.timebase }).siteChanged
        n).retrim n
    else s
  | none => s

/-! ### Live leases -/

/-- A lease is live in every state but CLOSED (R70). -/
def Lease.live (l : Lease) : Bool := l.state != .closed

/-- Whether a lease is ARMING, ARMED or RUNNING (R130). -/
def Lease.active (l : Lease) : Bool := l.state == .arming || l.state == .armed || l.state == .running

/-- Number of live leases (R70). -/
def State.liveLeases (s : State) : Nat := entryNames.countP fun e => (s.leaseOf e).any Lease.live

/-- Whether some lease is ARMING, ARMED or RUNNING. -/
def State.leaseActive (s : State) : Bool := entryNames.any fun e => (s.leaseOf e).any Lease.active

/-- Whether discovery is running on a branch (R173). -/
def State.discovering (s : State) (b : Branch) : Bool :=
  let x := s.bring b
  x.phase == .discovering || x.job == .discover || x.job == .partly || x.request.isSome

/-- Whether a branch is training (R173). -/
def State.trainingOn (s : State) (b : Branch) : Bool :=
  let x := s.bring b
  x.phase == .training || x.job == .train

end Sys2Proof.Machine
end

