-- ==== Sys2Proof/Machine/Leases.lean ====
section
/-! DEFINITION. The Lease Table and the Lease Sequencer: work records, leaving and closing a lease, lost and FRESH
sites, pending changes, and the ends of lease calls (chapters 4 and 5). -/

namespace Sys2Proof.Machine

open Sys2Proof

/-! ### Entries and outcomes -/

/-- The outcome of a span site. -/
def Lease.siteOf (l : Lease) (n : SiteName) : Option LeaseSite := l.sites.find? fun x => x.site == n

/-- The lease with the outcome of one site changed. -/
def Lease.update (l : Lease) (n : SiteName) (f : LeaseSite → LeaseSite) : Lease :=
  { l with sites := l.sites.map fun x => if x.site = n then f x else x }

/-- Whether some span site passes a check. -/
def Lease.anySite (l : Lease) (p : LeaseSite → Bool) : Bool := l.sites.any p

/-- Status and Failure, whose changes add the entry to the lease change set (R95). -/
def LeaseSite.shown (x : LeaseSite) : OutcomeStatus × Option Failure := (x.status, x.failure)

/-- The period of a pattern in tenths of a second (R97). -/
def patternPeriod (p : Pattern) : Nat := p.onTime + p.offTime

/-- Changes the lease of an entry that holds one. -/
def State.changeLease (s : State) (e : EntryNo) (f : Lease → Lease) : State :=
  match s.leaseOf e with
  | some l => s.setLease e (f l)
  | none => s

/-- Changes the outcome of a span site; the entry joins the change set where Status or Failure changes. -/
def State.changeOutcome (s : State) (e : EntryNo) (n : SiteName) (f : LeaseSite → LeaseSite) : State :=
  match s.leaseOf e with
  | some l =>
    let l' := l.update n f
    (s.setLease e l').whenever (decide ((l'.siteOf n).map (·.shown) ≠ (l.siteOf n).map (·.shown)))
      fun s => s.leaseChanged e
  | none => s

/-- The outcome with a Failure, where it has none yet (R72). -/
def LeaseSite.fail (x : LeaseSite) (f : Failure) : LeaseSite := { x with failure := x.failure.or (some f) }

/-- The outcome with a status. -/
def LeaseSite.become (x : LeaseSite) (status : OutcomeStatus) : LeaseSite := { x with status := status }

/-- Whether a site's record is COMMISSIONED. -/
def State.isCommissioned (s : State) (n : SiteName) : Bool := (s.site n).state == .commissioned

/-- Whether a lease has a site whose status is one of a list. -/
def Lease.hasStatus (l : Lease) (ss : List OutcomeStatus) : Bool := l.anySite fun x => ss.contains x.status

/-! ### Lease calls (R81) -/

/-- Adds a call to the lease-call FIFO of the site's branch. -/
def State.pushLease (s : State) (h : Handle) (n : SiteName) : State :=
  let l := s.line (branchOf n)
  s.setLine (branchOf n) { l with leaseFifo := l.leaseFifo ++ [⟨h, n⟩] }

/-- Takes a call out of the lease-call FIFO of the site's branch. -/
def State.dropLease (s : State) (h : Handle) (n : SiteName) : State :=
  let l := s.line (branchOf n)
  s.setLine (branchOf n) { l with leaseFifo := l.leaseFifo.filter (· != ⟨h, n⟩) }

/-- Places a call of a lease for a site; it waits in the work record while another is queued or in flight. -/
def State.placeCall (s : State) (e : EntryNo) (n : SiteName) (c : LeaseCall) : State :=
  match (s.leaseOf e).bind (·.siteOf n) with
  | none => s
  | some x =>
    if x.call.isSome then s.changeOutcome e n fun x => { x with waiting := x.waiting ++ [c] }
    else (s.changeOutcome e n fun x => { x with call := some ⟨c, false, true⟩ }).pushLease (s.handleOf e) n

/-- Places a call for every span site that passes a check and whose record is COMMISSIONED, in order of
position on each branch (R81). -/
def State.placeAll (s : State) (e : EntryNo) (pick : LeaseSite → Bool) (c : LeaseCall) : State :=
  s.each siteNames fun s n =>
    match (s.leaseOf e).bind (·.siteOf n) with
    | some x => if pick x && s.isCommissioned n then s.placeCall e n c else s
    | none => s

/-- Withdraws the call of a site that is queued. -/
def State.withdrawCall (s : State) (e : EntryNo) (n : SiteName) : State :=
  match (s.leaseOf e).bind (·.siteOf n) with
  | some x =>
    if x.call.any (!·.inFlight) then (s.changeOutcome e n fun x => { x with call := none }).dropLease (s.handleOf e) n
    else s
  | none => s

/-- A call in flight no longer counts for the decision it was sent for. -/
def LeaseSite.discount (x : LeaseSite) : LeaseSite := { x with call := x.call.map fun c => { c with counts := false } }

/-- Removes the lease polls of a lease for the sites that pass a check (R103). -/
def State.removePolls (s : State) (h : Handle) (p : SiteName → Bool) : State :=
  let drop (l : Line) : Line := { l with leasePolls := l.leasePolls.filter fun q => !(q.handle == h && p q.site) }
  { s with lines := ⟨drop s.lines.west, drop s.lines.east⟩ }

/-- Whether no call of the work record is queued, in flight or waiting (R89). -/
def Lease.noWork (l : Lease) : Bool := l.sites.all fun x => x.call.isNone && x.waiting.isEmpty

/-- Whether a call of a dropped site is still in the work record (R117). -/
def Lease.droppedWork (l : Lease) : Bool :=
  l.anySite fun x => x.status == .dropped && (x.call.isSome || !x.waiting.isEmpty)

/-! ### Leaving and closing (R79, R91) -/

/-- The stray time of a site that leaves a lease: until its end bound where that lies later than the End (R100), by the
last exchange with its node (R79); a site that is STOP_FAILED takes one whatever that was (R89, R109, R120). One whose last
exchange showed no cycle takes none, also where it is lost by a change of state (R79 for R107, R108; assumption log
40). -/
def Lease.strayOf (l : Lease) (x : LeaseSite) : Option Nat :=
  let bound := some (max (x.endBound.getD l.stop) l.stop)
  if x.status = .stopFailed then bound
  else
    match x.exchange with
    | .noArm | .armRefused | .cycleGone => none
    | .armOccupied | .armUnanswered | .armDone | .stopFailed => bound

/-- Clears the holder of a site that still names a lease, and then writes the stray time (R91). -/
def State.leaveHold (s : State) (h : Handle) (n : SiteName) (stray : Option Nat) : State :=
  if (s.site n).holder = some h then
    match stray with
    | some t => (s.clearHolder n).writeStray n t
    | none => s.clearHolder n
  else s

/-- A site is DROPPED from a lease with a Failure. Its queued call and its lease poll are removed. A call in
flight is kept in the work record only where `keep` says so (R117). Its end in a pending change is forgotten: it has left
the expected set (R111), and a DONE end among it no longer counts (assumption log 53). -/
def State.dropSite (s : State) (e : EntryNo) (n : SiteName) (f : Failure) (keep : Bool := false) : State :=
  let h := s.handleOf e
  match s.leaseOf e with
  | none => s
  | some l =>
    match l.siteOf n with
    | none => s
    | some x =>
      let s := s.withdrawCall e n
      let s := s.changeOutcome e n fun x =>
        { (x.fail f).become .dropped with
            call := if keep then x.discount.call else none
            waiting := []
            change := none }
      (s.removePolls h (· == n)).leaveHold h n (l.strayOf x)

/-- A lease closes, taken whole in the order of R91. A change still pending is cut short (R118). -/
def State.closeLease (s : State) (e : EntryNo) (cause : CloseCause) : State :=
  match s.leaseOf e with
  | none => s
  | some l =>
    let h := s.handleOf e
    let s := s.each l.sites fun s x => s.leaveHold h x.site (l.strayOf x)
    let empty (q : Line) : Line :=
      { q with leaseFifo := q.leaseFifo.filter (·.handle != h), leasePolls := q.leasePolls.filter (·.handle != h) }
    let s := { s with lines := ⟨empty s.lines.west, empty s.lines.east⟩ }
    let s := s.setLease e
      { l with
          state := .closed
          closeCause := some cause
          stopCause := none
          run := none
          change := none
          lastResult := if l.change.isSome then some .reverted else l.lastResult
          sites := l.sites.map fun x => { x with call := none, waiting := [], change := none } }
    ({ s with closeOrder := s.closeOrder.filter (· != e) ++ [e] }).leaseChanged e

/-- A STOPPING lease with no call left closes with the cause it entered STOPPING with (R89, R90). -/
def State.closeIfDone (s : State) (e : EntryNo) : State :=
  match s.leaseOf e with
  | some l => if l.state = .stopping ∧ l.noWork then s.closeLease e (l.stopCause.getD .released) else s
  | none => s

/-! ### Stopping (R92, R107, R118 to R121) -/

/-- Whether a call carries a pending change. -/
def LeaseCall.isChange : LeaseCall → Bool
  | .extend _ | .repattern .. => true
  | .arm | .disarm | .stop | .check => false

/-- Withdraws the queued and waiting calls of a change for a site; one in flight no longer counts. -/
def State.withdrawChange (s : State) (e : EntryNo) (n : SiteName) : State :=
  match (s.leaseOf e).bind (·.siteOf n) with
  | some x =>
    let s := if x.call.any (·.call.isChange) then s.withdrawCall e n else s
    s.changeOutcome e n fun x =>
      let y := if x.call.any (·.call.isChange) then x.discount else x
      { y with waiting := y.waiting.filter fun c => !c.isChange }
  | none => s

/-- The Pending change becomes absent, with a result. -/
def State.endChange (s : State) (e : EntryNo) (result : ChangeResult) : State :=
  (s.changeLease e fun l =>
    { l with change := none, lastResult := some result
             sites := l.sites.map fun x => { x with change := none } }).leaseChanged e

/-- A pending change is cut short (R118). -/
def State.cutShort (s : State) (e : EntryNo) : State :=
  match s.leaseOf e with
  | some l =>
    if l.change.isSome then
      (s.each l.sites fun s x => s.withdrawChange e x.site).endChange e .reverted
    else s
  | none => s

/-- A lease enters STOPPING with the cause it is to close with: a pending change is cut short, lease polls are
removed, and a call is placed for the sites that pass a check. With no call needed it closes at once, but for
work that has to end first. -/
def State.enterStopping (s : State) (e : EntryNo) (cause : CloseCause) (pick : LeaseSite → Bool) (c : LeaseCall)
    (waits : Bool := false) : State :=
  match s.leaseOf e with
  | none => s
  | some l =>
    let needed := l.anySite fun x => pick x && s.isCommissioned x.site
    let s := (s.cutShort e).removePolls (s.handleOf e) fun _ => true
    let s := s.changeLease e fun l => { l with state := .stopping, stopCause := some cause }
    let s := (s.placeAll e pick c).leaseChanged e
    if needed || waits || (s.leaseOf e).any Lease.droppedWork then s else s.closeLease e cause

/-- Withdraws every queued ARM of a lease. -/
def State.withdrawArms (s : State) (e : EntryNo) : State :=
  s.each siteNames fun s n =>
    match (s.leaseOf e).bind (·.siteOf n) with
    | some x => if x.call.any (·.call == .arm) then s.withdrawCall e n else s
    | none => s

/-- Whether an ARM of a lease is in flight. -/
def Lease.armInFlight (l : Lease) : Bool := l.anySite fun x => x.call.any fun c => c.call == .arm && c.inFlight

/-- A lease that is ARMING or ARMED is stopped by a DISARM to each ARMED site; an ARM in flight is waited for
(R92, R121). -/
def State.stopArming (s : State) (e : EntryNo) (cause : CloseCause) : State :=
  let s := s.withdrawArms e
  s.enterStopping e cause (·.status == .armed) .disarm ((s.leaseOf e).any Lease.armInFlight)

/-- A RUNNING lease is stopped by a STOP to each CYCLING site (R119, R121). -/
def State.stopRunning (s : State) (e : EntryNo) (cause : CloseCause) : State :=
  s.enterStopping e cause (·.status == .cycling) .stop

/-! ### Pending changes (R111 to R117) -/

/-- The Failure of a site that failed a change (R114, R117). -/
def ChangeEnd.failure : ChangeEnd → Failure
  | .done => .notInTime
  | .refused r => .refused r
  | .noAnswer => .noAnswer
  | .brk => .brk
  | .notInTime => .notInTime

/-- Whether a site is expected in the change and has not answered. -/
def LeaseSite.unanswered (x : LeaseSite) : Bool := x.change == some none

/-- Whether a site has failed the change. -/
def LeaseSite.failedChange (x : LeaseSite) : Bool :=
  match x.change with
  | some (some .done) | some none | none => false
  | some (some _) => true

/-- Whether a site took the change. -/
def LeaseSite.tookChange (x : LeaseSite) : Bool := x.change == some (some .done)

/-- Expected sites that have not answered are given NOT_IN_TIME. A call in flight runs on, and under an extension
its site's end bound becomes the new end (R112, R116). -/
def State.notInTime (s : State) (e : EntryNo) (bound : Option Nat) : State :=
  match s.leaseOf e with
  | some l =>
    s.each (l.sites.filter (·.unanswered)) fun s x =>
      (s.withdrawChange e x.site).changeOutcome e x.site fun y =>
        { y with
            change := some (some .notInTime)
            endBound := if x.call.any (fun c => c.inFlight && c.counts) then bound.or y.endBound else y.endBound }
  | none => s

/-- Drops every site that failed a change, with its Failure. -/
def State.dropFailed (s : State) (e : EntryNo) (keep : Bool) : State :=
  match s.leaseOf e with
  | some l =>
    s.each (l.sites.filter (·.failedChange)) fun s x =>
      s.dropSite e x.site ((x.change.bind id).elim .notInTime ChangeEnd.failure) keep
  | none => s

/-- PARTIAL where at least one site ended DONE, REFUSED_BY_SITE where none did (R114, R117). A site that was DROPPED since
its DONE end is not among them (assumption log 53). -/
def Lease.partlyResult (l : Lease) : ChangeResult := if l.anySite (·.tookChange) then .partly else .refusedBySite

/-- Whether a revert is queued, in flight or waiting (R113). -/
def LeaseSite.reverting (x : LeaseSite) : Bool :=
  x.call.any (fun c => c.counts && c.call.isChange) || x.waiting.any (·.isChange)

/-- A reverting change ends when every revert has ended (R113). -/
def State.endReverts (s : State) (e : EntryNo) : State :=
  match s.leaseOf e with
  | some l =>
    match l.change with
    | some (.extend _ true) => if l.anySite (·.reverting) then s else s.endChange e .reverted
    | _ => s
  | none => s

/-- The extension is decided (R112 to R114). -/
def State.decideExtend (s : State) (e : EntryNo) (newEnd : Nat) : State :=
  let s := s.notInTime e (some newEnd)
  match s.leaseOf e with
  | none => s
  | some l =>
    if !l.anySite (·.failedChange) then
      (s.changeLease e fun l => { l with stop := newEnd }).endChange e .taken
    else
      match l.strictness with
      | .strict =>
        if l.anySite (·.tookChange) then
          (((s.changeLease e fun l => { l with change := some (.extend newEnd true) }).placeAll e
            (·.tookChange) (.extend l.stop)).leaseChanged e).endReverts e
        else s.endChange e .refusedBySite
      | .lenient =>
        let s := ((s.dropFailed e false).changeLease e fun l => { l with stop := newEnd }).endChange e l.partlyResult
        if (s.leaseOf e).any (·.hasStatus [.armed, .cycling]) then s else s.closeLease e .siteLost

/-- The run record after a repattern with boundary T is taken: boundaries up to T follow the old pattern
(R116). -/
def RunRecord.repattern (r : RunRecord) (period boundary : Nat) : RunRecord where
  origin := boundary
  next := 1
  old := if r.origin + r.next * period ≤ boundary then r.old ++ [⟨r.origin, period, r.next, boundary⟩] else r.old

/-- The new pattern and its origin are taken (R116). -/
def Lease.takePattern (l : Lease) (p : Pattern) (boundary : Nat) : Lease :=
  { l with pattern := p, run := l.run.map fun r => r.repattern (patternPeriod l.pattern) boundary }

/-- The repattern is decided (R116, R117). -/
def State.decideRepattern (s : State) (e : EntryNo) (p : Pattern) (boundary : Nat) : State :=
  let s := s.notInTime e none
  match s.leaseOf e with
  | none => s
  | some l =>
    if !l.anySite (·.failedChange) then (s.changeLease e (·.takePattern p boundary)).endChange e .taken
    else
      match l.strictness with
      | .strict =>
        (s.endChange e .refusedBySite).enterStopping e .patternFailed
          (fun x => x.status == .armed || x.status == .cycling) .stop
      | .lenient =>
        let failed := (l.sites.filter (·.failedChange)).map (·.site)
        let s := (s.dropFailed e true).placeAll e (fun x => failed.contains x.site) .stop
        let s := (s.changeLease e (·.takePattern p boundary)).endChange e l.partlyResult
        if (s.leaseOf e).any (·.hasStatus [.armed, .cycling]) then s else s.closeLease e .patternFailed

/-- A change is decided as soon as every expected site has answered; an extension not while ARMING (R111, R112,
R116). -/
def State.checkDecision (s : State) (e : EntryNo) : State :=
  match s.leaseOf e with
  | none => s
  | some l =>
    match l.change with
    | none => s
    | some (.extend newEnd false) =>
      if l.state = .arming ∨ l.anySite (·.unanswered) then s else s.decideExtend e newEnd
    | some (.extend _ true) => s.endReverts e
    | some (.repattern p boundary) => if l.anySite (·.unanswered) then s else s.decideRepattern e p boundary

/-! ### Arming (R83 to R85) -/

/-- A lease enters ARMED. -/
def State.enterArmed (s : State) (e : EntryNo) : State :=
  ((s.changeLease e fun l => { l with state := .armed }).leaseChanged e).checkDecision e

/-- The lease enters ARMED as soon as every undropped site is ARMED with no Failure (R84). -/
def State.armedIfAll (s : State) (e : EntryNo) : State :=
  match s.leaseOf e with
  | some l =>
    if l.state = .arming ∧ (l.sites.all fun x => x.status == .dropped || (x.status == .armed && x.failure.isNone))
    then s.enterArmed e else s
  | none => s

/-- A span site at the arm deadline, its queued ARM withdrawn: an ARM that has not ended gives NOT_IN_TIME, and
one in flight no longer counts (R85). -/
def LeaseSite.atArmDeadline (x : LeaseSite) : LeaseSite :=
  if x.status = .dropped then x
  else
    let y := if x.call.any (·.call == .arm) then x.discount else x
    if y.status = .waiting then y.fail .notInTime else y

/-- The arm deadline (R85). -/
def State.armDeadline (s : State) (e : EntryNo) : State :=
  let s := s.withdrawArms e
  let s := s.changeLease e fun l => { l with sites := l.sites.map LeaseSite.atArmDeadline }
  match s.leaseOf e with
  | none => s
  | some l =>
    let failed := l.sites.filter fun x => x.status != .dropped && x.failure.isSome
    match l.strictness with
    | .strict =>
      if failed.isEmpty then s.enterArmed e
      else s.enterStopping e .armFailed (·.status == .armed) .disarm
    | .lenient =>
      let s := s.each failed fun s x => s.dropSite e x.site .notInTime
      if (s.leaseOf e).any (·.hasStatus [.armed]) then s.enterArmed e else s.closeLease e .armFailed

/-! ### Lost and FRESH sites (R86 to R88, R106 to R109) -/

/-- The node of a site is known to hold no cycle of the lease. -/
def LeaseSite.gone (x : LeaseSite) : LeaseSite :=
  { x with exchange := if x.exchange = .noArm then .noArm else .cycleGone }

/-- A lost or FRESH site of a RUNNING lease; `free` where its node is known to hold no cycle (R107, R108). -/
def State.lostRunning (s : State) (e : EntryNo) (n : SiteName) (f : Failure) (free : Bool) : State :=
  match s.leaseOf e with
  | none => s
  | some l =>
    match l.strictness with
    | .strict =>
      let s := s.changeOutcome e n fun x => if free then (x.fail f).become .stopped else x.fail f
      s.enterStopping e .siteLost (fun x => x.site != n && x.status == .cycling) .stop
    | .lenient =>
      let s := (s.dropSite e n f).leaseChanged e
      if (s.leaseOf e).any (·.hasStatus [.cycling]) then s.checkDecision e else s.closeLease e .siteLost

/-- A lost or FRESH site of an ARMED lease (R87). -/
def State.lostArmed (s : State) (e : EntryNo) (n : SiteName) (f : Failure) : State :=
  match s.leaseOf e with
  | none => s
  | some l =>
    match l.strictness with
    | .strict =>
      (s.changeOutcome e n (·.fail f)).enterStopping e .siteLost (fun x => x.site != n && x.status == .armed) .disarm
    | .lenient =>
      let s := (s.dropSite e n f).leaseChanged e
      if (s.leaseOf e).any (·.hasStatus [.armed]) then s.checkDecision e else s.closeLease e .siteLost

/-- A lost site of a GRANTED lease (R86). -/
def State.lostGranted (s : State) (e : EntryNo) (n : SiteName) : State :=
  match s.leaseOf e with
  | none => s
  | some l =>
    match l.strictness with
    | .strict => (s.changeOutcome e n (·.fail .lost)).closeLease e .siteLost
    | .lenient =>
      let s := s.dropSite e n .lost
      if (s.leaseOf e).any (fun l => l.sites.all fun x => x.status == .dropped) then s.closeLease e .siteLost else s

/-- A site is lost to the lease that held it (R12, R86, R87, R107, R108). A STOPPING lease keeps its state and
its cause; what becomes of the site's own call is R81's (R88, R109). -/
def State.leaseLost (s : State) (n : SiteName) (h : Handle) : State :=
  match s.leaseOf h.entry with
  | none => s
  | some l =>
    if s.handleOf h.entry ≠ h then s
    else
      match l.state with
      | .granted => s.lostGranted h.entry n
      | .arming => (s.changeOutcome h.entry n (·.fail .lost)).withdrawCall h.entry n
      | .armed => s.lostArmed h.entry n .lost
      | .running => s.lostRunning h.entry n .lost false
      | .stopping | .closed => s

/-- A FRESH report of a site that a lease holds (R12, R57, R86, R87, R88, R107, R108, R109). -/
def State.leaseFresh (s : State) (n : SiteName) : State :=
  match (s.site n).holder with
  | none => s
  | some h =>
    let e := h.entry
    match (s.leaseOf e).bind fun l => (l.siteOf n).map fun x => (l, x) with
    | none => s
    | some (l, x) =>
      if s.handleOf e ≠ h then s
      else
        let s := s.changeOutcome e n (·.gone)
        match l.state with
        | .granted | .closed => s
        | .arming =>
          if x.call.any (·.call == .arm) then (s.changeOutcome e n (·.fail .fresh)).withdrawCall e n
          else if x.status = .armed then s.changeOutcome e n (·.fail .fresh)
          else s
        | .armed => s.lostArmed e n .fresh
        | .running => s.lostRunning e n .fresh true
        | .stopping =>
          let s := (s.withdrawCall e n).changeOutcome e n fun x =>
            if x.status = .dropped then x else { x.become .stopped with waiting := [] }
          s.closeIfDone e

/-- A CYCLING site of a RUNNING lease is seen to hold no cycle, at least 2 s before the End (R106). -/
def State.cycleLost (s : State) (n : SiteName) (h : Handle) : State :=
  match (s.leaseOf h.entry).bind fun l => (l.siteOf n).map fun x => (l, x) with
  | none => s
  | some (l, x) =>
    if s.handleOf h.entry = h ∧ l.state = .running ∧ x.status = .cycling ∧ s.nowD + 2 ≤ l.stop then
      (s.changeOutcome h.entry n fun x =>
        { x.gone with endBound := x.endBound.map fun b => min b l.stop }).lostRunning h.entry n .lost true
    else s

/-- Withdraws the queued lease calls of a site whose record leaves COMMISSIONED (R81). A queued DISARM, STOP or
CHECK so withdrawn leaves the site STOP_FAILED with Failure LOST (R88, R109). -/
def State.withdrawSiteCalls (s : State) (n : SiteName) : State :=
  s.each entryNames fun s e =>
    match (s.leaseOf e).bind (·.siteOf n) with
    | some x =>
      if x.call.any (!·.inFlight) then
        let stops := x.call.any (fun c => c.call == .disarm || c.call == .stop || c.call == .check) && x.status != .dropped
        (s.withdrawCall e n).changeOutcome e n fun x =>
          if stops then { (x.become .stopFailed).fail .lost with waiting := [] } else { x with waiting := [] }
      else s
    | none => s

/-- Every STOPPING lease with no call left closes. -/
def State.closeAllDone (s : State) : State := s.each entryNames fun s e => s.closeIfDone e

/-- A DONE answer that shows mode FRESH is passed to the lease that holds the site, whatever the site's state (R12). -/
def State.passMode (s : State) (n : SiteName) (mode : NodeMode) : State := if mode = .fresh then s.leaseFresh n else s

/-! ### Ends of lease calls (R84, R88, R109, R111, R116) -/

/-- The last exchange of a lease with a site's node after a call of the lease has ended (R79). An ARM counts as one
without an answer from its sending on, so one that ended as a break before it was sent leaves no exchange (assumption
log 15). -/
def exchangeAfter (c : LeaseCall) (e : End) (before : LastExchange) : LastExchange :=
  match c, e with
  | .arm, .done _ => .armDone
  | .arm, .refused .occupied => .armOccupied
  | .arm, .refused _ => .armRefused
  | .arm, .failure | .arm, .brk _ => before
  | .disarm, .done _ | .disarm, .refused .notCycling | .disarm, .refused .fresh => .cycleGone
  | .stop, .done _ | .stop, .refused .notCycling | .stop, .refused .fresh => .cycleGone
  | .disarm, _ | .stop, _ => .stopFailed
  | .check, .done (.check .none _) => .cycleGone
  | .check, _ => before
  | .extend _, _ | .repattern .., _ => before

/-- The end bound of a site after a call of its lease has ended (R111). -/
def boundAfter (c : LeaseCall) (e : End) (before : Option Nat) : Option Nat :=
  match c, e with
  | .extend newEnd, .done _ => some newEnd
  | .extend newEnd, .failure => some (before.elim newEnd (max newEnd))
  | _, _ => before

/-- The Failure an end other than DONE gives (R72). -/
def End.asFailure : End → Failure
  | .done _ => .notInTime
  | .refused r => .refused r
  | .failure => .noAnswer
  | .brk _ => .brk

/-- How a site ended in a change (R111). -/
def End.asChangeEnd : End → ChangeEnd
  | .done _ => .done
  | .refused r => .refused r
  | .failure => .noAnswer
  | .brk _ => .brk

/-- Whether a call has ended DONE. -/
def End.isDone : End → Bool
  | .done _ => true
  | _ => false

/-- Whether a STOP or DISARM shows that the node holds no cycle (R80, R88, R109). -/
def End.stopped : End → Bool
  | .done _ | .refused .notCycling | .refused .fresh => true
  | _ => false

/-- An ARM that counts has ended (R84; R92 for one that a release found in flight). Where the same end has lost the ARM's
own site, by a break or at the line error threshold, the loss was taken first (R81) and its Failure LOST stands
(assumption log 51). -/
def State.armEnd (s : State) (e : EntryNo) (n : SiteName) (r : End) : State :=
  match s.leaseOf e with
  | none => s
  | some l =>
    if r.isDone then
      let s := (s.changeOutcome e n (·.become .armed)).changeLease e fun l =>
        { l with run := l.run.or (some ⟨l.start * 10, 1, []⟩) }
      if l.state = .stopping then
        if s.isCommissioned n then s.placeCall e n .disarm
        else s.changeOutcome e n fun x => (x.become .stopFailed).fail .lost
      else
        let s := match l.change with
          | some (.extend newEnd false) =>
            if s.isCommissioned n then
              (s.changeOutcome e n fun x => { x with change := some none }).placeCall e n (.extend newEnd)
            else s
          | _ => s
        s.armedIfAll e
    else s.changeOutcome e n (·.fail r.asFailure)

/-- A DISARM or STOP of a STOPPING lease has ended (R88, R109). -/
def State.stopEnd (s : State) (e : EntryNo) (n : SiteName) (r : End) : State :=
  s.changeOutcome e n fun x =>
    if r.stopped then x.become .stopped else (x.become .stopFailed).fail r.asFailure

/-- A CHECK of a STOPPING lease has ended (R109). -/
def State.checkEnd (s : State) (e : EntryNo) (n : SiteName) (r : End) : State :=
  match r with
  | .done (.check .none _) => s.changeOutcome e n (·.become .stopped)
  | .done _ =>
    if s.isCommissioned n then s.placeCall e n .stop
    else s.changeOutcome e n fun x => (x.become .stopFailed).fail .lost
  | r => s.changeOutcome e n fun x => (x.become .stopFailed).fail r.asFailure

/-- An EXTEND or REPATTERN that counts has ended: NOT_CYCLING is first taken by R106; an expected site joins the
answered set (R111, R116). An end that has lost its own site was taken as that loss first (R81; assumption log 51). -/
def State.changeCallEnd (s : State) (e : EntryNo) (n : SiteName) (r : End) : State :=
  let s := match r with
    | .refused .notCycling => s.cycleLost n (s.handleOf e)
    | _ => s
  let s := match (s.leaseOf e).bind (·.change) with
    | some _ => s.changeOutcome e n fun x =>
        if x.unanswered then { x with change := some (some r.asChangeEnd) } else x
    | none => s
  s.checkDecision e

/-- The call that waits for a site is placed when the one before it has ended (R81). A stopping call whose site
has left COMMISSIONED is not placed, and ends as one withdrawn from its queue (R109; assumption log 41). -/
def State.placeWaiting (s : State) (e : EntryNo) (n : SiteName) : State :=
  match (s.leaseOf e).bind (·.siteOf n) with
  | some x =>
    match x.call, x.waiting with
    | none, c :: rest =>
      if s.isCommissioned n then (s.changeOutcome e n fun x => { x with waiting := rest }).placeCall e n c
      else s.changeOutcome e n fun x =>
        if x.status = .dropped ∨ c.isChange then { x with waiting := [] }
        else { (x.become .stopFailed).fail .lost with waiting := [] }
    | _, _ => s
  | none => s

/-- A lease call has ended. The lease that has closed since takes nothing of it (R81), and a site that is DROPPED takes
nothing but its exchange (R117). -/
def State.leaseCallEnd (s : State) (n : SiteName) (h : Handle) (r : End) : State :=
  let e := h.entry
  match (s.leaseOf e).bind (·.siteOf n) with
  | none => s
  | some x =>
    match x.call with
    | none => s
    | some c =>
      if s.handleOf e ≠ h ∨ !c.inFlight then s
      else
        let s := s.changeOutcome e n fun x =>
          { x with
              call := none
              exchange := exchangeAfter c.call r x.exchange
              endBound := boundAfter c.call r x.endBound }
        let s := if !c.counts || x.status == .dropped then s else
          match c.call with
          | .arm => s.armEnd e n r
          | .disarm | .stop => s.stopEnd e n r
          | .check => s.checkEnd e n r
          | .extend _ | .repattern .. => s.changeCallEnd e n r
        (s.placeWaiting e n).closeIfDone e

/-! ### Loss of time and steps of the count (R82, R121) -/

/-- Section time enters LOST: every live lease leaves the states that need it (R121), in ascending order of entry number,
so that leases closed together join the close order so (assumption log 29). -/
def State.leasesTimeLost (s : State) : State :=
  s.each entryNames fun s e =>
    match s.leaseOf e with
    | none => s
    | some l =>
      match l.state with
      | .granted => s.closeLease e .timeLost
      | .arming | .armed => s.stopArming e .timeLost
      | .running => s.stopRunning e .timeLost
      | .stopping | .closed => s

/-- A step of the count closes each GRANTED lease whose arming time lies before it (R82), in ascending order of entry
number (assumption log 29). -/
def State.leasesStepped (s : State) (v : Nat) : State :=
  s.each entryNames fun s e =>
    match s.leaseOf e with
    | some l => if l.state = .granted ∧ l.start < v + 30 then s.closeLease e .timeLost else s
    | none => s

end Sys2Proof.Machine
end

