-- ==== Sys2Proof/Machine/Sites.lean ====
section
/-! DEFINITION. Changes of a site's state with everything they pass on, and what the line does to a record
(R9 to R17, R27, R46, R171). -/

namespace Sys2Proof.Machine

open Sys2Proof

/-! ### What a change of state passes on -/

/-- A relay transfer ends with a result (R170, R171). -/
def State.endRelay (s : State) (result : RelayResult) : State :=
  ({ s with relay := ⟨.idle, none, some result⟩ }).raise .relayDone

/-- A queued RELAY is withdrawn with its site (R171). -/
def State.withdrawRelay (s : State) (n : SiteName) : State :=
  match s.relay.state, s.relay.work with
  | .queued, some (m, slots) =>
    if m = n then (s.dropHost (branchOf n) .relay).endRelay ⟨n, slots.map fun _ => .notSent, .lost⟩ else s
  | _, _ => s

/-- Whether an item is an orphan call of a site (R183). -/
def HostItem.orphanOf (n : SiteName) : HostItem → Bool
  | .orphan m _ _ => m == n
  | _ => false

/-- A queued or held orphan call is withdrawn with a site that enters VACANT (R183). -/
def State.withdrawOrphan (s : State) (n : SiteName) : State :=
  let b := branchOf n
  let l := s.line b
  if l.hostFifo.any (HostItem.orphanOf n) || l.held.any (HostItem.orphanOf n) then
    let s := s.setLine b { l with
      hostFifo := l.hostFifo.filter fun i => !HostItem.orphanOf n i
      held := l.held.filter fun i => !HostItem.orphanOf n i }
    let x := s.bring b
    s.setBring b { x with orphans := x.orphans.filter (· != n) }
  else s

/-- The RESTORE of step 8 for a site has ended (R184). -/
def State.restoreEnded (s : State) (n : SiteName) : State :=
  let b := branchOf n
  let x := s.bring b
  s.setBring b { x with restores := x.restores.filter (· != n) }

/-- Whether entry into a state withdraws the Pending call (R9). -/
def withdrawsPending (new : SiteState) (p : PendingCall) : Bool :=
  match new with
  | .mismatch | .discovered | .vacant => true
  | .unreachable => p.stage != .inFlight
  | .commissioning | .commissioned | .retiring => false

/-- Takes a withdrawn Pending call off the line: out of its queue, or detached where it is in flight (R9). -/
def State.withdrawFromLine (s : State) (n : SiteName) (p : PendingCall) : State :=
  if p.stage = .inFlight then s.detach n else (s.unqueue n).restoreEnded n

/-- Whether entry into a state drops the site's draft (R46). -/
def dropsDraft (new old : SiteState) : Bool :=
  match new with
  | .vacant | .mismatch | .retiring => true
  | .discovered => old == .retiring || old == .mismatch
  | .commissioning | .commissioned | .unreachable => false

/-- A record as it enters a state: readings cleared (R7), conditions ended (R11). -/
def SiteRecord.entering (r : SiteRecord) (old : SiteState) : SiteRecord :=
  let r := if old = .unreachable then { r with faults := r.faults.setPresent .linkLost false } else r
  match r.state with
  | .discovered => { r with readings := none, faults := r.faults.onDiscovered }
  | .mismatch => { r with readings := none }
  | .vacant | .commissioning | .commissioned | .unreachable | .retiring => r

/-- A held RESTORE is placed in the queue when its site returns (R40). -/
def State.requeue (s : State) (n : SiteName) : State :=
  match (s.site n).pending with
  | some p =>
    if p.stage = .held then
      let b := branchOf n
      let l' := (s.line b).push (.pending n)
      (s.setLine b l').setPending n (some { p with stage := l'.stageOf (.pending n) })
    else s
  | none => s

/-- What the other blocks lose when a record leaves COMMISSIONED: window counts (R65), queued lease calls (R81)
and lease polls (R103). -/
def State.leftCommissioned (s : State) (n : SiteName) : State :=
  let drop (l : Line) : Line := { l with leasePolls := l.leasePolls.filter fun q => q.site != n }
  let s := (s.zeroCounts n).withdrawSiteCalls n
  { s with lines := ⟨drop s.lines.west, drop s.lines.east⟩ }

/-- What the state entered brings with it: LINK_LOST (R11), the upkeep items (R48), the attempt age (R135), the
frozen readings (R146) and orphan calls (R183). -/
def State.entered (s : State) (n : SiteName) (new : SiteState) : State :=
  match new with
  | .unreachable => s.setCondition n .linkLost true
  | .discovered => s.setUpkeep n Upkeep.blank
  | .vacant => (((s.setUpkeep n Upkeep.blank).setAttempt n none).setFrozen n none).withdrawOrphan n
  | .commissioning | .commissioned | .mismatch | .retiring => s

/-- Whether a state is a loss of a held site, and of a queued RELAY (R12, R171). -/
def SiteState.isLoss : SiteState → Bool
  | .unreachable | .mismatch | .vacant => true
  | .discovered | .commissioning | .commissioned | .retiring => false

/-- The lease that held a site is told of its loss (R12). -/
def State.tellLoss (s : State) (n : SiteName) (holder : Option Handle) (new : SiteState) : State :=
  match holder with
  | some h => if new.isLoss then s.leaseLost n h else s
  | none => s

/-- A record takes a new content. Where its state changes, all that the change withdraws, drops, latches and
passes on is done in the same step (R9, R11, R12, R46, R81, R171). -/
def State.enter (s : State) (n : SiteName) (r : SiteRecord) : State :=
  let old := s.site n
  if r.state = old.state then s.claim n r
  else
    let withdrawn := old.pending.filter (withdrawsPending r.state)
    let kept := old.pending.filter fun p => !withdrawsPending r.state p
    let s := withdrawn.elim s (s.withdrawFromLine n)
    let s := s.claim n ({ r with pending := kept }.entering old.state)
    let s := s.whenever (withdrawn.any (·.purpose == .commit)) fun s => s.reopenDraft n .noAnswer
    let s := s.whenever (dropsDraft r.state old.state) fun s => s.dropDraft n
    let s := s.whenever (old.state == .commissioned) fun s => s.leftCommissioned n
    let s := s.entered n r.state
    let s := s.whenever r.state.isLoss fun s => s.withdrawRelay n
    let s := (s.tellLoss n old.holder r.state).closeAllDone
    s.whenever (old.state == .unreachable && r.state == .commissioned) fun s => s.requeue n

/-- A record enters a state with its content otherwise as it stands. -/
def State.become (s : State) (n : SiteName) (state : SiteState) : State := s.enter n { s.site n with state := state }

/-! ### Ends of a commit (R43) -/

/-- Pending of a site ends. -/
def State.endPending (s : State) (n : SiteName) : State := (s.setPending n none).restoreEnded n

/-- A commit fails: the draft returns to OPEN, and a first commit returns its record to DISCOVERED. -/
def State.failCommit (s : State) (n : SiteName) (result : CommitResult) : State :=
  let s := s.reopenDraft n result
  if (s.site n).state = .commissioning then s.become n .discovered else s.endPending n

/-- Whether the site is taking its first commit. -/
def SiteRecord.firstCommit (r : SiteRecord) : Bool :=
  r.state == .commissioning && !r.pending.any (·.purpose == .adopt)

/-! ### What the line does to a site (R13 to R17) -/

/-- A transaction failure at the line error threshold (R13). -/
def State.failedAtThreshold (s : State) (n : SiteName) : State :=
  let r := s.site n
  match r.state with
  | .commissioned | .mismatch | .retiring => s.become n .unreachable
  | .commissioning => if r.firstCommit then s.failCommit n .noAnswer else s.become n .unreachable
  | .vacant | .discovered | .unreachable => s

/-- A site beyond a break (R14). -/
def State.beyondBreak (s : State) (n : SiteName) : State :=
  let r := s.site n
  match r.state with
  | .commissioned | .mismatch | .retiring => s.become n .unreachable
  | .commissioning => s.become n (if r.firstCommit then .vacant else .unreachable)
  | .discovered => s.become n .vacant
  | .vacant | .unreachable => s

/-- Every site beyond a position of a branch is changed by a break there (R14): one after the other, nearest first, each
with what it passes on to its lease (R12) before the next record changes (assumption log 30). -/
def State.sitesBeyond (s : State) (b : Branch) (position : Nat) : State :=
  s.each ((branchSites b).filter fun n => position < positionOf n) fun s n => s.beyondBreak n

/-- A queued or held Pending call is withdrawn (R16). -/
def State.withdrawQueued (s : State) (n : SiteName) : State :=
  match (s.site n).pending with
  | some p => if p.stage = .inFlight then s else (s.withdrawFromLine n p).setPending n none
  | none => s

/-- A DISCOVERED record takes the node present, as it reports itself (assumption log 39), in place of its own; a serial
another record holds makes it VACANT (R16, R27). -/
def State.rediscover (s : State) (n : SiteName) (serial : Nat) (plate : Nameplate) (mode : NodeMode) : State :=
  if (s.otherHolding? n serial).isSome then s.become n .vacant
  else
    let s := (s.dropDraft n).withdrawQueued n
    s.change n fun r =>
      { r with
          node := r.node.map fun i => { i with serial := serial, plate := plate, mode := some mode }
          readings := none }

/-- The serial of a DONE answer to a POLL or an APPLY (R15, R16, R17, R22). Found node is the node as it reports itself
(assumption log 39). -/
def State.takeSerial (s : State) (n : SiteName) (serial : Nat) (plate : Nameplate) (mode : NodeMode) : State :=
  let r := s.site n
  match r.node with
  | none => s
  | some i =>
    if i.serial = serial then
      match r.state with
      | .unreachable | .mismatch => s.become n .commissioned
      | .retiring => s.claim n { r with found := none }
      | .vacant | .discovered | .commissioning | .commissioned => s
    else
      match r.state with
      | .commissioned | .unreachable | .commissioning =>
        s.enter n { r with state := .mismatch, found := some ⟨serial, plate, mode⟩ }
      | .mismatch | .retiring => s.claim n { r with found := some ⟨serial, plate, mode⟩ }
      | .discovered => s.rediscover n serial plate mode
      | .vacant => s

/-- Whether a serial is the Node serial of a site's record. -/
def State.recordedIs (s : State) (n : SiteName) (serial : Nat) : Bool := (s.site n).node.any fun i => i.serial == serial

end Sys2Proof.Machine
end

