-- ==== Sys2Proof/Machine/Upkeep.lean ====
section
/-! DEFINITION. The Upkeep Engine, the Poll Scanner's part of a poll answer, and the Lease Table's part of it
(chapters 3 and 7; R104 to R106). -/

namespace Sys2Proof.Machine

open Sys2Proof

/-! ### Acknowledged and unconfirmed currents (R49) -/

/-- A DONE answer to a REFRESH or an APPLY: the value carried is acknowledged (R49). -/
def State.acknowledge (s : State) (n : SiteName) (v : Nat) : State :=
  s.setUpkeep n { s.upkeepOf n with acknowledged := some v, unconfirmed := none }

/-- A transaction failure of a REFRESH or an APPLY leaves the value carried unconfirmed (R49). -/
def State.unconfirm (s : State) (n : SiteName) (v : Nat) : State :=
  s.setUpkeep n { s.upkeepOf n with unconfirmed := some v }

/-- Refresh age becomes 0 (R7). -/
def State.refreshed (s : State) (n : SiteName) : State :=
  s.changeComm n fun c => { c with refreshFrom := s.timebase }

/-- The Node mode of a record (R4). -/
def State.setMode (s : State) (n : SiteName) (m : NodeMode) : State := s.changeNode n fun i => { i with mode := some m }

/-! ### Nameplate reload (R61) -/

/-- The nameplate after a reload: each reported value within its range is taken. -/
def reloaded (old reported : Nameplate) : Nameplate where
  current := if 1 ≤ reported.current ∧ reported.current ≤ 6000 then reported.current else old.current
  voltage := if 1 ≤ reported.voltage ∧ reported.voltage ≤ 1000 then reported.voltage else old.voltage

/-- The nameplate of a record whose override is off is reloaded; a change adds the site to the change set. The
claim acts on the limits (R62). -/
def State.reload (s : State) (n : SiteName) (reported : Nameplate) : State :=
  match (s.site n).node with
  | some i =>
    if i.hostPlate ∨ reloaded i.plate reported = i.plate then s
    else (s.changeNode n fun i => { i with plate := reloaded i.plate reported }).siteChanged n
  | none => s

/-! ### Echo checking (R60) -/

/-- An echo that matches its reference. -/
def State.echoMatches (s : State) (n : SiteName) : State :=
  let s := s.setCondition n .setpointMismatch false
  s.setUpkeep n { s.upkeepOf n with restoreSpent := false }

/-- An echo that differs, or a refused REFRESH: a RESTORE is placed where restore spent is clear. -/
def State.echoDiffers (s : State) (n : SiteName) : State :=
  let s := s.setCondition n .setpointMismatch true
  if (s.upkeepOf n).restoreSpent then s else s.claimRestore n

/-- An echo compared with its reference. -/
def State.checkEcho (s : State) (n : SiteName) (matched : Bool) : State :=
  if matched then s.echoMatches n else s.echoDiffers n

/-- The check of a POLL echo (R60): made while the site has no APPLY Pending; an echo equal to the unconfirmed
current acknowledges it. -/
def State.checkPollEcho (s : State) (n : SiteName) (told : Nat) : State :=
  let r := s.site n
  if r.pending.any (·.purpose.isApply) then s
  else
    let u := s.upkeepOf n
    if u.unconfirmed = some told then (s.acknowledge n told).echoMatches n
    else s.checkEcho n (u.acknowledged.or (r.comm.map (·.applied)) == some told)

/-! ### FRESH and STANDALONE nodes (R56, R57) -/

/-- A FRESH answer of a COMMISSIONED site (R57). -/
def State.freshAnswer (s : State) (n : SiteName) : State :=
  let before := (s.site n).node.bind (·.mode)
  let s := s.whenever (before == some .attended || before == some .standalone) fun s => s.latchFault n .nodeRestarted
  let s := s.setMode n .fresh
  let spent := (s.upkeepOf n).restoreSpent
  let s := s.setUpkeep n ⟨none, none, false, spent, 0, 0⟩
  let s := if spent then s else s.claimRestore n
  s.leaseFresh n

/-- Whether a STANDALONE report asks for a refresh: the site has a set-point block and is neither RETIRING nor in
MISMATCH. While the site is not eligible the mark waits, and an APPLY that is sent first clears it (R51, R56). -/
def SiteRecord.takesStandalone (r : SiteRecord) : Bool := r.comm.isSome && r.state != .retiring && r.state != .mismatch

/-- A STANDALONE report of the recorded node (R56). -/
def State.standaloneAnswer (s : State) (n : SiteName) : State :=
  let s := (s.setMode n .standalone).siteChanged n
  s.whenever (s.site n).takesStandalone fun s => s.setDue n

/-! ### The protection window and trim (R63 to R67) -/

/-- The applied current raised by a trim action (R67). -/
def raised (b : Block) (limit applied : Nat) : Nat := min (applied + b.trimStep) (min b.trimCeiling limit)

/-- The applied current lowered by a trim action (R67). -/
def lowered (b : Block) (limit applied : Nat) : Nat := min (max (applied - b.trimStep) b.trimFloor) limit

/-- Whether a trim action may be taken on a site (R67). -/
def SiteRecord.mayTrim (r : SiteRecord) : Bool :=
  r.comm.any (·.trim == some .active) && !r.faults.isPresent .overcurrent && !r.faults.isPresent .acLost
    && !r.pending.any (·.purpose.isApply)

/-- A trim action (R67). -/
def State.trimAction (s : State) (n : SiteName) (move : Block → Nat → Nat → Nat) : State :=
  let r := s.site n
  match r.node, r.comm with
  | some i, some c =>
    let applied := move c.block (effectiveLimit c.block i.plate) c.applied
    if r.mayTrim ∧ applied ≠ c.applied then
      ((s.changeComm n fun c => { c with applied := applied }).setDue n).siteChanged n
    else s
  | _, _ => s

/-- One side of the window: an estimate outside counts, and at the window count latches the fault, restarts the
count and trims (R64). -/
def State.outsideWindow (s : State) (n : SiteName) (kind : FaultKind) (count window : Nat)
    (setCount : State → Nat → State) (move : Block → Nat → Nat → Nat) : State :=
  if window ≤ count + 1 then (setCount (s.setCondition n kind true) 0).trimAction n move
  else setCount s (count + 1)

/-- A checked estimate compared with the window (R64). -/
def State.checkEstimate (s : State) (n : SiteName) (b : Block) (estimate : Int) : State :=
  let u := s.upkeepOf n
  if b.protectLimit < estimate then
    (s.setCondition n .overProtected false).outsideWindow n .underProtected u.underCount b.windowCount
      (fun s k => s.setUpkeep n { s.upkeepOf n with underCount := k, overCount := 0 }) raised
  else if estimate < b.overprotectLimit then
    (s.setCondition n .underProtected false).outsideWindow n .overProtected u.overCount b.windowCount
      (fun s k => s.setUpkeep n { s.upkeepOf n with underCount := 0, overCount := k }) lowered
  else ((s.setCondition n .underProtected false).setCondition n .overProtected false).zeroCounts n

/-- The window check of a POLL answer (R63). -/
def State.checkWindow (s : State) (n : SiteName) (a : PollAnswer) : State :=
  let r := s.site n
  match r.comm, r.irOffset, a.on with
  | some c, some ir, some on =>
    if r.holder = none ∧ r.stray = none ∧ a.cycle = .none then s.checkEstimate n c.block (on - ir.millivolts) else s
  | _, _, _ => s

/-! ### The Poll Scanner's part of a poll answer (R139 to R141) -/

/-- The less negative of two potentials, one of which may be absent. -/
def lessNegative (a b : Option Int) : Option Int :=
  match a, b with
  | some x, some y => some (max x y)
  | some x, none => some x
  | none, y => y

/-- The more negative of two potentials, one of which may be absent. -/
def moreNegative (a b : Option Int) : Option Int :=
  match a, b with
  | some x, some y => some (min x y)
  | some x, none => some x
  | none, y => y

/-- The live readings after a poll answer (R140). -/
def updateReadings (before : Option Readings) (a : PollAnswer) (now : Option Nat) : Readings where
  outputCurrent := a.outputCurrent
  outputVoltage := a.outputVoltage
  on := a.on
  instantOff := a.instantOff.map (·.1)
  pollTime := now
  polls := before.elim 1 fun x => min (x.polls + 1) 65535
  leastOn := lessNegative (before.bind (·.leastOn)) a.on
  mostOn := moreNegative (before.bind (·.mostOn)) a.on

/-- The readings, the poll age and the two cabinet conditions are taken from the answering node (R139 step 2). -/
def State.takeReadings (s : State) (n : SiteName) (a : PollAnswer) : State :=
  let s := s.change n fun r =>
    { r with
        node := r.node.map fun i => { i with pollFrom := s.timebase }
        readings := some (updateReadings r.readings a s.now) }
  (s.setCondition n .overcurrent a.overcurrent).setCondition n .acLost a.mainsLost

/-- The Upkeep Engine takes a poll answer of the recorded node (R56, R57, R59). -/
def State.upkeepPoll (s : State) (n : SiteName) (a : PollAnswer) : State :=
  if (s.site n).state = .commissioned then
    match a.mode with
    | .fresh => s.freshAnswer n
    | .standalone => ((s.standaloneAnswer n).checkPollEcho n a.echo).checkWindow n a
    | .attended => ((s.setMode n .attended).checkPollEcho n a.echo).checkWindow n a
  else
    (match a.mode with
      | .standalone => s.standaloneAnswer n
      | m => s.setMode n m).claimClean n

/-! ### The Lease Table's part of a poll answer (R104 to R106) -/

/-- An IR offset candidate is taken into the record (R105). -/
def State.takeIrOffset (s : State) (n : SiteName) (on off : Int) (second : Nat) : State :=
  if -2000 ≤ on - off ∧ on - off ≤ 0 then
    (s.change n fun r => { r with irOffset := some ⟨on - off, second⟩, dirty := true }).zeroCounts n
  else s

/-- Skipped cycles of a site increase by 1, up to 255 (R102, R103). -/
def LeaseSite.skip (x : LeaseSite) : LeaseSite := { x with skipped := min (x.skipped + 1) 255 }

/-- Whether a site is CYCLING in the lease a handle names. -/
def State.cyclingIn (s : State) (n : SiteName) (h : Handle) : Bool :=
  s.handleOf h.entry == h && ((s.leaseOf h.entry).any fun l =>
    l.live && ((l.siteOf n).any fun x => x.status == .cycling))

/-- A lease poll answered DONE while its site is still CYCLING, whatever the site's state and the answering node (R104
step 4; assumption log 45). -/
def State.leasePollDone (s : State) (n : SiteName) (h : Handle) (second : Nat) (a : PollAnswer) : State :=
  if s.cyclingIn n h then
    match a.instantOff with
    | some (off, _) =>
      let s := s.changeOutcome h.entry n fun x => { x with lastOff := some off }
      match a.on with
      | some on => s.takeIrOffset n on off second
      | none => s
    | none => s.changeOutcome h.entry n (·.skip)
  else s

/-- A cycle state of NONE from the recorded node: the lease that holds the site sees its cycle gone (R79, R106),
and a stray time is cleared (R80). A FRESH answer has been taken by R57. -/
def State.noCycle (s : State) (n : SiteName) (mode : NodeMode) : State :=
  let s := match (s.site n).holder with
    | some h =>
      let s := s.whenever (s.handleOf h.entry == h) fun s => s.changeOutcome h.entry n (·.gone)
      if mode = NodeMode.fresh then s else s.cycleLost n h
    | none => s
  s.clearStray n

/-- A DONE answer to a POLL, taken by the blocks in the order of R139. -/
def State.pollAnswer (s : State) (n : SiteName) (leasePoll : Option (Handle × Nat)) (a : PollAnswer) : State :=
  let s := s.takeSerial n a.serial a.plate a.mode
  if (s.site n).node.isNone then s
  else
    let s := s.takeReadings n a
    let recorded := s.recordedIs n a.serial
    let s := if recorded then s.upkeepPoll n a else s.passMode n a.mode
    let s := match leasePoll with
      | some (h, second) => s.leasePollDone n h second a
      | none => s
    if recorded ∧ a.cycle = .none then s.noCycle n a.mode else s

end Sys2Proof.Machine
end

