-- ==== Sys2Proof/Machine/Bringup.lean ====
section
/-! DEFINITION. The Bring-up Controller: discovery walks, reconciliation, orphan cycles, training, and the phases
and jobs of a branch (chapter 9). -/

namespace Sys2Proof.Machine

open Sys2Proof

/-- Changes what the Bring-up Controller holds for a branch. -/
def State.changeBring (s : State) (b : Branch) (f : BringUp → BringUp) : State := s.setBring b (f (s.bring b))

/-! ### READY (R184, R175) -/

/-- Bring-up is done when every branch is READY, with BRINGUP_DONE (R173, R175). -/
def State.checkBringupDone (s : State) : State :=
  if !s.bringupDone && s.bringup.west.phase == .ready && s.bringup.east.phase == .ready then
    ({ s with bringupDone := true }).raise .bringupDone
  else s

/-- A branch enters READY when every RESTORE of its step 8 has ended (R184). -/
def State.checkReady (s : State) (b : Branch) : State :=
  let x := s.bring b
  if x.phase = .applying ∧ x.restores = [] then
    (s.setBring b { x with phase := .ready, walk := .none }).checkBringupDone
  else s

/-- A branch enters APPLYING: a RESTORE claim for every COMMISSIONED site, in order of position (R184). -/
def State.enterApplying (s : State) (b : Branch) : State :=
  let sites := (branchSites b).filter fun n => s.isCommissioned n
  let s := s.changeBring b fun x => { x with phase := .applying, walk := .applying, restores := sites }
  (s.each sites fun s n => s.claimRestore n).checkReady b

/-! ### Training (R187, R188, R189) -/

/-- A training walk ends: step 7 leads to step 8, and a TRAIN job to NONE with TRAIN_DONE. -/
def State.trainingEnded (s : State) (b : Branch) : State :=
  if (s.bring b).phase = .training then s.enterApplying b
  else (s.changeBring b fun x => { x with job := .none, walk := .none }).raise .trainDone

/-- A training walk starts at position 1; with a discovered extent of 0 it ends at once (R187). -/
def State.startTraining (s : State) (b : Branch) : State :=
  if (s.bring b).extent = 0 then s.trainingEnded b
  else (s.changeBring b fun x => { x with walk := .training ⟨1, 0, none, 2000, 0⟩ }).pushHost b (.echo 1)

/-- The line delay of a position is taken by its record where the record has a Node serial (R188). -/
def State.takeDelay (s : State) (n : SiteName) (delay : Nat) : State :=
  let r := s.site n
  if r.node.isNone ∨ r.lineDelay = some delay then s
  else ((s.claim n { r with lineDelay := some delay }).siteChanged n).whenever r.comm.isSome fun s => s.setDue n

/-- The least of the round trips measured so far. -/
def leastTrip (before : Option Nat) (trip : Nat) : Nat := before.elim trip (min trip)

/-- All 4 ECHOes at a position have ended DONE: its delay is computed and taken, and the walk moves on or ends.
`t.before` is the least round trip at the position before, or the 2 ms turnaround at position 1; the sum of the
hop delays is kept in half microseconds (R187, R188). -/
def State.positionMeasured (s : State) (b : Branch) (t : Training) (rtt : Nat) : State :=
  let sum := t.sum + (rtt - t.before)
  let delay := sum / 2
  if 65535 < delay then s.trainingEnded b
  else
    let s := (siteAt? b t.position).elim s fun n => s.takeDelay n delay
    if (s.bring b).extent ≤ t.position then s.trainingEnded b
    else
      (s.changeBring b fun x => { x with walk := .training ⟨t.position + 1, 0, none, rtt, sum⟩ }).pushHost b
        (.echo (t.position + 1))

/-- A training ECHO has ended; `trip` is its round trip (R187). -/
def State.echoEnd (s : State) (b : Branch) (r : End) (trip : Nat) : State :=
  match (s.bring b).walk with
  | .training t =>
    if r.isDone then
      let rtt := leastTrip t.least trip
      if 4 ≤ t.ended + 1 then s.positionMeasured b t rtt
      else
        (s.changeBring b fun x => { x with walk := .training { t with ended := t.ended + 1, least := some rtt } }).pushHost
          b (.echo t.position)
    else s.trainingEnded b
  | _ => s

/-! ### Orphan calls (R183) -/

/-- When the walk's orphan calls have ended, the branch trains at start-up, and a job ends with DISCOVER_DONE
(R175, R185, R186). -/
def State.checkOrphans (s : State) (b : Branch) : State :=
  let x := s.bring b
  if x.walk = .orphans ∧ x.orphans = [] then
    if x.phase = .discovering then (s.setBring b { x with phase := .training }).startTraining b
    else (s.setBring b { x with job := .none, walk := .none }).raise .discoverDone
  else s

/-- A branch moves on where nothing it waits for is left. -/
def State.advance (s : State) (b : Branch) : State := (s.checkOrphans b).checkReady b

/-- Either branch moves on where nothing it waits for is left. -/
def State.advanceBoth (s : State) : State := (s.advance .west).advance .east

/-- An orphan STOP or DISARM has ended (R183). -/
def State.orphanEnd (s : State) (n : SiteName) (cycleEnd : Nat) (r : End) : State :=
  let s := if r.stopped then s.clearStray n else s.writeStray n cycleEnd
  s.changeBring (branchOf n) fun x => { x with orphans := x.orphans.filter (· != n) }

/-! ### Reconciliation (R179 to R183) -/

/-- The home record of a serial: the record whose Node serial equals it (R179). -/
def State.homeOf? (s : State) (serial : Nat) : Option SiteName :=
  siteNames.find? fun m => (s.site m).node.any fun i => i.serial == serial

/-- Whether a record may move (R179). -/
def State.movable (s : State) (n : SiteName) : Bool :=
  let r := s.site n
  r.holder.isNone && r.stray.isNone && r.pending.isNone && !s.committing n

/-- A move of a record from its site to the site of its node. -/
structure Move where
  source : SiteName
  dest   : SiteName
  deriving DecidableEq, Repr

/-- A record makes one move: where two nodes report one serial, that of the node found first (assumption log 17). -/
def onePerSource : List Move → List Move
  | [] => []
  | m :: rest => m :: (onePerSource rest).filter fun k => k.source != m.source

/-- The moves the found nodes ask for, before any is blocked: one for each node whose home record stands at
another site, is movable and is not at home. -/
def State.wantedMoves (s : State) (nodes : List (SiteName × EnumAnswer)) : List Move :=
  onePerSource (nodes.filterMap fun p =>
    match s.homeOf? p.2.serial with
    | some home =>
      if home ≠ p.1 ∧ s.movable home ∧ !nodes.any (fun q => q.1 == home && q.2.serial == p.2.serial)
      then some ⟨home, p.1⟩ else none
    | none => none)

/-- A move is blocked where the destination's record has a set-point block and stays (R179). -/
def State.unblocked (s : State) (moves : List Move) : List Move :=
  moves.filter fun m => (s.site m.dest).comm.isNone || moves.any fun k => k.source == m.dest

/-- Removes blocked moves until no further move is blocked; each round but the last removes one at least. -/
def State.settleMoves (s : State) : Nat → List Move → List Move
  | 0, moves => moves
  | k + 1, moves => s.settleMoves k (s.unblocked moves)

/-- The state a record with its own node at its site takes (R15, R17, R180). -/
def SiteState.returned : SiteState → SiteState
  | .unreachable | .mismatch => .commissioned
  | st => st

/-- What a moved record holds at its destination (R181). LIMIT_CLAMPED follows when the record is entered (R62); no other
condition is present until an answer shows it there (assumption log 17). -/
def movedRecord (old : SiteRecord) (now : Nat) : SiteRecord :=
  { SiteRecord.blank with
      state := old.state.returned
      node := old.node.map fun i => { i with pollFrom := now }
      comm := old.comm.map fun c => { c with refreshFrom := now }
      faults := ⟨old.faults.latched, 0⟩
      dirty := true }

/-- The record of a site left by a moved record, or replaced by one, takes a new content. -/
def State.replace (s : State) (n : SiteName) (r : SiteRecord) : State :=
  let s := match (s.site n).pending with
    | some p => (s.withdrawFromLine n p).setPending n none
    | none => s
  (s.dropDraft n).enter n r

/-- One move is made, from the records as they stood before any move (R181). -/
def State.makeMove (s : State) (before : State) (m : Move) : State :=
  let s := s.replace m.dest (movedRecord (before.site m.source) s.timebase)
  ((s.setUpkeep m.dest Upkeep.blank).siteMoved m.dest m.source).siteChanged m.source

/-- The record of a node first found at a site (R180), taken as the node reports itself (assumption log 39). The line delay
belongs to the position and stands (R6, R181). -/
def foundRecord (a : EnumAnswer) (now : Nat) (lineDelay : Option Nat) (dirty : Bool) : SiteRecord :=
  { SiteRecord.blank with
      state := .discovered
      node := some ⟨a.serial, a.plate, false, some a.mode, now⟩
      lineDelay := lineDelay
      dirty := dirty }

/-- An ENUM answer of the node at a site that shows no cycle clears the stray time (R80). -/
def State.enumCycle (s : State) (n : SiteName) (a : EnumAnswer) : State :=
  s.whenever (a.cycle == .none) fun s => s.clearStray n

/-- A found node at the site of its own record, at home or moved there (R180); an answer that shows no cycle
clears the stray time (R80), and a FRESH node of a held site is passed to its lease (R12). -/
def State.atHome (s : State) (n : SiteName) (a : EnumAnswer) : State :=
  let r := s.site n
  let s := if r.state = .unreachable ∨ r.state = .mismatch then s.become n .commissioned
    else if r.state = .retiring then s.claim n { r with found := none }
    else s
  let s := (s.setMode n a.mode).reload n a.plate
  (s.passMode n a.mode).enumCycle n a

/-- A node with no home record stands at a site with no set-point block: the site is DISCOVERED. A DISCOVERED record takes
the node as R16 gives; a VACANT site and one that a record has left take a new record (R180). -/
def State.foundHere (s : State) (n : SiteName) (a : EnumAnswer) (left : Bool) : State :=
  let r := s.site n
  if r.state = .discovered ∧ !left then (s.rediscover n a.serial a.plate a.mode).enumCycle n a
  else s.replace n (foundRecord a s.timebase r.lineDelay (r.dirty || left))

/-- The site of a found node takes its outcome (R180), where a serial that another record holds by now counts as one
whose home record stays elsewhere (R27). `before` is the state before any move: a node whose home record was there
counts as such too where a move replaces that record (assumption log 47). -/
def State.takeOutcome (s : State) (before : State) (moves : List Move) (p : SiteName × EnumAnswer) : State :=
  let n := p.1
  let a := p.2
  let left := moves.any fun m => m.source == n
  let arrived := moves.any fun m => m.dest == n
  if arrived ∨ before.recordedIs n a.serial then s.atHome n a
  else if !left ∧ (before.site n).comm.isSome then (s.takeSerial n a.serial a.plate a.mode).passMode n a.mode
  else if (before.homeOf? a.serial).isSome ∨ (s.otherHolding? n a.serial).isSome then
    if (before.site n).state = .vacant then s else s.replace n { SiteRecord.blank with dirty := true }
  else s.foundHere n a left

/-- A site left by a moved record, with no node found there, becomes VACANT (R180). -/
def State.vacateLeft (s : State) (moves : List Move) (nodes : List (SiteName × EnumAnswer)) : State :=
  s.each ((moves.map (·.source)).filter fun n =>
      !(moves.any fun m => m.dest == n) && !(nodes.any fun p => p.1 == n))
    fun s n => s.replace n { SiteRecord.blank with dirty := true }

/-- A record beyond the discovered extent of a walked branch (R180). -/
def State.beyondExtent (s : State) (n : SiteName) : State :=
  let r := s.site n
  match r.state with
  | .discovered => s.become n .vacant
  | .commissioned | .mismatch | .retiring => s.become n .unreachable
  | .commissioning => if r.firstCommit then s else s.become n .unreachable
  | .vacant | .unreachable => s

/-- A walk that has ended, with what it found in its range. -/
structure EndedWalk where
  branch : Branch
  first  : Nat
  extent : Nat
  nodes  : List (SiteName × EnumAnswer)
  deriving DecidableEq, Repr

/-- The walk of a branch that has ended, its list cut to the range of R179. A break that another call has recorded nearer
meanwhile does not cut it (R180, against R14; assumption log 38). -/
def State.endedWalk (s : State) (b : Branch) (first : Nat) : EndedWalk where
  branch := b
  first := first
  extent := (s.bring b).extent
  nodes := (s.bring b).found.filterMap fun p =>
    if p.1 ≤ (s.bring b).extent then (siteAt? b p.1).map fun n => (n, p.2) else none

/-- ORPHAN_CYCLE is latched for a node that reports a cycle at a site with no holder, and its STOP or DISARM is
placed (R183). A cycle that the answer gives no end for counts as one that ends at second 0 (assumption log 36). At a
VACANT site the record that has the serial by now takes the latch, and none does where a move has replaced that record
(assumption log 58). -/
def State.placeOrphan (s : State) (p : SiteName × EnumAnswer) : State :=
  let n := p.1
  if p.2.cycle = .none ∨ (s.site n).holder.isSome then s
  else
    let marked := if (s.site n).state = .vacant then s.homeOf? p.2.serial else some n
    let s := marked.elim s fun m => s.latchFault m .orphanCycle
    let b := branchOf n
    (s.pushHost b (.orphan n (p.2.cycle == .running) (p.2.cycleEnd.getD 0))).changeBring b fun x =>
      { x with orphans := x.orphans ++ [n] }

/-- The moves, the sites they leave, and the outcome of every found node (R179 to R181). -/
def State.settleNodes (s : State) (moves : List Move) (nodes : List (SiteName × EnumAnswer)) : State :=
  (((s.each moves fun t m => t.makeMove s m).vacateLeft moves nodes).each nodes fun t p => t.takeOutcome s moves p)

/-- The records beyond the extents of the walks, but for those a record has moved to (R180). -/
def State.settleBeyond (s : State) (moves : List Move) (walks : List EndedWalk) : State :=
  s.each walks fun s w =>
    s.each ((branchSites w.branch).filter fun n =>
        decide (max w.extent (w.first - 1) < positionOf n) && !(moves.any fun m => m.dest == n))
      fun s n => s.beyondExtent n

/-- LINK_LOST is latched for every record that reconciliation at start-up leaves UNREACHABLE (R11, R28). -/
def State.latchLinkLost (s : State) : State :=
  s.each siteNames fun s n => if (s.site n).state = .unreachable then s.latchFault n .linkLost else s

/-- Reconciliation of ended walks, orphan calls and CLEAN claims (R179 to R183). `startup` is step 5 of the
start-up sequence. The orphan calls, and the CLEAN RELEASEs after them, are placed in the order of the walks, nearest
position first (assumption log 57). -/
def State.reconcile (s : State) (walks : List EndedWalk) (startup : Bool) : State :=
  let nodes := walks.flatMap (·.nodes)
  let moves := s.settleMoves 64 (s.wantedMoves nodes)
  let s := (s.settleNodes moves nodes).settleBeyond moves walks
  let s := s.whenever startup fun s => s.latchLinkLost
  let s := s.each walks fun s w => s.changeBring w.branch fun x => { x with walk := .orphans, found := [], orphans := [] }
  let s := s.each nodes fun s p => s.placeOrphan p
  s.each nodes fun s p => s.claimClean p.1

/-! ### Discovery (R177, R178) -/

/-- Whether the walk of a branch has ended and waits for reconciliation. -/
def Walk.ended : Walk → Option Nat
  | .walked first => some first
  | .none | .asking _ | .orphans | .training _ | .applying => Option.none

/-- Reconciliation runs for a job when its walk has ended, and at start-up when every strapped branch's walk has
ended (R175, R179). -/
def State.checkReconcile (s : State) (b : Branch) : State :=
  if (s.bring b).phase = .discovering then
    let ends := s.strap.branches.map fun c => (s.bring c).walk.ended.map fun first => s.endedWalk c first
    if ends.all (·.isSome) then
      (s.reconcile (ends.filterMap id) true).each s.strap.branches fun s c => s.advance c
    else s
  else
    match (s.bring b).walk.ended with
    | some first => (s.reconcile [s.endedWalk b first] false).advance b
    | none => s

/-- A walk ends with its discovered extent; a change of Overlength raises LINE_BREAK (R178). -/
def State.endWalk (s : State) (b : Branch) (first extent : Nat) (overlength : Bool) : State :=
  let changed := (s.bring b).overlength != overlength
  let s := s.changeBring b fun x => { x with walk := .walked first, extent := extent, overlength := overlength }
  (s.whenever changed fun s => s.raise .lineBreak).checkReconcile b

/-- The ENUM of a walk at a position has ended (R178). -/
def State.enumEnd (s : State) (b : Branch) (q : Nat) (r : End) : State :=
  match (s.bring b).walk with
  | .asking first =>
    match r with
    | .done (.enum a) =>
      let s := s.changeBring b fun x => { x with found := x.found ++ [(q, a)] }
      if a.endFlag then s.endWalk b first q false
      else if q < 32 then s.pushHost b (.enum (q + 1))
      else s.endWalk b first 32 true
    | .brk p => s.endWalk b first p false
    | .done _ | .refused _ | .failure => s.endWalk b first (q - 1) false
  | _ => s

/-- A discovery walk starts at position 1 (R177). -/
def State.startWalk (s : State) (b : Branch) : State :=
  (s.changeBring b fun x => { x with walk := .asking 1, found := [] }).pushHost b (.enum 1)

/-- Steps 1 to 3 are done: each strapped branch starts its walk, and an unstrapped one is READY (R174, R175). -/
def State.startDiscovery (s : State) : State :=
  let s := s.each [Branch.west, Branch.east] fun s b =>
    if s.strap.selects b then (s.changeBring b fun x => { x with phase := .discovering }).startWalk b
    else s.changeBring b fun x => { x with phase := .ready }
  s.checkBringupDone

/-- A kept Partial request is taken where the branch is READY with job NONE: the walk's list begins with the
probe's answer (R186). Where the walk ends with it, either branch moves on whose last orphan call the reconciliation has
withdrawn (R183). -/
def State.takePartial (s : State) (b : Branch) : State :=
  let x := s.bring b
  match x.request with
  | some (q, a) =>
    if x.phase = .ready ∧ x.job = .none then
      State.advanceBoth ((s.setBring b { x with job := .partly, request := none, walk := .asking q, found := [] }).enumEnd b q
        (.done (.enum a)))
    else s
  | none => s

/-- A probe that found the line mended asks for a partial discovery (R163, R186). -/
def State.askPartial (s : State) (b : Branch) (q : Nat) (a : EnumAnswer) : State :=
  (s.changeBring b fun x => { x with request := some (q, a) }).takePartial b

end Sys2Proof.Machine
end

