-- ==== Sys2Proof/Machine/Line.lean ====
section
/-! DEFINITION. The Line Controllers: the judging of answers, breaks and their probes, held items, and the end of a
transaction as each block takes it (chapter 8; R22, R25, R42, R43, R53, R54, R58). -/

namespace Sys2Proof.Machine

open Sys2Proof

/-! ### Ends of the Pending calls (R22, R25, R26, R42, R43, R58) -/

/-- The applied current a call carried. -/
def Call.carried : Call → Nat
  | .apply _ applied _ _ => applied
  | .refresh applied _ _ => applied
  | _ => 0

/-- A carried value is unconfirmed where the site has a set-point block (R49). -/
def State.unconfirmBlock (s : State) (n : SiteName) (v : Nat) : State :=
  if (s.site n).comm.isSome then s.unconfirm n v else s

/-- Every APPLY answered DONE by the recorded node: refresh age 0, the value carried acknowledged, Node mode
ATTENDED (R4, R7, R49, R53, R58). -/
def State.applied (s : State) (n : SiteName) (v : Nat) : State :=
  ((s.refreshed n).acknowledge n v).setMode n .attended

/-- The identity of a record after a commit: the host's nameplate with the override on, the reported one
with it off (R42 step 1). -/
def commitIdent (d : Draft) (reported : Nameplate) (i : NodeIdent) : NodeIdent :=
  if d.hostPlate then
    { i with plate := ⟨d.ratedCurrent.getD i.plate.current, d.ratedVoltage.getD i.plate.voltage⟩, hostPlate := true }
  else { i with plate := reloaded i.plate reported, hostPlate := false }

/-- Commissioned content with a new block, its applied current at the target clamped to the limit (R38, R40,
R42). -/
def commitContent (b : Block) (p : Nameplate) (now : Nat) : Commissioned :=
  ⟨b, min b.targetCurrent (effectiveLimit b p), now, none⟩

/-- The commit APPLY is answered DONE with the recorded serial (R42). Refresh due is set where the applied current has
changed (R51), and where it is not the one that was sent (R42). -/
def State.commitDone (s : State) (n : SiteName) (a : ApplyAnswer) (sent : Nat) : State :=
  match s.draftOf n, (s.site n).node with
  | some d, some i =>
    let before := (s.site n).comm.map (·.applied)
    let i' := commitIdent d a.plate i
    let c := commitContent d.block i'.plate s.timebase
    let s := s.enter n { s.site n with
      state := .commissioned
      node := some { i' with mode := some .attended }
      comm := some c
      dirty := true
      pending := none }
    let s := s.endPending n
    let due := (s.upkeepOf n).due || decide (before ≠ some c.applied) || c.applied != sent
    let s := s.setUpkeep n ⟨some sent, none, due, false, 0, 0⟩
    (s.freeDraft n).checkEcho n (a.echo == sent)
  | _, _ => s.endPending n

/-- The ADOPT APPLY is answered DONE with the record's serial (R25). A site that became UNREACHABLE meanwhile has
been returned by R15. -/
def State.adoptDone (s : State) (n : SiteName) (a : ApplyAnswer) (sent : Nat) : State :=
  let s := if (s.site n).state = .commissioning then s.become n .commissioned else s
  let s := (s.endPending n).reload n a.plate
  (s.applied n sent).checkEcho n (a.echo == sent)

/-- The RESTORE APPLY is answered DONE with the recorded serial (R58). -/
def State.restoreDone (s : State) (n : SiteName) (a : ApplyAnswer) (sent : Nat) : State :=
  let s := (s.endPending n).reload n a.plate
  (s.applied n sent).checkEcho n (a.echo == sent)

/-- The RETIRE RELEASE is answered DONE (R22, R27). A Found node is taken as it was reported (assumption log 39). -/
def State.retireDone (s : State) (n : SiteName) : State :=
  let r := s.site n
  match r.node with
  | none => s.endPending n
  | some i =>
    if r.state = .retiring then
      match r.found with
      | none =>
        (s.enter n { r with
          state := .discovered
          node := some { i with hostPlate := false, mode := some .fresh }
          dirty := true }).endPending n
      | some f =>
        if (s.otherHolding? n f.serial).isSome then (s.become n .vacant).endPending n
        else
          (s.enter n { r with
            state := .discovered
            node := some { i with serial := f.serial, plate := f.plate, hostPlate := false, mode := some .fresh }
            dirty := true }).endPending n
    else s.endPending n

/-- A RETIRE RELEASE that was refused or failed below the threshold: the retire is given up (R22). -/
def State.retireFailed (s : State) (n : SiteName) : State :=
  let r := s.site n
  let s := if r.state = .retiring then s.become n (if r.found.isSome then .mismatch else .commissioned) else s
  s.endPending n

/-- The Pending call of a purpose is answered DONE, an APPLY by the recorded node. -/
def State.pendingDone (s : State) (n : SiteName) (purpose : Purpose) (d : DonePayload) (sent : Nat) : State :=
  match purpose, d with
  | .commit, .apply a => s.commitDone n a sent
  | .adopt, .apply a => s.adoptDone n a sent
  | .restore, .apply a => s.restoreDone n a sent
  | .retire, _ => s.retireDone n
  | .clean, _ => (s.setMode n .fresh).endPending n
  | _, _ => s.endPending n

/-- The Pending call of a purpose is answered REFUSED (R22, R25, R26, R43, R58). -/
def State.pendingRefused (s : State) (n : SiteName) (purpose : Purpose) (reason : Reason) : State :=
  match purpose with
  | .commit => s.failCommit n (.refused reason)
  | .adopt =>
    let s := if (s.site n).state = .commissioning then s.become n .commissioned else s
    (s.endPending n).setCondition n .setpointMismatch true
  | .restore =>
    let s := (s.endPending n).setCondition n .setpointMismatch true
    s.setUpkeep n { s.upkeepOf n with restoreSpent := true }
  | .retire => s.retireFailed n
  | .clean => s.endPending n

/-- The Pending call of a purpose ended as a transaction failure (R22, R25, R26, R43, R58). -/
def State.pendingFailed (s : State) (n : SiteName) (purpose : Purpose) (sent : Nat) : State :=
  match purpose with
  | .commit => (s.unconfirmBlock n sent).failCommit n .noAnswer
  | .adopt =>
    let s := s.unconfirmBlock n sent
    let s := if (s.site n).state = .commissioning then s.become n .unreachable else s
    s.endPending n
  | .restore => (s.unconfirmBlock n sent).endPending n
  | .retire => s.retireFailed n
  | .clean => s.endPending n

/-- The Pending call of a purpose ended as a break; the sites beyond have changed (R14, R43). -/
def State.pendingBroken (s : State) (n : SiteName) (purpose : Purpose) : State :=
  match purpose with
  | .commit => s.failCommit n .brk
  | .adopt | .restore | .retire | .clean => s.endPending n

/-- A DONE answer to an APPLY is taken for the serial it carries (R15, R16, R17). -/
def State.takeApplySerial (s : State) (n : SiteName) (r : End) : State :=
  match r with
  | .done (.apply a) => s.takeSerial n a.serial a.plate a.mode
  | .done _ | .refused _ | .failure | .brk _ => s

/-- The completion rule of a Pending call in flight (R9); where Pending has been withdrawn nothing more follows. -/
def State.pendingOutcome (s : State) (n : SiteName) (carried : Nat) (r : End) : State :=
  match (s.site n).pending with
  | some p =>
    if p.stage = .inFlight then
      match r with
      | .done d => s.pendingDone n p.purpose d carried
      | .refused reason => s.pendingRefused n p.purpose reason
      | .failure => s.pendingFailed n p.purpose carried
      | .brk _ => s.pendingBroken n p.purpose
    else s
  | none => s

/-- An APPLY answer that found the node FRESH is passed to the lease that holds the site (R12). -/
def State.passFresh (s : State) (n : SiteName) (r : End) : State :=
  match r with
  | .done (.apply a) => s.passMode n a.mode
  | .done _ | .refused _ | .failure | .brk _ => s

/-- The end of a call that is Pending for a site. A DONE answer to an APPLY is first taken for its serial. -/
def State.pendingEnd (s : State) (n : SiteName) (t : Transaction) (r : End) : State :=
  (((s.takeApplySerial n r).pendingOutcome n t.call.carried r).passFresh n r).restoreEnded n

/-- The end of a call whose purpose was withdrawn in flight: an APPLY answered DONE is taken for its serial
(R9), and its echo is checked where it brings a MISMATCH site back (R17). The acknowledged and the unconfirmed current
stand, as such a call has no other effect (R9, against R49; assumption log 28). -/
def State.detachedEnd (s : State) (n : SiteName) (t : Transaction) (r : End) : State :=
  let s : State := match r with
    | .done (.apply a) =>
      let back := (s.site n).state == .mismatch && s.recordedIs n a.serial
      (s.takeSerial n a.serial a.plate a.mode).whenever back fun s => s.checkEcho n (a.echo == t.call.carried)
    | _ => s
  (s.passFresh n r).restoreEnded n

/-! ### Ends of the other calls -/

/-- The end of a REFRESH (R53, R54). A site that is RETIRING by then takes no echo check and no RESTORE (R52). -/
def State.refreshEnd (s : State) (n : SiteName) (carried : Nat) (r : End) : State :=
  let s := { s with refreshing := s.refreshing.put (branchOf n) none }
  let commissioned := s.isCommissioned n
  match r with
  | .done (.refresh mode told) =>
    if (s.site n).comm.isNone then s
    else
      let s := (s.applied n carried).whenever (mode == .standalone) fun s => s.siteChanged n
      let s := s.whenever commissioned fun s => s.checkEcho n (told == carried)
      s.passMode n mode
  | .refused .fresh => if commissioned then s.freshAnswer n else s
  | .refused _ =>
    if commissioned then s.echoDiffers n
    else if (s.site n).comm.isSome then s.setCondition n .setpointMismatch true
    else s
  | .failure => if (s.site n).comm.isSome then (s.unconfirm n carried).setDue n else s
  | .done _ | .brk _ => s

/-- The end of a routine poll (R137, R142). -/
def State.routinePollEnd (s : State) (n : SiteName) (r : End) : State :=
  let s := { s with polling := s.polling.put (branchOf n) none }
  match r with
  | .done (.poll a) => s.pollAnswer n none a
  | .done _ | .refused _ | .failure | .brk _ => s

/-- The end of a lease poll that was sent (R103, R104). One that did not end DONE counts a skipped cycle while its lease is
still live, after the loss the end may bring (assumption log 31). -/
def State.leasePollEnd (s : State) (n : SiteName) (h : Handle) (second : Nat) (r : End) : State :=
  match r with
  | .done (.poll a) => s.pollAnswer n (some (h, second)) a
  | .done _ | .refused _ | .failure | .brk _ =>
    if s.handleOf h.entry = h ∧ (s.leaseOf h.entry).any Lease.live then s.changeOutcome h.entry n (·.skip) else s

/-- The next probe is set 60 s ahead (R163). -/
def State.probeAgain (s : State) (b : Branch) : State :=
  let l := s.line b
  s.setLine b { l with brk := l.brk.map fun k => { k with probeAt := s.timebase + 60 * microsPerSecond, placed := false } }

/-- The end of a probe; its line effects have been taken (R163). -/
def State.probeEnd (s : State) (b : Branch) (dest : Nat) (r : End) : State :=
  match r with
  | .done (.enum a) => s.askPartial b dest a
  | .done _ | .refused _ => s
  | .failure | .brk _ => s.probeAgain b

/-- The end of a RELAY (R170). -/
def State.relayEnd (s : State) (r : End) : State :=
  match s.relay.work with
  | none => s
  | some (n, slots) =>
    let unsent := slots.map fun _ => SlotOutcome.notSent
    match r with
    | .done (.relay outcomes) => s.endRelay ⟨n, outcomes, .done⟩
    | .done _ => s.endRelay ⟨n, unsent, .done⟩
    | .refused reason => s.endRelay ⟨n, unsent, .refused reason⟩
    | .failure => s.endRelay ⟨n, unsent, .noAnswer⟩
    | .brk _ => s.endRelay ⟨n, unsent, .brk⟩

/-- The block that placed the item takes its end (R159 step 2). -/
def State.ownerEnd (s : State) (b : Branch) (t : Transaction) (r : End) : State :=
  match t.owner with
  | .pending n => s.pendingEnd n t r
  | .detached n => s.detachedEnd n t r
  | .refresh n => s.refreshEnd n t.call.carried r
  | .routinePoll n => s.routinePollEnd n r
  | .leasePoll n h _ second => s.leasePollEnd n h second r
  | .leaseCall n h => s.leaseCallEnd n h r
  | .discovery => s.enumEnd b t.dest r
  | .training => s.echoEnd b r (s.timebase - t.sentAt)
  | .orphan n cycleEnd => s.orphanEnd n cycleEnd r
  | .probe => s.probeEnd b t.dest r
  | .relay => s.relayEnd r

/-! ### Breaks (R161, R162) -/

/-- A break is recorded: the record, the next probe and LINE_BREAK where the record changed; a kept Partial
request is dropped (R161, R186). A probe that is already placed stays placed. -/
def State.recordBreak (s : State) (b : Branch) (position : Nat) : State :=
  let l := s.line b
  let placed := l.hostFifo.contains .probe || l.held.contains .probe
  let changed := decide (l.brk.map (·.position) ≠ some position)
  let s := s.setLine b { l with brk := some ⟨position, s.timebase + 60 * microsPerSecond, placed⟩ }
  let x := s.bring b
  (s.setBring b { x with request := none }).whenever changed fun s => s.raise .lineBreak

/-- A good answer from beyond the recorded break, and one to a probe wherever it was sent, clears the record, with
LINE_BREAK, and withdraws a probe not yet sent (R162, R163). -/
def State.clearBreak (s : State) (b : Branch) (t : Transaction) : State :=
  let l := s.line b
  match l.brk with
  | some k =>
    if k.position < t.dest ∨ t.owner = .probe then (s.setLine b { l.drop .probe with brk := none }).raise .lineBreak
    else s
  | none => s

/-! ### The Site Table's part of an end (R13, R159 step 1, R160) -/

/-- The line error threshold in force (R160). -/
def thresholdInForce (c : SectionConfig) : Nat := if c.counting then c.threshold else 1

/-- Whether an end shows that the node holds no cycle (R80). -/
def showsNoCycle (c : Call) (r : End) : Bool :=
  match c, r with
  | .stop, .done _ | .check, .done (.check .none _) => true
  | .stop, .refused .notCycling | .stop, .refused .fresh => true
  | .disarm, .refused .notCycling | .disarm, .refused .fresh => true
  | _, _ => false

/-- A good answer: the count becomes 0 (R160), REFUSED FRESH sets the Node mode (R4), and a node shown to hold no
cycle clears the stray time (R80). A refused POLL changes nothing but the count (R142), and the Upkeep Engine takes a
REFRESH refused FRESH by a COMMISSIONED site. -/
def State.goodAnswer (s : State) (n : SiteName) (t : Transaction) (r : End) : State :=
  let s := s.change n fun x => { x with lineErrors := 0 }
  let recorded := (s.site n).state != .mismatch && (s.site n).found.isNone
  let upkeeps := t.owner == .refresh n && s.isCommissioned n
  let s := s.whenever (r == .refused .fresh && recorded && !upkeeps && t.call != .poll) fun s => s.setMode n .fresh
  s.whenever (showsNoCycle t.call r && recorded) fun s => s.clearStray n

/-- A transaction failure: the count goes up, and at the threshold the site is acted on (R13, R160). -/
def State.countFailure (s : State) (n : SiteName) : State :=
  if (s.site n).state = .vacant then s
  else
    let s := s.change n fun r => { r with lineErrors := min (r.lineErrors + 1) 15 }
    if thresholdInForce s.config ≤ (s.site n).lineErrors then s.failedAtThreshold n else s

/-- The Site Table takes the end of a transaction at a position (R159 step 1, R161, R162). -/
def State.siteTableEnd (s : State) (b : Branch) (t : Transaction) (r : End) : State :=
  match r with
  | .done _ | .refused _ =>
    let s := s.clearBreak b t
    (siteAt? b t.dest).elim s fun n => s.goodAnswer n t r
  | .failure => if t.owner = .probe then s else (siteAt? b t.dest).elim s fun n => s.countFailure n
  | .brk p => (s.sitesBeyond b p).recordBreak b p

/-- A transaction ends: the branch is IDLE, and the end is handed on in the order of R159. -/
def State.endCall (s : State) (b : Branch) (t : Transaction) (r : End) : State :=
  let s := s.setLine b { s.line b with activity := .idle, txn := none }
  ((s.siteTableEnd b t r).ownerEnd b t r).advanceBoth

/-- The block that placed a call takes its end as a break answer where the call was not sent: a lease poll that was not
sent counts no skipped cycle (R103). -/
def State.unsentEnd (s : State) (b : Branch) (t : Transaction) (position : Nat) : State :=
  match t.owner with
  | .leasePoll .. => s
  | _ => s.ownerEnd b t (.brk position)

/-- A call that is not sent because a break is recorded nearer than its destination ends at once as a break
answer, taken by steps 1 and 4 of R161 (R162). -/
def State.endBeyondBreak (s : State) (b : Branch) (t : Transaction) (position : Nat) : State :=
  ((s.sitesBeyond b position).unsentEnd b t position).advanceBoth

/-- A call that is not sent because the line port sees no carrier ends as a break answer at position 0 (R151, R161). -/
def State.endNoCarrier (s : State) (b : Branch) (t : Transaction) : State :=
  ((s.siteTableEnd b t (.brk 0)).unsentEnd b t 0).advanceBoth

/-! ### Judging a frame (R158, R159) -/

/-- What a frame that arrives up the branch is for the transaction in flight. -/
inductive Verdict where
  | badAnswer
  | ends (r : End)
  | discarded
  deriving DecidableEq, Repr

/-- A frame judged against the transaction (R158). A DONE payload that does not fit its call's layout is a bad answer
(assumption log 11), and a BREAK frame of source 0, which R156 gives no node, a break answer at position 0 (assumption
log 54). -/
def judgeAnswer (t : Transaction) (frame : LineFrame) : Verdict :=
  match frame with
  | .bad => .badAnswer
  | .done source payload =>
    if source = t.dest then
      match t.call.readDone payload with
      | some d => .ends (.done d)
      | none => .badAnswer
    else .discarded
  | .refused source reason => if source = t.dest then .ends (.refused reason) else .discarded
  | .brk source => if source < t.dest then .ends (.brk source) else .discarded
  | .other => .discarded

/-- The identical frame is sent again at once, with a new reply timeout of the same length (R159). The attempt age of a
polled site goes on from the first sending (assumption log 33), and the carrier is not looked at again (R151; assumption
log 43). -/
def State.resend (s : State) (b : Branch) (t : Transaction) : State :=
  s.setLine b { s.line b with txn := some { t with second := true, sentAt := s.timebase } }

/-- A timeout or a bad answer: the first attempt is resent, the second ends as a transaction failure (R159). -/
def State.attemptFailed (s : State) (b : Branch) (t : Transaction) : State :=
  if t.second then s.endCall b t .failure else s.resend b t

/-- A frame arrives up a branch (R158). -/
def execAnswerFrame (b : Branch) (moment : Nat) (frame : List Byte) (s : State) : Host.Outcome State Fault Refusal :=
  let s := s.atMoment moment
  match (s.line b).txn with
  | none => .next s
  | some t =>
    match judgeAnswer t (readAnswerFrame frame) with
    | .badAnswer => .next (s.attemptFailed b t)
    | .ends r => .next (s.endCall b t r)
    | .discarded => .next s

/-- The reply timeout expires (R159). -/
def execReplyTimeout (b : Branch) (moment : Nat) (s : State) : Host.Outcome State Fault Refusal :=
  let s := s.atMoment moment
  match (s.line b).txn with
  | none => .next s
  | some t => .next (s.whenever (decide (t.sentAt + t.timeout ≤ s.timebase)) fun s => s.attemptFailed b t)

/-- The last byte of a SYNC has left the coordinator (R167). -/
def execSyncSent (b : Branch) (moment : Nat) (s : State) : Host.Outcome State Fault Refusal :=
  let s := s.atMoment moment
  .next (s.whenever ((s.line b).activity == .sendingSync) fun s => s.setLine b { s.line b with activity := .idle })

/-- The next probe time of a recorded break is reached (R163). -/
def execProbeDue (b : Branch) (moment : Nat) (s : State) : Host.Outcome State Fault Refusal :=
  let s := s.atMoment moment
  match (s.line b).brk with
  | none => .next s
  | some k =>
    if !k.placed ∧ k.probeAt ≤ s.timebase then
      .next ((s.setLine b { s.line b with brk := some { k with placed := true } }).pushHost b .probe)
    else .next s

/-- A slot has freed, and the oldest held item takes it (R165). -/
def execHeldItemPlaced (b : Branch) (s : State) : Host.Outcome State Fault Refusal :=
  let l := s.line b
  match l.held with
  | [] => .next s
  | item :: rest =>
    if l.full then .next s
    else
      let s := s.setLine b { l with held := rest, hostFifo := l.hostFifo ++ [item] }
      match item with
      | .pending n => .next (s.setPending n ((s.site n).pending.map fun p => { p with stage := .queued }))
      | .relay | .enum _ | .echo _ | .orphan .. | .probe => .next s

/-- A kept Partial request is taken (R186). -/
def execPartialDiscovery (b : Branch) (s : State) : Host.Outcome State Fault Refusal := .next (s.takePartial b)

end Sys2Proof.Machine
end

