-- ==== Sys2Proof/Machine/Arbiter.lean ====
section
/-! DEFINITION. The branch arbiter: the candidates of the refresh walker and of the Poll Scanner, the seven classes
in their order, and the sending of what is granted (R41, R50, R52, R58, R136, R137, R158, R164). -/

namespace Sys2Proof.Machine

open Sys2Proof

/-! ### Candidates -/

/-- The site of the greatest age in a list; between sites of equal age the earlier in the list. -/
def greatest (age : SiteName → Nat) : List SiteName → Option SiteName
  | [] => none
  | n :: rest =>
    match greatest age rest with
    | none => some n
    | some m => if age m ≤ age n then some n else some m

/-- The refresh age of a site in whole seconds (R7). -/
def State.refreshAge (s : State) (n : SiteName) : Nat := (s.site n).comm.elim 0 fun c => s.ageFrom c.refreshFrom

/-- The poll age of a site in whole seconds (R7). -/
def State.pollAge (s : State) (n : SiteName) : Nat := (s.site n).node.elim 0 fun i => s.ageFrom i.pollFrom

/-- The attempt age of a site in whole seconds (R135). -/
def State.attemptAge (s : State) (n : SiteName) : Option Nat := (s.attemptOf n).map s.ageFrom

/-- Whether a site is eligible for refresh (R50). -/
def State.refreshEligible (s : State) (n : SiteName) : Bool :=
  let r := s.site n
  r.state == .commissioned && r.node.bind (·.mode) != some .fresh
    && !(r.pending.any fun p => p.purpose == .restore || p.purpose == .adopt)
    && (s.bring (branchOf n)).phase == .ready

/-- The overdue candidate of a branch (R50). -/
def State.overdueRefresh (s : State) (b : Branch) : Option SiteName :=
  greatest s.refreshAge ((branchSites b).filter fun n =>
    s.refreshEligible n && (decide (s.config.refreshInterval * 60 ≤ s.refreshAge n) || (s.upkeepOf n).due))

/-- The routine candidate of a branch, offered where no site is overdue (R50). -/
def State.routineRefresh (s : State) (b : Branch) : Option SiteName :=
  greatest s.refreshAge ((branchSites b).filter fun n =>
    s.refreshEligible n && decide (s.config.refreshInterval * 30 ≤ s.refreshAge n))

/-- Whether the timing of a routine poll is due (R136). -/
def State.pollDue (s : State) (n : SiteName) : Bool :=
  if (s.site n).state = .unreachable then (s.attemptAge n).all fun a => decide (60 ≤ a)
  else decide (s.config.pollPeriod ≤ s.pollAge n) && (s.attemptAge n).all fun a => decide (s.config.pollPeriod ≤ a)

/-- Whether a site is eligible for a routine poll (R136). -/
def State.pollEligible (s : State) (n : SiteName) : Bool :=
  let l := s.line (branchOf n)
  (s.site n).node.isSome && (s.bring (branchOf n)).phase == .ready
    && !(l.leasePolls.any fun q => q.site == n)
    && !(l.brk.any fun k => decide (k.position < positionOf n)) && s.pollDue n

/-- The candidate of the Poll Scanner for a branch (R136). -/
def State.routinePoll (s : State) (b : Branch) : Option SiteName :=
  greatest s.pollAge ((branchSites b).filter s.pollEligible)

/-! ### Work (R164) -/

/-- Work that the arbiter can grant, by class. -/
inductive Work where
  | sync (y : Sync)
  | leaseCall (item : LeaseItem)
  | refresh (n : SiteName)
  | host (item : HostItem)
  | leasePoll (q : LeasePoll)
  | routinePoll (n : SiteName)
  deriving DecidableEq, Repr

/-- The highest class that has work, and within it the item the class gives (R164). -/
def State.nextWork (s : State) (b : Branch) : Option Work :=
  let l := s.line b
  (l.sync.map .sync).or <| (l.leaseFifo.head?.map .leaseCall).or <| ((s.overdueRefresh b).map .refresh).or <|
    (l.hostFifo.head?.map .host).or <| (l.leasePolls.head?.map .leasePoll).or <|
      ((s.routineRefresh b).map .refresh).or <| (s.routinePoll b).map .routinePoll

/-! ### Sending -/

/-- The reply timeout in microseconds (R158); discovery ENUMs and training ECHOes take the untrained one
(R177). -/
def State.replyTimeout (s : State) (b : Branch) (dest : Nat) (owner : Owner) : Nat :=
  match owner with
  | .discovery | .training => 86000
  | _ =>
    match (siteAt? b dest).bind fun n => (s.site n).lineDelay with
    | some d => 2 * d + 22000
    | none => 86000

/-- A new transaction, first attempt, sent now. -/
def State.transaction (s : State) (b : Branch) (call : Call) (dest : Nat) (owner : Owner) : Transaction :=
  ⟨call, dest, false, s.replyTimeout b dest owner, s.timebase, owner⟩

/-- Whether a call is sent whatever break is recorded (R162, R163). -/
def Owner.ignoresBreak : Owner → Bool
  | .discovery | .probe => true
  | _ => false

/-- A granted call: it ends at once where a break is recorded nearer than its destination (R162), carrier or none
(assumption log 34); with no carrier at the line port it ends as a break at position 0, but for a probe (R151);
otherwise it is sent with all that its sending does, and its answer is awaited (R158). -/
def State.launch (s : State) (b : Branch) (carrier : Bool) (t : Transaction) (sent : State → State) : State :=
  match (s.line b).brk.filter fun k => decide (k.position < t.dest) && !t.owner.ignoresBreak with
  | some k => s.endBeyondBreak b t k.position
  | none =>
    if !carrier && t.owner != .probe then s.endNoCarrier b t
    else
      let s := sent s
      s.setLine b { s.line b with activity := .awaitingAnswer, txn := some t, sent := t.call.frame t.dest }

/-- The SYNC leaves with its age (R133, R167). -/
def State.sendSync (s : State) (b : Branch) (y : Sync) : State :=
  s.setLine b { s.line b with activity := .sendingSync, sync := none, sent := y.frame (s.timebase - y.instant) }

/-- The APPLY of a set-point block to a site, with its line delay and the node hold period (R41, R58). -/
def State.applyCall (s : State) (n : SiteName) (b : Block) (applied : Nat) : Call :=
  .apply b applied (s.site n).lineDelay s.config.holdPeriod

/-- The rated current in force for a commit (R41). -/
def Draft.ratedInForce (d : Draft) (plate : Nameplate) : Nat :=
  if d.hostPlate then d.ratedCurrent.getD plate.current else plate.current

/-- The Pending call of a site with the content it takes when it is sent: the draft's for a COMMIT, the record's
otherwise (R9, R25, R41, R58). -/
def State.pendingContent (s : State) (n : SiteName) (purpose : Purpose) : Option Call :=
  let r := s.site n
  match purpose with
  | .commit =>
    match s.draftOf n, r.node with
    | some d, some i =>
      some (s.applyCall n d.block (min d.block.targetCurrent (min d.block.currentLimit (d.ratedInForce i.plate))))
    | _, _ => none
  | .adopt | .restore => r.comm.map fun c => s.applyCall n c.block c.applied
  | .retire | .clean => some .release

/-- What the sending of a site's Pending call does: an APPLY clears refresh due (R51), and a RESTORE sent while
SETPOINT_MISMATCH is present sets restore spent (R58). -/
def State.pendingSent (s : State) (n : SiteName) (purpose : Purpose) : State :=
  let u := s.upkeepOf n
  let spent := purpose == .restore && (s.site n).faults.isPresent .setpointMismatch
  s.whenever purpose.isApply fun s => s.setUpkeep n { u with due := false, restoreSpent := u.restoreSpent || spent }

/-- The Pending call of a site is granted; a commit's carried current is kept with the entry (R41). -/
def State.grantPending (s : State) (b : Branch) (carrier : Bool) (n : SiteName) : State :=
  match (s.site n).pending with
  | none => s
  | some p =>
    match s.pendingContent n p.purpose with
    | none => s
    | some call =>
      let kept := if p.purpose = .commit then some call.carried else none
      let s := s.setPending n (some { p with stage := .inFlight, sentApplied := kept })
      s.launch b carrier (s.transaction b call (positionOf n) (.pending n)) fun s => s.pendingSent n p.purpose

/-- A host-driven item is granted. A probe takes its destination when it is sent: one position beyond the break
recorded then, or position 1 with no carrier at the line port (R151, R163). -/
def State.grantHost (s : State) (b : Branch) (carrier : Bool) (item : HostItem) : State :=
  match item with
  | .pending n => s.grantPending b carrier n
  | .relay =>
    match s.relay.work with
    | some (n, slots) =>
      let s := { s with relay := { s.relay with state := .inFlight } }
      s.launch b carrier (s.transaction b (.relay slots) (positionOf n) .relay) id
    | none => s
  | .enum q => s.launch b carrier (s.transaction b .enum q .discovery) id
  | .echo q => s.launch b carrier (s.transaction b .echo q .training) id
  | .orphan n running cycleEnd =>
    s.launch b carrier (s.transaction b (if running then .stop else .disarm) (positionOf n) (.orphan n cycleEnd)) id
  | .probe =>
    match (s.line b).brk with
    | some k => s.launch b carrier (s.transaction b .enum (if carrier then k.position + 1 else 1) .probe) id
    | none => s

/-- A lease call with the content it takes when it is sent (R81, R83, R111, R116). -/
def LeaseCall.content (c : LeaseCall) (l : Lease) : Call :=
  match c with
  | .arm => .arm l.pattern l.start l.stop
  | .disarm => .disarm
  | .stop => .stop
  | .check => .check
  | .extend newEnd => .extend newEnd
  | .repattern pattern boundary => .repattern pattern boundary

/-- The sending of an ARM: it is the last exchange with the node, and the site's end bound is the lease's End (R79,
R100). -/
def LeaseSite.armSent (x : LeaseSite) (stop : Nat) : LeaseSite :=
  { x with exchange := .armUnanswered, endBound := some stop }

/-- A lease call is granted. -/
def State.grantLeaseCall (s : State) (b : Branch) (carrier : Bool) (item : LeaseItem) : State :=
  let e := item.handle.entry
  match (s.leaseOf e).bind fun l => (l.siteOf item.site).bind fun x => x.call.map fun c => (l, c) with
  | none => s
  | some (l, c) =>
    let s := s.changeOutcome e item.site fun x => { x with call := some { c with inFlight := true } }
    s.launch b carrier
      (s.transaction b (c.call.content l) (positionOf item.site) (.leaseCall item.site item.handle))
      fun s => s.whenever (c.call == .arm) fun s => s.changeOutcome e item.site fun x => x.armSent l.stop

/-- A poll is sent: the attempt age becomes 0 (R135). -/
def State.pollSent (s : State) (n : SiteName) : State := s.setAttempt n (some s.timebase)

/-- The REFRESH of a site with the content it takes when it is sent (R52). -/
def State.grantRefresh (s : State) (b : Branch) (carrier : Bool) (n : SiteName) : State :=
  match (s.site n).comm with
  | none => s
  | some c =>
    let call := Call.refresh c.applied (s.site n).lineDelay s.config.holdPeriod
    s.launch b carrier (s.transaction b call (positionOf n) (.refresh n)) fun s =>
      { s.setUpkeep n { s.upkeepOf n with due := false } with refreshing := s.refreshing.put b (some n) }

/-- A routine poll is granted (R137). -/
def State.grantPoll (s : State) (b : Branch) (carrier : Bool) (n : SiteName) : State :=
  s.launch b carrier (s.transaction b .poll (positionOf n) (.routinePoll n)) fun s =>
    { s.pollSent n with polling := s.polling.put b (some n) }

/-- A lease poll is granted. -/
def State.grantLeasePoll (s : State) (b : Branch) (carrier : Bool) (q : LeasePoll) : State :=
  s.launch b carrier (s.transaction b .poll (positionOf q.site) (.leasePoll q.site q.handle q.cycle q.second))
    fun s => s.pollSent q.site

/-- One item is granted: it leaves its FIFO or set, and the Line Controller sends it (R164). -/
def State.grant (s : State) (b : Branch) (carrier : Bool) (w : Work) : State :=
  let l := s.line b
  match w with
  | .sync y => s.sendSync b y
  | .leaseCall item => (s.setLine b { l with leaseFifo := l.leaseFifo.tail }).grantLeaseCall b carrier item
  | .refresh n => s.grantRefresh b carrier n
  | .host item => (s.setLine b { l with hostFifo := l.hostFifo.tail }).grantHost b carrier item
  | .leasePoll q => (s.setLine b { l with leasePolls := l.leasePolls.tail }).grantLeasePoll b carrier q
  | .routinePoll n => s.grantPoll b carrier n

/-- A SYNC whose age has reached 1,000,000 microseconds is withdrawn (R133, R167). -/
def State.expireSync (s : State) (b : Branch) : State :=
  let l := s.line b
  match l.sync with
  | some y => if y.instant + microsPerSecond ≤ s.timebase then s.setLine b { l with sync := none } else s
  | none => s

/-- The arbiter of an IDLE branch grants the highest-class item with work (R164). -/
def execArbiterGrant (b : Branch) (moment : Nat) (carrier : Bool) (s : State) : Host.Outcome State Fault Refusal :=
  let s := s.atMoment moment
  if (s.line b).activity ≠ .idle then .next s
  else
    let s := s.expireSync b
    match s.nextWork b with
    | some w => .next (s.grant b carrier w)
    | none => .next s

/-- A waiting SYNC whose age would reach 1,000,000 microseconds is withdrawn (R167). -/
def execSyncExpiry (b : Branch) (moment : Nat) (s : State) : Host.Outcome State Fault Refusal :=
  .next ((s.atMoment moment).expireSync b)

end Sys2Proof.Machine
end

