-- ==== Sys2Proof/Machine/Clock.lean ====
section
/-! DEFINITION. The Section Clock: PPS edges, seconds, the time states, TIME SET, SYNC production, and the stray
times that section time passes (chapter 6; R80, R82). -/

namespace Sys2Proof.Machine

open Sys2Proof

/-! ### The interval estimate (R125) -/

/-- The mean of the intervals, its rounding left open (assumption log 8); nominal where there is none. -/
def Clock.estimate (c : Clock) : Nat :=
  match c.intervals with
  | [] => microsPerSecond
  | xs => xs.sum / xs.length + if xs.sum % xs.length ≠ 0 ∧ Config.roundMeanUp xs.sum xs.length then 1 else 0

/-- An interval between good edges enters the estimate; the last 16 are kept. -/
def Clock.takeInterval (c : Clock) (d : Nat) : Clock := { c with intervals := (d :: c.intervals).take 16 }

/-! ### What a second is handed to (R125, R133) -/

/-- A SYNC is handed to the Line Controller of each strapped branch, replacing one still waiting (R133). -/
def State.produceSync (s : State) (seconds instant : Nat) : State :=
  s.each s.strap.branches fun s b => s.setLine b { s.line b with sync := some ⟨seconds, instant⟩ }

/-- Waiting SYNCs are withdrawn when section time enters LOST (R129, R167). -/
def State.withdrawSyncs (s : State) : State :=
  { s with lines := ⟨{ s.lines.west with sync := none }, { s.lines.east with sync := none }⟩ }

/-- Clears every stray time that passes a check (R80, R125, R131). -/
def State.clearStrays (s : State) (p : Nat → Bool) : State :=
  s.each siteNames fun s n => s.whenever ((s.site n).stray.any p) fun s => s.clearStray n

/-- A new section second begins at an instant. The second 0 after the wrap passes every stray time. -/
def State.newSecond (s : State) (count instant : Nat) : State :=
  let wrapped := count = 0
  let s := s.setClock { s.clock with count := some count, instant := some instant }
  s.whenever wrapped fun s => s.clearStrays fun _ => true

/-- A new second in LOCKED or HOLDOVER, with its SYNC. -/
def State.syncedSecond (s : State) (count instant : Nat) : State := (s.newSecond count instant).produceSync count instant

/-- The second after the present one. -/
def Clock.following (c : Clock) : Nat := wrapSecond (c.count.getD 0 + 1)

/-! ### Changes of the time state -/

/-- Section time enters LOST (R121, R129, R132). -/
def State.enterLost (s : State) : State :=
  ((s.setClock { s.clock with state := .lost }).withdrawSyncs.leasesTimeLost).raise .timeChanged

/-- Whether the holdover seconds exceed the holdover limit (R129). -/
def State.holdoverExceeded (s : State) : Bool :=
  s.clock.state == .holdover && s.clock.holdover.any fun k => decide (s.config.holdoverLimit < k)

/-- A second produced from the timebase in HOLDOVER or LOST (R125, R129). The loss of time follows in the same
step, or is left to HOLDOVER_EXPIRY where `lossLater` says that the second's timed events come first (assumption
log 9). No SYNC is produced for the second that exceeds the limit. -/
def State.timebaseSecond (s : State) (lossLater : Bool) : State :=
  let c := s.clock
  let instant := c.instant.getD s.timebase + c.estimate
  match c.state with
  | .holdover =>
    let s := s.setClock { c with holdover := some (min (c.holdover.getD 0 + 1) 601) }
    if s.holdoverExceeded then
      let s := s.newSecond c.following instant
      if lossLater then s else s.enterLost
    else s.syncedSecond c.following instant
  | .lost => s.newSecond c.following instant
  | .unset | .locked => s

/-- A missing edge (R124, R126, R127, R131): a waiting Set request or a provisional count ends ABANDONED, and
LOCKED becomes HOLDOVER. -/
def State.missingEdge (s : State) : State :=
  let c := s.clock
  let abandoned := c.setRequest.isSome || c.provisional.isSome
  let lastSet := if abandoned then some .abandoned else c.lastSet
  let c := { c with goodRun := 0, setRequest := none, provisional := none, lastSet := lastSet }
  if c.state = .locked then (s.setClock { c with state := .holdover, holdover := some 0 }).raise .timeChanged
  else (s.setClock c).whenever abandoned fun s => s.raise .timeChanged

/-! ### Good edges (R125, R126, R128, R131) -/

/-- The count is stepped to V at an edge (R131). A timebase second that was produced at the same point is not
counted as a holdover second. A step backward clears the stray times earlier than V as any step does: there are such
only where section time had passed them and they were not yet cleared (assumption log 32). -/
def State.stepTo (s : State) (v edge : Nat) : State :=
  let c := s.clock
  let holdover := if c.state = .holdover ∧ c.instant = some edge then c.holdover.map (· - 1) else c.holdover
  let locked := c.state == .locked || c.goodRun == 3
  let s := s.setClock { c with
    state := if locked then .locked else c.state
    count := some v
    instant := some edge
    holdover := if locked then none else holdover
    setRequest := none
    lastSet := some .stepped }
  let s := ((s.leasesStepped v).clearStrays fun t => decide (t < v)).raise .timeChanged
  s.whenever (s.clock.state != .lost) fun s => s.produceSync v edge

/-- The number, from the present second on, of the timebase second nearest to an edge, the earlier where the edge
lies halfway (R128). -/
def nearestSecond (instant estimate edge : Nat) : Nat := (2 * (edge - instant) + estimate - 1) / (2 * estimate)

/-- The third good edge in HOLDOVER or LOST makes the state LOCKED: it re-marks the present second or marks a new
one (R128). -/
def State.relock (s : State) (edge : Nat) : State :=
  let c := s.clock
  let k := nearestSecond (c.instant.getD edge) c.estimate edge
  let s := (s.setClock { c with state := .locked, holdover := none }).raise .timeChanged
  if k = 0 then
    let s := s.setClock { s.clock with instant := some edge }
    s.produceSync (c.count.getD 0) edge
  else s.syncedSecond (wrapSecond (c.count.getD 0 + k)) edge

/-- A Set request is dropped where a lease is ARMING, ARMED or RUNNING (R131). -/
def State.dropRequest (s : State) : State :=
  (s.setClock { s.clock with setRequest := none, lastSet := some .dropped }).raise .timeChanged

/-- A good edge in UNSET: the first after a TIME SET becomes second V, and the next makes time LOCKED at V + 1
(R126). -/
def State.goodUnset (s : State) (edge interval : Nat) : State :=
  let c := s.clock
  match c.setRequest, c.provisional with
  | some v, _ => s.setClock { c with provisional := some v, setRequest := none }
  | none, some v =>
    let c := { c with state := .locked, provisional := none, lastSet := some .lockedAt }
    ((s.setClock (c.takeInterval interval)).syncedSecond (wrapSecond (v + 1)) edge).raise .timeChanged
  | none, none => s

/-- A good edge in LOCKED with no request to step: the next second (R125). -/
def State.goodLocked (s : State) (edge : Nat) : State := s.syncedSecond s.clock.following edge

/-- What a good edge does once the good run has counted it. -/
def State.goodEdge (s : State) (edge interval : Nat) : State :=
  let c := s.clock
  match c.state with
  | .unset => s.goodUnset edge interval
  | .locked =>
    let s := s.setClock (c.takeInterval interval)
    match c.setRequest with
    | some v => if s.leaseActive then (s.dropRequest).goodLocked edge else s.stepTo v edge
    | none => s.goodLocked edge
  | .holdover | .lost =>
    let relocks := c.goodRun == 3
    let stepped := c.setRequest.isSome && !s.leaseActive
    let s : State := match c.setRequest with
      | some v => if stepped then s.stepTo v edge else s.dropRequest
      | none => s
    let s := s.whenever (relocks && !stepped) fun s => s.relock edge
    s.whenever relocks fun s => s.setClock (s.clock.takeInterval interval)

/-- Whether an edge is good against the reference (R124). -/
def goodInterval (d : Nat) : Bool := decide (999500 ≤ d) && decide (d ≤ 1000500)

/-! ### The commands -/

/-- A rising PPS edge (R124). A rejected edge in LOCKED that comes after the point of the timebase second leaves the
overdue second to TIMEBASE_SECOND (R127; assumption log 42). -/
def execPpsEdge (moment : Nat) (s : State) : Host.Outcome State Fault Refusal :=
  let s := s.atMoment moment
  let c := s.clock
  let edge := s.timebase
  match c.reference with
  | none => .next (s.setClock { c with reference := some edge })
  | some r =>
    if goodInterval (edge - r) then
      .next ((s.setClock { c with reference := some edge, goodRun := min (c.goodRun + 1) 3 }).goodEdge edge (edge - r))
    else .next s.missingEdge

/-- The expiry of the 1.5 s wait after the reference edge (R124). In LOCKED the overdue second is produced at once
(R127). -/
def execPpsExpiry (moment : Nat) (s : State) : Host.Outcome State Fault Refusal :=
  let s := s.atMoment moment
  match s.clock.reference with
  | none => .next s
  | some r =>
    if r + 1500000 ≤ s.timebase then
      let locked := s.clock.state == .locked
      let s := (s.setClock { s.clock with reference := none }).missingEdge
      .next (s.whenever locked fun s => s.timebaseSecond false)
    else .next s

/-- A timebase second of HOLDOVER or LOST (R125). -/
def execTimebaseSecond (moment : Nat) (lossLater : Bool) (s : State) : Host.Outcome State Fault Refusal :=
  let s := s.atMoment moment
  let due := s.clock.instant.any fun i => decide (i + s.clock.estimate ≤ s.timebase)
  .next (s.whenever due fun s => s.timebaseSecond lossLater)

/-- The holdover seconds exceed the limit (R129). -/
def execHoldoverExpiry (s : State) : Host.Outcome State Fault Refusal :=
  .next (s.whenever s.holdoverExceeded fun s => s.enterLost)

/-- Section time passes a site's stray cycle time (R80). -/
def execStrayTimeExpiry (n : SiteName) (s : State) : Host.Outcome State Fault Refusal :=
  let passed := s.now.any fun now => (s.site n).stray.any fun t => decide (t < now)
  .next (s.whenever passed fun s => s.clearStray n)

/-- TIME SET (R126, R130). -/
def execTimeSet (tag : Tag) (second : Arg Nat) (s : State) : Host.Outcome State Fault Refusal :=
  let code := codeByte (.timeSet tag second)
  match second with
  | none => .next (s.reply code tag .range .empty)
  | some v =>
    if s.leaseActive then .next (s.reply code tag .leaseActive .empty)
    else .next ((s.setClock { s.clock with setRequest := some v, provisional := none }).reply code tag .accepted .empty)

end Sys2Proof.Machine
end

