-- ==== Sys2Proof/Machine/SiteRequests.lean ====
section
/-! DEFINITION. The site requests and the Readings View: SITE READ, SITE FIND, SITE LIST, RETIRE, ADOPT, CLEAR
FAULTS, SNAP and UNSNAP (chapter 1; R143 to R147). -/

namespace Sys2Proof.Machine

open Sys2Proof

/-! ### Looking records up (R18 to R20, R143) -/

/-- What SITE READ shows of a site (R18, R143). -/
def State.siteAnswer (s : State) (n : SiteName) : SiteAnswer :=
  let r := s.site n
  { site := n
    record := r
    effectiveLimit := r.effective
    refreshAge := r.comm.map fun c => s.ageFrom c.refreshFrom
    pollAge := r.node.map fun i => s.ageFrom i.pollFrom
    frozen := s.frozen
    readings := if s.frozen then s.frozenOf n else r.readings
    snapTime := if s.frozen then s.snapTime else none
    draft := s.draftField n }

/-- SITE READ (R18, R143). -/
def execSiteRead (tag : Tag) (site : Arg Nat) (s : State) : Host.Outcome State Fault Refusal :=
  let code := codeByte (.siteRead tag site)
  match site.bind s.strapped? with
  | none => .next (s.reply code tag .range .empty)
  | some n => .next (s.reply code tag .ok (.site (s.siteAnswer n)))

/-- The site a serial stands at: the record that has it as its Node serial, or else the one that has it as its
Found node serial, each searched for in pipeline order (R19). -/
def State.findSerial (s : State) (serial : Nat) : Option (SiteName × Bool) :=
  ((pipelineOrder.find? fun n => s.recordedIs n serial).map fun n => (n, false)).or
    ((pipelineOrder.find? fun n => (s.site n).found.any fun f => f.serial == serial).map fun n => (n, true))

/-- SITE FIND (R19). -/
def execSiteFind (tag : Tag) (serial : Arg Nat) (s : State) : Host.Outcome State Fault Refusal :=
  let code := codeByte (.siteFind tag serial)
  match serial.filter (· ≠ 0) with
  | none => .next (s.reply code tag .range .empty)
  | some k =>
    match s.findSerial k with
    | some (n, asFound) => .next (s.reply code tag .ok (.found n (s.site n).state asFound))
    | none => .next (s.reply code tag .unknown .empty)

/-- One entry of SITE LIST (R20). -/
def State.siteEntry (s : State) (n : SiteName) : SiteEntry :=
  let r := s.site n
  { state := r.state
    latched := r.faults.latched != 0
    held := r.holder.isSome
    stray := r.stray.isSome
    draft := s.draftField n
    purpose := r.pending.map (·.purpose) }

/-- SITE LIST (R20). -/
def execSiteList (tag : Tag) (fit : Arg Unit) (s : State) : Host.Outcome State Fault Refusal :=
  let code := codeByte (.siteList tag fit)
  match fit with
  | none => .next (s.reply code tag .range .empty)
  | some _ => .next (s.reply code tag .ok (.list (pipelineOrder.map s.siteEntry)))

/-! ### RETIRE (R21) -/

/-- A site is held where it has a holder or a stray time (R201). -/
def SiteRecord.held (r : SiteRecord) : Bool := r.holder.isSome || r.stray.isSome

/-- Whether a RETIRE or a COMMIT has no place in the queue: the FIFO is full, and no queued call of the site gives
up its place (R21, R36). -/
def State.noPlace (s : State) (n : SiteName) (purposes : List Purpose) : Bool :=
  (s.line (branchOf n)).full && !s.placeToTake n purposes

/-- The site that holds the Found node serial of a site as its Node serial (R27). -/
def State.foundElsewhere? (s : State) (n : SiteName) : Option SiteName :=
  (s.site n).found.bind fun f => s.otherHolding? n f.serial

/-- Whether the state of a site takes no RETIRE (R21 check 4). -/
def SiteState.unretirable : SiteState → Bool
  | .vacant | .discovered | .commissioning | .retiring => true
  | .commissioned | .unreachable | .mismatch => false

/-- The status of the first check of R21 that fails, from check 2 on, with the site that a CONFLICT names. -/
def State.retireCheck (s : State) (n : SiteName) : Option (Status × Body) :=
  let r := s.site n
  if !s.bringupDone then some (.starting, .empty)
  else if r.held then some (.held, .empty)
  else if r.state.unretirable || s.committing n then some (.state, .empty)
  else
    match if r.state = .mismatch then s.foundElsewhere? n else none with
    | some m => some (.conflict, .namesSite m)
    | none =>
      if r.state = .commissioned ∧ (s.applyInFlight n ∨ s.noPlace n [.restore]) then some (.busy, .empty) else none

/-- The record of a MISMATCH site takes its Found node, in DISCOVERED (R21), as that was reported (assumption log 39). -/
def SiteRecord.foundTaken (r : SiteRecord) : SiteRecord :=
  match r.found with
  | some f =>
    { r with
        state := .discovered
        node := r.node.map fun i => { i with serial := f.serial, plate := f.plate, hostPlate := false, mode := some f.mode } }
  | none => { r with state := .discovered }

/-- A RETIRE that has passed its checks, with the status of its answer (R21). -/
def State.retire (s : State) (n : SiteName) : State × Status :=
  match (s.site n).state with
  | .commissioned => ((s.become n .retiring).takePlace n .retire, .accepted)
  | .unreachable => (((s.become n .vacant).markDirty n).advanceBoth, .ok)
  | .mismatch => ((((s.enter n (s.site n).foundTaken).markDirty n).claimClean n).advanceBoth, .ok)
  | .vacant | .discovered | .commissioning | .retiring => (s, .state)

/-- RETIRE (R21). -/
def execRetire (tag : Tag) (site : Arg Nat) (s : State) : Host.Outcome State Fault Refusal :=
  let code := codeByte (.retire tag site)
  match site.bind s.strapped? with
  | none => .next (s.reply code tag .range .empty)
  | some n =>
    match s.retireCheck n with
    | some (status, body) => .next (s.reply code tag status body)
    | none => .next ((s.retire n).1.reply code tag (s.retire n).2 .empty)

/-! ### ADOPT (R24) -/

/-- The status of the first check of R24 that fails, from check 2 on. A detached APPLY in flight for the site turns no ADOPT
away: R24 lists no such check, and R9's BUSY is read as that of a site with a Pending entry (assumption log 52). -/
def State.adoptCheck (s : State) (n : SiteName) : Option (Status × Body) :=
  let r := s.site n
  if !s.bringupDone then some (.starting, .empty)
  else if r.state ≠ .mismatch then some (.state, .empty)
  else if r.held then some (.held, .empty)
  else
    match s.foundElsewhere? n with
    | some m => some (.conflict, .namesSite m)
    | none => if (s.line (branchOf n)).full then some (.busy, .empty) else none

/-- The record of a MISMATCH site with its Found node as its node, in COMMISSIONING (R24), its serial as reported
(assumption log 39). With the override off the reported nameplate is taken by the rule of a reload (R61). -/
def SiteRecord.adopted (r : SiteRecord) : SiteRecord :=
  match r.found with
  | some f =>
    { r with
        state := .commissioning
        found := none
        node := r.node.map fun i =>
          { i with
              serial := f.serial
              plate := if i.hostPlate then i.plate else reloaded i.plate f.plate
              mode := some f.mode }
        dirty := true }
  | none => { r with state := .commissioning, dirty := true }

/-- An ADOPT that has passed its checks (R24, R48). -/
def State.adopt (s : State) (n : SiteName) : State :=
  let s := s.enter n (s.site n).adopted
  let s := s.setUpkeep n { s.upkeepOf n with acknowledged := none, unconfirmed := none, restoreSpent := false }
  s.takePlace n .adopt

/-- ADOPT (R24). -/
def execAdopt (tag : Tag) (site : Arg Nat) (s : State) : Host.Outcome State Fault Refusal :=
  let code := codeByte (.adopt tag site)
  match site.bind s.strapped? with
  | none => .next (s.reply code tag .range .empty)
  | some n =>
    match s.adoptCheck n with
    | some (status, body) => .next (s.reply code tag status body)
    | none => .next ((s.adopt n).reply code tag .accepted .empty)

/-! ### CLEAR FAULTS (R147) -/

/-- CLEAR FAULTS for a site: each selected latch whose condition is not present is cleared, and the site joins the
change set where one was. -/
def State.clearFaults (s : State) (n : SiteName) (selection : BitVec 9) : State :=
  let r := s.site n
  let cleared := r.faults.clear selection
  if cleared = r.faults then s else (s.setSite n { r with faults := cleared }).siteChanged n

/-- The faults still latched on a site, each with whether its condition is present. -/
def State.latchedFaults (s : State) (n : SiteName) : Body :=
  let f := (s.site n).faults
  .faults f.latched (f.present &&& f.latched)

/-- Number of site records that hold a latched fault. -/
def State.latchedSites (s : State) : Nat := siteNames.countP fun n => (s.site n).faults.latched != 0

/-- CLEAR FAULTS for the coordinator: RESTARTED and SUPPLY_LOW are cleared. -/
def State.clearCoordinator (s : State) : State :=
  { s with host := { s.host with restarted := false, supplyLow := false } }

/-- CLEAR FAULTS (R147). The selection is not used for the coordinator; for a site it names one to nine of the
nine kinds (assumption log 16). -/
def execClearFaults (tag : Tag) (args : Arg ClearFaultsArgs) (s : State) : Host.Outcome State Fault Refusal :=
  let code := codeByte (.clearFaults tag args)
  match args with
  | none => .next (s.reply code tag .range .empty)
  | some a =>
    if a.target = 0 then .next (s.clearCoordinator.reply code tag .ok (.count s.latchedSites))
    else
      match s.strapped? a.target with
      | none => .next (s.reply code tag .range .empty)
      | some n =>
        if a.selection = 0 ∨ 512 ≤ a.selection then .next (s.reply code tag .range .empty)
        else
          let s := s.clearFaults n (BitVec.ofNat 9 a.selection)
          .next (s.reply code tag .ok (s.latchedFaults n))

/-! ### The Readings View (R144, R145) -/

/-- Readings at the start of an interval: the count is 0 and both ON extremes are absent. -/
def Readings.restarted (r : Readings) : Readings := { r with polls := 0, leastOn := none, mostOn := none }

/-- The Readings View freezes a copy of every site's live readings, and the counts since the snapshot start
again. -/
def State.freeze (s : State) : State :=
  { s with
      frozen := true
      snapTime := s.now
      frozenReadings := s.sites.map (·.readings)
      sites := s.sites.map fun r => { r with readings := r.readings.map Readings.restarted } }

/-- SNAP (R144). -/
def execSnap (tag : Tag) (fit : Arg Unit) (s : State) : Host.Outcome State Fault Refusal :=
  let code := codeByte (.snap tag fit)
  match fit with
  | none => .next (s.reply code tag .range .empty)
  | some _ =>
    if s.frozen then .next (s.reply code tag .ok (.snapped s.snapTime true))
    else .next (s.freeze.reply code tag .ok (.snapped s.freeze.snapTime false))

/-- The frozen view is released. -/
def State.release (s : State) : State :=
  { s with frozen := false, snapTime := none, frozenReadings := Vector.replicate 64 none }

/-- UNSNAP (R145). -/
def execUnsnap (tag : Tag) (fit : Arg Unit) (s : State) : Host.Outcome State Fault Refusal :=
  let code := codeByte (.unsnap tag fit)
  match fit with
  | none => .next (s.reply code tag .range .empty)
  | some _ =>
    if s.frozen then .next (s.release.reply code tag .ok (.unsnapped true))
    else .next (s.reply code tag .ok (.unsnapped false))

end Sys2Proof.Machine
end

