-- ==== Sys2Proof/Machine/Drafts.lean ====
section
/-! DEFINITION. The Draft Pool's requests: DRAFT OPEN, SET, READ, COMMIT and DISCARD, and idle expiry (R29 to R45). -/

namespace Sys2Proof.Machine

open Sys2Proof

/-- Drafts the pool holds at most (R29). -/
def poolSize : Nat := 8

/-- The draft request's site resolved, with its draft: the first three checks of R34. -/
inductive DraftFound where
  | fails (status : Status)
  | found (site : SiteName) (draft : Draft)
  deriving DecidableEq, Repr

/-- The first three checks of R34. -/
def State.findDraft (s : State) (site : Arg Nat) : DraftFound :=
  match site.bind s.strapped? with
  | none => .fails .range
  | some n =>
    if !s.bringupDone then .fails .starting
    else
      match s.draftOf n with
      | none => .fails .unknown
      | some d => .found n d

/-- The idle age of a draft in whole seconds; it stays at 0 while COMMITTING (R30, R33). -/
def State.idleAge (s : State) (d : Draft) : Nat := if d.committing then 0 else min (s.ageFrom d.idleFrom) 3600

/-- A draft request that finds a draft sets its idle age to 0 (R33). -/
def State.touchDraft (s : State) (d : Draft) : State := s.putDraft { d with idleFrom := s.timebase }

/-! ### DRAFT OPEN (R32) -/

/-- The defaults of a new draft's block (R32). -/
def Block.default : Block := ⟨.current, 0, 0, 0, 0, 0, 0, 1, -850, -1200, 3⟩

/-- The content of a new draft (R32). -/
def newDraft (n : SiteName) (r : SiteRecord) (now : Nat) : Draft :=
  match r.node, r.comm with
  | some i, some c =>
    { site := n, committing := false, block := c.block, hostPlate := i.hostPlate
      ratedCurrent := if i.hostPlate then some i.plate.current else none
      ratedVoltage := if i.hostPlate then some i.plate.voltage else none
      idleFrom := now, lastResult := none }
  | _, _ =>
    { site := n, committing := false, block := Block.default, hostPlate := false, ratedCurrent := none
      ratedVoltage := none, idleFrom := now, lastResult := none }

/-- Whether a state lets a draft be opened (R32 check 4). -/
def SiteState.opensDraft : SiteState → Bool
  | .discovered | .commissioned | .unreachable => true
  | .vacant | .commissioning | .mismatch | .retiring => false

/-- The status of the first check of R32 that fails, from check 2 on. -/
def State.openCheck (s : State) (n : SiteName) : Option Status :=
  if !s.bringupDone then some .starting
  else if (s.draftOf n).isSome then some .busy
  else if !(s.site n).state.opensDraft then some .state
  else if s.discovering (branchOf n) then some .busy
  else if poolSize ≤ s.drafts.length then some .full
  else none

/-- A draft is created (R29, R32). -/
def State.openDraft (s : State) (n : SiteName) : State :=
  State.siteChanged { s with drafts := s.drafts ++ [newDraft n (s.site n) s.timebase] } n

/-- DRAFT OPEN (R32). -/
def execDraftOpen (tag : Tag) (site : Arg Nat) (s : State) : Host.Outcome State Fault Refusal :=
  let code := codeByte (.draftOpen tag site)
  match site.bind s.strapped? with
  | none => .next (s.reply code tag .range .empty)
  | some n =>
    match s.openCheck n with
    | some status => .next (s.reply code tag status .empty)
    | none => .next ((s.openDraft n).reply code tag .ok .empty)

/-! ### DRAFT SET (R31, R34) -/

/-- A value within a range of natural numbers. -/
def inRange (low high : Nat) (v : Int) : Option Nat := if (low : Int) ≤ v ∧ v ≤ (high : Int) then some v.toNat else none

/-- A potential within −3000..0 mV. -/
def inWindow (v : Int) : Option Int := if -3000 ≤ v ∧ v ≤ 0 then some v else none

/-- Number of draft fields; their codes are their places in the table of R31. -/
def fieldCount : Nat := 14

/-- A draft with one field written; `none` where the value lies outside the field's own range (R31). -/
def Draft.setField (d : Draft) (field : Nat) (v : Int) : Option Draft :=
  let b := d.block
  match field with
  | 0 => ((inRange 0 2 v).bind setModeOf?).map fun x => { d with block := { b with mode := x } }
  | 1 => (inRange 0 6000 v).map fun x => { d with block := { b with targetCurrent := x } }
  | 2 => (inRange 0 1000 v).map fun x => { d with block := { b with targetVoltage := x } }
  | 3 => (inRange 0 6000 v).map fun x => { d with block := { b with currentLimit := x } }
  | 4 => (inRange 0 1000 v).map fun x => { d with block := { b with voltageLimit := x } }
  | 5 => (inRange 0 6000 v).map fun x => { d with block := { b with trimFloor := x } }
  | 6 => (inRange 0 6000 v).map fun x => { d with block := { b with trimCeiling := x } }
  | 7 => (inRange 1 50 v).map fun x => { d with block := { b with trimStep := x } }
  | 8 => (inWindow v).map fun x => { d with block := { b with protectLimit := x } }
  | 9 => (inWindow v).map fun x => { d with block := { b with overprotectLimit := x } }
  | 10 => (inRange 1 8 v).map fun x => { d with block := { b with windowCount := x } }
  | 11 => (inRange 0 1 v).map fun x => { d with hostPlate := x == 1 }
  | 12 => (inRange 1 6000 v).map fun x => { d with ratedCurrent := some x }
  | 13 => (inRange 1 1000 v).map fun x => { d with ratedVoltage := some x }
  | _ => none

/-- DRAFT SET (R34). A payload that does not fit is answered RANGE before the draft is looked up, so the idle age runs on;
so is that of each draft request (R33, R199; assumption log 27). -/
def execDraftSet (tag : Tag) (args : Arg DraftSetArgs) (s : State) : Host.Outcome State Fault Refusal :=
  let code := codeByte (.draftSet tag args)
  match args with
  | none => .next (s.reply code tag .range .empty)
  | some a =>
    match s.findDraft (some a.site) with
    | .fails status => .next (s.reply code tag status .empty)
    | .found _ d =>
      let s := s.touchDraft d
      if d.committing then .next (s.reply code tag .state .empty)
      else if fieldCount ≤ a.field then .next (s.reply code tag .range .empty)
      else
        match d.setField a.field a.value with
        | none => .next (s.reply code tag .range (.namesField a.field))
        | some d' => .next ((s.touchDraft d').reply code tag .ok .empty)

/-! ### DRAFT READ (R35) -/

/-- DRAFT READ (R35). Whether it shows the idle age from before the request is left open (assumption log 21). -/
def execDraftRead (tag : Tag) (site : Arg Nat) (s : State) : Host.Outcome State Fault Refusal :=
  let code := codeByte (.draftRead tag site)
  match s.findDraft site with
  | .fails status => .next (s.reply code tag status .empty)
  | .found _ d =>
    let age := if Config.draftReadShowsOldAge then s.idleAge d else 0
    .next ((s.touchDraft d).reply code tag .ok (.draft ⟨d, age⟩))

/-! ### DRAFT COMMIT (R36 to R40) -/

/-- The field code of the first check of R37 that fails. -/
def validate (d : Draft) (plate : Nameplate) : Option Nat :=
  let b := d.block
  let ratedVoltage := if d.hostPlate then d.ratedVoltage.getD plate.voltage else plate.voltage
  if d.hostPlate ∧ d.ratedCurrent = none then some 12
  else if d.hostPlate ∧ d.ratedVoltage = none then some 13
  else if b.currentLimit < b.targetCurrent then some 1
  else if b.targetCurrent < b.trimFloor then some 5
  else if b.trimCeiling < b.targetCurrent then some 6
  else if b.currentLimit < b.trimCeiling then some 6
  else if b.voltageLimit < b.targetVoltage then some 2
  else if ratedVoltage < b.voltageLimit then some 4
  else if b.protectLimit ≤ b.overprotectLimit then some 9
  else if b.windowCount < 1 ∨ 8 < b.windowCount then some 10
  else none

/-- Whether a commit on a site in a state needs an APPLY (R36). -/
def SiteState.commitApplies : SiteState → Bool
  | .unreachable => false
  | .vacant | .discovered | .commissioning | .commissioned | .mismatch | .retiring => true

/-- Whether checks 6 to 9 of R36 answer BUSY. -/
def State.commitBusy (s : State) (n : SiteName) : Bool :=
  s.discovering (branchOf n) ||
    if (s.site n).state.commitApplies then
      s.applyInFlight n || s.cleanInFlight n || s.noPlace n [.restore, .clean]
    else s.applyInFlight n

/-- The draft becomes COMMITTING, its last commit result cleared and its idle age at 0 (R29, R36, R33). -/
def State.startCommit (s : State) (d : Draft) : State :=
  (s.putDraft { d with committing := true, lastResult := none, idleFrom := s.timebase }).siteChanged d.site

/-- The record of a site with the content of its draft (R38, R40). -/
def SiteRecord.withDraft (r : SiteRecord) (d : Draft) (refreshFrom : Nat) : SiteRecord :=
  match r.node with
  | some i =>
    let i' := commitIdent d i.plate i
    { r with
        node := some i'
        comm := some (commitContent d.block i'.plate refreshFrom)
        dirty := true }
  | none => r

/-- A commit on a DISCOVERED site (R38). -/
def State.commitFirst (s : State) (n : SiteName) (d : Draft) : State :=
  let s := s.startCommit d
  (s.enter n { (s.site n).withDraft d s.timebase with state := .commissioning }).takePlace n .commit

/-- A commit on a COMMISSIONED site (R39). -/
def State.commitAmend (s : State) (n : SiteName) (d : Draft) : State := (s.startCommit d).takePlace n .commit

/-- A commit on an UNREACHABLE site: the record takes the draft at once, its refresh age running on, and a RESTORE is
held for it (R40). A change of the applied current sets refresh due (R51). -/
def State.commitUnreachable (s : State) (n : SiteName) (d : Draft) : State :=
  let before := (s.site n).comm
  let s := s.change n fun r => r.withDraft d (before.elim s.timebase (·.refreshFrom))
  let changed := (s.site n).comm.map (·.applied) != before.map (·.applied)
  ((s.whenever changed fun s => s.setDue n).freeDraft n).claimRestore n

/-- A commit that has passed its checks, with the status of its answer. -/
def State.commit (s : State) (n : SiteName) (d : Draft) : State × Status :=
  match (s.site n).state with
  | .discovered => (s.commitFirst n d, .accepted)
  | .commissioned => (s.commitAmend n d, .accepted)
  | .unreachable => (s.commitUnreachable n d, .ok)
  | .vacant | .commissioning | .mismatch | .retiring => (s, .state)

/-- DRAFT COMMIT (R36). -/
def execDraftCommit (tag : Tag) (site : Arg Nat) (s : State) : Host.Outcome State Fault Refusal :=
  let code := codeByte (.draftCommit tag site)
  match s.findDraft site with
  | .fails status => .next (s.reply code tag status .empty)
  | .found n d =>
    let s := s.touchDraft d
    if d.committing then .next (s.reply code tag .state .empty)
    else
      match (s.site n).node.bind fun i => validate d i.plate with
      | some field =>
        .next ((s.touchDraft { d with lastResult := some (.range field) }).reply code tag .range (.namesField field))
      | none =>
        if s.commitBusy n then .next (s.reply code tag .busy .empty)
        else .next ((s.commit n d).1.reply code tag (s.commit n d).2 .empty)

/-! ### DRAFT DISCARD and idle expiry (R44, R45) -/

/-- DRAFT DISCARD (R44). -/
def execDraftDiscard (tag : Tag) (site : Arg Nat) (s : State) : Host.Outcome State Fault Refusal :=
  let code := codeByte (.draftDiscard tag site)
  match s.findDraft site with
  | .fails status => .next (s.reply code tag status .empty)
  | .found n d =>
    if d.committing then .next ((s.touchDraft d).reply code tag .state .empty)
    else .next ((s.freeDraft n).reply code tag .ok .empty)

/-- Whether an OPEN draft's idle age has reached the draft lifetime (R45). -/
def State.draftExpired (s : State) (d : Draft) : Bool :=
  !d.committing && decide (s.config.draftLifetime * 60 ≤ s.ageFrom d.idleFrom)

/-- Idle expiry of the draft of a site (R45). -/
def State.expireDraft (s : State) (n : SiteName) : State :=
  match s.draftOf n with
  | some d => if s.draftExpired d then s.dropDraft n else s
  | none => s

/-- The idle age of a draft reaches the draft lifetime (R45). -/
def execDraftExpiry (n : SiteName) (moment : Nat) (s : State) : Host.Outcome State Fault Refusal :=
  .next ((s.atMoment moment).expireDraft n)

end Sys2Proof.Machine
end

