-- ==== Sys2Proof/Machine/HostPort.lean ====
section
/-! DEFINITION. The exchanges of the host port: CS asserted and deasserted, the answer becoming ready, and NOP (R198,
R199, R200). -/

namespace Sys2Proof.Machine

open Sys2Proof

/-- The answer frame that is shifted out while an answer is in preparation (R200). -/
def notReady (code : Byte) (tag : Tag) : Answer := ⟨code, tag, .notReady, .empty⟩

/-- Whether the pending answer is ready. -/
def PendingAnswer.isReady : PendingAnswer → Bool
  | .ready _ => true
  | .serving .. | .built _ => false

/-- The answer an exchange that begins now shifts out: the pending one, or NOT_READY with the code and tag of the
request still being served (R198, R200). -/
def PendingAnswer.shown : PendingAnswer → Answer
  | .ready a => a
  | .serving code tag _ => notReady code tag
  | .built a => notReady a.code a.tag

/-- The exchange in progress. -/
def State.setExchange (s : State) (x : Option Exchange) : State := { s with host := { s.host with exchange := x } }

/-- The pending answer. -/
def State.setAnswer (s : State) (a : PendingAnswer) : State := { s with host := { s.host with answer := a } }

/-- CS is asserted (R198). -/
def execExchangeStart (moment : Nat) (s : State) : Host.Outcome State Fault Refusal :=
  let s := s.atMoment moment
  match s.host.exchange with
  | some _ => .next s
  | none => .next (s.setExchange (some ⟨s.host.answer.isReady, s.host.answer.shown.frame⟩))

/-- What the frame of an exchange that began ready leaves pending (R199). -/
def State.takeFrame (s : State) (mosi : List Byte) : State :=
  match judgeFrame mosi with
  | .frameError code tag => s.setAnswer (.ready ⟨code, tag, .frameError, .empty⟩)
  | .taken _ _ .nop => s
  | .taken code tag request => s.setAnswer (.serving code tag request)

/-- What an exchange shifts out on MISO while a number of bytes is shifted in: its frame, first byte first, and then
00h (R198). -/
def Exchange.shiftedOut (x : Exchange) (count : Nat) : List Byte := (x.miso ++ List.replicate count 0).take count

/-- The exchange ends, with a byte shifted out for each byte shifted in. -/
def State.endExchange (s : State) (x : Exchange) (count : Nat) : State :=
  { s with host := { s.host with exchange := none, shifted := x.shiftedOut count } }

/-- CS is deasserted (R198, R199, R200). -/
def execExchangeEnd (moment : Nat) (mosi : List Byte) (s : State) : Host.Outcome State Fault Refusal :=
  let s := s.atMoment moment
  match s.host.exchange with
  | none => .next s
  | some x =>
    let s := s.endExchange x mosi.length
    if x.beganReady then .next (s.takeFrame mosi) else .next s

/-- The serving block has built its answer, and the pending answer becomes ready (R198). -/
def execAnswerReady (s : State) : Host.Outcome State Fault Refusal :=
  match s.host.answer with
  | .built a => .next (s.setAnswer (.ready a))
  | .ready _ | .serving .. => .next s

/-- NOP is taken without changing the pending answer (R198). -/
def execNop (s : State) : Host.Outcome State Fault Refusal := .next s

end Sys2Proof.Machine
end

