-- ==== Sys2Proof/Machine/LeaseRequests.lean ====
section
/-! DEFINITION. The lease requests and the timed events of a lease (R71 to R76, R82 to R85, R92 to R94, R100 to R102,
R110 to R116, R119, R120, R208). -/

namespace Sys2Proof.Machine

open Sys2Proof

/-! ### Handles (R71) -/

/-- The entry a number 1 to 16 names. -/
def entryOf? (number : Nat) : Option EntryNo :=
  if h : 1 ≤ number ∧ number ≤ 16 then some ⟨number - 1, by omega⟩ else none

/-- A handle checked against the table. -/
inductive LeaseFound where
  | fails (status : Status)
  | found (entry : EntryNo) (lease : Lease)
  deriving DecidableEq, Repr

/-- The checks of R71. -/
def State.findLease (s : State) (h : HandleArgs) : LeaseFound :=
  match entryOf? h.entry with
  | none => .fails .range
  | some e =>
    match s.leaseOf e with
    | some l => if (s.entry e).generation = h.generation then .found e l else .fails .unknown
    | none => .fails .unknown

/-- The checks of R71, and then STARTING while bring-up is not done (R92, R94, R110, R115; assumption log 26). -/
def State.findServed (s : State) (h : HandleArgs) : LeaseFound :=
  match s.findLease h with
  | .fails status => .fails status
  | .found e l => if s.bringupDone then .found e l else .fails .starting

/-! ### LEASE REQUEST (R73 to R76) -/

/-- A pattern within the ranges of R75. -/
def patternInRange (p : Pattern) : Bool :=
  decide (5 ≤ p.onTime ∧ p.onTime ≤ 600) && decide (3 ≤ p.offTime ∧ p.offTime ≤ 300)
    && decide (5 ≤ p.offRead ∧ p.offRead + 5 ≤ 10 * p.offTime)

/-- The span of a request, where each end is one of the strapped names and the ends are in order (R75). -/
def State.requestedSpan (s : State) (a : LeaseRequestArgs) : Option (SiteName × SiteName) :=
  match s.strapped? a.first, s.strapped? a.last with
  | some f, some l => if pipelineIndex f ≤ pipelineIndex l then some (f, l) else none
  | _, _ => none

/-- Start and end within the ranges of R75. -/
def windowInRange (now start stop : Nat) : Bool :=
  decide (now + 40 ≤ start ∧ start ≤ now + 604800) && decide (start + 1 ≤ stop ∧ stop ≤ start + 43200)

/-- Whether a site is COMMISSIONED and has a line delay. -/
def State.grantable (s : State) (n : SiteName) : Bool := s.isCommissioned n && (s.site n).lineDelay.isSome

/-- Whether a span touches a branch that is training or discovering. -/
def State.spanBusy (s : State) (sites : List SiteName) : Bool :=
  sites.any fun n => s.trainingOn (branchOf n) || s.discovering (branchOf n)

/-- The entry a grant takes: the lowest FREE one, or else the head of the close order (R73). -/
def State.entryToTake (s : State) : Option EntryNo :=
  (entryNames.find? fun e => (s.leaseOf e).isNone).or s.closeOrder.head?

/-- The outcome of a span site at the grant (R72, R76). -/
def LeaseSite.granted (n : SiteName) : LeaseSite where
  site := n
  status := .waiting
  failure := none
  skipped := 0
  lastOff := none
  change := none
  call := none
  waiting := []
  exchange := .noArm
  endBound := none

/-- The lease as a grant makes it (R76). -/
def Lease.granted (a : LeaseRequestArgs) (first last : SiteName) : Lease where
  state := .granted
  requester := a.requester
  first := first
  last := last
  pattern := a.pattern
  start := a.start
  stop := a.stop
  strictness := a.strictness
  sites := (spanSites first last).map LeaseSite.granted
  change := none
  lastResult := none
  closeCause := none
  stopCause := none
  run := none

/-- The generation that follows (R71). -/
def nextGeneration (g : Nat) : Nat := (g + 1) % 256

/-- The generation a lease in an entry takes: the next one where the entry leaves CLOSED (R71). -/
def State.takenGeneration (s : State) (e : EntryNo) : Nat :=
  if (s.leaseOf e).isSome then nextGeneration (s.entry e).generation else (s.entry e).generation

/-- Every span site takes the new handle as its holder, and its window counts are set to 0 (R65, R77). -/
def State.hold (s : State) (h : Handle) (sites : List SiteName) : State :=
  s.each sites fun s n => (s.change n fun r => { r with holder := some h }).zeroCounts n

/-- A grant (R76). -/
def State.grantLease (s : State) (e : EntryNo) (l : Lease) : State :=
  let s := s.setEntry e ⟨s.takenGeneration e, some l⟩
  let s := { s with closeOrder := s.closeOrder.filter (· != e) }
  (s.hold (s.handleOf e) (l.sites.map (·.site))).leaseChanged e

/-- Checks 5 to 8 of R74 over a span. -/
def State.spanCheck (s : State) (sites : List SiteName) : Option (Status × Body) :=
  match sites.find? fun n => !s.grantable n with
  | some n => some (.state, .namesSite n)
  | none =>
    match sites.find? fun n => (s.site n).held with
    | some n => some (.conflict, .namesHolder n (s.site n).holder)
    | none => if s.spanBusy sites then some (.busy, .empty) else none

/-- LEASE REQUEST (R74); a payload that does not fit is answered RANGE first (assumption log 50). -/
def execLeaseRequest (tag : Tag) (args : Arg LeaseRequestArgs) (s : State) : Host.Outcome State Fault Refusal :=
  let code := codeByte (.leaseRequest tag args)
  match args with
  | none => .next (s.reply code tag .range .empty)
  | some a =>
    if !s.bringupDone then .next (s.reply code tag .starting .empty)
    else if s.clock.state ≠ .locked then .next (s.reply code tag .noTime .empty)
    else
      match s.requestedSpan a with
      | none => .next (s.reply code tag .range .empty)
      | some (f, l) =>
        if !patternInRange a.pattern || !windowInRange s.nowD a.start a.stop then
          .next (s.reply code tag .range .empty)
        else
          match s.spanCheck (spanSites f l) with
          | some (status, body) => .next (s.reply code tag status body)
          | none =>
            match s.entryToTake with
            | none => .next (s.reply code tag .full .empty)
            | some e =>
              let s := s.grantLease e (Lease.granted a f l)
              .next (s.reply code tag .ok (.handle (s.handleOf e)))

/-! ### LEASE READ and LEASE DISMISS (R93, R94, R208) -/

/-- Outcomes one answer carries at most (R208). -/
def outcomesShown : Nat := 32

/-- LEASE READ (R93, R208). -/
def execLeaseRead (tag : Tag) (args : Arg LeaseReadArgs) (s : State) : Host.Outcome State Fault Refusal :=
  let code := codeByte (.leaseRead tag args)
  match args with
  | none => .next (s.reply code tag .range .empty)
  | some a =>
    match s.findLease a.handle with
    | .fails status => .next (s.reply code tag status .empty)
    | .found e l =>
      let index := max (a.index.getD 1) 1
      if l.sites.length < index then .next (s.reply code tag .range .empty)
      else
        let outcomes := (l.sites.drop (index - 1)).take outcomesShown
        .next (s.reply code tag .ok (.lease ⟨s.handleOf e, l, index, outcomes⟩))

/-- A CLOSED entry becomes FREE (R94). -/
def State.dismiss (s : State) (e : EntryNo) : State :=
  let s := s.setEntry e ⟨nextGeneration (s.entry e).generation, none⟩
  State.leaseChanged { s with closeOrder := s.closeOrder.filter (· != e) } e

/-- LEASE DISMISS (R94). -/
def execLeaseDismiss (tag : Tag) (args : Arg HandleArgs) (s : State) : Host.Outcome State Fault Refusal :=
  let code := codeByte (.leaseDismiss tag args)
  match args with
  | none => .next (s.reply code tag .range .empty)
  | some h =>
    match s.findServed h with
    | .fails status => .next (s.reply code tag status .empty)
    | .found e l =>
      if l.state = .closed then .next ((s.dismiss e).reply code tag .ok .empty)
      else .next (s.reply code tag .state .empty)

/-! ### LEASE RELEASE (R92, R119) -/

/-- An armed site whose record is not COMMISSIONED is STOP_FAILED with Failure LOST (R92). -/
def State.failArmedAway (s : State) (e : EntryNo) : State :=
  match s.leaseOf e with
  | some l =>
    s.each (l.sites.filter fun x => x.status == .armed && !s.isCommissioned x.site) fun s x =>
      s.changeOutcome e x.site fun y => (y.become .stopFailed).fail .lost
  | none => s

/-- The state after a release, by the lease's state. -/
def State.releaseLease (s : State) (e : EntryNo) (state : LeaseState) : State :=
  match state with
  | .granted => s.closeLease e .released
  | .arming | .armed => (s.failArmedAway e).stopArming e .released
  | .running => s.stopRunning e .released
  | .stopping | .closed => s

/-- The status of a release, by the lease's state before it and after it: OK where the lease has closed. -/
def releaseStatus (before : LeaseState) (after : Option Lease) : Status :=
  match before with
  | .stopping => .state
  | .closed => .tooLate
  | .granted | .arming | .armed | .running => if after.any fun l => l.state == .closed then .ok else .accepted

/-- LEASE RELEASE (R92, R119). -/
def execLeaseRelease (tag : Tag) (args : Arg HandleArgs) (s : State) : Host.Outcome State Fault Refusal :=
  let code := codeByte (.leaseRelease tag args)
  match args with
  | none => .next (s.reply code tag .range .empty)
  | some h =>
    match s.findServed h with
    | .fails status => .next (s.reply code tag status .empty)
    | .found e l =>
      let t := s.releaseLease e l.state
      .next (t.reply code tag (releaseStatus l.state (t.leaseOf e)) .empty)

/-! ### LEASE EXTEND (R110, R111) -/

/-- Whether a lease is over, or on its way there. -/
def LeaseState.ending : LeaseState → Bool
  | .stopping | .closed => true
  | .granted | .arming | .armed | .running => false

/-- The status of the first check of R110 that fails, from check 3 on. -/
def State.extendCheck (s : State) (l : Lease) (newEnd : Nat) : Option Status :=
  if l.state.ending then some .tooLate
  else if l.change.isSome then some .busy
  else if newEnd ≤ l.stop ∨ l.start + 43200 < newEnd then some .range
  else if l.stop < s.nowD + 10 then some .tooLate
  else none

/-- Whether a site belongs to the expected set of a change when it is set (R111, R116). -/
def State.expected (s : State) (x : LeaseSite) : Bool :=
  (x.status == .armed || x.status == .cycling) && s.isCommissioned x.site

/-- A change is set as pending, and its calls are placed for the expected sites (R111, R115, R116). -/
def State.startChange (s : State) (e : EntryNo) (l : Lease) (change : PendingChange) (c : LeaseCall) : State :=
  let s := s.setLease e
    { l with
        change := some change
        sites := l.sites.map fun x => if s.expected x then { x with change := some none } else x }
  ((s.leaseChanged e).placeAll e (·.unanswered) c).checkDecision e

/-- An extension that has passed its checks: at once for a GRANTED lease, by EXTEND calls otherwise. -/
def State.extendLease (s : State) (e : EntryNo) (l : Lease) (newEnd : Nat) : State :=
  if l.state = .granted then
    (s.setLease e { l with stop := newEnd, lastResult := some .taken }).leaseChanged e
  else s.startChange e l (.extend newEnd false) (.extend newEnd)

/-- LEASE EXTEND (R110). -/
def execLeaseExtend (tag : Tag) (args : Arg LeaseExtendArgs) (s : State) : Host.Outcome State Fault Refusal :=
  let code := codeByte (.leaseExtend tag args)
  match args with
  | none => .next (s.reply code tag .range .empty)
  | some a =>
    match s.findServed a.handle with
    | .fails status => .next (s.reply code tag status .empty)
    | .found e l =>
      match s.extendCheck l a.newEnd with
      | some status => .next (s.reply code tag status .empty)
      | none =>
        let status := if l.state = .granted then .ok else .accepted
        .next ((s.extendLease e l a.newEnd).reply code tag status .empty)

/-! ### LEASE REPATTERN (R115) -/

/-- The first boundary of a pattern, counted from its origin, that lies at or after a point; all in tenths of a
second. -/
def firstBoundary (origin period point : Nat) : Nat := origin + (point - origin + period - 1) / period * period

/-- The boundary T of a repattern, in tenths of a section second: the first boundary at least 10 s after now. -/
def State.repatternBoundary (s : State) (l : Lease) : Nat :=
  firstBoundary ((l.run.map (·.origin)).getD (l.start * 10)) (patternPeriod l.pattern) (s.nowD * 10 + 100)

/-- The status of the first check of R115 that fails, from check 3 on. -/
def State.repatternCheck (s : State) (l : Lease) (p : Pattern) : Option Status :=
  if l.state = .granted ∨ l.state = .arming then some .state
  else if l.state.ending then some .tooLate
  else if l.change.isSome then some .busy
  else if !patternInRange p then some .range
  else if l.stop * 10 ≤ s.repatternBoundary l then some .tooLate
  else none

/-- LEASE REPATTERN (R115). -/
def execLeaseRepattern (tag : Tag) (args : Arg LeaseRepatternArgs) (s : State) : Host.Outcome State Fault Refusal :=
  let code := codeByte (.leaseRepattern tag args)
  match args with
  | none => .next (s.reply code tag .range .empty)
  | some a =>
    match s.findServed a.handle with
    | .fails status => .next (s.reply code tag status .empty)
    | .found e l =>
      match s.repatternCheck l a.pattern with
      | some status => .next (s.reply code tag status .empty)
      | none =>
        let t := s.repatternBoundary l
        .next ((s.startChange e l (.repattern a.pattern t) (.repattern a.pattern t)).reply code tag .accepted .empty)

/-! ### Timed events (R82, R83, R85, R100, R101, R112, R116, R120) -/

/-- Whether section time, LOCKED or in HOLDOVER, has reached a second (R82). -/
def State.reached (s : State) (t : Nat) : Bool :=
  (s.clock.state == .locked || s.clock.state == .holdover) && decide (t ≤ s.nowD)

/-- Arming begins (R83). -/
def execLeaseArming (e : EntryNo) (s : State) : Host.Outcome State Fault Refusal :=
  match s.leaseOf e with
  | some l =>
    if l.state = .granted ∧ s.reached (l.start - 30) then
      .next (((s.setLease e { l with state := .arming }).leaseChanged e).placeAll e (·.status == .waiting) .arm)
    else .next s
  | none => .next s

/-- The arm deadline (R85). -/
def execArmDeadline (e : EntryNo) (s : State) : Host.Outcome State Fault Refusal :=
  match s.leaseOf e with
  | some l => if l.state = .arming ∧ s.reached (l.start - 5) then .next (s.armDeadline e) else .next s
  | none => .next s

/-- An ARMED site becomes CYCLING (R100). -/
def LeaseSite.started (x : LeaseSite) : LeaseSite := if x.status = .armed then x.become .cycling else x

/-- Running begins (R100). -/
def execLeaseStart (e : EntryNo) (s : State) : Host.Outcome State Fault Refusal :=
  match s.leaseOf e with
  | some l =>
    if l.state = .armed ∧ s.reached l.start then
      .next ((s.setLease e { l with state := .running, sites := l.sites.map LeaseSite.started }).leaseChanged e)
    else .next s
  | none => .next s

/-- The next cycle boundary of a run record, in tenths of a second, with the number of the cycle that ends there:
boundaries of an older pattern come first (R101, R116). -/
def RunRecord.boundary (r : RunRecord) (period : Nat) : Nat × Nat :=
  match r.old with
  | o :: _ => (o.origin + o.next * o.period, o.next)
  | [] => (r.origin + r.next * period, r.next)

/-- The run record past its next boundary. -/
def RunRecord.passed (r : RunRecord) : RunRecord :=
  match r.old with
  | o :: rest =>
    if o.origin + (o.next + 1) * o.period ≤ o.upTo then { r with old := { o with next := o.next + 1 } :: rest }
    else { r with old := rest }
  | [] => { r with next := r.next + 1 }

/-- The set with a lease poll added, or put in the place of one for the same site that has not been sent (R102). -/
def addPoll (q : LeasePoll) (polls : List LeasePoll) : List LeasePoll :=
  if polls.any fun p => p.site == q.site then polls.map fun p => if p.site = q.site then q else p else polls ++ [q]

/-- A lease poll is placed for a site; the site's Skipped cycles go up where it replaces one (R102). -/
def State.placePoll (s : State) (e : EntryNo) (n : SiteName) (cycle second : Nat) : State :=
  let b := branchOf n
  let l := s.line b
  let waiting := l.leasePolls.any fun p => p.site == n
  let s := s.setLine b { l with leasePolls := addPoll ⟨n, s.handleOf e, cycle, second⟩ l.leasePolls }
  s.whenever waiting fun s => s.changeOutcome e n (·.skip)

/-- Whether a site of a lease takes a lease poll at a cycle end: its status is CYCLING and its record COMMISSIONED
(R102). -/
def State.polledBy (s : State) (l : Lease) (n : SiteName) : Bool :=
  (l.siteOf n).any (fun x => x.status == .cycling) && s.isCommissioned n

/-- A cycle-end event: its polls are placed in order of position on each branch, as the Sequencer's calls are (R81,
R101, R102). -/
def State.cycleEnd (s : State) (e : EntryNo) (l : Lease) (r : RunRecord) : State :=
  let (boundary, cycle) := r.boundary (patternPeriod l.pattern)
  let s := s.setLease e { l with run := some r.passed }
  s.each (siteNames.filter (s.polledBy l)) fun s n => s.placePoll e n cycle (boundary / 10)

/-- A cycle boundary is reached (R101). -/
def execCycleEnd (e : EntryNo) (moment : Nat) (s : State) : Host.Outcome State Fault Refusal :=
  let s := s.atMoment moment
  match (s.leaseOf e).bind fun l => l.run.map fun r => (l, r) with
  | some (l, r) =>
    let boundary := (r.boundary (patternPeriod l.pattern)).1
    if l.state = .running ∧ boundary < l.stop * 10 ∧ boundary ≤ s.nowTenths then .next (s.cycleEnd e l r)
    else .next s
  | none => .next s

/-- The old End less 2 s is reached with an extension pending (R112). -/
def execExtendDeadline (e : EntryNo) (s : State) : Host.Outcome State Fault Refusal :=
  match (s.leaseOf e).bind fun l => l.change.map fun c => (l, c) with
  | some (l, .extend newEnd false) => if s.reached (l.stop - 2) then .next (s.decideExtend e newEnd) else .next s
  | some (_, .extend _ true) | some (_, .repattern ..) | none => .next s

/-- T less 2 s is reached with a repattern pending (R116). -/
def execRepatternDeadline (e : EntryNo) (moment : Nat) (s : State) : Host.Outcome State Fault Refusal :=
  let s := s.atMoment moment
  match (s.leaseOf e).bind (·.change) with
  | some (.repattern p boundary) =>
    if boundary ≤ s.nowTenths + 20 then .next (s.decideRepattern e p boundary) else .next s
  | some (.extend ..) | none => .next s

/-- The end of the window (R120). -/
def execWindowEnd (e : EntryNo) (s : State) : Host.Outcome State Fault Refusal :=
  match s.leaseOf e with
  | some l =>
    if l.state = .running ∧ s.reached l.stop then
      .next (s.enterStopping e .ended (·.status == .cycling) .check)
    else .next s
  | none => .next s

end Sys2Proof.Machine
end

