-- ==== Sys2Proof/Machine/Store.lean ====
section
/-! DEFINITION. The Record Store: loading, the section slot and the boot count, persist passes, and a write cut short
(chapter 10; R69). -/

namespace Sys2Proof.Machine

open Sys2Proof

/-! ### The load report (R190) -/

/-- An outcome joins the report, in the place of an earlier one for the same slot and otherwise at its end (assumption
log 49). -/
def putReport (n : SlotName) (o : LoadOutcome) : List (SlotName × LoadOutcome) → List (SlotName × LoadOutcome)
  | [] => [(n, o)]
  | x :: rest => if x.1 = n then (n, o) :: rest else x :: putReport n o rest

/-- An outcome is reported, with STORE_ERROR (R192, R193, R195). -/
def State.report (s : State) (n : SlotName) (o : LoadOutcome) : State :=
  State.raise { s with store := { s.store with report := putReport n o s.store.report } } .storeError

/-- The entry of a slot leaves the report. -/
def State.unreport (s : State) (n : SlotName) : State :=
  { s with store := { s.store with report := s.store.report.filter fun x => x.1 != n } }

/-! ### Slots -/

/-- The slot of a site. -/
def State.siteSlot (s : State) (n : SiteName) : Slot (Option SiteImage) := s.store.siteSlots.get n

/-- Writes the slot of a site. -/
def State.setSiteSlot (s : State) (n : SiteName) (x : Slot (Option SiteImage)) : State :=
  { s with store := { s.store with siteSlots := s.store.siteSlots.set n.val x n.isLt } }

/-- Writes the section slot. -/
def State.setSectionSlot (s : State) (x : Slot SectionImage) : State :=
  { s with store := { s.store with sectionSlot := x } }

/-- The slot a write is for. -/
def WriteImage.slot : WriteImage → SlotName
  | .site n _ => .site n
  | .section_ _ => .section_

/-- What is left in a slot by a write that put its image there with a number of bits in error, or did not. -/
def leftBy {α : Type} (x : LeftSlot) (old : Slot α) (image : α) : Slot α :=
  match x with
  | .unreadable => .damaged
  | .erased => .erased
  | .newImage => .holds image false
  | .newImageOneBit => .holds image true
  | .oldImage => old

/-- What a cut write leaves in a slot (R196). -/
def cutBy {α : Type} (x : CutSlot) (old : Slot α) (image : α) : Slot α :=
  match x with
  | .oldImage => old
  | .newImage => .holds image false
  | .unreadable => .damaged

/-- The store with the slot of a write holding what the write left. -/
def Store.written (st : Store) (w : WriteImage) (site : Slot (Option SiteImage) → Option SiteImage → Slot (Option SiteImage))
    (section_ : Slot SectionImage → SectionImage → Slot SectionImage) : Store :=
  match w with
  | .site n image => { st with siteSlots := st.siteSlots.set n.val (site (st.siteSlots.get n) image) n.isLt }
  | .section_ image => { st with sectionSlot := section_ st.sectionSlot image }

/-! ### Loading (R69, R192) -/

/-- A block within the ranges of the draft fields (R31). -/
def blockInRange (b : Block) : Bool :=
  decide (b.targetCurrent ≤ 6000) && decide (b.targetVoltage ≤ 1000) && decide (b.currentLimit ≤ 6000)
    && decide (b.voltageLimit ≤ 1000) && decide (b.trimFloor ≤ 6000) && decide (b.trimCeiling ≤ 6000)
    && decide (1 ≤ b.trimStep ∧ b.trimStep ≤ 50) && decide (-3000 ≤ b.protectLimit ∧ b.protectLimit ≤ 0)
    && decide (-3000 ≤ b.overprotectLimit ∧ b.overprotectLimit ≤ 0) && decide (1 ≤ b.windowCount ∧ b.windowCount ≤ 8)

/-- A nameplate within the ranges of R2. -/
def plateInRange (p : Nameplate) : Bool :=
  decide (1 ≤ p.current ∧ p.current ≤ 6000) && decide (1 ≤ p.voltage ∧ p.voltage ≤ 1000)

/-- A commissioned image whose fields are all in range, with a serial (R192). -/
def imageInRange (x : SiteImage) : Bool :=
  decide (1 ≤ x.serial ∧ x.serial < 2 ^ 32) && plateInRange x.plate && blockInRange x.block
    && decide (x.applied ≤ 6000)
    && (x.irOffset.all fun o => decide (-2000 ≤ o.millivolts ∧ o.millivolts ≤ 0))

/-- A record as it is loaded: UNREACHABLE with its stored content, LINK_LOST present and not latched (R11, R28). -/
def loadedRecord (x : SiteImage) (now : Nat) : SiteRecord :=
  { SiteRecord.blank with
      state := .unreachable
      node := some ⟨x.serial, x.plate, x.hostPlate, none, now⟩
      comm := some ⟨x.block, x.applied, now, none⟩
      irOffset := x.irOffset
      faults := FaultSet.setPresent ⟨0, 0⟩ .linkLost true }

/-- The Dirty mark of a record is set by the store. -/
def State.storeDirty (s : State) (n : SiteName) : State := s.setSite n { s.site n with dirty := true }

/-- A record is loaded; the claim bounds its applied current and settles its trim status and LIMIT_CLAMPED (R69). -/
def State.loadRecord (s : State) (n : SiteName) (x : SiteImage) : State :=
  ((s.setSite n (loadedRecord x s.timebase)).change n id).siteChanged n

/-- One site slot is read (R192). A corrected slot whose image is out of range, repeats a serial or is empty is LOST,
DUPLICATE or CORRECTED like one that reads clean, with Dirty set (assumption log 37). -/
def State.loadSlot (s : State) (n : SiteName) : State :=
  match s.siteSlot n with
  | .erased | .damaged => (s.storeDirty n).report (.site n) .lost
  | .holds none corrected => if corrected then (s.storeDirty n).report (.site n) .corrected else s
  | .holds (some x) corrected =>
    if !imageInRange x then (s.storeDirty n).report (.site n) .lost
    else if (s.otherHolding? n x.serial).isSome then (s.storeDirty n).report (.site n) .duplicate
    else if corrected then ((s.loadRecord n x).storeDirty n).report (.site n) .corrected
    else s.loadRecord n x

/-- The site slots of the strapped branches are read in site-name order (R192). -/
def State.loadSites (s : State) : State :=
  s.each (siteNames.filter fun n => s.strap.selects (branchOf n)) fun s n => s.loadSlot n

/-! ### The section configuration (R203) -/

/-- The place in the table of R203 of the first parameter outside its range. -/
def configFault (c : SectionConfig) : Option Nat :=
  if c.refreshInterval < 1 ∨ 30 < c.refreshInterval then some 0
  else if c.holdPeriod < 2 ∨ 120 < c.holdPeriod ∨ c.holdPeriod < 2 * c.refreshInterval then some 1
  else if c.pollPeriod < 10 ∨ 600 < c.pollPeriod then some 2
  else if c.threshold < 1 ∨ 15 < c.threshold then some 3
  else if c.holdoverLimit < 10 ∨ 600 < c.holdoverLimit then some 4
  else if c.draftLifetime < 1 ∨ 60 < c.draftLifetime then some 5
  else none

/-! ### Passes (R193, R194, R195) -/

/-- All slots in site-name order, the section slot last (R190). -/
def slotOrder : List SlotName := siteNames.map .site ++ [.section_]

/-- Whether a slot is dirty. -/
def State.slotDirty (s : State) : SlotName → Bool
  | .site n => (s.site n).dirty
  | .section_ => s.store.sectionDirty

/-- The Dirty mark of a slot. -/
def State.setSlotDirty (s : State) (n : SlotName) (d : Bool) : State :=
  match n with
  | .site m => s.setSite m { s.site m with dirty := d }
  | .section_ => { s with store := { s.store with sectionDirty := d } }

/-- The image a slot takes at its turn (R191). -/
def State.imageOf (s : State) : SlotName → WriteImage
  | .site n => .site n (s.site n).image
  | .section_ => .section_ ⟨s.config, s.bootCount⟩

/-- A slot's turn comes: its image is taken, its Dirty mark is cleared and its write begins. -/
def State.startWrite (s : State) (n : SlotName) (boot : Bool) : State :=
  let w := s.imageOf n
  let s := s.setSlotDirty n false
  { s with store := { s.store with pass := some ⟨w, false, boot⟩ } }

/-- A pass ends. That of step 3 raises no PERSIST_DONE, and the start-up sequence goes on to step 4 (R193). -/
def State.endPass (s : State) (boot : Bool) : State :=
  let s := { s with store := { s.store with pass := none } }
  if boot then s.startDiscovery else s.raise .persistDone

/-- A pass moves on from its position: slots that are not dirty are passed over. The next dirty slot's turn, or the end of
the pass, comes in the same step as the PERSIST or the end of a slot write that moves the pass on (assumption log 55). -/
def State.passFrom (s : State) (slots : List SlotName) (boot : Bool) : State :=
  match slots.find? s.slotDirty with
  | some n => s.startWrite n boot
  | none => s.endPass boot

/-- The slots after one, which a pass has still to visit; the pass of step 3 visits the section slot alone. -/
def slotsAfter (n : SlotName) : List SlotName := (slotOrder.dropWhile (· ≠ n)).drop 1

/-- A pass moves on after a slot. -/
def State.passOn (s : State) (p : Pass) : State :=
  s.passFrom (if p.boot then [] else slotsAfter p.writing.slot) p.boot

/-- A slot write is read back as the image written, with a good check: the slot holds it with no corrected bit (assumption
log 48). -/
def State.writeGood (s : State) (p : Pass) : State :=
  let store := s.store.written p.writing (fun _ image => .holds image false) (fun _ image => .holds image false)
  (({ s with store := store }).unreport p.writing.slot).passOn p

/-- A slot write fails a second time (R195). -/
def State.writeFailed (s : State) (p : Pass) : State :=
  let left := Config.failedWrite s.freeIndex
  let store := s.store.written p.writing (leftBy left) (leftBy left)
  let s := { s with store := store, freeIndex := s.freeIndex + 1 }
  ((s.setSlotDirty p.writing.slot true).report p.writing.slot .writeFailed).passOn p

/-! ### Step 3 of the start-up sequence (R193) -/

/-- The section slot is read for the configuration and the boot count (R193). A SECTION CONFIG taken since the reset stays
in force, and the boot count alone is taken. -/
def State.takeSection (s : State) : State :=
  let kept := s.store.stepThree == .configured
  let take (s : State) (c : SectionConfig) (count : Nat) : State :=
    { s with config := if kept then s.config else c, bootCount := count }
  let lost := (take s SectionConfig.default 0).report .section_ .lost
  match s.store.sectionSlot with
  | .erased | .damaged => lost
  | .holds x corrected =>
    if (configFault x.config).isSome then lost
    else (take s x.config x.bootCount).whenever corrected fun s => s.report .section_ .corrected

/-- Step 3: the section slot is taken, the boot count is increased and the section slot is written at once (R193). -/
def State.bootStep (s : State) : State :=
  let s := s.takeSection
  let s := { s with
    bootCount := (s.bootCount + 1) % 2 ^ 32
    store := { s.store with sectionDirty := true, stepThree := .idle } }
  s.startWrite .section_ true

/-- Whether step 3 waits to be taken. -/
def State.bootWaits (s : State) : Bool := s.store.stepThree != .idle && s.store.pass.isNone

/-- Step 3 is taken where it waits. -/
def State.beginBoot (s : State) : State := if s.bootWaits then s.bootStep else s

/-! ### The commands -/

/-- A slot write ends with its read-back (R194, R195). Where step 3 still waits to be taken, the write that ends is the
one it begins (assumption log 4). -/
def execSlotWriteDone (result : ReadBack) (s : State) : Host.Outcome State Fault Refusal :=
  let s := s.beginBoot
  match s.store.pass with
  | none => .next s
  | some p =>
    match result with
    | .good => .next (s.writeGood p)
    | .bad =>
      if p.again then .next (s.writeFailed p)
      else .next { s with store := { s.store with pass := some { p with again := true } } }

/-- Whether some slot is dirty. -/
def State.anyDirty (s : State) : Bool := slotOrder.any s.slotDirty

/-- PERSIST (R194); a payload that does not fit is answered RANGE first (assumption log 50). -/
def execPersist (tag : Tag) (fit : Arg Unit) (s : State) : Host.Outcome State Fault Refusal :=
  let code := codeByte (.persist tag fit)
  match fit with
  | none => .next (s.reply code tag .range .empty)
  | some _ =>
    if !s.bringupDone then .next (s.reply code tag .starting .empty)
    else if s.store.pass.isSome then .next (s.reply code tag .busy .empty)
    else
      let status := if s.anyDirty then .accepted else .ok
      .next ((s.passFrom slotOrder false).reply code tag status .empty)

/-! ### Resets (R196) -/

/-- The store as a reset leaves it, step 3 of the start-up sequence still to come: the slot being written holds its old image, its new one or nothing that reads
(R190, R196). -/
def Store.afterReset (st : Store) (left : CutSlot) : Store :=
  let st := match st.pass with
    | some p => st.written p.writing (cutBy left) (cutBy left)
    | none => st
  { st with sectionDirty := false, stepThree := .waiting, pass := none, report := [] }

end Sys2Proof.Machine
end

