-- ==== Sys2Proof/Machine/Resets.lean ====
section
/-! DEFINITION. The three resets, the first steps of the start-up sequence, and the block with no command waiting (R28, R47, R68, R96, R123, R135,
R148, R172, R174, R175, R190, R196, R197, R206). -/

namespace Sys2Proof.Machine

open Sys2Proof

/-- Every block as a reset leaves it. What is kept is the store's slots, the levels at the strap inputs, and the
model's own queue and counter. -/
def State.afterReset (s : State) (pins : StrapPins) (host : HostPort) : State :=
  { State.reset with
      pending := s.pending
      pins := pins
      store := s.store.afterReset (Config.cutWrite s.freeIndex)
      host := host
      freeIndex := s.freeIndex + 1 }

/-- Steps 1 and 2 of the start-up sequence: the strap is latched and the store is loaded (R174, R175, R192; assumption
log 4). -/
def State.startUp (s : State) : State := State.loadSites { s with strap := strapOf s.pins }

/-- What the block does while no command waits: it takes step 3 of the start-up sequence where that is still to come
(R193; assumption log 4), and otherwise lets one microsecond of its timebase pass (assumption log 2). -/
def State.idle (s : State) : State :=
  if s.bootWaits then s.bootStep else { s with timebase := s.timebase + 1 }

/-- The reset cause of a power-on reset (R148). -/
def causeOf : PowerCause → ResetCause
  | .powerOn => .powerOn
  | .brownOut => .brownOut

/-- SUPPLY_LOW after a power-on reset (R148). -/
def supplyLowAfter : PowerCause → Bool
  | .powerOn => false
  | .brownOut => true

/-- A power-on reset (R148). -/
def execPowerOnReset (cause : PowerCause) (pins : StrapPins) (s : State) : Host.Outcome State Fault Refusal :=
  let host := HostPort.afterReset (causeOf cause) (supplyLowAfter cause) (restartAnswer (codeByte .nop) 0)
  .next (s.afterReset pins host).startUp

/-- A reset from the RESET input (R148). -/
def execPinReset (pins : StrapPins) (s : State) : Host.Outcome State Fault Refusal :=
  let host := HostPort.afterReset .pin s.host.supplyLow (restartAnswer (codeByte .nop) 0)
  .next (s.afterReset pins host).startUp

/-- SECTION RESET (R206): a soft reset, whose restart answer carries the request's tag (R198). The levels it finds at
BRANCH1 and BRANCH0 are a fresh reading (R174; assumption log 5). -/
def execSectionReset (tag : Tag) (fit : Arg Unit) (s : State) : Host.Outcome State Fault Refusal :=
  let code := codeByte (.sectionReset tag fit)
  match fit with
  | none => .next (s.reply code tag .range .empty)
  | some _ =>
    let host := HostPort.afterReset .soft s.host.supplyLow (restartAnswer code tag)
    .next (s.afterReset (Config.strapLevels s.freeIndex) host).startUp

end Sys2Proof.Machine
end

