-- ==== Sys2Proof/Machine/Section.lean ====
section
/-! DEFINITION. The section requests: DISCOVER, TRAIN, RELAY, RELAY RESULT, SECTION READ, SECTION CONFIG, CHANGES and
EVENT MASK (R168, R170, R185, R189, R202 to R205). -/

namespace Sys2Proof.Machine

open Sys2Proof

/-! ### DISCOVER and TRAIN (R185, R189) -/

/-- Whether a live lease has a span that covers a site of a branch. -/
def State.leaseOn (s : State) (b : Branch) : Bool :=
  entryNames.any fun e => (s.leaseOf e).any fun l => l.live && l.sites.any fun x => branchOf x.site == b

/-- The status of the first of checks 2 to 4 of R185 that fails. -/
def State.jobCheck (s : State) (b : Branch) : Option Status :=
  if !s.bringupDone then some .starting
  else if s.leaseOn b then some .leaseActive
  else if (s.bring b).job ≠ .none ∨ (s.bring b).request.isSome then some .busy
  else none

/-- Whether a site of a branch has a draft in COMMITTING. -/
def State.committingOn (s : State) (b : Branch) : Bool := s.drafts.any fun d => d.committing && branchOf d.site == b

/-- DISCOVER (R185). -/
def execDiscover (tag : Tag) (branch : Arg Nat) (s : State) : Host.Outcome State Fault Refusal :=
  let code := codeByte (.discover tag branch)
  match branch.bind s.strappedBranch? with
  | none => .next (s.reply code tag .range .empty)
  | some b =>
    match s.jobCheck b with
    | some status => .next (s.reply code tag status .empty)
    | none =>
      if s.committingOn b then .next (s.reply code tag .busy .empty)
      else .next (((s.changeBring b fun x => { x with job := .discover }).startWalk b).reply code tag .accepted .empty)

/-- TRAIN (R189). -/
def execTrain (tag : Tag) (branch : Arg Nat) (s : State) : Host.Outcome State Fault Refusal :=
  let code := codeByte (.train tag branch)
  match branch.bind s.strappedBranch? with
  | none => .next (s.reply code tag .range .empty)
  | some b =>
    match s.jobCheck b with
    | some status => .next (s.reply code tag status .empty)
    | none =>
      .next (((s.changeBring b fun x => { x with job := .train }).startTraining b).reply code tag .accepted .empty)

/-! ### RELAY and RELAY RESULT (R168, R170) -/

/-- A slot whose after-action its direction allows (R168 check 3). -/
def RelaySlot.allowed (x : RelaySlot) : Bool :=
  match x.direction with
  | .write _ => x.after == .ack || x.after == .stop
  | .read => x.after != .stop

/-- Check 3 of R168. -/
def slotsAllowed (slots : List RelaySlot) : Bool :=
  decide (1 ≤ slots.length ∧ slots.length ≤ 3) && (slots.head?.all fun x => x.before != .none)
    && slots.all RelaySlot.allowed

/-- The status of the first of checks 2 to 6 of R168 that fails. -/
def State.relayCheck (s : State) (n : SiteName) (slots : List RelaySlot) : Option Status :=
  if !s.bringupDone then some .starting
  else if !slotsAllowed slots then some .range
  else if (s.site n).state ≠ .commissioned ∧ (s.site n).state ≠ .discovered then some .state
  else if s.relay.state ≠ .idle then some .busy
  else if (s.line (branchOf n)).full then some .busy
  else none

/-- A RELAY is queued. -/
def State.startRelay (s : State) (n : SiteName) (slots : List RelaySlot) : State :=
  ({ s with relay := ⟨.queued, some (n, slots), none⟩ }).pushHost (branchOf n) .relay

/-- RELAY (R168); a payload that does not fit is answered RANGE first (assumption log 50). -/
def execRelay (tag : Tag) (args : Arg RelayArgs) (s : State) : Host.Outcome State Fault Refusal :=
  let code := codeByte (.relay tag args)
  match args with
  | none => .next (s.reply code tag .range .empty)
  | some a =>
    match s.strapped? a.site with
    | none => .next (s.reply code tag .range .empty)
    | some n =>
      match s.relayCheck n a.slots with
      | some status => .next (s.reply code tag status .empty)
      | none => .next ((s.startRelay n a.slots).reply code tag .accepted .empty)

/-- RELAY RESULT (R170). -/
def execRelayResult (tag : Tag) (fit : Arg Unit) (s : State) : Host.Outcome State Fault Refusal :=
  let code := codeByte (.relayResult tag fit)
  match fit with
  | none => .next (s.reply code tag .range .empty)
  | some _ =>
    if s.relay.state ≠ .idle then .next (s.reply code tag .busy .empty)
    else
      match s.relay.result with
      | some r => .next (s.reply code tag .ok (.relay r))
      | none => .next (s.reply code tag .unknown .empty)

/-! ### SECTION READ (R202) -/

/-- A branch as SECTION READ shows it. -/
def State.branchAnswer (s : State) (b : Branch) : Option BranchAnswer :=
  if s.strap.selects b then
    let x := s.bring b
    some ⟨x.phase, x.job, x.request.isSome, (s.line b).brk.map (·.position), x.overlength⟩
  else none

/-- What SECTION READ shows (R202). -/
def State.sectionAnswer (s : State) : SectionAnswer where
  timeState := s.clock.state
  count := s.clock.count
  holdover := if s.clock.state = .holdover then s.clock.holdover else none
  setRequest := s.clock.setRequest
  lastSet := s.clock.lastSet
  branches := ⟨s.branchAnswer .west, s.branchAnswer .east⟩
  strap := s.strap
  bootCount := s.bootCount
  cause := s.host.cause
  restarted := s.host.restarted
  supplyLow := s.host.supplyLow
  frozen := s.frozen
  snapTime := s.snapTime
  persisting := s.store.pass.isSome
  report := s.store.report
  drafts := s.drafts.length
  liveLeases := s.liveLeases
  relay := s.relay.state
  relayHeld := s.relay.result.isSome
  config := s.config
  flags := s.host.flags
  mask := s.host.mask

/-- SECTION READ (R202). -/
def execSectionRead (tag : Tag) (fit : Arg Unit) (s : State) : Host.Outcome State Fault Refusal :=
  let code := codeByte (.sectionRead tag fit)
  match fit with
  | none => .next (s.reply code tag .range .empty)
  | some _ => .next (s.reply code tag .ok (.sectionState s.sectionAnswer))

/-! ### SECTION CONFIG (R203) -/

/-- A changed node hold period sets refresh due on every site that has a set-point block (R51). -/
def State.allDue (s : State) : State :=
  s.each (siteNames.filter fun n => (s.site n).comm.isSome) fun s n => s.setDue n

/-- All six parameters are taken into force together, and each acts where its rule gives (R45, R51, R129, R203). Taken
before step 3 of the start-up sequence they stay in force (R193). -/
def State.configure (s : State) (c : SectionConfig) : State :=
  let old := s.config
  let boot := if s.store.stepThree = .idle then StepThree.idle else .configured
  let s := { s with config := c, store := { s.store with sectionDirty := true, stepThree := boot } }
  let s := s.whenever (c.holdPeriod != old.holdPeriod) fun s => s.allDue
  let s := s.whenever (c.holdoverLimit != old.holdoverLimit && s.holdoverExceeded) fun s => s.enterLost
  s.whenever (decide (c.draftLifetime < old.draftLifetime)) fun s => s.each siteNames fun s n => s.expireDraft n

/-- SECTION CONFIG (R203). -/
def execSectionConfig (tag : Tag) (args : Arg SectionConfig) (s : State) : Host.Outcome State Fault Refusal :=
  let code := codeByte (.sectionConfig tag args)
  match args with
  | none => .next (s.reply code tag .range .empty)
  | some c =>
    match configFault c with
    | some parameter => .next (s.reply code tag .range (.namesField parameter))
    | none => .next ((s.configure c).reply code tag .ok .empty)

/-! ### CHANGES and EVENT MASK (R204, R205) -/

/-- Every flag is cleared and both change sets are emptied. -/
def State.clearChanges (s : State) : State :=
  { s with host := { s.host with flags := 0, siteChanges := [], leaseChanges := [] } }

/-- CHANGES (R205). -/
def execChanges (tag : Tag) (fit : Arg Unit) (s : State) : Host.Outcome State Fault Refusal :=
  let code := codeByte (.changes tag fit)
  match fit with
  | none => .next (s.reply code tag .range .empty)
  | some _ =>
    let body := Body.changes s.host.flags s.host.siteChanges s.host.leaseChanges
    .next (s.clearChanges.reply code tag .ok body)

/-- The event mask is replaced. -/
def State.setMask (s : State) (mask : BitVec 12) : State := { s with host := { s.host with mask := mask } }

/-- EVENT MASK (R204). A mask of more than twelve bits does not fit its code (assumption log 16). -/
def execEventMask (tag : Tag) (mask : Arg Nat) (s : State) : Host.Outcome State Fault Refusal :=
  let code := codeByte (.eventMask tag mask)
  match mask.filter (· < 4096) with
  | none => .next (s.reply code tag .range .empty)
  | some m => .next ((s.setMask (BitVec.ofNat 12 m)).reply code tag .ok (.mask s.host.mask s.host.flags))

end Sys2Proof.Machine
end

