-- ==== Sys2Proof/Machine/Dispatch.lean ====
section
/-! DEFINITION. One arm per command of the block. -/

namespace Sys2Proof.Machine

open Sys2Proof

/-- The meaning of a command. -/
def exec (i : Instr) (s : State) : Host.Outcome State Fault Refusal :=
  match i with
  | .powerOnReset cause pins => Sys2Proof.Machine.execPowerOnReset cause pins s
  | .pinReset pins => Sys2Proof.Machine.execPinReset pins s
  | .exchangeStart moment => Sys2Proof.Machine.execExchangeStart moment s
  | .exchangeEnd moment mosi => Sys2Proof.Machine.execExchangeEnd moment mosi s
  | .answerReady => Sys2Proof.Machine.execAnswerReady s
  | .nop => Sys2Proof.Machine.execNop s
  | .siteRead tag site => Sys2Proof.Machine.execSiteRead tag site s
  | .siteFind tag serial => Sys2Proof.Machine.execSiteFind tag serial s
  | .siteList tag fit => Sys2Proof.Machine.execSiteList tag fit s
  | .retire tag site => Sys2Proof.Machine.execRetire tag site s
  | .adopt tag site => Sys2Proof.Machine.execAdopt tag site s
  | .clearFaults tag args => Sys2Proof.Machine.execClearFaults tag args s
  | .draftOpen tag site => Sys2Proof.Machine.execDraftOpen tag site s
  | .draftSet tag args => Sys2Proof.Machine.execDraftSet tag args s
  | .draftRead tag site => Sys2Proof.Machine.execDraftRead tag site s
  | .draftCommit tag site => Sys2Proof.Machine.execDraftCommit tag site s
  | .draftDiscard tag site => Sys2Proof.Machine.execDraftDiscard tag site s
  | .leaseRequest tag args => Sys2Proof.Machine.execLeaseRequest tag args s
  | .leaseRead tag args => Sys2Proof.Machine.execLeaseRead tag args s
  | .leaseExtend tag args => Sys2Proof.Machine.execLeaseExtend tag args s
  | .leaseRepattern tag args => Sys2Proof.Machine.execLeaseRepattern tag args s
  | .leaseRelease tag args => Sys2Proof.Machine.execLeaseRelease tag args s
  | .leaseDismiss tag args => Sys2Proof.Machine.execLeaseDismiss tag args s
  | .snap tag fit => Sys2Proof.Machine.execSnap tag fit s
  | .unsnap tag fit => Sys2Proof.Machine.execUnsnap tag fit s
  | .timeSet tag second => Sys2Proof.Machine.execTimeSet tag second s
  | .discover tag branch => Sys2Proof.Machine.execDiscover tag branch s
  | .train tag branch => Sys2Proof.Machine.execTrain tag branch s
  | .persist tag fit => Sys2Proof.Machine.execPersist tag fit s
  | .relay tag args => Sys2Proof.Machine.execRelay tag args s
  | .relayResult tag fit => Sys2Proof.Machine.execRelayResult tag fit s
  | .sectionRead tag fit => Sys2Proof.Machine.execSectionRead tag fit s
  | .sectionConfig tag args => Sys2Proof.Machine.execSectionConfig tag args s
  | .changes tag fit => Sys2Proof.Machine.execChanges tag fit s
  | .eventMask tag mask => Sys2Proof.Machine.execEventMask tag mask s
  | .sectionReset tag fit => Sys2Proof.Machine.execSectionReset tag fit s
  | .ppsEdge moment => Sys2Proof.Machine.execPpsEdge moment s
  | .ppsExpiry moment => Sys2Proof.Machine.execPpsExpiry moment s
  | .timebaseSecond moment lossLater => Sys2Proof.Machine.execTimebaseSecond moment lossLater s
  | .holdoverExpiry => Sys2Proof.Machine.execHoldoverExpiry s
  | .syncExpiry branch moment => Sys2Proof.Machine.execSyncExpiry branch moment s
  | .strayTimeExpiry site => Sys2Proof.Machine.execStrayTimeExpiry site s
  | .arbiterGrant branch moment carrier => Sys2Proof.Machine.execArbiterGrant branch moment carrier s
  | .syncSent branch moment => Sys2Proof.Machine.execSyncSent branch moment s
  | .answerFrame branch moment frame => Sys2Proof.Machine.execAnswerFrame branch moment frame s
  | .replyTimeout branch moment => Sys2Proof.Machine.execReplyTimeout branch moment s
  | .draftExpiry site moment => Sys2Proof.Machine.execDraftExpiry site moment s
  | .leaseArming entry => Sys2Proof.Machine.execLeaseArming entry s
  | .armDeadline entry => Sys2Proof.Machine.execArmDeadline entry s
  | .leaseStart entry => Sys2Proof.Machine.execLeaseStart entry s
  | .cycleEnd entry moment => Sys2Proof.Machine.execCycleEnd entry moment s
  | .extendDeadline entry => Sys2Proof.Machine.execExtendDeadline entry s
  | .repatternDeadline entry moment => Sys2Proof.Machine.execRepatternDeadline entry moment s
  | .windowEnd entry => Sys2Proof.Machine.execWindowEnd entry s
  | .probeDue branch moment => Sys2Proof.Machine.execProbeDue branch moment s
  | .heldItemPlaced branch => Sys2Proof.Machine.execHeldItemPlaced branch s
  | .partialDiscovery branch => Sys2Proof.Machine.execPartialDiscovery branch s
  | .slotWriteDone result => Sys2Proof.Machine.execSlotWriteDone result s

end Sys2Proof.Machine
end

