-- ==== Sys2Proof/Safety.lean ====
section
/-! DEFINITION. What the statements speak of: the block going on, the invariants of the site records, the Draft Pool
and the host-driven FIFOs, and what a command leaves as it stands. -/

namespace Sys2Proof.Machine

open Sys2Proof

/-! ### Going on -/

/-- The outcome goes on with a next state. -/
def GoesOn (o : Host.Outcome State Fault Refusal) : Prop := ∃ t, o = .next t

/-- The block never stops from a state: each of its next steps answers a next state. -/
def Safe (s : State) : Prop := ∀ k, ∃ t, Sys2Proof.core.run k s = .next t

/-! ### The site records (R3, R5, R62, R78) -/

/-- The fields a state asks for are present: Node serial, nameplate and poll age in every state but VACANT, the
commissioned content from COMMISSIONING on, and Found node in MISMATCH (R3). -/
def SiteRecord.complete (r : SiteRecord) : Bool :=
  match r.state with
  | .vacant => true
  | .discovered => r.node.isSome
  | .commissioning | .commissioned | .unreachable | .retiring => r.node.isSome && r.comm.isSome
  | .mismatch => r.node.isSome && r.comm.isSome && r.found.isSome

/-- The fields a state does not carry are absent (R3), and the override is off in DISCOVERED (R4). -/
def SiteRecord.cleared (r : SiteRecord) : Bool :=
  match r.state with
  | .vacant =>
    r.node.isNone && r.comm.isNone && r.found.isNone && r.lineDelay.isNone && r.irOffset.isNone && r.readings.isNone
      && r.holder.isNone && r.stray.isNone && r.pending.isNone
  | .discovered =>
    r.comm.isNone && r.found.isNone && r.irOffset.isNone && r.holder.isNone && r.node.all (!·.hostPlate)
  | .commissioning => r.found.isNone && r.holder.isNone
  | .commissioned | .unreachable => r.found.isNone
  | .mismatch => r.pending.isNone
  | .retiring => r.holder.isNone

/-- A record with commissioned content is within its limit: the applied current is one that the effective limit bounds
(so it never exceeds it), the condition of LIMIT_CLAMPED is present exactly while the effective limit is below the
current limit, and the trim status is present in TRIMMED mode (R5, R11, R62, R66). -/
def SiteRecord.withinLimit (r : SiteRecord) : Bool :=
  match r.node, r.comm with
  | some i, some c =>
    decide (boundApplied c.block i.plate c.applied = c.applied)
      && r.faults.isPresent .limitClamped == decide (effectiveLimit c.block i.plate < c.block.currentLimit)
      && c.trim.isSome == (c.block.mode == .trimmed)
  | _, _ => true

/-- A record has no holder beside a stray time, and its line error count lies within 0 to 15 (R2, R78). -/
def SiteRecord.claims (r : SiteRecord) : Bool := !(r.holder.isSome && r.stray.isSome) && decide (r.lineErrors ≤ 15)

/-- A site record as the rules keep it. -/
def SiteRecord.sound (r : SiteRecord) : Bool := r.complete && r.cleared && r.withinLimit && r.claims

/-- Every site record is as the rules keep it. -/
abbrev State.RecordsSound (s : State) : Prop := ∀ n : SiteName, (s.site n).sound = true

/-! ### The Draft Pool and the host-driven FIFOs (R29, R165) -/

/-- At most 8 drafts exist, and no site has more than one (R29). -/
abbrev State.PoolSound (s : State) : Prop := s.drafts.length ≤ 8 ∧ (s.drafts.map (·.site)).Nodup

/-- Neither host-driven FIFO holds more than 16 items (R165). -/
abbrev State.FifosSound (s : State) : Prop := s.lines.west.hostFifo.length ≤ 16 ∧ s.lines.east.hostFifo.length ≤ 16

/-- The block as the rules keep it: its records, its Draft Pool and its host-driven FIFOs. -/
structure State.Sound (s : State) : Prop where
  records : s.RecordsSound
  pool : s.PoolSound
  fifos : s.FifosSound

/-! ### What stands -/

/-- The state that nothing but a request of the host, the passing of time, a pass of the store or a reset changes:
everything outside the site records, the drafts, the leases, the lines, bring-up, the event flags and the change
sets. -/
structure Background where
  pending   : List Instr
  timebase  : Nat
  pins      : StrapPins
  frozen    : Bool
  snapTime  : Option Nat
  clock     : Clock
  strap     : Strap
  store     : Store
  bootCount : Nat
  config    : SectionConfig
  answer    : PendingAnswer
  exchange  : Option Exchange
  shifted   : List Byte
  mask      : BitVec 12
  cause     : ResetCause
  restarted : Bool
  supplyLow : Bool
  freeIndex : Nat
  deriving DecidableEq, Repr

/-- The background of a state. -/
def State.background (s : State) : Background where
  pending := s.pending
  timebase := s.timebase
  pins := s.pins
  frozen := s.frozen
  snapTime := s.snapTime
  clock := s.clock
  strap := s.strap
  store := s.store
  bootCount := s.bootCount
  config := s.config
  answer := s.host.answer
  exchange := s.host.exchange
  shifted := s.host.shifted
  mask := s.host.mask
  cause := s.host.cause
  restarted := s.host.restarted
  supplyLow := s.host.supplyLow
  freeIndex := s.freeIndex

/-- A record but for its claims by leases: holder, stray time, and the trim status that follows from them. -/
def SiteRecord.own (r : SiteRecord) : SiteRecord :=
  { r with holder := none, stray := none, comm := r.comm.map fun c => { c with trim := none } }

/-- A line but for the calls and polls of leases. -/
def Line.hostSide (l : Line) : Line := { l with leaseFifo := [], leasePolls := [] }

/-- The state but for what the leases own or mark: the entries and the close order, their calls and polls, the holder,
stray time and trim status of the records, the event flags and the change sets. -/
def State.unleased (s : State) : State :=
  { s with
      sites := s.sites.map SiteRecord.own
      leases := State.reset.leases
      closeOrder := []
      lines := ⟨s.lines.west.hostSide, s.lines.east.hostSide⟩
      host := { s.host with flags := 0, siteChanges := [], leaseChanges := [] } }

/-! ### The leases, the lease queues, the serials and section time (R27, R70, R77, R91, R102, R121, R123, R166) -/

/-- No Node serial stands in two records (R27). -/
abbrev State.SerialsSound (s : State) : Prop :=
  ∀ (m n : SiteName) (i j : NodeIdent), (s.site m).node = some i → (s.site n).node = some j → i.serial = j.serial → m = n

/-- A handle names a live lease that has a site in its span, not DROPPED (R77). -/
def State.Holds (s : State) (h : Handle) (n : SiteName) : Prop :=
  s.handleOf h.entry = h ∧ ∃ l x, s.leaseOf h.entry = some l ∧ l.state ≠ .closed ∧ l.siteOf n = some x ∧ x.status ≠ .dropped

/-- The law of holders (R77). No record that is held enters VACANT, so that the law needs no word on it. -/
abbrev State.HoldersSound (s : State) : Prop := ∀ (n : SiteName) (h : Handle), (s.site n).holder = some h ↔ s.Holds h n

/-- The lease queues of each branch: at most one lease poll to a site (R102); no lease call twice, and each one queued in
the work record of a live lease (R81, R166). -/
structure State.QueuesSound (s : State) : Prop where
  polls : ∀ b, ((s.line b).leasePolls.map (·.site)).Nodup ∧ ∀ q ∈ (s.line b).leasePolls, branchOf q.site = b
  calls : ∀ b, (s.line b).leaseFifo.Nodup ∧ ∀ i ∈ (s.line b).leaseFifo, branchOf i.site = b
    ∧ s.handleOf i.handle.entry = i.handle ∧ ∃ l x c, s.leaseOf i.handle.entry = some l ∧ l.state ≠ .closed
      ∧ l.siteOf i.site = some x ∧ x.call = some c ∧ c.inFlight = false

/-- The close order lists each CLOSED entry once and no other (R70), and a CLOSED lease has no pending change and no call in
its work record (R91). -/
structure State.ClosedSound (s : State) : Prop where
  order : s.closeOrder.Nodup ∧ ∀ e, e ∈ s.closeOrder ↔ ∃ l, s.leaseOf e = some l ∧ l.state = .closed
  emptied : ∀ e l, s.leaseOf e = some l → l.state = .closed →
    l.change = none ∧ ∀ x ∈ l.sites, x.call = none ∧ x.waiting = [] ∧ x.change = none

/-- The Section Clock's items in their ranges and present as R123 gives, and no lease ARMING, ARMED or RUNNING in UNSET or
LOST (R121). That the holdover seconds are present in LOST too is the model's choice (assumption log 25). -/
structure State.TimeSound (s : State) : Prop where
  leases : s.clock.state = .unset ∨ s.clock.state = .lost → ∀ e l, s.leaseOf e = some l →
    l.state ≠ .arming ∧ l.state ≠ .armed ∧ l.state ≠ .running
  count : (s.clock.count = none ↔ s.clock.state = .unset) ∧ ∀ k, s.clock.count = some k → k < 2 ^ 32
  instant : s.clock.instant = none ↔ s.clock.state = .unset
  provisional : ∀ k, s.clock.provisional = some k → s.clock.state = .unset ∧ k < 2 ^ 32
  goodRun : s.clock.goodRun ≤ 3
  intervals : s.clock.intervals.length ≤ 16 ∧ ∀ d ∈ s.clock.intervals, 999500 ≤ d ∧ d ≤ 1000500
  estimate : 999500 ≤ s.clock.estimate ∧ s.clock.estimate ≤ 1000500
  holdover : (s.clock.holdover = none ↔ s.clock.state = .unset ∨ s.clock.state = .locked)
    ∧ ∀ k, s.clock.holdover = some k → k ≤ 601
  request : ∀ k, s.clock.setRequest = some k → k < 2 ^ 32

/-! ### What the statements say of a state -/

/-- A site name whose branch the strap selected (R1). -/
abbrev State.Names (s : State) (n : SiteName) : Prop := s.strap.selects (branchOf n) = true

/-- Bring-up is done, with every branch READY (R173, R175). -/
structure State.BroughtUp (s : State) : Prop where
  done : s.bringupDone = true
  ready : ∀ b, (s.bring b).phase = .ready

/-- What R173 and R193 keep of bring-up: it is done only with both branches READY, and while step 3 waits to be taken
or its slot write runs both branches are LOADING and it is not done; no slot is being written while step 3 waits. -/
structure State.BringupSound (s : State) : Prop where
  ready : s.bringupDone = true → ∀ b, (s.bring b).phase = .ready
  loading : (s.store.stepThree ≠ .idle ∨ s.store.pass.any (·.boot) = true) →
    s.bringupDone = false ∧ ∀ b, (s.bring b).phase = .loading
  waiting : s.store.stepThree ≠ .idle → s.store.pass = none

/-- Every site but one stands as it was: its record but for the claims of leases, its upkeep items, its attempt age,
its frozen readings and its draft. -/
structure State.OthersStand (s u : State) (n : SiteName) : Prop where
  record : ∀ m, m ≠ n → (u.site m).own = (s.site m).own
  upkeep : ∀ m, m ≠ n → u.upkeepOf m = s.upkeepOf m
  attempt : ∀ m, m ≠ n → u.attemptOf m = s.attemptOf m
  frozen : ∀ m, m ≠ n → u.frozenOf m = s.frozenOf m
  draft : ∀ m, m ≠ n → u.draftOf m = s.draftOf m

/-- The six parameters of the section configuration lie in their ranges (R203). -/
structure ConfigInRanges (c : SectionConfig) : Prop where
  refresh : 1 ≤ c.refreshInterval ∧ c.refreshInterval ≤ 30
  hold : 2 ≤ c.holdPeriod ∧ c.holdPeriod ≤ 120 ∧ 2 * c.refreshInterval ≤ c.holdPeriod
  poll : 10 ≤ c.pollPeriod ∧ c.pollPeriod ≤ 600
  threshold : 1 ≤ c.threshold ∧ c.threshold ≤ 15
  holdover : 10 ≤ c.holdoverLimit ∧ c.holdoverLimit ≤ 600
  lifetime : 1 ≤ c.draftLifetime ∧ c.draftLifetime ≤ 60

/-- Every block right after a reset and steps 1 and 2 of the start-up sequence, with step 3 to come (R28, R47, R48, R96,
R123, R135, R148, R157, R168, R173 to R175, R190, R193, R197; assumption log 4). -/
structure State.StartedUp (s : State) (pins : StrapPins) (u : State) : Prop where
  queue : u.pending = s.pending
  timebase : u.timebase = 0
  levels : u.pins = pins
  strap : u.strap = strapOf pins
  sites : ∀ n, ((u.site n).state = .vacant ∨ (u.site n).state = .unreachable) ∧ (u.site n).holder = none
    ∧ (u.site n).stray = none ∧ (u.site n).pending = none ∧ (u.site n).found = none ∧ (u.site n).readings = none
    ∧ (u.site n).lineDelay = none ∧ (u.site n).lineErrors = 0
  upkeep : ∀ n, { u.upkeepOf n with due := false } = Upkeep.blank
  scanner : u.refreshing = ⟨none, none⟩ ∧ u.polling = ⟨none, none⟩ ∧ ∀ n, u.attemptOf n = none
  view : u.frozen = false ∧ u.snapTime = none ∧ ∀ n, u.frozenOf n = none
  drafts : u.drafts = []
  leases : (∀ e, u.entry e = ⟨0, none⟩) ∧ u.closeOrder = []
  clock : u.clock = Clock.blank
  lines : u.lines = ⟨Line.blank, Line.blank⟩
  relay : u.relay = ⟨.idle, none, none⟩
  bringup : u.bringup = ⟨BringUp.blank, BringUp.blank⟩ ∧ u.bringupDone = false
  store : u.store.pass = none ∧ u.store.sectionDirty = false ∧ u.store.stepThree = .waiting
  config : u.config = ⟨10, 30, 60, 3, true, 120, 15⟩
  host : u.host.exchange = none ∧ u.host.shifted = [] ∧ u.host.mask = 0 ∧ u.host.leaseChanges = [] ∧ u.host.restarted = true

/-- The end of a section slot write that read back badly twice (R195): the pass is over, the section is dirty again and
reported, and the site slots, the rest of the report and the host port's other items stand. What the slot then holds is
left open (assumption log 7). -/
structure State.SectionWriteFailed (s t : State) : Prop where
  ended : t.store.pass = none ∧ t.store.stepThree = s.store.stepThree
  dirty : t.store.sectionDirty = true
  entry : (SlotName.section_, LoadOutcome.writeFailed) ∈ t.store.report
  others : ∀ x : SlotName × LoadOutcome, x.1 ≠ .section_ → (x ∈ t.store.report ↔ x ∈ s.store.report)
  slots : t.store.siteSlots = s.store.siteSlots
  raised : t.flagSet .storeError = true
  host : { t.host with flags := s.host.flags } = s.host
    ∧ ∀ f, f ≠ .storeError → f ≠ .persistDone → t.flagSet f = s.flagSet f

/-- A span of a lease request: its ends are names the strap selected, in pipeline order (R75). -/
structure State.SpanNamed (s : State) (a : LeaseRequestArgs) (first last : SiteName) : Prop where
  begins : a.first = siteCode first ∧ s.Names first
  ends : a.last = siteCode last ∧ s.Names last
  order : pipelineIndex first ≤ pipelineIndex last

/-- A pattern in its ranges (R75). -/
structure PatternInRanges (p : Pattern) : Prop where
  onTime : 5 ≤ p.onTime ∧ p.onTime ≤ 600
  offTime : 3 ≤ p.offTime ∧ p.offTime ≤ 300
  offRead : 5 ≤ p.offRead ∧ p.offRead + 5 ≤ 10 * p.offTime

/-- A start and an end in their ranges, counted from section time (R75). -/
abbrev WindowInRanges (now start stop : Nat) : Prop :=
  (now + 40 ≤ start ∧ start ≤ now + 604800) ∧ start + 1 ≤ stop ∧ stop ≤ start + 43200

/-- A place of the pipeline order within a span (00_scope). -/
abbrev InSpan (first last n : SiteName) : Prop :=
  pipelineIndex first ≤ pipelineIndex n ∧ pipelineIndex n ≤ pipelineIndex last

/-- What an exchange of a number of bytes shifts out: the frame's bytes, and 00h after its last (R198). -/
def shiftedOut (frame : List Byte) (count : Nat) : List Byte := (List.range count).map fun k => frame.getD k 0

/-- The lease-call FIFOs but for one lease: its calls for the sites withdrawn leave, new ones for the sites placed stand at
the tail, nearest site first, and every other call keeps its place (R81, R166). -/
def State.CallsMoved (s u : State) (h : Handle) (withdrawn : SiteName → Bool) (placed : SiteName → Prop) : Prop :=
  ∀ b, ∃ ns : List SiteName, (u.line b).leaseFifo
      = (s.line b).leaseFifo.filter (fun i => !(i.handle == h && withdrawn i.site)) ++ ns.map (fun n => ⟨h, n⟩)
    ∧ ns.Pairwise (fun m n => positionOf m < positionOf n) ∧ ∀ n, n ∈ ns ↔ branchOf n = b ∧ placed n

/-- A lease that closes at once with a cause: its entry is CLOSED at the tail of the close order, its sites lose their
holders, its calls and polls leave the line, and nothing else is written (R79, R91). -/
structure State.ClosesAtOnce (s u : State) (e : EntryNo) (l k : Lease) (cause : CloseCause) : Prop where
  entry : u.entry e = ⟨(s.entry e).generation, some k⟩
  lease : k.state = .closed ∧ k.closeCause = some cause ∧ k.change = none ∧ k.stop = l.stop ∧ k.pattern = l.pattern
  holders : ∀ n, l.siteOf n = none ∨ (u.site n).holder ≠ some (s.handleOf e)
  entries : ∀ m, m ≠ e → u.entry m = s.entry m
  order : u.closeOrder = s.closeOrder.filter (· != e) ++ [e]
  queues : ∀ b, (u.line b).leaseFifo = (s.line b).leaseFifo.filter (·.handle != s.handleOf e)
    ∧ (u.line b).leasePolls = (s.line b).leasePolls.filter (·.handle != s.handleOf e)
  marks : u.inLeaseChanges e = true ∧ u.flagSet .leasesChanged = true
  rest : u.unleased = s.unleased

/-- A break answer from position p, taken at a moment: every site beyond p on the branch is changed as R14 gives, with its
Found node, its Pending call and its draft (R9, R12, R43, R46), and no other; the break is recorded with its next probe 60 s
on, LINE_BREAK is raised where the record changed, and a kept Partial request is dropped (R161, R186). -/
structure State.BreakTaken (s t : State) (b : Branch) (p now : Nat) : Prop where
  state : ∀ m, branchOf m = b → p < positionOf m → (t.site m).state = match (s.site m).state with
    | .commissioned | .mismatch | .retiring | .unreachable => .unreachable
    | .discovered | .vacant => .vacant
    | .commissioning => if (s.site m).pending.any (·.purpose == .adopt) then .unreachable else .vacant
  found : ∀ m, branchOf m = b → p < positionOf m → (t.site m).found = none
  lost : ∀ m, branchOf m = b → p < positionOf m → (s.site m).state ≠ .unreachable → (t.site m).state = .unreachable →
    (t.site m).node = (s.site m).node ∧ (t.site m).irOffset = (s.site m).irOffset
    ∧ (t.site m).lineDelay = (s.site m).lineDelay
    ∧ (t.site m).comm.map (fun c => (c.block, c.applied, c.refreshFrom))
      = (s.site m).comm.map (fun c => (c.block, c.applied, c.refreshFrom))
    ∧ (t.site m).faults.isPresent .linkLost = true
    ∧ ((s.site m).faults.isPresent .linkLost = false → (t.site m).faults.isLatched .linkLost = true)
    ∧ (t.site m).pending = (s.site m).pending.filter (·.stage == .inFlight) ∧ t.inSiteChanges m = true
  emptied : ∀ m, branchOf m = b → p < positionOf m → (s.site m).state ≠ .vacant → (t.site m).state = .vacant →
    t.upkeepOf m = Upkeep.blank ∧ t.attemptOf m = none ∧ t.frozenOf m = none ∧ t.draftOf m = none
    ∧ ((s.draftOf m).isSome = true → t.flagSet .draftDropped = true) ∧ t.inSiteChanges m = true
  drafts : ∀ m, branchOf m = b → p < positionOf m → (t.site m).state = .unreachable → t.draftOf m =
    if (s.site m).pending.any (fun k => k.purpose == .commit && k.stage != .inFlight) && s.committing m
        && (s.site m).state != .unreachable
      then (s.draftOf m).map fun d => { d with committing := false, lastResult := some .noAnswer, idleFrom := now }
      else s.draftOf m
  nearer : ∀ m, ¬ (branchOf m = b ∧ p < positionOf m) → (t.site m).own = (s.site m).own ∧ t.upkeepOf m = s.upkeepOf m
    ∧ t.attemptOf m = s.attemptOf m ∧ t.frozenOf m = s.frozenOf m ∧ t.draftOf m = s.draftOf m
  record : (t.line b).brk.map (fun k => (k.position, k.probeAt)) = some (p, now + 60000000)
  flag : (s.line b).brk.map (·.position) ≠ some p → t.flagSet .lineBreak = true
  request : (t.bring b).request = none

/-- A command that ends the transaction in flight on a branch, with the end it gives: an answer frame that is the answer
to its call, or a timeout or a bad answer in the second attempt (R158, R159). A break answer may be one of source 0
(assumption log 54). -/
def State.Ends (s : State) (b : Branch) (moment : Nat) (c : Instr) (x : Transaction) (r : End) : Prop :=
  (s.line b).txn = some x ∧ match r with
    | .done d => ∃ frame payload, c = .answerFrame b moment frame ∧ readAnswerFrame frame = .done x.dest payload
        ∧ x.call.readDone payload = some d
    | .refused q => ∃ frame, c = .answerFrame b moment frame ∧ readAnswerFrame frame = .refused x.dest q
    | .brk p => ∃ frame, c = .answerFrame b moment frame ∧ readAnswerFrame frame = .brk p ∧ p < x.dest
    | .failure => x.second = true ∧ (c = .replyTimeout b moment ∧ x.sentAt + x.timeout ≤ max s.timebase moment
        ∨ ∃ frame, c = .answerFrame b moment frame ∧ readAnswerFrame frame = .bad)

/-! ### Walks and reconciliation (R178 to R183) -/

/-- What the end of the ENUM at position q makes of a walk that it ends: the answers of its range, its discovered extent and
Overlength (R178, R179). -/
def WalkEnds (q : Nat) (found : List (Nat × EnumAnswer)) (r : End) (range : List (Nat × EnumAnswer)) (extent : Nat)
    (beyond : Bool) : Prop :=
  match r with
  | .done (.enum a) =>
    (a.endFlag = true ∨ q = 32) ∧ range = found ++ [(q, a)] ∧ extent = q ∧ beyond = !a.endFlag
  | .brk p => range = found.filter (fun x => decide (x.1 ≤ p)) ∧ extent = p ∧ beyond = false
  | .refused _ | .failure => range = found ∧ extent = q - 1 ∧ beyond = false
  | .done _ => False

/-- The answers of a walk by the sites of their positions. -/
def nodesAt (b : Branch) (range : List (Nat × EnumAnswer)) : List (SiteName × EnumAnswer) :=
  range.filterMap fun p => (siteAt? b p.1).map fun n => (n, p.2)

/-- A node found at a site by one of the walks. -/
def FoundAt (walks : List EndedWalk) (n : SiteName) (k : EnumAnswer) : Prop := ∃ w ∈ walks, (n, k) ∈ w.nodes

/-- The record of a site is the home record of a node (R179). -/
def State.HomeIs (s : State) (m : SiteName) (k : EnumAnswer) : Prop := (s.site m).node.map (·.serial) = some k.serial

/-- The node of a movable record was found at another site (R179). -/
def State.AsksMove (s : State) (walks : List EndedWalk) (m n : SiteName) : Prop :=
  m ≠ n ∧ ((s.site m).holder = none ∧ (s.site m).stray = none ∧ (s.site m).pending = none ∧ s.committing m = false)
    ∧ ∃ k, FoundAt walks n k ∧ s.HomeIs m k

/-- A move that is made: one of a set of moves that all stand together, each to a site that has no block or whose own record
moves too (R179). -/
def State.MovesTo (s : State) (walks : List EndedWalk) (m n : SiteName) : Prop :=
  ∃ set : SiteName → SiteName → Prop, set m n
    ∧ ∀ m n, set m n → s.AsksMove walks m n ∧ ((s.site n).comm = none ∨ ∃ w, set n w)

/-- The state of a record whose own node stands at its site (R15, R17, R180). -/
def SiteState.atHome : SiteState → SiteState
  | .unreachable | .mismatch => .commissioned
  | st => st

/-- An identity with the nameplate and the mode of its node's answer (R61, R180). -/
def NodeIdent.told (i : NodeIdent) (k : EnumAnswer) : NodeIdent :=
  { i with
      plate := if i.hostPlate = true then i.plate else
        ⟨if 1 ≤ k.plate.current ∧ k.plate.current ≤ 6000 then k.plate.current else i.plate.current,
         if 1 ≤ k.plate.voltage ∧ k.plate.voltage ≤ 1000 then k.plate.voltage else i.plate.voltage⟩
      mode := some k.mode }

/-- The sites of a walk whose nodes report a cycle that no lease holds, in the order of the walk (R183; for the order
assumption log 57). -/
def State.orphansOf (t : State) (w : EndedWalk) : List SiteName :=
  (w.nodes.filter fun p => p.2.cycle != .none && (t.site p.1).holder.isNone).map (·.1)

/-- What reconciliation of ended walks at a moment makes of the records of s, with the orphan calls and the CLEAN claims
placed; `startup` is step 5 of the start-up sequence, over every strapped branch (R28, R175, R179 to R183). -/
structure State.Reconciled (s t : State) (now : Nat) (walks : List EndedWalk) (startup : Bool) : Prop where
  moved : ∀ m n k i, s.MovesTo walks m n → FoundAt walks n k → (s.site m).node = some i →
    (t.site n).state = (s.site m).state.atHome
    ∧ (t.site n).node = some { i.told k with pollFrom := now }
    ∧ (t.site n).comm.map (fun w => (w.block, w.refreshFrom)) = (s.site m).comm.map (fun w => (w.block, now))
    ∧ (t.site n).irOffset = none ∧ (t.site n).lineDelay = none ∧ (t.site n).readings = none
    ∧ (t.site n).found = none ∧ (t.site n).stray = none ∧ (t.site n).lineErrors = 0 ∧ (t.site n).dirty = true
    ∧ (t.site n).faults.isPresent .linkLost = false
    ∧ (t.site n).faults.latched &&& (s.site m).faults.latched = (s.site m).faults.latched
    ∧ { t.upkeepOf n with due := false } = Upkeep.blank ∧ (n, some m) ∈ t.host.siteChanges
    ∧ t.inSiteChanges m = true ∧ (t.site m).dirty = true ∧ t.draftOf n = none
    ∧ ((∀ k', ¬ FoundAt walks m k') → (∀ w, ¬ s.MovesTo walks w m) → (t.site m).state = .vacant)
  home : ∀ n k i, FoundAt walks n k → (s.site n).node = some i → s.HomeIs n k →
    (t.site n).state = (s.site n).state.atHome ∧ (t.site n).node = some (i.told k)
    ∧ (t.site n).found = none ∧ (t.site n).lineDelay = (s.site n).lineDelay ∧ (t.site n).irOffset = (s.site n).irOffset
    ∧ (t.site n).comm.map (fun w => (w.block, w.refreshFrom)) = (s.site n).comm.map (fun w => (w.block, w.refreshFrom))
    ∧ ((s.site n).state = .unreachable → (t.site n).faults.isPresent .linkLost = false)
    ∧ (k.cycle = .none → (s.site n).holder = none → (t.site n).stray = none)
  foreign : ∀ n k, FoundAt walks n k → ¬ s.HomeIs n k → (∀ m, ¬ s.MovesTo walks m n) → (s.site n).comm ≠ none →
    (∀ w, ¬ s.MovesTo walks n w) →
    (t.site n).found = some ⟨k.serial, k.plate, k.mode⟩ ∧ (t.site n).node = (s.site n).node
    ∧ (t.site n).state = (if (s.site n).state = .retiring then .retiring else .mismatch)
    ∧ (t.site n).comm.map (·.block) = (s.site n).comm.map (·.block)
  discovered : ∀ n k, FoundAt walks n k → (∀ m, ¬ s.HomeIs m k) → ((s.site n).comm = none ∨ ∃ w, s.MovesTo walks n w) →
    (∀ m, ¬ s.MovesTo walks m n) →
    (t.site n).state = .discovered ∧ (t.site n).comm = none ∧ (t.site n).lineDelay = (s.site n).lineDelay
    ∧ (t.site n).node.map (fun i => (i.serial, i.plate, i.hostPlate, i.mode))
      = some (k.serial, k.plate, false, some k.mode)
    ∧ ((s.site n).pending = none →
      (t.site n).pending.map (·.purpose) = if k.mode = .fresh then none else some .clean)
  unrecorded : ∀ n k m, FoundAt walks n k → s.HomeIs m k → m ≠ n → ¬ s.MovesTo walks m n →
    ((s.site n).comm = none ∨ ∃ w, s.MovesTo walks n w) → (∀ w, ¬ s.MovesTo walks w n) → (t.site n).state = .vacant
  beyond : ∀ w ∈ walks, ∀ n, branchOf n = w.branch → max w.extent (w.first - 1) < positionOf n →
    (∀ m, ¬ s.MovesTo walks m n) → (∀ m, ¬ s.MovesTo walks n m) →
    let st := (s.site n).state
    (st = .discovered → (t.site n).state = .vacant)
    ∧ (st = .commissioned ∨ st = .mismatch ∨ st = .retiring ∨ st = .unreachable
        ∨ st = .commissioning ∧ (s.site n).pending.any (·.purpose == .adopt) = true →
      (t.site n).state = .unreachable ∧ (t.site n).found = none ∧ (t.site n).node = (s.site n).node
      ∧ (t.site n).comm.map (·.block) = (s.site n).comm.map (·.block))
  linkLost : startup = true → ∀ n, (t.site n).state = .unreachable → (t.site n).faults.isLatched .linkLost = true
    ∧ ((s.site n).faults.isLatched .linkLost = false → t.inSiteChanges n = true ∧ t.flagSet .faultRaised = true)
  calls : ∀ w ∈ walks, ∀ n k, (n, k) ∈ w.nodes → n ∈ t.orphansOf w →
    HostItem.orphan n (k.cycle == .running) (k.cycleEnd.getD 0) ∈ (t.line w.branch).hostFifo ++ (t.line w.branch).held
    ∧ ((t.site n).state ≠ .vacant → (t.site n).faults.isLatched .orphanCycle = true)
    ∧ ((t.site n).state = .vacant → ∀ m, (t.site m).node.map (·.serial) = some k.serial →
      (t.site m).faults.isLatched .orphanCycle = true)
  outside : ∀ n, (∀ w ∈ walks, branchOf n ≠ w.branch ∨ positionOf n < w.first) → (∀ m, ¬ s.MovesTo walks n m) →
    { (t.site n).own with faults := (s.site n).faults } = (s.site n).own ∧ t.upkeepOf n = s.upkeepOf n
    ∧ t.draftOf n = s.draftOf n

/-- What reconciliation leaves of a branch READY with its job: its orphan calls to end, or the job ended with DISCOVER_DONE
(R183, R185, R186). -/
structure State.JobReconciled (s t : State) (w : EndedWalk) (beyond : Bool) : Prop where
  walk : (t.bring w.branch).found = [] ∧ (t.bring w.branch).extent = w.extent ∧ (t.bring w.branch).overlength = beyond
    ∧ (t.bring w.branch).phase = .ready ∧ (t.bring w.branch).orphans = t.orphansOf w
  flag : beyond ≠ (s.bring w.branch).overlength → t.flagSet .lineBreak = true
  ended : t.orphansOf w = [] →
    (t.bring w.branch).job = .none ∧ (t.bring w.branch).walk = .none ∧ t.flagSet .discoverDone = true
  waits : t.orphansOf w ≠ [] → (t.bring w.branch).walk = .orphans

/-- What reconciliation leaves of a strapped branch at start-up: its orphan calls to end, or TRAINING from position 1, or
with a discovered extent of 0, and so no COMMISSIONED site, READY (R175, R183, R184, R187). -/
structure State.StartReconciled (t : State) (w : EndedWalk) (beyond : Bool) : Prop where
  walk : (t.bring w.branch).found = [] ∧ (t.bring w.branch).extent = w.extent ∧ (t.bring w.branch).overlength = beyond
    ∧ (t.bring w.branch).orphans = t.orphansOf w
  waits : t.orphansOf w ≠ [] → (t.bring w.branch).phase = .discovering ∧ (t.bring w.branch).walk = .orphans
  trains : t.orphansOf w = [] → 0 < w.extent →
    (t.bring w.branch).phase = .training ∧ (t.bring w.branch).walk = .training ⟨1, 0, none, 2000, 0⟩
    ∧ HostItem.echo 1 ∈ (t.line w.branch).hostFifo ++ (t.line w.branch).held
  readies : t.orphansOf w = [] → w.extent = 0 → (t.bring w.branch).phase = .ready ∧ (t.bring w.branch).walk = .none

/-! ### A change that failed (R112 to R114, R116, R117) -/

/-- A call placed for a span site: in the work record, or waiting there while another is queued or in flight (R81). -/
def LeaseSite.called (z : LeaseSite) (c : LeaseCall) : LeaseSite :=
  if z.call = none then { z with call := some ⟨c, false, true⟩ } else { z with waiting := z.waiting ++ [c] }

/-- A span site as the decision finds it: one that has not answered is given NOT_IN_TIME, its queued call is withdrawn and
one in flight counts no more; under an extension that one's end bound becomes the new end (R112, R116). -/
def LeaseSite.decidedAt (z : LeaseSite) (bound : Option Nat) : LeaseSite :=
  if z.change = some none then
    match z.call with
    | some ⟨c, true, counts⟩ =>
      { z with change := some (some .notInTime), call := some ⟨c, true, false⟩
               endBound := if counts then bound.or z.endBound else z.endBound }
    | _ => { z with change := some (some .notInTime), call := none }
  else z

/-- A span site took the change. -/
def LeaseSite.took (z : LeaseSite) : Bool := z.change == some (some .done)

/-- A span site has an end in the change, and it is not DONE. -/
def LeaseSite.failedIn (z : LeaseSite) : Bool := z.change.isSome && z.change != some (some .done)

/-- A site that failed a change is DROPPED with its Failure. -/
def LeaseSite.droppedIn (z : LeaseSite) : LeaseSite :=
  { z with status := .dropped, failure := z.failure.or ((z.change.bind id).map ChangeEnd.failure)
           waiting := [], change := none }

/-- PARTIAL where a site took the change, REFUSED_BY_SITE where none did; a site DROPPED since is none (assumption log 53). -/
def Lease.partlyOr (l : Lease) : ChangeResult := if l.sites.any (·.took) = true then .partly else .refusedBySite

/-- What a change with a failed site leaves of a LENIENT lease: the lease `left` goes on where a site that is armed or
cycling remains, and closes otherwise; each failed site loses its holder and takes its stray time by the exchange with its
node and the old End, and its lease polls go (R79, R91, R114, R117). -/
structure State.LenientFails (s t : State) (h : Handle) (l left : Lease) (cause : CloseCause) : Prop where
  goesOn : left.hasStatus [.armed, .cycling] = true → t.entry h.entry = ⟨h.generation, some left⟩
    ∧ t.closeOrder = s.closeOrder
  closes : left.hasStatus [.armed, .cycling] = false → t.entry h.entry = ⟨h.generation, some { left with
      state := .closed, closeCause := some cause, stopCause := none, run := none
      sites := left.sites.map fun z => { z with call := none, waiting := [] } }⟩
    ∧ t.closeOrder = s.closeOrder.filter (· != h.entry) ++ [h.entry]
  leaves : ∀ z ∈ l.sites, z.failedIn = true → (s.site z.site).holder = some h → (t.site z.site).holder = none
    ∧ (t.site z.site).stray
      = if z.status ≠ .stopFailed ∧ (z.exchange = .noArm ∨ z.exchange = .armRefused ∨ z.exchange = .cycleGone) then none
        else some (max (z.endBound.getD l.stop) l.stop)
  polls : ∀ b, ∀ q ∈ (t.line b).leasePolls, q.handle = h → ∀ z ∈ l.sites, z.failedIn = true → q.site ≠ z.site

/-- What the decision of an extension with a failed site does to a lease whose sites have all an end, STRICT or LENIENT:
`withdrawn` are the sites whose queued call it took back (R112 to R114). -/
structure State.ExtendFails (s t : State) (h : Handle) (l : Lease) (newEnd : Nat) (withdrawn : SiteName → Bool) : Prop where
  marks : t.inLeaseChanges h.entry = true ∧ t.flagSet .leasesChanged = true
  strict : l.strictness = .strict →
    let reverts (z : LeaseSite) : Bool := z.took && (s.site z.site).state == .commissioned
    let ended (result : ChangeResult) : Prop := t.entry h.entry = ⟨h.generation, some { l with
      change := none, lastResult := some result, sites := l.sites.map fun z => { z with change := none } }⟩
    (l.sites.any (·.took) = false → ended .refusedBySite)
    ∧ (l.sites.any (·.took) = true → l.sites.any reverts = false → ended .reverted)
    ∧ (l.sites.any reverts = true → t.entry h.entry = ⟨h.generation, some { l with
        change := some (.extend newEnd true)
        sites := l.sites.map fun z => if reverts z = true then z.called (.extend l.stop) else z }⟩)
    ∧ s.CallsMoved t h withdrawn (fun m => l.sites.any (fun z => z.site == m && reverts z && z.call == none) = true)
    ∧ t.closeOrder = s.closeOrder ∧ ∀ m, (t.site m).holder = (s.site m).holder ∧ (t.site m).stray = (s.site m).stray
  lenient : l.strictness = .lenient → s.LenientFails t h l { l with
      stop := newEnd, change := none, lastResult := some l.partlyOr
      sites := l.sites.map fun z =>
        if z.failedIn = true then { z.droppedIn with call := none } else { z with change := none } } .siteLost

/-- What the decision of a repattern with a failed site does to a lease whose sites have all an end (R116, R117). -/
structure State.RepatternFails (s t : State) (h : Handle) (l : Lease) (p : Pattern) (boundary : Nat)
    (withdrawn : SiteName → Bool) : Prop where
  marks : t.inLeaseChanges h.entry = true ∧ t.flagSet .leasesChanged = true
  strict : l.strictness = .strict →
    let stops (z : LeaseSite) : Bool :=
      (z.status == .armed || z.status == .cycling) && (s.site z.site).state == .commissioned
    let ended : Lease := { l with
      lastResult := some .refusedBySite, change := none, sites := l.sites.map fun z => { z with change := none } }
    (l.sites.any stops = true →
      t.entry h.entry = ⟨h.generation, some { ended with
        state := .stopping, stopCause := some .patternFailed
        sites := ended.sites.map fun z => if stops z = true then z.called .stop else z }⟩
      ∧ s.CallsMoved t h withdrawn (fun m => l.sites.any (fun z => z.site == m && stops z && z.call == none) = true)
      ∧ (∀ b, (t.line b).leasePolls = (s.line b).leasePolls.filter (·.handle != h)) ∧ t.closeOrder = s.closeOrder)
    ∧ (l.sites.any stops = false → (∃ k, t.entry h.entry = ⟨h.generation, some k⟩ ∧ k.state = .closed
        ∧ k.closeCause = some .patternFailed ∧ k.lastResult = some .refusedBySite)
      ∧ t.closeOrder = s.closeOrder.filter (· != h.entry) ++ [h.entry])
  lenient : l.strictness = .lenient →
    let left : Lease := { l with
      pattern := p, run := l.run.map fun r => r.repattern (patternPeriod l.pattern) boundary
      change := none, lastResult := some l.partlyOr
      sites := l.sites.map fun z =>
        if z.failedIn = true then
          if (s.site z.site).state = .commissioned then z.droppedIn.called .stop else z.droppedIn
        else { z with change := none } }
    s.LenientFails t h l left .patternFailed
    ∧ (left.hasStatus [.armed, .cycling] = true → s.CallsMoved t h withdrawn fun m =>
      l.sites.any (fun z => z.site == m && z.failedIn && (s.site m).state == .commissioned && z.call == none) = true)

/-- The tag of a host request; NOP carries one that is not kept. -/
def requestTag? : Instr → Option Tag
  | .siteRead t _ | .siteFind t _ | .siteList t _ | .retire t _ | .adopt t _ | .clearFaults t _ | .draftOpen t _
  | .draftSet t _ | .draftRead t _ | .draftCommit t _ | .draftDiscard t _ | .leaseRequest t _ | .leaseRead t _
  | .leaseExtend t _ | .leaseRepattern t _ | .leaseRelease t _ | .leaseDismiss t _ | .snap t _ | .unsnap t _
  | .timeSet t _ | .discover t _ | .train t _ | .persist t _ | .relay t _ | .relayResult t _ | .sectionRead t _
  | .sectionConfig t _ | .changes t _ | .eventMask t _ | .sectionReset t _ => some t
  | _ => none

end Sys2Proof.Machine
end

