-- ==== Sys2Proof/Certificates/Slice0/Obligations.lean ====
section
/-! DEFINITION. The statements for the provers, in the order of the spec's files: what each command does, and what every
step keeps. -/

section Statements

open Sys2Proof Sys2Proof.Machine

/-! ### The step, and resets -/

/-- The step takes the command at the front of the queue and runs it on the state with the queue's rest. On an empty
queue, where step 3 of the start-up sequence waits with no slot being written, the step takes it; otherwise one
microsecond of the timebase passes and nothing else happens. What an empty queue does is the model's choice (log 2, log
4). Every command answers a next state with the queue as it stood, and so the block never stops. -/
def Obligations.StepTakesFront : Prop :=
  (∀ (c : Instr) (s : State), Sys2Proof.Machine.step { s with pending := c :: s.pending } = exec c s)
  ∧ (∀ s : State, s.pending = [] →
       ((s.store.stepThree = .idle ∨ s.store.pass ≠ none) →
         Sys2Proof.Machine.step s = .next { s with timebase := s.timebase + 1 })
       ∧ (s.store.stepThree ≠ .idle → s.store.pass = none → Sys2Proof.Machine.step s = .next s.bootStep))
  ∧ (∀ (c : Instr) (s : State), ∃ t, exec c s = .next t ∧ t.pending = s.pending)
  ∧ ∀ s : State, Safe s

/-- Right after a reset and before step 1 of the start-up sequence, every block holds the values its chapter gives, and
what every step keeps holds. Three values that no chapter lists are the model's choice: no bytes shifted out and no
frame last sent (log 3), and no step 3 waiting before step 1 has begun (log 4). -/
def Obligations.ResetState : Prop :=
  (∀ n, State.reset.site n = SiteRecord.blank ∧ State.reset.upkeepOf n = ⟨none, none, false, false, 0, 0⟩
    ∧ State.reset.attemptOf n = none ∧ State.reset.frozenOf n = none)
  ∧ (∀ e, State.reset.entry e = ⟨0, none⟩)
  ∧ (∀ b, State.reset.line b = ⟨.idle, none, none, [], [], [], [], none, []⟩ ∧ (State.reset.bring b).phase = .loading
    ∧ (State.reset.bring b).job = .none ∧ (State.reset.bring b).extent = 0)
  ∧ State.reset.drafts = [] ∧ State.reset.closeOrder = [] ∧ State.reset.frozen = false
  ∧ State.reset.clock.state = .unset ∧ State.reset.clock.count = none ∧ State.reset.clock.goodRun = 0
  ∧ State.reset.relay = ⟨.idle, none, none⟩ ∧ State.reset.bringupDone = false
  ∧ State.reset.config = ⟨10, 30, 60, 3, true, 120, 15⟩ ∧ State.reset.store.pass = none
  ∧ State.reset.host.answer = .ready ⟨0x00#8, 0#16, .ok, .empty⟩ ∧ State.reset.host.exchange = none
  ∧ State.reset.host.flags = 0 ∧ State.reset.host.mask = 0 ∧ State.reset.host.siteChanges = []
  ∧ State.reset.host.leaseChanges = [] ∧ State.reset.host.restarted = true ∧ State.reset.pending = []
  ∧ State.reset.store.stepThree = .idle ∧ State.reset.host.shifted = []
  ∧ State.reset.Sound ∧ State.reset.BringupSound ∧ State.reset.SerialsSound ∧ State.reset.ClosedSound
  ∧ State.reset.HoldersSound ∧ State.reset.QueuesSound ∧ State.reset.TimeSound

/-- The three resets: each sets its cause, RESTARTED and SUPPLY_LOW as R148 gives, leaves the restart answer ready,
latches the strap by the levels it reads and loads the Record Store, with step 3 to come. The levels that SECTION RESET
reads are left open (log 5). That steps 1 and 2 stand in the reset's own command, and that an exchange in progress is
dropped, are the model's choices (log 4, log 44). -/
def Obligations.ResetsStartUp : Prop :=
  ∀ (s : State) (cause : PowerCause) (pins : StrapPins) (tag : Tag),
    (∃ t, exec (.powerOnReset cause pins) s = .next t ∧ s.StartedUp pins t
      ∧ t.host.cause = (match cause with | .powerOn => .powerOn | .brownOut => .brownOut)
      ∧ t.host.supplyLow = (match cause with | .powerOn => false | .brownOut => true)
      ∧ t.host.answer = .ready ⟨0x00#8, 0#16, .ok, .empty⟩)
    ∧ (∃ t, exec (.pinReset pins) s = .next t ∧ s.StartedUp pins t ∧ t.host.cause = .pin
      ∧ t.host.supplyLow = s.host.supplyLow ∧ t.host.answer = .ready ⟨0x00#8, 0#16, .ok, .empty⟩)
    ∧ ∃ (read : StrapPins) (t : State), exec (.sectionReset tag (some ())) s = .next t ∧ s.StartedUp read t
      ∧ t.host.cause = .soft
      ∧ t.host.supplyLow = s.host.supplyLow ∧ t.host.answer = .ready ⟨0x54#8, tag, .ok, .empty⟩

/-- Step 2: each slot of a strapped branch is read, and its record, Dirty mark and load report follow from what it
holds; the slots are those of a state whose last pass had ended. A corrected slot whose image has a field out of range
or repeats a serial is LOST or DUPLICATE, and a corrected empty slot is CORRECTED: the model's choice (log 37). Step 3,
taken on an empty queue or by the SLOT_WRITE_DONE that ends its write (log 4): the configuration and the boot count come
from a section slot that reads well, and are the defaults and 0 otherwise; a SECTION CONFIG taken since the reset stays
in force; the boot count goes up by 1 and the section slot is being written. -/
def Obligations.StartUpSteps : Prop :=
  (∀ (s : State) (cause : PowerCause) (pins : StrapPins), s.store.pass = none →
     ∃ t, exec (.powerOnReset cause pins) s = .next t ∧ ∀ n : SiteName,
       let silent : Prop := ∀ o, (SlotName.site n, o) ∉ t.store.report
       let stays (o : LoadOutcome) : Prop :=
         t.site n = { SiteRecord.blank with dirty := true } ∧ (SlotName.site n, o) ∈ t.store.report
       if (strapOf pins).selects (branchOf n) = false then t.site n = SiteRecord.blank ∧ silent
       else
         match s.store.siteSlots.get n with
         | .erased | .damaged => stays .lost
         | .holds none false => t.site n = SiteRecord.blank ∧ silent
         | .holds none true => stays .corrected
         | .holds (some x) corrected =>
           let earlier : Prop := ∃ m : SiteName, m < n ∧ (strapOf pins).selects (branchOf m) = true
             ∧ ∃ y c, s.store.siteSlots.get m = .holds (some y) c ∧ imageInRange y = true ∧ y.serial = x.serial
           (imageInRange x = false → stays .lost)
           ∧ (imageInRange x = true → earlier → stays .duplicate)
           ∧ (imageInRange x = true → ¬ earlier →
             (t.site n).state = .unreachable
             ∧ (t.site n).node = some ⟨x.serial, x.plate, x.hostPlate, none, 0⟩
             ∧ (t.site n).comm.map (fun c => (c.block, c.applied, c.refreshFrom))
               = some (x.block, boundApplied x.block x.plate x.applied, 0)
             ∧ (t.site n).irOffset = x.irOffset
             ∧ (t.site n).faults.isPresent .linkLost = true ∧ (t.site n).faults.isLatched .linkLost = false
             ∧ (t.site n).faults.isPresent .limitClamped
               = decide (effectiveLimit x.block x.plate < x.block.currentLimit)
             ∧ (t.site n).dirty = (corrected || boundApplied x.block x.plate x.applied != x.applied)
             ∧ if corrected = true then (SlotName.site n, .corrected) ∈ t.store.report else silent))
  ∧ (∀ s : State, s.store.pass = none → s.store.stepThree ≠ .idle →
       let kept : Prop := s.store.stepThree = .configured
       let defaults : SectionConfig := ⟨10, 30, 60, 3, true, 120, 15⟩
       ∃ t : State, Sys2Proof.Machine.step { s with pending := [] } = .next { t with pending := [] }
         ∧ (∀ result, exec (.slotWriteDone result) s = exec (.slotWriteDone result) t)
         ∧ t.store.stepThree = .idle ∧ t.store.sectionDirty = false
         ∧ t.store.pass = some ⟨.section_ ⟨t.config, t.bootCount⟩, false, true⟩
         ∧ (kept → t.config = s.config)
         ∧ (match s.store.sectionSlot with
           | .erased | .damaged =>
             (¬ kept → t.config = defaults) ∧ t.bootCount = 1 ∧ (.section_, .lost) ∈ t.store.report
             ∧ t.flagSet .storeError = true
           | .holds x corrected =>
             (ConfigInRanges x.config → (¬ kept → t.config = x.config) ∧ t.bootCount = (x.bootCount + 1) % 2 ^ 32
               ∧ (corrected = true → (.section_, .corrected) ∈ t.store.report ∧ t.flagSet .storeError = true)
               ∧ (corrected = false → t.store.report = s.store.report ∧ t.host = s.host))
             ∧ (¬ ConfigInRanges x.config → (¬ kept → t.config = defaults) ∧ t.bootCount = 1
               ∧ (.section_, .lost) ∈ t.store.report ∧ t.flagSet .storeError = true))
         ∧ t.store.siteSlots = s.store.siteSlots ∧ t.store.sectionSlot = s.store.sectionSlot
         ∧ { t with config := s.config, bootCount := s.bootCount, store := s.store, host := s.host } = s)

/-- A request whose payload does not fit its code is answered RANGE by its block, and changes nothing else; that it is
so in every phase, before the request's other checks, and that a draft request so refused leaves the idle age of the
draft running, are the model's choices (log 50, log 27). A site request that names none of the 64 sites, or a site of a
branch the strap did not select, is answered RANGE in every phase and changes nothing else. DISCOVER and TRAIN of a
branch other than WEST (01h) or EAST (02h), or of one the strap did not select, are answered RANGE in every phase. -/
def Obligations.RangeRefused : Prop :=
  (∀ (tag : Tag) (s : State), ∀ c ∈ [Instr.siteRead tag none, .siteFind tag none, .siteList tag none, .retire tag none,
       .adopt tag none, .clearFaults tag none, .draftOpen tag none, .draftSet tag none, .draftRead tag none,
       .draftCommit tag none, .draftDiscard tag none, .leaseRequest tag none, .leaseRead tag none, .leaseExtend tag none,
       .leaseRepattern tag none, .leaseRelease tag none, .leaseDismiss tag none, .snap tag none, .unsnap tag none,
       .timeSet tag none, .discover tag none, .train tag none, .persist tag none, .relay tag none, .relayResult tag none,
       .sectionRead tag none, .sectionConfig tag none, .changes tag none, .eventMask tag none, .sectionReset tag none],
     ∃ k, requestCode? c = some k ∧ exec c s = .next (s.reply (BitVec.ofNat 8 k) tag .range .empty))
  ∧ (∀ (tag : Tag) (code : Nat) (s : State), (∀ n : SiteName, siteCode n = code → ¬ s.Names n) →
       (∀ (field : Nat) (value : Int) (slots : List RelaySlot),
         ∀ c ∈ [Instr.siteRead tag (some code), .retire tag (some code), .adopt tag (some code),
             .draftOpen tag (some code), .draftSet tag (some ⟨code, field, value⟩), .draftRead tag (some code),
             .draftCommit tag (some code), .draftDiscard tag (some code), .relay tag (some ⟨code, slots⟩)],
           ∃ k, requestCode? c = some k ∧ exec c s = .next (s.reply (BitVec.ofNat 8 k) tag .range .empty))
       ∧ ∀ selection, code ≠ 0 →
         exec (.clearFaults tag (some ⟨code, selection⟩)) s = .next (s.reply 0x06#8 tag .range .empty))
  ∧ (∀ (tag : Tag) (code : Nat) (s : State),
       (code = 1 → s.strap.selects .west = false) → (code = 2 → s.strap.selects .east = false) →
       exec (.discover tag (some code)) s = .next (s.reply 0x40#8 tag .range .empty)
       ∧ exec (.train tag (some code)) s = .next (s.reply 0x41#8 tag .range .empty))

/-- Until bring-up is done, the requests of R176 that are not served are answered STARTING and change nothing else. The
four requests on a lease are so where the handle names a lease; another handle is answered UNKNOWN, its check being made
first (deduced: log 26). -/
def Obligations.StartingRefused : Prop :=
  ∀ (tag : Tag) (s : State), s.bringupDone = false →
    (∀ (n : SiteName) (field : Nat) (value : Int) (slots : List RelaySlot), s.Names n →
      ∀ c ∈ [Instr.retire tag (some (siteCode n)), .adopt tag (some (siteCode n)), .draftOpen tag (some (siteCode n)),
          .draftSet tag (some ⟨siteCode n, field, value⟩), .draftRead tag (some (siteCode n)),
          .draftCommit tag (some (siteCode n)), .draftDiscard tag (some (siteCode n)),
          .relay tag (some ⟨siteCode n, slots⟩)],
        ∃ k, requestCode? c = some k ∧ exec c s = .next (s.reply (BitVec.ofNat 8 k) tag .starting .empty))
    ∧ (∀ a, exec (.leaseRequest tag (some a)) s = .next (s.reply 0x20#8 tag .starting .empty))
    ∧ (∀ b, s.strap.selects b = true →
      exec (.discover tag (some (match b with | .west => 1 | .east => 2))) s
        = .next (s.reply 0x40#8 tag .starting .empty)
      ∧ exec (.train tag (some (match b with | .west => 1 | .east => 2))) s
        = .next (s.reply 0x41#8 tag .starting .empty))
    ∧ exec (.persist tag (some ())) s = .next (s.reply 0x42#8 tag .starting .empty)
    ∧ ∀ (e : EntryNo) (g newEnd : Nat) (p : Pattern),
      ∀ c ∈ [Instr.leaseExtend tag (some ⟨⟨e.val + 1, g⟩, newEnd⟩), .leaseRepattern tag (some ⟨⟨e.val + 1, g⟩, p⟩),
          .leaseRelease tag (some ⟨e.val + 1, g⟩), .leaseDismiss tag (some ⟨e.val + 1, g⟩)],
        ∃ k, requestCode? c = some k
          ∧ ((s.leaseOf e).isSome = true → (s.entry e).generation = g →
              exec c s = .next (s.reply (BitVec.ofNat 8 k) tag .starting .empty))
          ∧ ((s.leaseOf e = none ∨ (s.entry e).generation ≠ g) →
              exec c s = .next (s.reply (BitVec.ofNat 8 k) tag .unknown .empty))

/-! ### The Host Port -/

/-- CS asserted with no exchange in progress: the exchange shifts out the pending answer where it is ready, and
otherwise a NOT_READY frame with the code and tag of the request being served. With an exchange in progress only the
moment is taken. An answer that its block has built becomes ready, and NOP changes nothing. -/
def Obligations.ExchangeStart : Prop :=
  (∀ (s : State) (moment : Nat),
     (s.host.exchange = none →
       exec (.exchangeStart moment) s = .next { s with
         timebase := max s.timebase moment
         host := { s.host with exchange := some (match s.host.answer with
           | .ready a => ⟨true, a.frame⟩
           | .serving code tag _ => ⟨false, Answer.frame ⟨code, tag, .notReady, .empty⟩⟩
           | .built a => ⟨false, Answer.frame ⟨a.code, a.tag, .notReady, .empty⟩⟩) } })
     ∧ (s.host.exchange ≠ none →
       exec (.exchangeStart moment) s = .next { s with timebase := max s.timebase moment }))
  ∧ ((∀ (s : State) (a : Answer), s.host.answer = .built a →
       exec .answerReady s = .next { s with host := { s.host with answer := .ready a } })
     ∧ (∀ s : State, (∀ a, s.host.answer ≠ .built a) → exec .answerReady s = .next s)
     ∧ ∀ s : State, exec .nop s = .next s)

/-- CS deasserted: a byte of the answer frame, and 00h beyond it, was shifted out for each byte shifted in. After an
exchange that began ready, with a whole request frame of the catalogue: the request is taken and handed to its block,
and NOP leaves the pending answer as it is; bytes after the frame are ignored. After an exchange that began before the
answer was ready, or with none in progress: no request is taken, whatever the frame holds. A frame that is cut short,
gives a payload over 250 bytes, fails its CRC or has a code outside the catalogue is refused FRAME_ERROR with its code
and tag as received. The order of the fields in some payloads is deduced (log 10), and a byte that was never shifted in
is left open (log 23). -/
def Obligations.ExchangeEnd : Prop :=
  (∀ (s : State) (moment : Nat) (miso extra payload : List Byte) (i : Instr) (code : Nat) (tag : Tag),
     s.host.exchange = some ⟨true, miso⟩ → i.wellFormed = true → requestCode? i = some code →
     requestPayload? i = some payload → payload.length ≤ 250 → (∀ g, requestTag? i = some g → g = tag) →
     exec (.exchangeEnd moment (requestFrame code tag payload ++ extra)) s = .next { s with
       timebase := max s.timebase moment
       host := { s.host with
         exchange := none
         shifted := shiftedOut miso (requestFrame code tag payload ++ extra).length
         answer := if i = .nop then s.host.answer else .serving (BitVec.ofNat 8 code) tag i } })
  ∧ (∀ (s : State) (moment : Nat) (miso mosi : List Byte),
     (s.host.exchange = some ⟨false, miso⟩ → exec (.exchangeEnd moment mosi) s = .next { s with
       timebase := max s.timebase moment
       host := { s.host with exchange := none, shifted := shiftedOut miso mosi.length } })
     ∧ (s.host.exchange = none →
       exec (.exchangeEnd moment mosi) s = .next { s with timebase := max s.timebase moment }))
  ∧ (∀ (s : State) (moment : Nat) (miso mosi : List Byte), s.host.exchange = some ⟨true, miso⟩ →
       (mosi = [] ∨ ∃ len rest, mosi = len :: rest ∧ (mosi.length < len.toNat + 6 ∨ 250 < len.toNat
         ∨ crcGood (mosi.take (len.toNat + 6)) = false
         ∨ (byteAt mosi 1).toNat ∉ [0x00, 0x01, 0x02, 0x03, 0x04, 0x05, 0x06, 0x10, 0x11, 0x12, 0x13, 0x14, 0x20, 0x21,
             0x22, 0x23, 0x24, 0x25, 0x30, 0x31, 0x32, 0x40, 0x41, 0x42, 0x43, 0x44, 0x50, 0x51, 0x52, 0x53, 0x54])) →
       exec (.exchangeEnd moment mosi) s = .next { s with
         timebase := max s.timebase moment
         host := { s.host with
           exchange := none
           shifted := shiftedOut miso mosi.length
           answer := .ready ⟨byteAt mosi 1, byteAt mosi 2 ++ byteAt mosi 3, .frameError, .empty⟩ } })

/-- What the host lays out is what the part reads: the frame of every well-formed request of the catalogue is judged
taken, with its code, its tag and every operand, whatever bytes follow it. The order of the fields in some payloads is
deduced (log 10). -/
def Obligations.RequestRoundTrip : Prop :=
  ∀ (i : Instr) (code : Nat) (tag : Tag) (payload extra : List Byte), i.wellFormed = true →
    requestCode? i = some code → requestPayload? i = some payload → payload.length ≤ 250 →
    (∀ g, requestTag? i = some g → g = tag) →
    judgeFrame (requestFrame code tag payload ++ extra) = .taken (BitVec.ofNat 8 code) tag i

/-- The FAULT line is released exactly when a record holds a latched fault or RESTARTED or SUPPLY_LOW is set, and ATTN
is asserted exactly while some flag is set and enabled. EVENT MASK replaces the mask and is answered with the one before
and the flags. A mask of more than twelve bits is answered RANGE, which is the model's choice (log 16). CHANGES is
answered with the flags and both change sets as they stand, and clears them. SECTION READ is served in every phase,
shows the state as it stands and changes nothing. -/
def Obligations.HostView : Prop :=
  (∀ s : State,
     (s.faultReleased = true ↔ (∃ n k, (s.site n).faults.isLatched k = true) ∨ s.host.restarted = true
       ∨ s.host.supplyLow = true)
     ∧ (s.attnAsserted = true ↔ ∃ f : EventFlag, s.flagSet f = true ∧ s.host.mask.getLsbD f.bit = true))
  ∧ (∀ (tag : Tag) (s : State) (m : Nat),
       (m < 4096 → exec (.eventMask tag (some m)) s
         = .next (State.reply { s with host := { s.host with mask := BitVec.ofNat 12 m } } 0x53#8 tag .ok
             (.mask s.host.mask s.host.flags)))
       ∧ (4096 ≤ m → exec (.eventMask tag (some m)) s = .next (s.reply 0x53#8 tag .range .empty)))
  ∧ (∀ (tag : Tag) (s : State), exec (.changes tag (some ())) s
       = .next (State.reply { s with host := { s.host with flags := 0, siteChanges := [], leaseChanges := [] } } 0x52#8 tag
           .ok (.changes s.host.flags s.host.siteChanges s.host.leaseChanges)))
  ∧ (∀ (tag : Tag) (s : State), ∃ a : SectionAnswer,
       exec (.sectionRead tag (some ())) s = .next (s.reply 0x50#8 tag .ok (.sectionState a))
       ∧ a.timeState = s.clock.state ∧ a.count = s.clock.count
       ∧ a.holdover = (if s.clock.state = .holdover then s.clock.holdover else none)
       ∧ a.setRequest = s.clock.setRequest ∧ a.lastSet = s.clock.lastSet ∧ a.strap = s.strap
       ∧ (∀ b, a.branches.get b = if s.strap.selects b = true then
           some ⟨(s.bring b).phase, (s.bring b).job, (s.bring b).request.isSome, (s.line b).brk.map (·.position),
             (s.bring b).overlength⟩ else none)
       ∧ a.bootCount = s.bootCount ∧ a.cause = s.host.cause ∧ a.restarted = s.host.restarted
       ∧ a.supplyLow = s.host.supplyLow ∧ a.frozen = s.frozen ∧ a.snapTime = s.snapTime
       ∧ a.persisting = s.store.pass.isSome ∧ a.report = s.store.report ∧ a.drafts = s.drafts.length
       ∧ a.liveLeases = (entryNames.filter fun e => (s.leaseOf e).any fun l => l.state != .closed).length
       ∧ a.relay = s.relay.state ∧ a.relayHeld = s.relay.result.isSome ∧ a.config = s.config ∧ a.flags = s.host.flags
       ∧ a.mask = s.host.mask)

/-- SECTION CONFIG, served in every phase: six values in their ranges are taken into force together, section dirty is
set, and a step 3 still to come will keep them. Every site with a set-point block is due for refresh where the node hold
period changes, HOLDOVER becomes LOST where the holdover seconds exceed the new limit, and OPEN drafts past a lowered
lifetime are dropped. That the holdover seconds stay in the clock while time is LOST is the model's choice (log 25).
SECTION CONFIG with a parameter outside its range is answered RANGE, naming the first one in table order, and changes no
parameter. The name is its place in the table, from 0, which is the model's choice (log 10). -/
def Obligations.ConfigRequest : Prop :=
  (∀ (tag : Tag) (s : State) (c : SectionConfig), s.Sound → ConfigInRanges c →
     ∃ u : State, exec (.sectionConfig tag (some c)) s = .next (u.reply 0x51#8 tag .ok .empty)
       ∧ u.config = c ∧ u.store = { s.store with
           sectionDirty := true, stepThree := if s.store.stepThree = .idle then .idle else .configured } ∧ u.Sound
       ∧ (∀ n, u.upkeepOf n = if c.holdPeriod ≠ s.config.holdPeriod ∧ (s.site n).comm.isSome = true
           then { s.upkeepOf n with due := true } else s.upkeepOf n)
       ∧ u.clock = { s.clock with state :=
           if c.holdoverLimit ≠ s.config.holdoverLimit ∧ s.clock.state = .holdover
             ∧ c.holdoverLimit < s.clock.holdover.getD 0 then .lost else s.clock.state }
       ∧ (∀ n, u.draftOf n = (s.draftOf n).filter fun d =>
           !(decide (c.draftLifetime < s.config.draftLifetime) && !d.committing
             && decide (c.draftLifetime * 60 ≤ s.ageFrom d.idleFrom)))
       ∧ (∀ n, (u.site n).own = (s.site n).own) ∧ u.relay = s.relay ∧ u.bringup = s.bringup
       ∧ u.bootCount = s.bootCount ∧ u.timebase = s.timebase ∧ u.host.mask = s.host.mask)
  ∧ (∀ (tag : Tag) (s : State) (c : SectionConfig), ¬ ConfigInRanges c →
       exec (.sectionConfig tag (some c)) s = .next (s.reply 0x51#8 tag .range (.namesField (
         if ¬ (1 ≤ c.refreshInterval ∧ c.refreshInterval ≤ 30) then 0
         else if ¬ (2 ≤ c.holdPeriod ∧ c.holdPeriod ≤ 120 ∧ 2 * c.refreshInterval ≤ c.holdPeriod) then 1
         else if ¬ (10 ≤ c.pollPeriod ∧ c.pollPeriod ≤ 600) then 2
         else if ¬ (1 ≤ c.threshold ∧ c.threshold ≤ 15) then 3
         else if ¬ (10 ≤ c.holdoverLimit ∧ c.holdoverLimit ≤ 600) then 4 else 5))))

/-! ### Site requests -/

/-- SITE READ is served in every phase, shows the record as it stands with its derived fields, and by the Readings View
either its live readings or its frozen ones with the snap time, and changes nothing. SITE LIST shows 64 entries in
pipeline order, each with the six items of R20, and changes nothing. -/
def Obligations.SiteReadList : Prop :=
  (∀ (tag : Tag) (s : State) (n : SiteName), s.Names n → ∃ a : SiteAnswer,
     exec (.siteRead tag (some (siteCode n))) s = .next (s.reply 0x01#8 tag .ok (.site a))
     ∧ a.site = n ∧ a.record = s.site n
     ∧ a.effectiveLimit = ((s.site n).node.bind fun i => (s.site n).comm.map fun c =>
         min c.block.currentLimit i.plate.current)
     ∧ a.refreshAge = ((s.site n).comm.map fun c => (s.timebase - c.refreshFrom) / 1000000)
     ∧ a.pollAge = ((s.site n).node.map fun i => (s.timebase - i.pollFrom) / 1000000)
     ∧ a.frozen = s.frozen ∧ a.readings = (if s.frozen = true then s.frozenOf n else (s.site n).readings)
     ∧ a.snapTime = (if s.frozen = true then s.snapTime else none)
     ∧ a.draft = (s.draftOf n).map (·.committing))
  ∧ (∀ (tag : Tag) (s : State), ∃ entries : List SiteEntry,
       exec (.siteList tag (some ())) s = .next (s.reply 0x03#8 tag .ok (.list entries)) ∧ entries.length = 64
       ∧ ∀ n : SiteName, entries[pipelineIndex n]? = some
           { state := (s.site n).state
             latched := (s.site n).faults.latched != 0
             held := (s.site n).holder.isSome
             stray := (s.site n).stray.isSome
             draft := (s.draftOf n).map (·.committing)
             purpose := (s.site n).pending.map (·.purpose) })

/-- SITE FIND gives the first record in pipeline order with the serial as its Node serial, or else the first with it as
its Found node serial, which is MISMATCH or RETIRING; a serial of 0 is answered RANGE and one that stands nowhere
UNKNOWN. Nothing else changes. -/
def Obligations.SiteFind : Prop :=
  ∀ (tag : Tag) (s : State),
    exec (.siteFind tag (some 0)) s = .next (s.reply 0x02#8 tag .range .empty)
    ∧ ∀ serial, serial ≠ 0 →
      (∀ n : SiteName, (s.site n).node.map (·.serial) = some serial →
        (∀ m, pipelineIndex m < pipelineIndex n → (s.site m).node.map (·.serial) ≠ some serial) →
        exec (.siteFind tag (some serial)) s = .next (s.reply 0x02#8 tag .ok (.found n (s.site n).state false)))
      ∧ ((∀ m, (s.site m).node.map (·.serial) ≠ some serial) →
        (∀ n : SiteName, (s.site n).found.map (·.serial) = some serial →
          (∀ m, pipelineIndex m < pipelineIndex n → (s.site m).found.map (·.serial) ≠ some serial) →
          exec (.siteFind tag (some serial)) s = .next (s.reply 0x02#8 tag .ok (.found n (s.site n).state true))
          ∧ (s.Sound → (s.site n).state = .mismatch ∨ (s.site n).state = .retiring))
        ∧ ((∀ m, (s.site m).found.map (·.serial) ≠ some serial) →
          exec (.siteFind tag (some serial)) s = .next (s.reply 0x02#8 tag .unknown .empty)))

/-- RETIRE of a COMMISSIONED site enters RETIRING with Pending RETIRE in the host-driven FIFO, in the place of a queued
RESTORE or in a free one; its draft is dropped and its window counts are 0. RETIRE of an UNREACHABLE site clears the
record to VACANT at once with Dirty set, and its draft, upkeep items, attempt age and frozen readings go with it. RETIRE
of a MISMATCH site makes it a DISCOVERED record of its Found node, as that reported itself (log 39), with Dirty set:
what DISCOVERED does not carry is cleared, the line delay and the latches stand, and a node that is not FRESH has a
CLEAN RELEASE placed. ADOPT: the MISMATCH record takes the Found node's serial, as reported (log 39), and its mode, and
its nameplate with the override off, and enters COMMISSIONING with Pending ADOPT in the FIFO; the block, line delay, IR
offset and latches are kept, and the applied current is bounded by the new limit; that a detached APPLY still in flight
for the site does not turn it away is deduced (log 52). The rest of the record, every other site and the background
stand. -/
def Obligations.RetireAdopt : Prop :=
  (∀ (tag : Tag) (s : State) (n : SiteName), s.Sound → s.Names n → s.bringupDone = true →
     (s.site n).state = .commissioned → (s.site n).holder = none → (s.site n).stray = none →
     s.committing n = false → s.applyInFlight n = false →
     ((s.line (branchOf n)).hostFifo.length < 16
       ∨ (s.site n).pending.map (fun p => (p.purpose, p.stage)) = some (.restore, .queued)
         ∧ HostItem.pending n ∈ (s.line (branchOf n)).hostFifo) →
     ∃ u : State, exec (.retire tag (some (siteCode n))) s = .next (u.reply 0x04#8 tag .accepted .empty)
       ∧ (u.site n).own = { (s.site n).own with state := .retiring, pending := some ⟨.retire, .queued, none⟩ }
       ∧ HostItem.pending n ∈ (u.line (branchOf n)).hostFifo
       ∧ u.upkeepOf n = { s.upkeepOf n with underCount := 0, overCount := 0 } ∧ u.draftOf n = none
       ∧ ((s.draftOf n).isSome = true → u.flagSet .draftDropped = true)
       ∧ u.inSiteChanges n = true ∧ u.flagSet .sitesChanged = true ∧ s.OthersStand u n
       ∧ u.background = s.background ∧ u.relay = s.relay ∧ u.bringup = s.bringup)
  ∧ (∀ (tag : Tag) (s : State) (n : SiteName), s.Sound → s.Names n → s.BroughtUp →
       (s.site n).state = .unreachable → (s.site n).holder = none → (s.site n).stray = none → s.committing n = false →
       ∃ u : State, exec (.retire tag (some (siteCode n))) s = .next (u.reply 0x04#8 tag .ok .empty)
         ∧ u.site n = { SiteRecord.blank with dirty := true } ∧ u.upkeepOf n = Upkeep.blank ∧ u.attemptOf n = none
         ∧ u.frozenOf n = none ∧ u.draftOf n = none
         ∧ ((s.draftOf n).isSome = true → u.flagSet .draftDropped = true)
         ∧ u.inSiteChanges n = true ∧ u.flagSet .sitesChanged = true ∧ s.OthersStand u n ∧ u.background = s.background)
  ∧ (∀ (tag : Tag) (s : State) (n : SiteName) (i : NodeIdent) (f : FoundNode), s.Sound → s.Names n → s.BroughtUp →
       (s.site n).state = .mismatch → (s.site n).node = some i → (s.site n).found = some f →
       (s.site n).holder = none → (s.site n).stray = none → s.committing n = false →
       (∀ m, m ≠ n → (s.site m).node.map (·.serial) ≠ some f.serial) →
       ∃ u : State, exec (.retire tag (some (siteCode n))) s = .next (u.reply 0x04#8 tag .ok .empty)
         ∧ (u.site n).state = .discovered
         ∧ (u.site n).node = some
             { i with serial := f.serial, plate := f.plate, hostPlate := false, mode := some f.mode }
         ∧ (u.site n).comm = none ∧ (u.site n).found = none ∧ (u.site n).irOffset = none ∧ (u.site n).readings = none
         ∧ (u.site n).lineDelay = (s.site n).lineDelay ∧ (u.site n).faults.latched = (s.site n).faults.latched
         ∧ (u.site n).dirty = true
         ∧ (u.site n).pending.map (·.purpose) = (if f.mode = .fresh then none else some .clean)
         ∧ u.upkeepOf n = Upkeep.blank ∧ u.draftOf n = none ∧ u.inSiteChanges n = true ∧ u.flagSet .sitesChanged = true
         ∧ s.OthersStand u n ∧ u.background = s.background)
  ∧ (∀ (tag : Tag) (s : State) (n : SiteName) (i : NodeIdent) (c : Commissioned) (f : FoundNode), s.Sound → s.Names n →
       s.bringupDone = true → (s.site n).state = .mismatch → (s.site n).node = some i → (s.site n).comm = some c →
       (s.site n).found = some f → (s.site n).holder = none → (s.site n).stray = none →
       (∀ m, m ≠ n → (s.site m).node.map (·.serial) ≠ some f.serial) →
       (s.line (branchOf n)).hostFifo.length < 16 →
       let plate := if i.hostPlate then i.plate else reloaded i.plate f.plate
       ∃ u : State, exec (.adopt tag (some (siteCode n))) s = .next (u.reply 0x05#8 tag .accepted .empty)
         ∧ (u.site n).state = .commissioning
         ∧ (u.site n).node = some { i with serial := f.serial, plate := plate, mode := some f.mode }
         ∧ (u.site n).found = none
         ∧ (u.site n).comm.map (fun x => (x.block, x.applied, x.refreshFrom))
           = some (c.block, boundApplied c.block plate c.applied, c.refreshFrom)
         ∧ (u.site n).lineDelay = (s.site n).lineDelay ∧ (u.site n).irOffset = (s.site n).irOffset
         ∧ (∀ k, (s.site n).faults.isLatched k = true → (u.site n).faults.isLatched k = true)
         ∧ (u.site n).pending = some ⟨.adopt, .queued, none⟩ ∧ HostItem.pending n ∈ (u.line (branchOf n)).hostFifo
         ∧ (u.site n).dirty = true
         ∧ (u.upkeepOf n).acknowledged = none ∧ (u.upkeepOf n).unconfirmed = none ∧ (u.upkeepOf n).restoreSpent = false
         ∧ u.inSiteChanges n = true ∧ u.flagSet .sitesChanged = true ∧ s.OthersStand u n
         ∧ u.background = s.background ∧ u.bringup = s.bringup)

/-- The refusals of RETIRE in the order of R21, each of which changes nothing else. The refusals of ADOPT in the order
of R24, each of which changes nothing else. The refusals of DRAFT OPEN in the order of R32, each of which changes
nothing else. -/
def Obligations.SiteRequestsRefused : Prop :=
  (∀ (tag : Tag) (s : State) (n : SiteName), s.Names n → s.bringupDone = true →
     let r := s.site n
     let held : Prop := r.holder ≠ none ∨ r.stray ≠ none
     let wrong : Prop := r.state = .vacant ∨ r.state = .discovered ∨ r.state = .commissioning ∨ r.state = .retiring
       ∨ s.committing n = true
     let answers (status : Status) (body : Body) : Prop :=
       exec (.retire tag (some (siteCode n))) s = .next (s.reply 0x04#8 tag status body)
     (held → answers .held .empty)
     ∧ (¬ held → wrong → answers .state .empty)
     ∧ (¬ held → ¬ wrong → ∀ m : SiteName, r.state = .mismatch → m ≠ n →
       (∃ f, r.found = some f ∧ (s.site m).node.map (·.serial) = some f.serial
         ∧ ∀ k : SiteName, k < m → k ≠ n → (s.site k).node.map (·.serial) ≠ some f.serial) →
       answers .conflict (.namesSite m))
     ∧ (¬ held → ¬ wrong → r.state = .commissioned →
       (s.applyInFlight n = true ∨ 16 ≤ (s.line (branchOf n)).hostFifo.length
         ∧ r.pending.map (fun p => (p.purpose, p.stage)) ≠ some (.restore, .queued)) →
       answers .busy .empty))
  ∧ (∀ (tag : Tag) (s : State) (n : SiteName), s.Names n → s.bringupDone = true →
       let r := s.site n
       let answers (status : Status) (body : Body) : Prop :=
         exec (.adopt tag (some (siteCode n))) s = .next (s.reply 0x05#8 tag status body)
       (r.state ≠ .mismatch → answers .state .empty)
       ∧ (r.state = .mismatch → (r.holder ≠ none ∨ r.stray ≠ none) → answers .held .empty)
       ∧ (r.state = .mismatch → r.holder = none → r.stray = none → ∀ f, r.found = some f →
         (∀ m : SiteName, m ≠ n → (s.site m).node.map (·.serial) = some f.serial →
           (∀ k : SiteName, k < m → k ≠ n → (s.site k).node.map (·.serial) ≠ some f.serial) →
           answers .conflict (.namesSite m))
         ∧ ((∀ m : SiteName, m ≠ n → (s.site m).node.map (·.serial) ≠ some f.serial) →
           16 ≤ (s.line (branchOf n)).hostFifo.length → answers .busy .empty)))
  ∧ (∀ (tag : Tag) (s : State) (n : SiteName), s.Names n → s.bringupDone = true →
       let opens : Prop := (s.site n).state = .discovered ∨ (s.site n).state = .commissioned
         ∨ (s.site n).state = .unreachable
       let answers (status : Status) : Prop :=
         exec (.draftOpen tag (some (siteCode n))) s = .next (s.reply 0x10#8 tag status .empty)
       (s.draftOf n ≠ none → answers .busy)
       ∧ (s.draftOf n = none → ¬ opens → answers .state)
       ∧ (s.draftOf n = none → opens → s.discovering (branchOf n) = true → answers .busy)
       ∧ (s.draftOf n = none → opens → s.discovering (branchOf n) = false → 8 ≤ s.drafts.length → answers .full))

/-- CLEAR FAULTS of a site clears exactly the selected latches whose condition is not present, lists what is still
latched, and adds the site to the change set where one was cleared; FAULT_RAISED is not raised. A selection of no kind,
or with a bit beyond the nine, is answered RANGE, which is the model's choice (log 16). CLEAR FAULTS of the coordinator
clears RESTARTED and SUPPLY_LOW, and is answered with the number of records that hold a latched fault. -/
def Obligations.ClearFaults : Prop :=
  (∀ (tag : Tag) (s : State) (n : SiteName) (selection : Nat), s.Names n →
     ((selection = 0 ∨ 512 ≤ selection) →
       exec (.clearFaults tag (some ⟨siteCode n, selection⟩)) s = .next (s.reply 0x06#8 tag .range .empty))
     ∧ (1 ≤ selection → selection < 512 →
       ∃ u : State, exec (.clearFaults tag (some ⟨siteCode n, selection⟩)) s
         = .next (u.reply 0x06#8 tag .ok
             (.faults (u.site n).faults.latched ((u.site n).faults.latched &&& (s.site n).faults.present)))
       ∧ (∀ k, (u.site n).faults.isLatched k
         = ((s.site n).faults.isLatched k && !(selection.testBit k.bit && !(s.site n).faults.isPresent k)))
       ∧ u.site n = { s.site n with faults := ⟨(u.site n).faults.latched, (s.site n).faults.present⟩ }
       ∧ (if (u.site n).faults = (s.site n).faults then u = s
         else u.inSiteChanges n = true ∧ u.flagSet .sitesChanged = true)
       ∧ (∀ f, f ≠ .sitesChanged → u.flagSet f = s.flagSet f) ∧ (∀ m, m ≠ n → u.site m = s.site m)
       ∧ { u with sites := s.sites, host := s.host } = s))
  ∧ (∀ (tag : Tag) (s : State) (selection : Nat),
       exec (.clearFaults tag (some ⟨0, selection⟩)) s
         = .next (State.reply { s with host := { s.host with restarted := false, supplyLow := false } } 0x06#8 tag .ok
             (.count (siteNames.filter fun n => (s.site n).faults.latched != 0).length)))

/-- SNAP: the view freezes a copy of every site's live readings with section time as its snap time, and the live counts
start again. A SNAP while frozen changes nothing. UNSNAP, served in every phase: a frozen view is released with its
readings and its snap time, the live readings stand, and SITE READ shows them from then on. While not frozen it changes
nothing. -/
def Obligations.SnapView : Prop :=
  (∀ (tag : Tag) (s : State),
     (s.frozen = false → ∃ u : State,
       exec (.snap tag (some ())) s = .next (u.reply 0x30#8 tag .ok (.snapped s.clock.count false))
       ∧ u.frozen = true ∧ u.snapTime = s.clock.count ∧ (∀ n, u.frozenOf n = (s.site n).readings)
       ∧ (∀ n, u.site n = { s.site n with readings := (s.site n).readings.map fun r =>
           { r with polls := 0, leastOn := none, mostOn := none } })
       ∧ { u with frozen := s.frozen, snapTime := s.snapTime, frozenReadings := s.frozenReadings, sites := s.sites } = s)
     ∧ (s.frozen = true →
       exec (.snap tag (some ())) s = .next (s.reply 0x30#8 tag .ok (.snapped s.snapTime true))))
  ∧ (∀ (tag : Tag) (s : State),
       (s.frozen = true → ∃ u : State,
         exec (.unsnap tag (some ())) s = .next (u.reply 0x31#8 tag .ok (.unsnapped true))
         ∧ u.frozen = false ∧ u.snapTime = none ∧ (∀ n, u.frozenOf n = none) ∧ (∀ n, u.site n = s.site n)
         ∧ { u with frozen := s.frozen, snapTime := s.snapTime, frozenReadings := s.frozenReadings } = s
         ∧ ∀ (k : Tag) (n : SiteName), s.Names n → ∃ a : SiteAnswer,
             exec (.siteRead k (some (siteCode n))) u = .next (u.reply 0x01#8 k .ok (.site a))
             ∧ a.frozen = false ∧ a.readings = (s.site n).readings)
       ∧ (s.frozen = false → exec (.unsnap tag (some ())) s = .next (s.reply 0x31#8 tag .ok (.unsnapped false))))

/-! ### Drafts -/

/-- DRAFT OPEN creates an OPEN draft with the defaults on a DISCOVERED site, and with a copy of the record's block on a
COMMISSIONED or UNREACHABLE one, and adds the site to the change set. DRAFT SET writes a value within its field's own
range into that field of an OPEN draft and into no other; a value outside it is answered RANGE naming the field, and a
code of no field RANGE with no name. The idle age starts again. DRAFT DISCARD frees an OPEN draft: the record but for
its trim status, its Pending entry, every other site and the background stand, and DRAFT_DROPPED is not raised. The idle
age of an OPEN draft reaching the draft lifetime frees the draft with DRAFT_DROPPED; before that, and while the draft is
COMMITTING, only the moment is taken. -/
def Obligations.DraftEdit : Prop :=
  (∀ (tag : Tag) (s : State) (n : SiteName), s.Sound → s.Names n → s.bringupDone = true → s.draftOf n = none →
     s.discovering (branchOf n) = false → s.drafts.length < 8 →
     let opens (d : Draft) : Prop :=
       exec (.draftOpen tag (some (siteCode n))) s
         = .next ((State.siteChanged { s with drafts := s.drafts ++ [d] } n).reply 0x10#8 tag .ok .empty)
     ((s.site n).state = .discovered →
       opens ⟨n, false, ⟨.current, 0, 0, 0, 0, 0, 0, 1, -850, -1200, 3⟩, false, none, none, s.timebase, none⟩)
     ∧ (((s.site n).state = .commissioned ∨ (s.site n).state = .unreachable) →
       ∀ i c, (s.site n).node = some i → (s.site n).comm = some c →
         opens ⟨n, false, c.block, i.hostPlate, if i.hostPlate then some i.plate.current else none,
           if i.hostPlate then some i.plate.voltage else none, s.timebase, none⟩))
  ∧ (∀ (tag : Tag) (s : State) (n : SiteName) (d : Draft), s.Names n → s.bringupDone = true → s.draftOf n = some d →
       d.committing = false →
       let runs (field : Nat) (value : Int) (d' : Draft) (status : Status) (body : Body) : Prop :=
         exec (.draftSet tag (some ⟨siteCode n, field, value⟩)) s
           = .next ((s.putDraft { d' with idleFrom := s.timebase }).reply 0x11#8 tag status body)
       let takes (field low high : Nat) (f : Nat → Draft) : Prop :=
         (∀ v : Nat, low ≤ v → v ≤ high → runs field v (f v) .ok .empty)
         ∧ ∀ v : Int, (v < low ∨ high < v) → runs field v d .range (.namesField field)
       let window (field : Nat) (f : Int → Draft) : Prop :=
         (∀ v : Int, -3000 ≤ v → v ≤ 0 → runs field v (f v) .ok .empty)
         ∧ ∀ v : Int, (v < -3000 ∨ 0 < v) → runs field v d .range (.namesField field)
       let block (f : Block → Block) : Draft := { d with block := f d.block }
       takes 0 0 2 (fun v => block fun b => { b with mode := [SetMode.current, .trimmed, .voltage].getD v .current })
       ∧ takes 1 0 6000 (fun v => block fun b => { b with targetCurrent := v })
       ∧ takes 2 0 1000 (fun v => block fun b => { b with targetVoltage := v })
       ∧ takes 3 0 6000 (fun v => block fun b => { b with currentLimit := v })
       ∧ takes 4 0 1000 (fun v => block fun b => { b with voltageLimit := v })
       ∧ takes 5 0 6000 (fun v => block fun b => { b with trimFloor := v })
       ∧ takes 6 0 6000 (fun v => block fun b => { b with trimCeiling := v })
       ∧ takes 7 1 50 (fun v => block fun b => { b with trimStep := v })
       ∧ window 8 (fun v => block fun b => { b with protectLimit := v })
       ∧ window 9 (fun v => block fun b => { b with overprotectLimit := v })
       ∧ takes 10 1 8 (fun v => block fun b => { b with windowCount := v })
       ∧ takes 11 0 1 (fun v => { d with hostPlate := decide (v = 1) })
       ∧ takes 12 1 6000 (fun v => { d with ratedCurrent := some v })
       ∧ takes 13 1 1000 (fun v => { d with ratedVoltage := some v })
       ∧ ∀ (field : Nat) (v : Int), 14 ≤ field → runs field v d .range .empty)
  ∧ (∀ (tag : Tag) (s : State) (n : SiteName) (d : Draft), s.Sound → s.Names n → s.bringupDone = true →
     s.draftOf n = some d → d.committing = false →
     ∃ u : State, exec (.draftDiscard tag (some (siteCode n))) s = .next (u.reply 0x14#8 tag .ok .empty)
       ∧ u.drafts = s.drafts.filter (fun x => x.site != n) ∧ u.draftOf n = none
       ∧ (u.site n).own = (s.site n).own ∧ (u.site n).holder = (s.site n).holder
       ∧ (u.site n).stray = (s.site n).stray ∧ u.upkeepOf n = s.upkeepOf n ∧ u.inSiteChanges n = true
       ∧ u.flagSet .sitesChanged = true ∧ (∀ f, f ≠ .sitesChanged → u.flagSet f = s.flagSet f)
       ∧ s.OthersStand u n ∧ u.background = s.background ∧ u.lines = s.lines ∧ u.leases = s.leases)
  ∧ (∀ (s : State) (n : SiteName) (moment : Nat),
       let now := max s.timebase moment
       (∀ d, s.Sound → s.draftOf n = some d → d.committing = false →
         s.config.draftLifetime * 60 ≤ (now - d.idleFrom) / 1000000 →
         ∃ u : State, exec (.draftExpiry n moment) s = .next u ∧ u.draftOf n = none
           ∧ u.drafts = s.drafts.filter (fun x => x.site != n)
           ∧ u.flagSet .draftDropped = true ∧ u.inSiteChanges n = true ∧ u.flagSet .sitesChanged = true
           ∧ (u.site n).own = (s.site n).own ∧ s.OthersStand u n
           ∧ u.background = { s.background with timebase := now } ∧ u.lines = s.lines ∧ u.leases = s.leases)
       ∧ ((∀ d, s.draftOf n = some d → d.committing = true
           ∨ (now - d.idleFrom) / 1000000 < s.config.draftLifetime * 60) →
         exec (.draftExpiry n moment) s = .next { s with timebase := now }))

/-- DRAFT READ shows the draft and sets its idle age to 0. Whether the age shown is the one before the request or 0 is
left open (log 21). A draft request that names a site without a draft is answered UNKNOWN, and DRAFT SET, DRAFT COMMIT
and DRAFT DISCARD of a COMMITTING draft are answered STATE with nothing changed but the start of its idle age.
Validation of a DRAFT COMMIT: the first of the ten checks that fails gives the field of a RANGE answer, and the draft
stays OPEN with that as its last commit result. Checks 6 to 9 of R36 give BUSY, with the last commit result unchanged: a
branch that is discovering; an APPLY, or for a site that needs one a CLEAN RELEASE, in flight; and for a site that needs
one a full FIFO with no place of a RESTORE or CLEAN to take. -/
def Obligations.DraftReadRefused : Prop :=
  (∀ (tag : Tag) (s : State) (n : SiteName) (d : Draft), s.Names n → s.bringupDone = true → s.draftOf n = some d →
     ∃ age, (age = 0 ∨ d.committing = false ∧ age = min ((s.timebase - d.idleFrom) / 1000000) 3600)
       ∧ exec (.draftRead tag (some (siteCode n))) s
         = .next ((s.putDraft { d with idleFrom := s.timebase }).reply 0x12#8 tag .ok (.draft ⟨d, age⟩)))
  ∧ (∀ (tag : Tag) (s : State) (n : SiteName) (field : Nat) (value : Int), s.Names n → s.bringupDone = true →
       (s.draftOf n = none →
         ∀ c ∈ [Instr.draftSet tag (some ⟨siteCode n, field, value⟩), .draftRead tag (some (siteCode n)),
             .draftCommit tag (some (siteCode n)), .draftDiscard tag (some (siteCode n))],
           ∃ k, requestCode? c = some k ∧ exec c s = .next (s.reply (BitVec.ofNat 8 k) tag .unknown .empty))
       ∧ ∀ d, s.draftOf n = some d → d.committing = true →
         ∀ c ∈ [Instr.draftSet tag (some ⟨siteCode n, field, value⟩), .draftCommit tag (some (siteCode n)),
             .draftDiscard tag (some (siteCode n))],
           ∃ k, requestCode? c = some k
             ∧ exec c s = .next ((s.putDraft { d with idleFrom := s.timebase }).reply (BitVec.ofNat 8 k) tag .state .empty))
  ∧ (∀ (tag : Tag) (s : State) (n : SiteName) (d : Draft) (i : NodeIdent), s.Names n → s.bringupDone = true →
       s.draftOf n = some d → d.committing = false → (s.site n).node = some i →
       let b := d.block
       let voltage := if d.hostPlate then d.ratedVoltage.getD i.plate.voltage else i.plate.voltage
       let checks : List (Bool × Nat) :=
         [(d.hostPlate && d.ratedCurrent.isNone, 12), (d.hostPlate && d.ratedVoltage.isNone, 13),
           (decide (b.currentLimit < b.targetCurrent), 1), (decide (b.targetCurrent < b.trimFloor), 5),
           (decide (b.trimCeiling < b.targetCurrent), 6), (decide (b.currentLimit < b.trimCeiling), 6),
           (decide (b.voltageLimit < b.targetVoltage), 2), (decide (voltage < b.voltageLimit), 4),
           (decide (b.protectLimit ≤ b.overprotectLimit), 9), (decide (b.windowCount < 1 ∨ 8 < b.windowCount), 10)]
       let answers (d' : Draft) (status : Status) (body : Body) : Prop :=
         exec (.draftCommit tag (some (siteCode n))) s
           = .next ((s.putDraft { d' with idleFrom := s.timebase }).reply 0x13#8 tag status body)
       let r := s.site n
       let queue : Option (Purpose × Stage) := r.pending.map fun p => (p.purpose, p.stage)
       let busy : Prop := s.discovering (branchOf n) = true
         ∨ r.state ≠ .unreachable ∧ (s.applyInFlight n = true ∨ queue = some (.clean, .inFlight)
           ∨ 16 ≤ (s.line (branchOf n)).hostFifo.length ∧ queue ≠ some (.restore, .queued)
             ∧ queue ≠ some (.clean, .queued))
         ∨ r.state = .unreachable ∧ s.applyInFlight n = true
       match checks.find? (·.1) with
       | some (_, field) => answers { d with lastResult := some (.range field) } .range (.namesField field)
       | none => busy → answers d .busy .empty)

/-- DRAFT COMMIT that passes its checks. On a DISCOVERED site the record enters COMMISSIONING with the draft's block and
override and its applied current at the target bounded by the limit. On a COMMISSIONED site the record stands, and a
trim that had a survey is SUSPENDED. On both, Pending COMMIT stands in the host-driven FIFO and the draft is COMMITTING.
On an UNREACHABLE site the record takes the draft at once, keeps its IR offset and its refresh age, is due for refresh
where its applied current changes (R51), and holds a RESTORE where nothing is Pending; a RETIRE still in flight stays in
that place (deduced: log 17). The draft is freed and DRAFT_DROPPED is not raised. Every other site and the background
stand. -/
def Obligations.DraftCommit : Prop :=
  (∀ (tag : Tag) (s : State) (n : SiteName) (d : Draft) (i : NodeIdent), s.Sound → s.Names n → s.bringupDone = true →
     s.draftOf n = some d → d.committing = false → (s.site n).state = .discovered → (s.site n).node = some i →
     validate d i.plate = none → s.commitBusy n = false →
     (s.placeToTake n [.restore, .clean] = true → HostItem.pending n ∈ (s.line (branchOf n)).hostFifo) →
     let plate : Nameplate := if d.hostPlate then
       ⟨d.ratedCurrent.getD i.plate.current, d.ratedVoltage.getD i.plate.voltage⟩ else i.plate
     let limit := min d.block.currentLimit plate.current
     ∃ u : State, exec (.draftCommit tag (some (siteCode n))) s = .next (u.reply 0x13#8 tag .accepted .empty)
       ∧ (u.site n).state = .commissioning
       ∧ (u.site n).node = some { i with plate := plate, hostPlate := d.hostPlate }
       ∧ (u.site n).comm.map (fun c => (c.block, c.applied, c.refreshFrom))
         = some (d.block, min d.block.targetCurrent limit, s.timebase)
       ∧ (u.site n).faults.isPresent .limitClamped = decide (limit < d.block.currentLimit)
       ∧ (u.site n).pending = some ⟨.commit, .queued, none⟩ ∧ HostItem.pending n ∈ (u.line (branchOf n)).hostFifo
       ∧ (u.site n).dirty = true ∧ (u.site n).lineDelay = (s.site n).lineDelay
       ∧ u.draftOf n = some { d with committing := true, lastResult := none, idleFrom := s.timebase }
       ∧ u.inSiteChanges n = true ∧ u.flagSet .sitesChanged = true ∧ s.OthersStand u n
       ∧ u.background = s.background ∧ u.bringup = s.bringup)
  ∧ (∀ (tag : Tag) (s : State) (n : SiteName) (d : Draft) (i : NodeIdent), s.Sound → s.Names n → s.bringupDone = true →
       s.draftOf n = some d → d.committing = false → (s.site n).state = .commissioned → (s.site n).node = some i →
       validate d i.plate = none → s.commitBusy n = false →
       (s.placeToTake n [.restore, .clean] = true → HostItem.pending n ∈ (s.line (branchOf n)).hostFifo) →
       ∃ u : State, exec (.draftCommit tag (some (siteCode n))) s = .next (u.reply 0x13#8 tag .accepted .empty)
         ∧ (u.site n).own = { (s.site n).own with pending := some ⟨.commit, .queued, none⟩ }
         ∧ (u.site n).holder = (s.site n).holder ∧ (u.site n).stray = (s.site n).stray
         ∧ (∀ c, (u.site n).comm = some c → c.block.mode = .trimmed →
           c.trim = some (if (s.site n).irOffset.isSome then .suspended else .waitingSurvey))
         ∧ HostItem.pending n ∈ (u.line (branchOf n)).hostFifo
         ∧ u.draftOf n = some { d with committing := true, lastResult := none, idleFrom := s.timebase }
         ∧ u.upkeepOf n = s.upkeepOf n ∧ u.inSiteChanges n = true ∧ u.flagSet .sitesChanged = true
         ∧ s.OthersStand u n ∧ u.background = s.background ∧ u.bringup = s.bringup ∧ u.leases = s.leases)
  ∧ (∀ (tag : Tag) (s : State) (n : SiteName) (d : Draft) (i : NodeIdent) (c : Commissioned), s.Sound → s.Names n →
       s.bringupDone = true → s.draftOf n = some d → d.committing = false → (s.site n).state = .unreachable →
       (s.site n).node = some i → (s.site n).comm = some c → validate d i.plate = none → s.commitBusy n = false →
       let plate : Nameplate := if d.hostPlate then
         ⟨d.ratedCurrent.getD i.plate.current, d.ratedVoltage.getD i.plate.voltage⟩ else i.plate
       let applied := min d.block.targetCurrent (min d.block.currentLimit plate.current)
       ∃ u : State, exec (.draftCommit tag (some (siteCode n))) s = .next (u.reply 0x13#8 tag .ok .empty)
         ∧ (u.site n).state = .unreachable
         ∧ (u.site n).node = some { i with plate := plate, hostPlate := d.hostPlate }
         ∧ (u.site n).comm.map (fun x => (x.block, x.applied, x.refreshFrom)) = some (d.block, applied, c.refreshFrom)
         ∧ (u.site n).irOffset = (s.site n).irOffset ∧ (u.site n).dirty = true
         ∧ (u.site n).pending = (s.site n).pending.or (some ⟨.restore, .held, none⟩)
         ∧ (u.upkeepOf n).due = ((s.upkeepOf n).due || applied != c.applied)
         ∧ u.draftOf n = none ∧ u.flagSet .draftDropped = s.flagSet .draftDropped
         ∧ u.inSiteChanges n = true ∧ u.flagSet .sitesChanged = true ∧ s.OthersStand u n
         ∧ u.background = s.background ∧ u.lines = s.lines ∧ u.bringup = s.bringup)

/-! ### Lease requests -/

/-- A lease request that passes every check is granted: the lowest FREE entry, or else the head of the close order,
takes the request's lease in GRANTED, every span site takes the new handle as its holder, and nothing is placed on the
line. The refusals of LEASE REQUEST in the order of R74, each of which changes nothing else. -/
def Obligations.LeaseRequest : Prop :=
  (∀ (tag : Tag) (s : State) (a : LeaseRequestArgs) (first last : SiteName) (now : Nat) (e : EntryNo), s.Sound →
     s.bringupDone = true → s.clock.state = .locked → s.clock.count = some now → s.SpanNamed a first last →
     PatternInRanges a.pattern → WindowInRanges now a.start a.stop →
     (∀ n, InSpan first last n → (s.site n).state = .commissioned ∧ (s.site n).lineDelay ≠ none
       ∧ (s.site n).holder = none ∧ (s.site n).stray = none ∧ s.trainingOn (branchOf n) = false
       ∧ s.discovering (branchOf n) = false) →
     ((s.leaseOf e = none ∧ ∀ k, k < e → s.leaseOf k ≠ none)
       ∨ ((∀ k, s.leaseOf k ≠ none) ∧ s.closeOrder.head? = some e)) →
     ∃ (u : State) (h : Handle) (l : Lease),
       exec (.leaseRequest tag (some a)) s = .next (u.reply 0x20#8 tag .ok (.handle h))
       ∧ h = ⟨e, if s.leaseOf e = none then (s.entry e).generation else ((s.entry e).generation + 1) % 256⟩
       ∧ u.entry e = ⟨h.generation, some l⟩
       ∧ l = { state := .granted, requester := a.requester, first := first, last := last, pattern := a.pattern
               start := a.start, stop := a.stop, strictness := a.strictness, sites := l.sites, change := none
               lastResult := none, closeCause := none, stopCause := none, run := none }
       ∧ (∀ x ∈ l.sites, InSpan first last x.site ∧ x.status = .waiting ∧ x.failure = none ∧ x.skipped = 0
         ∧ x.lastOff = none ∧ x.call = none ∧ x.waiting = [] ∧ x.exchange = .noArm)
       ∧ l.sites.map (fun x => pipelineIndex x.site)
         = (List.range (pipelineIndex last + 1 - pipelineIndex first)).map (· + pipelineIndex first)
       ∧ (∀ n, InSpan first last n → (u.site n).holder = some h ∧ (u.site n).own = (s.site n).own
         ∧ u.upkeepOf n = { s.upkeepOf n with underCount := 0, overCount := 0 } ∧ u.inSiteChanges n = true)
       ∧ (∀ n, ¬ InSpan first last n → u.site n = s.site n ∧ u.upkeepOf n = s.upkeepOf n)
       ∧ (∀ k, k ≠ e → u.entry k = s.entry k) ∧ u.closeOrder = s.closeOrder.filter (· != e)
       ∧ u.inLeaseChanges e = true ∧ u.flagSet .leasesChanged = true ∧ u.lines = s.lines
       ∧ u.unleased = { s.unleased with upkeep := u.upkeep })
  ∧ (∀ (tag : Tag) (s : State) (a : LeaseRequestArgs), s.bringupDone = true →
       let answers (status : Status) (body : Body) : Prop :=
         exec (.leaseRequest tag (some a)) s = .next (s.reply 0x20#8 tag status body)
       (s.clock.state ≠ .locked → answers .noTime .empty)
       ∧ (s.clock.state = .locked →
         ((∀ first last, ¬ s.SpanNamed a first last) ∨ ¬ PatternInRanges a.pattern
           ∨ ¬ WindowInRanges (s.clock.count.getD 0) a.start a.stop) → answers .range .empty)
       ∧ (s.clock.state = .locked → ∀ first last, s.SpanNamed a first last → PatternInRanges a.pattern →
         WindowInRanges (s.clock.count.getD 0) a.start a.stop →
         let ready (n : SiteName) : Prop := (s.site n).state = .commissioned ∧ (s.site n).lineDelay ≠ none
         let free (n : SiteName) : Prop := (s.site n).holder = none ∧ (s.site n).stray = none
         let calm (n : SiteName) : Prop := s.trainingOn (branchOf n) = false ∧ s.discovering (branchOf n) = false
         (∀ n, InSpan first last n → ¬ ready n →
           (∀ m, InSpan first last m → pipelineIndex m < pipelineIndex n → ready m) → answers .state (.namesSite n))
         ∧ ((∀ n, InSpan first last n → ready n) →
           (∀ n, InSpan first last n → ¬ free n →
             (∀ m, InSpan first last m → pipelineIndex m < pipelineIndex n → free m) →
             answers .conflict (.namesHolder n (s.site n).holder))
           ∧ ((∀ n, InSpan first last n → free n) →
             ((∃ n, InSpan first last n ∧ ¬ calm n) → answers .busy .empty)
             ∧ ((∀ n, InSpan first last n → calm n) → (∀ e, s.leaseOf e ≠ none) → s.closeOrder = [] →
               answers .full .empty)))))

/-- A handle is checked first, in every phase (before bring-up is done that is deduced: log 26): an entry number outside
1 to 16 is answered RANGE, and a FREE entry or another generation UNKNOWN, with nothing changed. LEASE READ, served in
every phase, shows the entry and up to 32 outcomes from an index, 0 and no index being 1; an index beyond the span is
answered RANGE. Nothing else changes. -/
def Obligations.LeaseReadChecked : Prop :=
  (∀ (tag : Tag) (s : State) (h : HandleArgs) (index : Option Nat) (newEnd : Nat) (p : Pattern),
     let served := [Instr.leaseExtend tag (some ⟨h, newEnd⟩), .leaseRepattern tag (some ⟨h, p⟩),
       .leaseRelease tag (some h), .leaseDismiss tag (some h)]
     let answers (c : Instr) (status : Status) : Prop :=
       ∃ k, requestCode? c = some k ∧ exec c s = .next (s.reply (BitVec.ofNat 8 k) tag status .empty)
     ((h.entry = 0 ∨ 16 < h.entry) → ∀ c ∈ Instr.leaseRead tag (some ⟨h, index⟩) :: served, answers c .range)
     ∧ ∀ e : EntryNo, h.entry = e.val + 1 → (s.leaseOf e = none ∨ (s.entry e).generation ≠ h.generation) →
       ∀ c ∈ Instr.leaseRead tag (some ⟨h, index⟩) :: served, answers c .unknown)
  ∧ (∀ (tag : Tag) (s : State) (e : EntryNo) (l : Lease) (index : Option Nat), s.leaseOf e = some l →
       let from_ := max (index.getD 1) 1
       let run := exec (.leaseRead tag (some ⟨⟨e.val + 1, (s.entry e).generation⟩, index⟩)) s
       (from_ ≤ l.sites.length → run = .next (s.reply 0x21#8 tag .ok
         (.lease ⟨⟨e, (s.entry e).generation⟩, l, from_, (l.sites.drop (from_ - 1)).take 32⟩)))
       ∧ (l.sites.length < from_ → run = .next (s.reply 0x21#8 tag .range .empty)))

/-- LEASE DISMISS makes a CLOSED entry FREE with the next generation, out of the close order, to be taken before any
CLOSED entry by the next grant; its old handle is then answered UNKNOWN. A live lease is answered STATE, and STARTING
comes first while bring-up is not done. -/
def Obligations.LeaseDismiss : Prop :=
  ∀ (tag : Tag) (s : State) (e : EntryNo) (l : Lease), s.leaseOf e = some l →
    let g := (s.entry e).generation
    let run := exec (.leaseDismiss tag (some ⟨e.val + 1, g⟩)) s
    (s.bringupDone = false → run = .next (s.reply 0x25#8 tag .starting .empty))
    ∧ (s.bringupDone = true → l.state ≠ .closed → run = .next (s.reply 0x25#8 tag .state .empty))
    ∧ (s.bringupDone = true → l.state = .closed → g < 256 → ∃ u : State,
      run = .next (u.reply 0x25#8 tag .ok .empty)
      ∧ u.entry e = ⟨if g = 255 then 0 else g + 1, none⟩ ∧ (∀ k, k ≠ e → u.entry k = s.entry k)
      ∧ u.closeOrder = s.closeOrder.filter (· != e) ∧ u.inLeaseChanges e = true ∧ u.flagSet .leasesChanged = true
      ∧ { u with leases := s.leases, closeOrder := s.closeOrder, host := s.host } = s
      ∧ (∀ f, f ≠ .leasesChanged → u.flagSet f = s.flagSet f)
      ∧ (∃ k, u.entryToTake = some k ∧ u.leaseOf k = none)
      ∧ exec (.leaseRead tag (some ⟨⟨e.val + 1, g⟩, none⟩)) u = .next (u.reply 0x21#8 tag .unknown .empty))

/-- The refusals of LEASE EXTEND in the order of R110, each of which changes nothing else. The refusals of LEASE
REPATTERN in the order of R115, each of which changes nothing else. LEASE EXTEND: a GRANTED lease takes its new end at
once with result TAKEN; an ARMED or RUNNING one, or one ARMING, has the change set as pending with its old End, and an
EXTEND placed for every expected site. LEASE REPATTERN of an ARMED or RUNNING lease: the change is set as pending with
T, the first boundary of the present pattern at least 10 s after now, and a REPATTERN is placed for every expected site.
The calls stand at the tail of each branch's lease-call FIFO, nearest site first, no other call or poll moves, and no
record is written. That "now" is the second in force is read from the rule (log 2). -/
def Obligations.LeaseChange : Prop :=
  (∀ (tag : Tag) (s : State) (e : EntryNo) (l : Lease) (newEnd : Nat), s.leaseOf e = some l → s.bringupDone = true →
     let answers (status : Status) : Prop :=
       exec (.leaseExtend tag (some ⟨⟨e.val + 1, (s.entry e).generation⟩, newEnd⟩)) s
         = .next (s.reply 0x22#8 tag status .empty)
     let ending : Prop := l.state = .stopping ∨ l.state = .closed
     let range : Prop := l.stop < newEnd ∧ newEnd ≤ l.start + 43200
     (ending → answers .tooLate)
     ∧ (¬ ending → l.change ≠ none → answers .busy)
     ∧ (¬ ending → l.change = none → ¬ range → answers .range)
     ∧ (¬ ending → l.change = none → range → l.stop < s.clock.count.getD 0 + 10 → answers .tooLate))
  ∧ (∀ (tag : Tag) (s : State) (e : EntryNo) (l : Lease) (p : Pattern), s.leaseOf e = some l → s.bringupDone = true →
       let answers (status : Status) : Prop :=
         exec (.leaseRepattern tag (some ⟨⟨e.val + 1, (s.entry e).generation⟩, p⟩)) s
           = .next (s.reply 0x23#8 tag status .empty)
       let early : Prop := l.state = .granted ∨ l.state = .arming
       let ending : Prop := l.state = .stopping ∨ l.state = .closed
       let origin := (l.run.map (·.origin)).getD (l.start * 10)
       let period := l.pattern.onTime + l.pattern.offTime
       (early → answers .state)
       ∧ (ending → answers .tooLate)
       ∧ (¬ early → ¬ ending → l.change ≠ none → answers .busy)
       ∧ (¬ early → ¬ ending → l.change = none → ¬ PatternInRanges p → answers .range)
       ∧ (¬ early → ¬ ending → l.change = none → PatternInRanges p → 0 < period →
         (∀ k, origin + k * period < l.stop * 10 → origin + k * period < s.clock.count.getD 0 * 10 + 100) →
         answers .tooLate))
  ∧ (∀ (tag : Tag) (s : State) (e : EntryNo) (l : Lease) (newEnd : Nat), s.leaseOf e = some l → s.bringupDone = true →
     l.change = none → l.stop < newEnd → newEnd ≤ l.start + 43200 → s.clock.count.getD 0 + 10 ≤ l.stop →
     let run := exec (.leaseExtend tag (some ⟨⟨e.val + 1, (s.entry e).generation⟩, newEnd⟩)) s
     let expected (x : LeaseSite) : Prop :=
       (x.status = .armed ∨ x.status = .cycling) ∧ (s.site x.site).state = .commissioned
     (l.state = .granted →
       run = .next (((s.setLease e { l with stop := newEnd, lastResult := some .taken }).leaseChanged
       e).reply 0x22#8 tag .ok .empty))
     ∧ ((l.state = .arming ∨ l.state = .armed ∨ l.state = .running) →
       (l.state = .arming ∨ ∃ n x, l.siteOf n = some x ∧ expected x) →
       ∃ (u : State) (k : Lease), run = .next (u.reply 0x22#8 tag .accepted .empty)
         ∧ u.entry e = ⟨(s.entry e).generation, some k⟩
         ∧ k = { l with change := some (.extend newEnd false), sites := k.sites }
         ∧ (∀ n x, l.siteOf n = some x → (¬ expected x → x.change = none → k.siteOf n = some x)
           ∧ (expected x → x.call = none →
             k.siteOf n = some { x with change := some none, call := some ⟨.extend newEnd, false, true⟩ })
           ∧ (expected x → x.call ≠ none →
             k.siteOf n = some { x with change := some none, waiting := x.waiting ++ [.extend newEnd] }))
         ∧ s.CallsMoved u ⟨e, (s.entry e).generation⟩ (fun _ => false) (fun n => ∃ x, l.siteOf n = some x
           ∧ x.call = none
           ∧ (s.site n).state = .commissioned ∧ (x.status = .armed ∨ x.status = .cycling ∨ x.change = some none))
         ∧ (∀ b, (u.line b).leasePolls = (s.line b).leasePolls)
         ∧ (∀ m, m ≠ e → u.entry m = s.entry m) ∧ (∀ n, u.site n = s.site n) ∧ u.closeOrder = s.closeOrder
         ∧ u.inLeaseChanges e = true ∧ u.flagSet .leasesChanged = true ∧ u.unleased = s.unleased))
  ∧ (∀ (tag : Tag) (s : State) (e : EntryNo) (l : Lease) (p : Pattern) (j : Nat), s.leaseOf e = some l →
       s.bringupDone = true → (l.state = .armed ∨ l.state = .running) → l.change = none → PatternInRanges p →
       let origin := (l.run.map (·.origin)).getD (l.start * 10)
       let period := l.pattern.onTime + l.pattern.offTime
       let from_ := s.clock.count.getD 0 * 10 + 100
       let boundary := origin + j * period
       let expected (x : LeaseSite) : Prop :=
         (x.status = .armed ∨ x.status = .cycling) ∧ (s.site x.site).state = .commissioned
       0 < period → from_ ≤ boundary → (∀ k, k < j → origin + k * period < from_) → boundary < l.stop * 10 →
       (∃ n x, l.siteOf n = some x ∧ expected x) →
       ∃ (u : State) (k : Lease),
         exec (.leaseRepattern tag (some ⟨⟨e.val + 1, (s.entry e).generation⟩, p⟩)) s
           = .next (u.reply 0x23#8 tag .accepted .empty)
         ∧ u.entry e = ⟨(s.entry e).generation, some k⟩
         ∧ k = { l with change := some (.repattern p boundary), sites := k.sites }
         ∧ (∀ n x, l.siteOf n = some x → (¬ expected x → x.change = none → k.siteOf n = some x)
           ∧ (expected x → x.call = none →
             k.siteOf n = some { x with change := some none, call := some ⟨.repattern p boundary, false, true⟩ })
           ∧ (expected x → x.call ≠ none →
             k.siteOf n = some { x with change := some none, waiting := x.waiting ++ [.repattern p boundary] }))
         ∧ s.CallsMoved u ⟨e, (s.entry e).generation⟩ (fun _ => false) (fun n => ∃ x, l.siteOf n = some x
           ∧ x.call = none
           ∧ (s.site n).state = .commissioned ∧ (x.status = .armed ∨ x.status = .cycling ∨ x.change = some none))
         ∧ (∀ b, (u.line b).leasePolls = (s.line b).leasePolls)
         ∧ (∀ m, m ≠ e → u.entry m = s.entry m) ∧ (∀ n, u.site n = s.site n) ∧ u.closeOrder = s.closeOrder
         ∧ u.inLeaseChanges e = true ∧ u.flagSet .leasesChanged = true ∧ u.unleased = s.unleased)

/-- LEASE RELEASE of a GRANTED lease closes it at once: the entry is CLOSED with cause RELEASED at the tail of the close
order, every site it holds loses its holder and takes a stray time by its last exchange, its calls and polls leave the
line, and nothing else is written. An ARMING or ARMED lease is STOPPING with its queued ARMs withdrawn, a DISARM placed
for each ARMED site that is COMMISSIONED and STOP_FAILED for one that is not; a RUNNING one with a STOP for each such
CYCLING site. Polls are removed, a pending change is cut short, and the calls stand at the tail of the FIFOs, nearest
site first, with every other call in its place. With nothing to place, no ARM in flight and no call of a dropped site
left, the lease closes at once and is answered OK. STOPPING is answered STATE and CLOSED TOO_LATE, with nothing changed.
-/
def Obligations.LeaseRelease : Prop :=
  (∀ (tag : Tag) (s : State) (e : EntryNo) (l : Lease), s.Sound → s.leaseOf e = some l → s.bringupDone = true →
     l.state = .granted →
     let h : Handle := ⟨e, (s.entry e).generation⟩
     ∃ u : State, exec (.leaseRelease tag (some ⟨e.val + 1, h.generation⟩)) s = .next (u.reply 0x24#8 tag .ok .empty)
       ∧ u.entry e = ⟨h.generation, some { l with
           state := .closed, closeCause := some .released, stopCause := none, run := none, change := none
           lastResult := if l.change.isSome then some .reverted else l.lastResult
           sites := l.sites.map fun x => { x with call := none, waiting := [], change := none } }⟩
       ∧ (∀ k, k ≠ e → u.entry k = s.entry k) ∧ u.closeOrder = s.closeOrder.filter (· != e) ++ [e]
       ∧ (∀ n x, l.siteOf n = some x → (s.site n).holder = some h →
         (u.site n).holder = none ∧ (u.site n).own = (s.site n).own ∧ u.inSiteChanges n = true
         ∧ (u.site n).stray = if x.status ≠ .stopFailed
               ∧ (x.exchange = .noArm ∨ x.exchange = .armRefused ∨ x.exchange = .cycleGone) then none
           else some (max (x.endBound.getD l.stop) l.stop))
       ∧ (∀ n, (l.siteOf n = none ∨ (s.site n).holder ≠ some h) → u.site n = s.site n)
       ∧ (∀ b, (u.line b).leaseFifo = (s.line b).leaseFifo.filter (·.handle != h)
         ∧ (u.line b).leasePolls = (s.line b).leasePolls.filter (·.handle != h))
       ∧ u.inLeaseChanges e = true ∧ u.flagSet .leasesChanged = true ∧ u.unleased = s.unleased)
  ∧ (∀ (tag : Tag) (s : State) (e : EntryNo) (l : Lease), s.leaseOf e = some l → s.bringupDone = true →
       let h : Handle := ⟨e, (s.entry e).generation⟩
       let run := exec (.leaseRelease tag (some ⟨e.val + 1, h.generation⟩)) s
       let here (n : SiteName) : Prop := (s.site n).state = .commissioned
       let queued (arms : Bool) (n : SiteName) : Bool := (l.siteOf n).any fun x => x.call.any fun c =>
         !c.inFlight && (arms && c.call == .arm || l.change.isSome && c.call.isChange)
       let stops (arms : Bool) (status : OutcomeStatus) (c : LeaseCall) : Prop :=
         ∃ (u : State) (k : Lease), run = .next (u.reply 0x24#8 tag .accepted .empty)
           ∧ u.entry e = ⟨h.generation, some k⟩
           ∧ k.state = .stopping ∧ k.stopCause = some .released ∧ k.change = none ∧ k.stop = l.stop
             ∧ k.pattern = l.pattern
           ∧ (l.change ≠ none → k.lastResult = some .reverted)
           ∧ (∀ n x, l.siteOf n = some x → ∃ y, k.siteOf n = some y ∧ y.skipped = x.skipped ∧ y.endBound = x.endBound
             ∧ (x.status = status → here n → (x.call = none ∨ queued arms n = true) → x.waiting = [] →
               y.status = status ∧ y.call = some ⟨c, false, true⟩)
             ∧ (arms = true → x.status = .armed → ¬ here n →
               y.status = .stopFailed ∧ y.failure = x.failure.or (some .lost))
             ∧ (x.status ≠ .armed → y.status = x.status ∧ y.failure = x.failure))
           ∧ s.CallsMoved u h (queued arms) (fun n => here n ∧ ∃ x, l.siteOf n = some x ∧ x.status = status
             ∧ (x.call = none ∨ queued arms n = true))
           ∧ (∀ b, (u.line b).leasePolls = (s.line b).leasePolls.filter (·.handle != h))
           ∧ (∀ m, m ≠ e → u.entry m = s.entry m) ∧ (∀ n, u.site n = s.site n) ∧ u.closeOrder = s.closeOrder
           ∧ u.inLeaseChanges e = true ∧ u.flagSet .leasesChanged = true ∧ u.unleased = s.unleased
       let closes : Prop :=
         ∃ (u : State) (k : Lease), run = .next (u.reply 0x24#8 tag .ok .empty) ∧ u.entry e = ⟨h.generation, some k⟩
           ∧ k.state = .closed ∧ k.closeCause = some .released ∧ k.change = none ∧ k.stop = l.stop
           ∧ (∀ n, (u.site n).holder ≠ some h ∨ l.siteOf n = none)
           ∧ (∀ m, m ≠ e → u.entry m = s.entry m) ∧ u.closeOrder = s.closeOrder.filter (· != e) ++ [e]
           ∧ (∀ b, (u.line b).leaseFifo = (s.line b).leaseFifo.filter (·.handle != h)
             ∧ (u.line b).leasePolls = (s.line b).leasePolls.filter (·.handle != h))
           ∧ u.inLeaseChanges e = true ∧ u.flagSet .leasesChanged = true ∧ u.unleased = s.unleased
       let stopped (status : OutcomeStatus) : Prop := ∃ n x, l.siteOf n = some x ∧ x.status = status ∧ here n
       let armOut : Prop := ∃ x ∈ l.sites, ∃ c, x.call = some c ∧ c.call = .arm ∧ c.inFlight = true
       let noDropped : Prop := ∀ x ∈ l.sites, x.status = .dropped → x.call = none ∧ x.waiting = []
       ((l.sites.map (·.site)).Nodup → (l.state = .arming ∨ l.state = .armed) →
         ((stopped .armed ∨ armOut) → stops true .armed .disarm)
         ∧ (¬ stopped .armed → ¬ armOut → noDropped → s.Sound → closes))
       ∧ (l.state = .running → (stopped .cycling → stops false .cycling .stop)
         ∧ (¬ stopped .cycling → noDropped → s.Sound → closes))
       ∧ (l.state = .stopping → run = .next (s.reply 0x24#8 tag .state .empty))
       ∧ (l.state = .closed → run = .next (s.reply 0x24#8 tag .tooLate .empty)))

/-! ### Timed events of a lease -/

/-- Arming begins at start less 30 s, with time LOCKED or in HOLDOVER: the GRANTED lease enters ARMING and an ARM is
placed for every WAITING site whose record is COMMISSIONED, at the tail of each branch's lease-call FIFO, nearest site
first, with every other call and poll in its place. Before that, and in any other state, nothing happens. The start of
an ARMED lease: it enters RUNNING, every ARMED site becomes CYCLING, and no call is sent. Before that, and in any other
state, nothing happens. -/
def Obligations.LeaseArmStart : Prop :=
  (∀ (s : State) (e : EntryNo) (l : Lease), s.leaseOf e = some l →
     let due : Prop := l.state = .granted ∧ (s.clock.state = .locked ∨ s.clock.state = .holdover)
       ∧ l.start - 30 ≤ s.clock.count.getD 0
     let h : Handle := ⟨e, (s.entry e).generation⟩
     (¬ due → exec (.leaseArming e) s = .next s)
     ∧ (due → ∃ (u : State) (k : Lease), exec (.leaseArming e) s = .next u ∧ u.entry e = ⟨h.generation, some k⟩
       ∧ k = { l with state := .arming, sites := k.sites }
       ∧ (∀ n x, l.siteOf n = some x →
         (x.status = .waiting ∧ (s.site n).state = .commissioned → x.call = none →
           k.siteOf n = some { x with call := some ⟨.arm, false, true⟩ })
         ∧ (¬ (x.status = .waiting ∧ (s.site n).state = .commissioned) → k.siteOf n = some x))
       ∧ s.CallsMoved u h (fun _ => false) (fun n => (s.site n).state = .commissioned
         ∧ ∃ x, l.siteOf n = some x ∧ x.status = .waiting ∧ x.call = none)
       ∧ (∀ b, (u.line b).leasePolls = (s.line b).leasePolls)
       ∧ (∀ m, m ≠ e → u.entry m = s.entry m) ∧ (∀ n, u.site n = s.site n) ∧ u.closeOrder = s.closeOrder
       ∧ u.inLeaseChanges e = true ∧ u.flagSet .leasesChanged = true ∧ u.unleased = s.unleased))
  ∧ (∀ (s : State) (e : EntryNo) (l : Lease), s.leaseOf e = some l →
       let due : Prop := l.state = .armed ∧ (s.clock.state = .locked ∨ s.clock.state = .holdover)
         ∧ l.start ≤ s.clock.count.getD 0
       (¬ due → exec (.leaseStart e) s = .next s)
       ∧ (due → exec (.leaseStart e) s = .next ((s.setLease e { l with
           state := .running
           sites := l.sites.map fun x => if x.status = .armed then { x with status := .cycling } else x }).leaseChanged e)))

/-- The arm deadline at start less 5 s of a lease still ARMING with no change pending. With every site ARMED and no call
left the lease enters ARMED. A STRICT lease with a failed site and an ARMED one is STOPPING with cause ARM_FAILED; a
LENIENT one drops each failed site, and enters ARMED with the rest. With no ARMED site to disarm a STRICT lease closes
at once with ARM_FAILED, and so does a LENIENT one with no ARMED site left. Queued ARMs leave the FIFOs and DISARMs
stand at their tails, nearest site first, with every other call and the other leases' polls in their places. Otherwise
nothing happens. -/
def Obligations.ArmDeadline : Prop :=
  ∀ (s : State) (e : EntryNo) (l : Lease), s.Sound → s.leaseOf e = some l →
    let due : Prop := l.state = .arming ∧ (s.clock.state = .locked ∨ s.clock.state = .holdover)
      ∧ l.start - 5 ≤ s.clock.count.getD 0
    let h : Handle := ⟨e, (s.entry e).generation⟩
    let failed (x : LeaseSite) : Prop := x.status ≠ .dropped ∧ (x.failure ≠ none ∨ x.status = .waiting)
    let queued (n : SiteName) : Bool := (l.siteOf n).any fun x => x.call.any fun c => c.call == .arm && !c.inFlight
    let fails (n : SiteName) : Bool := (l.siteOf n).any fun x => decide (failed x)
    (¬ due → exec (.armDeadline e) s = .next s)
    ∧ (due → l.change = none → l.sites ≠ [] →
      (∀ x ∈ l.sites, x.status = .armed ∧ x.failure = none ∧ x.call = none) →
      exec (.armDeadline e) s = .next ((s.setLease e { l with state := .armed }).leaseChanged e))
    ∧ (due → l.change = none → l.strictness = .strict →
      (∃ n x, l.siteOf n = some x ∧ failed x) →
      (∃ n x, l.siteOf n = some x ∧ x.status = .armed ∧ (s.site n).state = .commissioned) →
      ∃ (u : State) (k : Lease), exec (.armDeadline e) s = .next u ∧ u.entry e = ⟨h.generation, some k⟩
        ∧ k.state = .stopping ∧ k.stopCause = some .armFailed
        ∧ (∀ n x, l.siteOf n = some x → ∃ y, k.siteOf n = some y ∧ y.status = x.status
          ∧ y.failure = (if x.status = .waiting then x.failure.or (some .notInTime) else x.failure)
          ∧ (x.status = .armed → (s.site n).state = .commissioned → x.call = none →
            y.call = some ⟨.disarm, false, true⟩))
        ∧ s.CallsMoved u h queued (fun n => (s.site n).state = .commissioned
          ∧ ∃ x, l.siteOf n = some x ∧ x.status = .armed ∧ (x.call = none ∨ queued n = true))
        ∧ (∀ b, (u.line b).leasePolls = (s.line b).leasePolls.filter (·.handle != h))
        ∧ (∀ m, m ≠ e → u.entry m = s.entry m) ∧ (∀ n, u.site n = s.site n)
        ∧ u.inLeaseChanges e = true ∧ u.flagSet .leasesChanged = true ∧ u.unleased = s.unleased)
    ∧ (due → l.change = none → l.strictness = .lenient → (l.sites.map (·.site)).Nodup →
      (∃ x ∈ l.sites, x.status = .armed ∧ ∀ y ∈ l.sites, y.site = x.site → ¬ failed y) →
      ∃ (u : State) (k : Lease), exec (.armDeadline e) s = .next u ∧ u.entry e = ⟨h.generation, some k⟩
        ∧ k.state = .armed
        ∧ (∀ n x, l.siteOf n = some x → ∃ y, k.siteOf n = some y
          ∧ (failed x → y.status = .dropped ∧ y.failure = x.failure.or (some .notInTime)
            ∧ y.call = none ∧ (u.site n).holder ≠ some h)
          ∧ ((∀ z ∈ l.sites, z.site = n → ¬ failed z) →
            y.status = x.status ∧ y.failure = x.failure ∧ u.site n = s.site n))
        ∧ s.CallsMoved u h (fun n => queued n
          || fails n && (l.siteOf n).any fun x => x.call.any fun c => !c.inFlight) (fun _ => False)
        ∧ (∀ b, (u.line b).leasePolls = (s.line b).leasePolls.filter fun q => !(q.handle == h && fails q.site))
        ∧ (∀ m, m ≠ e → u.entry m = s.entry m) ∧ (∀ n, l.siteOf n = none → u.site n = s.site n)
        ∧ u.inLeaseChanges e = true ∧ u.flagSet .leasesChanged = true ∧ u.unleased = s.unleased)
    ∧ (due → l.change = none → (l.sites.map (·.site)).Nodup → (∃ n x, l.siteOf n = some x ∧ failed x) →
      (∀ x ∈ l.sites, x.status = .dropped → x.call = none ∧ x.waiting = []) →
      (l.strictness = .strict → ∀ n x, l.siteOf n = some x → x.status = .armed → (s.site n).state ≠ .commissioned) →
      (l.strictness = .lenient → ∀ n x, l.siteOf n = some x → x.status = .armed → failed x) →
      ∃ (u : State) (k : Lease), exec (.armDeadline e) s = .next u ∧ s.ClosesAtOnce u e l k .armFailed
        ∧ ∀ n x, l.siteOf n = some x → ∃ y, k.siteOf n = some y
          ∧ y.failure = (if failed x then x.failure.or (some .notInTime) else x.failure)
          ∧ y.status = if l.strictness = .lenient ∧ failed x then .dropped else x.status)

/-- A cycle end of a RUNNING lease: the next boundary of its run record, an older pattern's before the present one's,
reached by section time and before the End, places a lease poll with the cycle's number for every CYCLING site whose
record is COMMISSIONED. A poll that still waited for the site is replaced in its place and counted as skipped; the
others join the tail of their branch's set, nearest site first (that order is the model's choice: log 25). Otherwise
only the moment is taken. -/
def Obligations.CycleEnd : Prop :=
  ∀ (s : State) (e : EntryNo) (moment : Nat),
    let now := max s.timebase moment
    let waits : Prop := exec (.cycleEnd e moment) s = .next { s with timebase := now }
    ((s.leaseOf e).bind (·.run) = none → waits)
    ∧ ∀ (l : Lease) (r : RunRecord), s.leaseOf e = some l → l.run = some r →
      let tenths := s.clock.count.getD 0 * 10 + (now - s.clock.instant.getD now) / 100000
      let at_ : Nat × Nat × RunRecord := match r.old with
        | [] => (r.origin + r.next * (l.pattern.onTime + l.pattern.offTime), r.next, { r with next := r.next + 1 })
        | o :: rest => (o.origin + o.next * o.period, o.next, { r with
            old := if o.origin + (o.next + 1) * o.period ≤ o.upTo then { o with next := o.next + 1 } :: rest else rest })
      let boundary := at_.1
      let due : Prop := l.state = .running ∧ boundary < l.stop * 10 ∧ boundary ≤ tenths
      let h : Handle := ⟨e, (s.entry e).generation⟩
      let polled (n : SiteName) : Prop :=
        (s.site n).state = .commissioned ∧ ∃ x, l.siteOf n = some x ∧ x.status = .cycling
      let waiting (n : SiteName) : Prop := ∃ q ∈ (s.line (branchOf n)).leasePolls, q.site = n
      let poll (n : SiteName) : LeasePoll := ⟨n, h, at_.2.1, boundary / 10⟩
      (¬ due → waits)
      ∧ (due → ∃ (u : State) (k : Lease), exec (.cycleEnd e moment) s = .next u ∧ u.entry e = ⟨h.generation, some k⟩
        ∧ k = { l with run := some at_.2.2, sites := k.sites }
        ∧ (∀ n x, l.siteOf n = some x →
          (polled n ∧ waiting n → k.siteOf n = some { x with skipped := min (x.skipped + 1) 255 })
          ∧ (¬ (polled n ∧ waiting n) → k.siteOf n = some x))
        ∧ (∀ b, ∃ (old : List LeasePoll) (ns : List SiteName), (u.line b).leasePolls = old ++ ns.map poll
          ∧ (u.line b).leaseFifo = (s.line b).leaseFifo
          ∧ old.length = (s.line b).leasePolls.length
          ∧ (∀ (j : Nat) (q : LeasePoll), (s.line b).leasePolls[j]? = some q →
            (branchOf q.site = b → polled q.site → old[j]? = some (poll q.site))
            ∧ (¬ (branchOf q.site = b ∧ polled q.site) → old[j]? = some q))
          ∧ ns.Pairwise (fun m n => positionOf m < positionOf n)
          ∧ ∀ n, n ∈ ns ↔ branchOf n = b ∧ polled n ∧ ¬ waiting n)
        ∧ (∀ m, m ≠ e → u.entry m = s.entry m) ∧ (∀ n, u.site n = s.site n) ∧ u.closeOrder = s.closeOrder
        ∧ u.host = s.host ∧ u.unleased = { s.unleased with timebase := now })

/-- The old End less 2 s with an extension pending: it is decided. Where every expected site ended DONE the change is
TAKEN and the End moves; in a STRICT lease where none did the result is REFUSED_BY_SITE and the End stands. Otherwise
nothing happens. T less 2 s with a repattern pending: it is decided. Where every expected site ended DONE the change is
TAKEN: the pattern is the new one, and the run record's origin is T with the boundaries up to T still to come by the old
pattern. Otherwise only the moment is taken. -/
def Obligations.ChangeDecided : Prop :=
  (∀ (s : State) (e : EntryNo) (l : Lease) (newEnd : Nat), s.leaseOf e = some l →
     l.change = some (.extend newEnd false) →
     let due : Prop := (s.clock.state = .locked ∨ s.clock.state = .holdover) ∧ l.stop - 2 ≤ s.clock.count.getD 0
     let decided (k : Lease) : Prop := exec (.extendDeadline e) s = .next ((s.setLease e { k with
       change := none, sites := l.sites.map fun x => { x with change := none } }).leaseChanged e)
     (¬ due → exec (.extendDeadline e) s = .next s)
     ∧ (due → (∀ x ∈ l.sites, x.change = none ∨ x.change = some (some .done)) →
       decided { l with stop := newEnd, lastResult := some .taken })
     ∧ (due → l.strictness = .strict → (∀ x ∈ l.sites, x.change ≠ some none ∧ x.change ≠ some (some .done)) →
       (∃ x ∈ l.sites, x.change ≠ none) → decided { l with lastResult := some .refusedBySite }))
  ∧ (∀ (s : State) (e : EntryNo) (moment : Nat) (l : Lease) (r : RunRecord) (p : Pattern) (boundary : Nat),
       s.leaseOf e = some l → l.change = some (.repattern p boundary) → l.run = some r →
       let now := max s.timebase moment
       let tenths := s.clock.count.getD 0 * 10 + (now - s.clock.instant.getD now) / 100000
       let period := l.pattern.onTime + l.pattern.offTime
       (tenths + 20 < boundary → exec (.repatternDeadline e moment) s = .next { s with timebase := now })
       ∧ (boundary ≤ tenths + 20 → (∀ x ∈ l.sites, x.change = none ∨ x.change = some (some .done)) →
         exec (.repatternDeadline e moment) s
           = .next ((State.setLease { s with timebase := now } e { l with
               pattern := p
               run := some { origin := boundary, next := 1
                             old := if r.origin + r.next * period ≤ boundary
                               then r.old ++ [⟨r.origin, period, r.next, boundary⟩] else r.old }
               change := none
               lastResult := some .taken
               sites := l.sites.map fun x => { x with change := none } }).leaseChanged e)))

/-- The end of the window: a RUNNING lease whose End section time has reached is STOPPING with cause ENDED, its polls
removed, and a CHECK placed for every CYCLING site whose record is COMMISSIONED. The CHECKs stand at the tail of each
branch's lease-call FIFO, nearest site first, with every other call in its place. With no CHECK to place and no call of
a dropped site left the lease closes at once. Otherwise nothing happens. -/
def Obligations.WindowEnd : Prop :=
  ∀ (s : State) (e : EntryNo) (l : Lease), s.leaseOf e = some l →
    let due : Prop := l.state = .running ∧ (s.clock.state = .locked ∨ s.clock.state = .holdover)
      ∧ l.stop ≤ s.clock.count.getD 0
    let h : Handle := ⟨e, (s.entry e).generation⟩
    let queued (n : SiteName) : Bool := l.change.isSome
      && (l.siteOf n).any fun x => x.call.any fun c => c.call.isChange && !c.inFlight
    (¬ due → exec (.windowEnd e) s = .next s)
    ∧ (due → (∃ n x, l.siteOf n = some x ∧ x.status = .cycling ∧ (s.site n).state = .commissioned) →
      ∃ (u : State) (k : Lease), exec (.windowEnd e) s = .next u ∧ u.entry e = ⟨h.generation, some k⟩
        ∧ k.state = .stopping ∧ k.stopCause = some .ended ∧ k.change = none ∧ k.stop = l.stop ∧ k.pattern = l.pattern
        ∧ (l.change ≠ none → k.lastResult = some .reverted)
        ∧ (∀ n x, l.siteOf n = some x → x.status = .cycling → (s.site n).state = .commissioned → x.call = none →
          x.waiting = [] → ∃ y, k.siteOf n = some y ∧ y.status = .cycling ∧ y.call = some ⟨.check, false, true⟩)
        ∧ s.CallsMoved u h queued (fun n => (s.site n).state = .commissioned
          ∧ ∃ x, l.siteOf n = some x ∧ x.status = .cycling ∧ (x.call = none ∨ queued n = true))
        ∧ (∀ b, (u.line b).leasePolls = (s.line b).leasePolls.filter (·.handle != h)) ∧ (∀ m, m ≠ e →
          u.entry m = s.entry m)
        ∧ (∀ n, u.site n = s.site n) ∧ u.closeOrder = s.closeOrder
        ∧ u.inLeaseChanges e = true ∧ u.flagSet .leasesChanged = true ∧ u.unleased = s.unleased)
    ∧ (due → s.Sound → (∀ n x, l.siteOf n = some x → x.status = .cycling → (s.site n).state ≠ .commissioned) →
      (∀ x ∈ l.sites, x.status = .dropped → x.call = none ∧ x.waiting = []) →
      ∃ (u : State) (k : Lease), exec (.windowEnd e) s = .next u ∧ s.ClosesAtOnce u e l k .ended
        ∧ (l.change ≠ none → k.lastResult = some .reverted)
        ∧ ∀ n x, l.siteOf n = some x → ∃ y, k.siteOf n = some y ∧ y.status = x.status ∧ y.failure = x.failure)

/-! ### Section time -/

/-- TIME SET is refused LEASE_ACTIVE while a lease is ARMING, ARMED or RUNNING, and otherwise, in every time state and
every phase, sets the request and ends a provisional count. A PPS edge and its reference: with none the edge becomes it,
and nothing else happens; one 999,500 to 1,000,500 microseconds after it is good and becomes it, with the good run up by
1 to at most 3; any other is rejected, and the good run is 0. A good edge in UNSET with no request and no provisional
count marks nothing. Good edges in UNSET after a TIME SET: the first becomes second V as the provisional count, and the
next makes time LOCKED at V + 1, with its SYNC at each strapped branch. -/
def Obligations.TimeSetEdges : Prop :=
  (∀ (tag : Tag) (s : State) (v : Nat),
     let active : Prop := ∃ e l, s.leaseOf e = some l ∧ (l.state = .arming ∨ l.state = .armed ∨ l.state = .running)
     (active → exec (.timeSet tag (some v)) s = .next (s.reply 0x32#8 tag .leaseActive .empty))
     ∧ (¬ active → exec (.timeSet tag (some v)) s = .next (State.reply
         { s with clock := { s.clock with setRequest := some v, provisional := none } } 0x32#8 tag .accepted .empty)))
  ∧ (∀ (s : State) (moment : Nat),
       let edge := max s.timebase moment
       (s.clock.reference = none → exec (.ppsEdge moment) s
         = .next { s with timebase := edge, clock := { s.clock with reference := some edge } })
       ∧ ∀ r, s.clock.reference = some r →
         let good : Prop := 999500 ≤ edge - r ∧ edge - r ≤ 1000500
         (good → ∃ t, exec (.ppsEdge moment) s = .next t ∧ t.clock.reference = some edge
           ∧ t.clock.goodRun = min (s.clock.goodRun + 1) 3
           ∧ (s.clock.state = .unset → s.clock.setRequest = none → s.clock.provisional = none →
             t = { s with
               timebase := edge, clock := { s.clock with reference := some edge, goodRun := min (s.clock.goodRun + 1) 3 } }))
         ∧ (¬ good → ∃ t, exec (.ppsEdge moment) s = .next t ∧ t.clock.reference = some r ∧ t.clock.goodRun = 0))
  ∧ (∀ (s : State) (moment r v : Nat), s.clock.state = .unset → s.clock.reference = some r →
       let edge := max s.timebase moment
       999500 ≤ edge - r → edge - r ≤ 1000500 →
       (s.clock.setRequest = some v → exec (.ppsEdge moment) s = .next { s with
         timebase := edge
         clock := { s.clock with
           reference := some edge, goodRun := min (s.clock.goodRun + 1) 3, provisional := some v, setRequest := none } })
       ∧ (s.clock.setRequest = none → s.clock.provisional = some v → v < 4294967295 →
         ∃ t, exec (.ppsEdge moment) s = .next t
           ∧ t.clock.state = .locked ∧ t.clock.count = some (v + 1) ∧ t.clock.instant = some edge
           ∧ t.clock.provisional = none ∧ t.clock.lastSet = some .lockedAt ∧ t.flagSet .timeChanged = true
           ∧ (∀ b, (t.line b).sync = if s.strap.selects b = true then some ⟨v + 1, edge⟩ else (s.line b).sync)
           ∧ { t with timebase := s.timebase, clock := s.clock, lines := s.lines, host := s.host } = s))

/-- A good edge in LOCKED: with no request it marks the next second, which wraps to 0 and there clears every stray time;
a request is taken as a step to V where no lease is ARMING, ARMED or RUNNING, and is dropped where one is. Each has its
SYNC at every strapped branch. A good edge in HOLDOVER or LOST counts toward the good run: with no request waiting, or
with one that is dropped, the third makes time LOCKED, and the edge takes the number of the timebase second nearest to
it, the earlier where it lies halfway; an earlier one marks nothing. A step in LOCKED, HOLDOVER or LOST: the count is V
and the edge its instant, in HOLDOVER a timebase second of the same point is no holdover second (log 25), and the third
good edge makes time LOCKED. A SYNC for V is produced but in LOST; each GRANTED lease whose arming time lies before V
closes with TIME_LOST, and every other lease stands; every stray time earlier than V is cleared, also by a step
backward, where it had been passed and not yet cleared (the model's choice: log 32), and every later one of a site that
no lease holds stands. -/
def Obligations.PpsGood : Prop :=
  (∀ (s : State) (moment r count : Nat), s.Sound → s.clock.state = .locked → s.clock.count = some count →
     count ≤ 4294967295 → s.clock.reference = some r →
     let edge := max s.timebase moment
     let following := if count = 4294967295 then 0 else count + 1
     999500 ≤ edge - r → edge - r ≤ 1000500 →
     ∃ t, exec (.ppsEdge moment) s = .next t ∧ t.clock.state = .locked ∧ t.clock.setRequest = none
       ∧ t.clock.instant = some edge ∧ (∀ n, (t.site n).own = (s.site n).own ∧ t.upkeepOf n = s.upkeepOf n)
       ∧ ∀ v, v = (match s.clock.setRequest with
           | some w => if s.leaseActive = true then following else w
           | none => following) →
         t.clock.count = some v
         ∧ (∀ b, (t.line b).sync = if s.strap.selects b = true then some ⟨v, edge⟩ else (s.line b).sync)
         ∧ t.clock.lastSet = (if s.clock.setRequest = none then s.clock.lastSet
           else if s.leaseActive = true then some .dropped else some .stepped)
         ∧ (s.clock.setRequest ≠ none → t.flagSet .timeChanged = true)
         ∧ (s.clock.setRequest = none → ∀ n, (t.site n).holder = (s.site n).holder
           ∧ (t.site n).stray = if v = 0 then none else (s.site n).stray)
         ∧ (s.clock.setRequest ≠ none → s.leaseActive = false →
           ∀ n w, (t.site n).stray = some w → v ≤ w))
  ∧ (∀ (s : State) (moment r count instant k : Nat), (s.clock.state = .holdover ∨ s.clock.state = .lost) →
       s.clock.count = some count → s.clock.instant = some instant → s.clock.reference = some r →
       (s.clock.setRequest = none ∨ s.leaseActive = true) → 2 ≤ s.clock.goodRun → count + k < 4294967295 →
       let edge := max s.timebase moment
       999500 ≤ edge - r → edge - r ≤ 1000500 → instant ≤ edge →
       2 * (edge - instant) ≤ (2 * k + 1) * s.clock.estimate →
       (0 < k → (2 * k - 1) * s.clock.estimate < 2 * (edge - instant)) →
       ∃ t, exec (.ppsEdge moment) s = .next t ∧ t.clock.state = .locked ∧ t.clock.count = some (count + k)
         ∧ t.clock.instant = some edge ∧ t.clock.holdover = none ∧ t.flagSet .timeChanged = true
         ∧ t.clock.setRequest = none
         ∧ t.clock.lastSet = (if s.clock.setRequest = none then s.clock.lastSet else some .dropped)
         ∧ (∀ b, (t.line b).sync = if s.strap.selects b = true then some ⟨count + k, edge⟩ else (s.line b).sync)
         ∧ { t with timebase := s.timebase, clock := s.clock, lines := s.lines, host := s.host } = s)
  ∧ (∀ (s : State) (moment r : Nat), (s.clock.state = .holdover ∨ s.clock.state = .lost) → s.clock.reference = some r →
       s.clock.goodRun < 2 →
       let edge := max s.timebase moment
       let counted : Clock := { s.clock with reference := some edge, goodRun := s.clock.goodRun + 1 }
       999500 ≤ edge - r → edge - r ≤ 1000500 →
       (s.clock.setRequest = none → exec (.ppsEdge moment) s = .next { s with timebase := edge, clock := counted })
       ∧ (s.clock.setRequest ≠ none → s.leaseActive = true → exec (.ppsEdge moment) s = .next (State.raise { s with
         timebase := edge, clock := { counted with setRequest := none, lastSet := some .dropped } } .timeChanged)))
  ∧ (∀ (s : State) (moment r v : Nat), s.Sound →
       (s.clock.state = .locked ∨ s.clock.state = .holdover ∨ s.clock.state = .lost) → s.clock.reference = some r →
       s.clock.setRequest = some v → s.leaseActive = false →
       let edge := max s.timebase moment
       let locks : Prop := s.clock.state = .locked ∨ 2 ≤ s.clock.goodRun
       999500 ≤ edge - r → edge - r ≤ 1000500 →
       ∃ t, exec (.ppsEdge moment) s = .next t ∧ t.clock.count = some v ∧ t.clock.instant = some edge
         ∧ t.clock.setRequest = none ∧ t.clock.lastSet = some .stepped ∧ t.clock.reference = some edge
         ∧ t.clock.goodRun = min (s.clock.goodRun + 1) 3 ∧ t.flagSet .timeChanged = true
         ∧ (locks → t.clock.state = .locked ∧ t.clock.holdover = none)
         ∧ (¬ locks → t.clock.state = s.clock.state ∧ t.clock.holdover
           = if s.clock.state = .holdover ∧ s.clock.instant = some edge then s.clock.holdover.map (· - 1)
             else s.clock.holdover)
         ∧ (∀ b, (t.line b).sync = if t.clock.state ≠ .lost ∧ s.strap.selects b = true then some ⟨v, edge⟩
           else (s.line b).sync)
         ∧ (∀ e l, s.leaseOf e = some l →
           (l.state = .granted → l.start < v + 30 → ∃ k, t.leaseOf e = some k ∧ k.state = .closed
             ∧ k.closeCause = some .timeLost ∧ t.inLeaseChanges e = true
             ∧ ∀ n x, l.siteOf n = some x → (t.site n).holder ≠ some (s.handleOf e))
           ∧ (¬ (l.state = .granted ∧ l.start < v + 30) → t.entry e = s.entry e))
         ∧ (∀ n w, (t.site n).stray = some w → v ≤ w)
         ∧ (∀ n w, (s.site n).stray = some w → v ≤ w → (t.site n).stray = some w)
         ∧ ∀ n, (t.site n).own = (s.site n).own ∧ t.upkeepOf n = s.upkeepOf n)

/-- A missing edge, by a rejected edge or by 1.5 s with none: a waiting request or a provisional count ends ABANDONED,
and LOCKED becomes HOLDOVER with the holdover seconds at 0; a second that is overdue at a rejected edge is left to the
next TIMEBASE_SECOND (the model's choice: log 42). The 1.5 s expiry drops the reference, and in LOCKED produces the
overdue second at once. Before 1.5 s, and with no reference, only the moment is taken. A timebase second in HOLDOVER
within the limit counts, begins the next second one interval estimate on and has its SYNC; in LOST it has none. Before
it is due, and in UNSET and LOCKED, only the moment is taken. The timebase second that brings the holdover seconds above
the limit is counted and has no SYNC, and time is LOST, at once or, where the second's timed events come first, by
HOLDOVER_EXPIRY (log 9). The holdover seconds stay in the clock while time is LOST (log 25). Time LOST withdraws the
waiting SYNCs and takes every live lease out of the states that need time. HOLDOVER within the limit, and any other
state, stand. -/
def Obligations.TimeKeeping : Prop :=
  (∀ (s : State) (moment r : Nat),
     let now := max s.timebase moment
     let abandons : Prop := s.clock.setRequest ≠ none ∨ s.clock.provisional ≠ none
     let c : Clock := { s.clock with
       goodRun := 0, setRequest := none, provisional := none
       lastSet := if s.clock.setRequest = none ∧ s.clock.provisional = none then s.clock.lastSet else some .abandoned }
     (s.clock.reference = some r → ¬ (999500 ≤ now - r ∧ now - r ≤ 1000500) →
       (s.clock.state = .locked → exec (.ppsEdge moment) s = .next (State.raise
         { s with timebase := now, clock := { c with state := .holdover, holdover := some 0 } } .timeChanged))
       ∧ (s.clock.state ≠ .locked → exec (.ppsEdge moment) s = .next
         (if s.clock.setRequest = none ∧ s.clock.provisional = none then { s with timebase := now, clock := c }
           else State.raise { s with timebase := now, clock := c } .timeChanged)))
     ∧ (s.clock.reference = some r → now < r + 1500000 →
       exec (.ppsExpiry moment) s = .next { s with timebase := now })
     ∧ (s.clock.reference = none → exec (.ppsExpiry moment) s = .next { s with timebase := now })
     ∧ (s.clock.reference = some r → r + 1500000 ≤ now → s.clock.state ≠ .locked →
       exec (.ppsExpiry moment) s = .next
         (if s.clock.setRequest = none ∧ s.clock.provisional = none
           then { s with timebase := now, clock := { c with reference := none } }
           else State.raise { s with timebase := now, clock := { c with reference := none } } .timeChanged))
     ∧ ∀ count instant, s.clock.reference = some r → r + 1500000 ≤ now → s.clock.state = .locked →
       s.clock.count = some count → count < 4294967295 → s.clock.instant = some instant → 1 ≤ s.config.holdoverLimit →
       ∃ t, exec (.ppsExpiry moment) s = .next t ∧ t.clock.state = .holdover ∧ t.clock.holdover = some 1
         ∧ t.clock.reference = none ∧ t.clock.goodRun = 0 ∧ t.clock.count = some (count + 1)
         ∧ t.clock.instant = some (instant + s.clock.estimate) ∧ (abandons → t.clock.lastSet = some .abandoned)
         ∧ t.flagSet .timeChanged = true
         ∧ (∀ b, (t.line b).sync = if s.strap.selects b = true then some ⟨count + 1, instant + s.clock.estimate⟩
             else (s.line b).sync)
         ∧ { t with timebase := s.timebase, clock := s.clock, lines := s.lines, host := s.host } = s)
  ∧ ((∀ (s : State) (moment count instant : Nat) (lossLater : Bool), s.clock.count = some count → count < 4294967295 →
        s.clock.instant = some instant →
        let now := max s.timebase moment
        let point := instant + s.clock.estimate
        ((now < point ∨ s.clock.state = .unset ∨ s.clock.state = .locked) →
          exec (.timebaseSecond moment lossLater) s = .next { s with timebase := now })
        ∧ (point ≤ now → s.clock.state = .lost → exec (.timebaseSecond moment lossLater) s = .next { s with
            timebase := now, clock := { s.clock with count := some (count + 1), instant := some point } })
        ∧ (point ≤ now → s.clock.state = .holdover → ∀ k, s.clock.holdover = some k → k < s.config.holdoverLimit →
          k ≤ 600 →
          ∃ t, exec (.timebaseSecond moment lossLater) s = .next t
            ∧ t.clock = { s.clock with count := some (count + 1), instant := some point, holdover := some (k + 1) }
            ∧ (∀ b, (t.line b).sync = if s.strap.selects b = true then some ⟨count + 1, point⟩ else (s.line b).sync)
            ∧ { t with timebase := s.timebase, clock := s.clock, lines := s.lines } = s))
     ∧ (∀ (s : State), s.Sound →
          let exceeds : Prop := s.clock.state = .holdover ∧ s.config.holdoverLimit < s.clock.holdover.getD 0
          (¬ exceeds → exec .holdoverExpiry s = .next s)
          ∧ (exceeds → ∃ t, exec .holdoverExpiry s = .next t ∧ t.clock = { s.clock with state := .lost }
            ∧ (∀ b, (t.line b).sync = none) ∧ t.flagSet .timeChanged = true
            ∧ (∀ e l, t.leaseOf e = some l → l.state = .stopping ∨ l.state = .closed)
            ∧ (∀ e l k, s.leaseOf e = some l → t.leaseOf e = some k →
              (l.state = .granted → k.state = .closed ∧ k.closeCause = some .timeLost)
              ∧ ((l.state = .arming ∨ l.state = .armed ∨ l.state = .running) →
                k.stopCause = some .timeLost ∨ k.closeCause = some .timeLost)
              ∧ ((l.state = .stopping ∨ l.state = .closed) → k = l))
            ∧ (∀ n, (t.site n).own = (s.site n).own ∧ t.upkeepOf n = s.upkeepOf n)
            ∧ t.relay = s.relay ∧ t.bringup = s.bringup)
          ∧ ∀ (moment count instant k : Nat) (lossLater : Bool), s.clock.state = .holdover → s.clock.holdover = some k →
            s.clock.count = some count → count < 4294967295 → s.clock.instant = some instant →
              k = s.config.holdoverLimit →
            k ≤ 600 → instant + s.clock.estimate ≤ max s.timebase moment →
            ∃ t, exec (.timebaseSecond moment lossLater) s = .next t
              ∧ t.clock = { s.clock with
                  state := if lossLater then .holdover else .lost, count := some (count + 1)
                  instant := some (instant + s.clock.estimate), holdover := some (k + 1) }
              ∧ (∀ b, (t.line b).sync = if lossLater then (s.line b).sync else none)
              ∧ (lossLater = false → ∀ e l, t.leaseOf e = some l → l.state = .stopping ∨ l.state = .closed)))

/-! ### The section line -/

/-- The arbiter of an IDLE branch with a SYNC waiting whose age is below 1,000,000 microseconds sends it ahead of all
other work, with its age; an older one is withdrawn, and the arbiter goes on without it. A branch that is not IDLE
grants nothing, and neither does one with no call, item or poll waiting and no candidate for a refresh or a poll. With
no SYNC waiting, no break recorded and a carrier, the arbiter of an IDLE branch takes the highest class that has work:
lease calls, an overdue refresh, host-driven items, lease polls, a routine refresh, a routine poll. The call goes out to
the site's position and its answer is awaited. What a site's Pending call carries when it is granted as the oldest
host-driven item: a commit the draft's block with its target bounded by the limit, which stays with the entry as the
sent applied current; an ADOPT or RESTORE the record's block and applied current; a RETIRE or CLEAN a RELEASE. An APPLY
clears refresh due, and a RESTORE sent with SETPOINT_MISMATCH present is spent. -/
def Obligations.ArbiterClasses : Prop :=
  (∀ (s : State) (b : Branch) (moment : Nat) (carrier : Bool),
     let now := max s.timebase moment
     ((s.line b).activity ≠ .idle → exec (.arbiterGrant b moment carrier) s = .next { s with timebase := now })
     ∧ (∀ y, (s.line b).activity = .idle → (s.line b).sync = some y → now < y.instant + 1000000 →
       exec (.arbiterGrant b moment carrier) s = .next { s with
         timebase := now
         lines := s.lines.put b { s.line b with
           activity := .sendingSync, sync := none, sent := Sync.frame y (now - y.instant) } })
     ∧ ((s.line b).activity = .idle → (s.line b).sync = none → (s.line b).leaseFifo = [] → (s.line b).hostFifo = [] →
       (s.line b).leasePolls = [] → State.overdueRefresh { s with timebase := now } b = none →
       State.routineRefresh { s with timebase := now } b = none → State.routinePoll { s with timebase := now } b = none →
       exec (.arbiterGrant b moment carrier) s = .next { s with timebase := now })
     ∧ (∀ y, (s.line b).activity = .idle → (s.line b).sync = some y → y.instant + 1000000 ≤ now →
       let s' : State := { s with timebase := now, lines := s.lines.put b { s.line b with sync := none } }
       exec (.arbiterGrant b moment carrier) s = exec (.arbiterGrant b moment carrier) s'))
  ∧ (∀ (s : State) (b : Branch) (moment : Nat),
       let s' : State := { s with timebase := max s.timebase moment }
       let l := s.line b
       l.activity = .idle → l.sync = none → l.brk = none →
       let grants (call : Call) (n : SiteName) (owner : Owner) (rest : Line) : Prop :=
         ∃ t, exec (.arbiterGrant b moment true) s = .next t
           ∧ t.line b = { rest with
               activity := .awaitingAnswer
               txn := some ⟨call, positionOf n, false, ((s.site n).lineDelay.map fun d => 2 * d + 22000).getD 86000,
                 s'.timebase, owner⟩
               sent := call.frame (positionOf n) }
           ∧ (∀ c, c ≠ b → t.line c = s.line c) ∧ t.bringup = s.bringup ∧ t.store = s.store ∧ t.drafts = s.drafts
           ∧ ∀ m, (t.site m).own = (s.site m).own
       let refresh (n : SiteName) (c : Commissioned) : Prop :=
         grants (.refresh c.applied (s.site n).lineDelay s.config.holdPeriod) n (.refresh n) l
         ∧ ∃ t, exec (.arbiterGrant b moment true) s = .next t ∧ (t.upkeepOf n).due = false
           ∧ t.refreshing.get b = some n
       (∀ h n rest k c x, l.leaseFifo = ⟨h, n⟩ :: rest → branchOf n = b → s.leaseOf h.entry = some k →
         k.siteOf n = some x → x.call = some c →
         grants (match c.call with
           | .arm => .arm k.pattern k.start k.stop
           | .disarm => .disarm
           | .stop => .stop
           | .check => .check
           | .extend newEnd => .extend newEnd
           | .repattern p boundary => .repattern p boundary) n (.leaseCall n h) { l with leaseFifo := rest })
       ∧ (l.leaseFifo = [] → ∀ n c, s'.overdueRefresh b = some n → (s.site n).comm = some c → refresh n c)
       ∧ (l.leaseFifo = [] → s'.overdueRefresh b = none →
         (∀ n slots r rest, l.hostFifo = .relay :: rest → s.relay = ⟨.queued, some (n, slots), r⟩ → branchOf n = b →
           grants (.relay slots) n .relay { l with hostFifo := rest })
         ∧ (l.hostFifo = [] →
           (∀ q rest, l.leasePolls = q :: rest → branchOf q.site = b →
             grants .poll q.site (.leasePoll q.site q.handle q.cycle q.second) { l with leasePolls := rest })
           ∧ (l.leasePolls = [] →
             (∀ n c, s'.routineRefresh b = some n → (s.site n).comm = some c → refresh n c)
             ∧ ∀ n, s'.routineRefresh b = none → s'.routinePoll b = some n → grants .poll n (.routinePoll n) l
               ∧ ∃ t, exec (.arbiterGrant b moment true) s = .next t ∧ t.attemptOf n = some s'.timebase
                 ∧ t.polling.get b = some n))))
  ∧ (∀ (s : State) (n : SiteName) (moment : Nat) (rest : List HostItem) (p : PendingCall) (i : NodeIdent), s.Sound →
       let b := branchOf n
       let now := max s.timebase moment
       let l := s.line b
       l.activity = .idle → l.sync = none → l.brk = none → l.leaseFifo = [] →
       State.overdueRefresh { s with timebase := now } b = none → l.hostFifo = .pending n :: rest →
       (s.site n).pending = some p → (s.site n).node = some i →
       let sends (call : Call) (sent : Option Nat) (upkeep : Upkeep) : Prop :=
         ∃ t, exec (.arbiterGrant b moment true) s = .next t
           ∧ t.line b = { l with
               hostFifo := rest
               activity := .awaitingAnswer
               txn := some ⟨call, positionOf n, false, ((s.site n).lineDelay.map fun d => 2 * d + 22000).getD 86000, now,
                 .pending n⟩
               sent := call.frame (positionOf n) }
           ∧ (∀ c, c ≠ b → t.line c = s.line c)
           ∧ (t.site n).own = { (s.site n).own with pending := some ⟨p.purpose, .inFlight, sent⟩ }
           ∧ t.upkeepOf n = upkeep ∧ s.OthersStand t n ∧ t.background = { s.background with timebase := now }
       let u := s.upkeepOf n
       (∀ d, p.purpose = .commit → s.draftOf n = some d →
         let rated := if d.hostPlate then d.ratedCurrent.getD i.plate.current else i.plate.current
         let carried := min d.block.targetCurrent (min d.block.currentLimit rated)
         sends (.apply d.block carried (s.site n).lineDelay s.config.holdPeriod) (some carried) { u with due := false })
       ∧ (∀ c, p.purpose = .adopt → (s.site n).comm = some c →
         sends (.apply c.block c.applied (s.site n).lineDelay s.config.holdPeriod) none { u with due := false })
       ∧ (∀ c, p.purpose = .restore → (s.site n).comm = some c →
         sends (.apply c.block c.applied (s.site n).lineDelay s.config.holdPeriod) none
           { u with due := false, restoreSpent := u.restoreSpent || (s.site n).faults.isPresent .setpointMismatch })
       ∧ ((p.purpose = .retire ∨ p.purpose = .clean) → sends .release none u))

/-- The refresh walker's candidates: of the sites eligible for refresh, the overdue one of the greatest refresh age, and
the routine one of the greatest, the lower position first between equal ages. The Poll Scanner's is the eligible site of
the greatest poll age, chosen the same way, as an IDLE branch offers it: it has no POLL in flight. -/
def Obligations.Candidates : Prop :=
  ∀ (s : State) (b : Branch),
    let age (n : SiteName) : Nat := ((s.site n).comm.map fun c => (s.timebase - c.refreshFrom) / 1000000).getD 0
    let pollAge (n : SiteName) : Nat := ((s.site n).node.map fun i => (s.timebase - i.pollFrom) / 1000000).getD 0
    let first (age : SiteName → Nat) (offered : SiteName → Prop) (c : Option SiteName) : Prop :=
      (c = none ↔ ∀ n, ¬ offered n)
      ∧ ∀ n, c = some n ↔ offered n
        ∧ ∀ m, offered m → age m < age n ∨ age m = age n ∧ positionOf n ≤ positionOf m
    let eligible (n : SiteName) : Prop :=
      branchOf n = b ∧ (s.site n).state = .commissioned ∧ (s.site n).node.bind (·.mode) ≠ some .fresh
        ∧ (∀ p, (s.site n).pending = some p → p.purpose ≠ .restore ∧ p.purpose ≠ .adopt) ∧ (s.bring b).phase = .ready
    let polled (n : SiteName) : Prop :=
      branchOf n = b ∧ (s.site n).node ≠ none ∧ (s.bring b).phase = .ready
        ∧ (∀ q ∈ (s.line b).leasePolls, q.site ≠ n)
        ∧ (∀ k, (s.line b).brk = some k → positionOf n ≤ k.position)
        ∧ if (s.site n).state = .unreachable then ∀ t, s.attemptOf n = some t → 60 ≤ (s.timebase - t) / 1000000
          else s.config.pollPeriod ≤ pollAge n
            ∧ ∀ t, s.attemptOf n = some t → s.config.pollPeriod ≤ (s.timebase - t) / 1000000
    first age (fun n => eligible n ∧ (s.config.refreshInterval * 60 ≤ age n ∨ (s.upkeepOf n).due = true))
      (s.overdueRefresh b)
    ∧ first age (fun n => eligible n ∧ s.config.refreshInterval * 30 ≤ age n) (s.routineRefresh b)
    ∧ first pollAge polled (s.routinePoll b)

/-- A frame that is no answer to the transaction in flight, or that arrives with none, is discarded, one with a status
of no meaning among them (the model's choice: log 46), and a timeout before its time or with none in flight does
nothing. A bad CRC or a timeout in the first attempt sends the same frame again, with a new timeout of the same length;
the attempt age of a polled site goes on from the first sending, and the carrier is not looked at again (the model's
choices: log 33, log 43). A second timeout of a routine poll is a transaction failure: the branch is IDLE, and the
site's line error count goes up by 1 to at most 15. At the threshold in force, 1 with counting disabled, a COMMISSIONED,
MISMATCH or RETIRING site becomes UNREACHABLE with LINK_LOST latched; below it nothing else changes. -/
def Obligations.LineFailure : Prop :=
  (∀ (s : State) (b : Branch) (moment : Nat) (frame : List Byte),
     let now := max s.timebase moment
     let waits : Host.Outcome State Fault Refusal := .next { s with timebase := now }
     ((s.line b).txn = none → exec (.answerFrame b moment frame) s = waits ∧ exec (.replyTimeout b moment) s = waits)
     ∧ ∀ x, (s.line b).txn = some x →
       let again : Host.Outcome State Fault Refusal := .next { s with
         timebase := now, lines := s.lines.put b { s.line b with txn := some { x with second := true, sentAt := now } } }
       (∀ source payload, readAnswerFrame frame = .done source payload → source ≠ x.dest →
         exec (.answerFrame b moment frame) s = waits)
       ∧ (∀ source reason, readAnswerFrame frame = .refused source reason → source ≠ x.dest →
         exec (.answerFrame b moment frame) s = waits)
       ∧ (∀ source, readAnswerFrame frame = .brk source → x.dest ≤ source →
         exec (.answerFrame b moment frame) s = waits)
       ∧ (readAnswerFrame frame = .other → exec (.answerFrame b moment frame) s = waits)
       ∧ (now < x.sentAt + x.timeout → exec (.replyTimeout b moment) s = waits)
       ∧ (x.second = false → readAnswerFrame frame = .bad → exec (.answerFrame b moment frame) s = again)
       ∧ (x.second = false → x.sentAt + x.timeout ≤ now → exec (.replyTimeout b moment) s = again))
  ∧ (∀ (s : State) (n : SiteName) (moment : Nat) (x : Transaction), s.Sound → s.BroughtUp →
       (s.line (branchOf n)).txn = some x → x.owner = .routinePoll n → x.dest = positionOf n → x.second = true →
       x.sentAt + x.timeout ≤ max s.timebase moment → (s.site n).state ≠ .vacant →
       let errors := min ((s.site n).lineErrors + 1) 15
       let reached : Prop := (if s.config.counting then s.config.threshold else 1) ≤ errors
       ∃ t, exec (.replyTimeout (branchOf n) moment) s = .next t
         ∧ (t.line (branchOf n)).activity = .idle ∧ (t.line (branchOf n)).txn = none
         ∧ t.polling.get (branchOf n) = none ∧ (t.site n).lineErrors = errors
         ∧ (¬ reached → (t.site n).own = { (s.site n).own with lineErrors := errors } ∧ t.upkeepOf n = s.upkeepOf n)
         ∧ (reached → ((s.site n).state = .commissioned ∨ (s.site n).state = .mismatch ∨ (s.site n).state = .retiring) →
           (t.site n).state = .unreachable ∧ (t.site n).faults.isPresent .linkLost = true ∧ (t.site n).found = none
           ∧ t.inSiteChanges n = true
           ∧ ((s.site n).faults.isPresent .linkLost = false → (t.site n).faults.isLatched .linkLost = true))
         ∧ (reached → ((s.site n).state = .discovered ∨ (s.site n).state = .unreachable) →
           (t.site n).state = (s.site n).state)
         ∧ s.OthersStand t n ∧ t.background = { s.background with timebase := max s.timebase moment })

/-- A DONE answer of the recorded node to a routine poll, in every state of the record: the branch is IDLE, and a break
recorded nearer is cleared with LINE_BREAK. An UNREACHABLE or MISMATCH record is back in COMMISSIONED, the Found node is
cleared, the mode, the poll age, the readings and the two cabinet conditions are taken, and the line error count is 0.
In COMMISSIONED a FRESH node loses its upkeep values, latches NODE_RESTARTED where it was not FRESH and is given a
RESTORE that is not spent; for another mode the echo is checked while no APPLY is Pending. A STANDALONE node makes its
site due, a driven node at a DISCOVERED site with nothing Pending is cleaned, and an answer that shows no cycle clears
the stray time. The block, the line delay, the IR offset, the refresh age and, where the window is not checked, the
applied current stand, as do the other sites but for the claims of leases, and the background. -/
def Obligations.PollAnswered : Prop :=
  ∀ (s : State) (n : SiteName) (moment : Nat) (c : Instr) (x : Transaction) (i : NodeIdent) (a : PollAnswer),
    s.Sound → s.BroughtUp → s.Ends (branchOf n) moment c x (.done (.poll a)) → x.owner = .routinePoll n →
    x.call = .poll → x.dest = positionOf n → (s.site n).node = some i → a.serial = i.serial →
    let b := branchOf n
    let now := max s.timebase moment
    let r := s.site n
    let u := s.upkeepOf n
    let state := match r.state with
      | .unreachable | .mismatch => .commissioned
      | st => st
    let carries : Prop := ∃ p, r.pending = some p ∧ (p.purpose = .commit ∨ p.purpose = .adopt ∨ p.purpose = .restore)
    let same : Prop := u.unconfirmed = some a.echo ∨ u.acknowledged.or (r.comm.map (·.applied)) = some a.echo
    let driven : Prop := a.mode = .attended ∨ a.mode = .standalone
    ∃ t, exec c s = .next t
      ∧ (t.line b).activity = .idle ∧ (t.line b).txn = none ∧ t.polling.get b = none
      ∧ (t.line b).brk = (s.line b).brk.filter (fun k => decide (x.dest ≤ k.position))
      ∧ ((t.line b).brk ≠ (s.line b).brk → t.flagSet .lineBreak = true)
      ∧ (t.site n).state = state ∧ (t.site n).node = some { i with mode := some a.mode, pollFrom := now }
      ∧ (t.site n).found = none ∧ (t.site n).lineDelay = r.lineDelay ∧ (t.site n).irOffset = r.irOffset
      ∧ (t.site n).comm.map (fun k => (k.block, k.refreshFrom)) = r.comm.map (fun k => (k.block, k.refreshFrom))
      ∧ ((r.holder ≠ none ∨ r.stray ≠ none ∨ a.cycle ≠ .none ∨ r.irOffset = none ∨ a.on = none ∨ a.mode = .fresh
          ∨ state ≠ .commissioned) → (t.site n).comm.map (·.applied) = r.comm.map (·.applied))
      ∧ (t.site n).readings = some
          { outputCurrent := a.outputCurrent, outputVoltage := a.outputVoltage, on := a.on
            instantOff := a.instantOff.map (·.1), pollTime := s.clock.count
            polls := match r.readings with
              | some k => min (k.polls + 1) 65535
              | none => 1
            leastOn := match r.readings.bind (·.leastOn), a.on with
              | some v, some w => some (max v w)
              | v, w => v.or w
            mostOn := match r.readings.bind (·.mostOn), a.on with
              | some v, some w => some (min v w)
              | v, w => v.or w }
      ∧ (t.site n).lineErrors = 0
      ∧ (t.site n).faults.isPresent .overcurrent = a.overcurrent ∧ (t.site n).faults.isPresent .acLost = a.mainsLost
      ∧ (a.overcurrent = true → r.faults.isPresent .overcurrent = false →
        (t.site n).faults.isLatched .overcurrent = true
        ∧ (r.faults.isLatched .overcurrent = false → t.flagSet .faultRaised = true ∧ t.inSiteChanges n = true))
      ∧ (r.state = .unreachable → (t.site n).faults.isPresent .linkLost = false)
      ∧ (state ≠ r.state → t.inSiteChanges n = true ∧ t.flagSet .sitesChanged = true)
      ∧ (a.cycle = .none → (t.site n).stray = none)
      ∧ (a.cycle ≠ .none → r.holder = none → (t.site n).stray = r.stray)
      ∧ (state = .commissioned → driven → ¬ carries → same → (t.site n).faults.isPresent .setpointMismatch = false
        ∧ (t.upkeepOf n).restoreSpent = false
        ∧ (u.unconfirmed = some a.echo → (t.upkeepOf n).acknowledged = some a.echo ∧ (t.upkeepOf n).unconfirmed = none))
      ∧ (state = .commissioned → driven → ¬ carries → ¬ same → (t.site n).faults.isPresent .setpointMismatch = true
        ∧ (u.restoreSpent = false → r.pending = none → (t.site n).pending.map (·.purpose) = some .restore))
      ∧ (state = .commissioned → driven → (carries ∨ same ∨ u.restoreSpent = true) →
        (t.site n).pending.map (·.purpose) = r.pending.map (·.purpose))
      ∧ (state = .commissioned → a.mode = .fresh → t.upkeepOf n = ⟨none, none, false, u.restoreSpent, 0, 0⟩
        ∧ ((i.mode = some .attended ∨ i.mode = some .standalone) → (t.site n).faults.isLatched .nodeRestarted = true)
        ∧ (r.pending = none →
          (t.site n).pending.map (·.purpose) = if u.restoreSpent = true then none else some .restore))
      ∧ (a.mode = .standalone → t.inSiteChanges n = true
        ∧ (r.comm ≠ none → state ≠ .retiring → (t.upkeepOf n).due = true))
      ∧ (r.state = .discovered → r.pending = none →
        (driven → (t.site n).pending.map (·.purpose) = some .clean) ∧ (¬ driven → (t.site n).pending = none))
      ∧ s.OthersStand t n ∧ t.background = { s.background with timebase := now }

/-- A DONE answer to a routine poll that carries another serial. A COMMISSIONED, UNREACHABLE or COMMISSIONING site
enters MISMATCH with the node as Found node: Pending is withdrawn, the draft is dropped with DRAFT_DROPPED, the readings
begin again, and the serial, nameplate, block, applied current, line delay and IR offset stay. A MISMATCH or RETIRING
record takes the Found node and keeps its state. The node is taken as it reports itself, in range or not (the model's
choice: log 39). A DISCOVERED record takes it in place of its own, its readings begin again, its draft is dropped, and a
driven node is cleaned; where another record holds the serial the site is VACANT with nothing kept. Every other site
stands but for the claims of leases, and the background stands. -/
def Obligations.SerialSeen : Prop :=
  ∀ (s : State) (n : SiteName) (moment : Nat) (c : Instr) (x : Transaction) (i : NodeIdent) (a : PollAnswer),
    s.Sound → s.BroughtUp → s.Ends (branchOf n) moment c x (.done (.poll a)) → x.owner = .routinePoll n →
    x.call = .poll → x.dest = positionOf n → (s.site n).node = some i → a.serial ≠ i.serial →
    let b := branchOf n
    let now := max s.timebase moment
    let r := s.site n
    let seen : FoundNode := ⟨a.serial, a.plate, a.mode⟩
    let first : Readings :=
      ⟨a.outputCurrent, a.outputVoltage, a.on, a.instantOff.map (·.1), s.clock.count, 1, a.on, a.on⟩
    let other : Prop := ∃ m, m ≠ n ∧ (s.site m).node.map (·.serial) = some a.serial
    let waits : Prop := ∀ p, r.pending = some p → p.stage ≠ .inFlight
    ∃ t, exec c s = .next t
      ∧ (t.line b).activity = .idle ∧ (t.line b).txn = none ∧ t.polling.get b = none
      ∧ ((r.state = .commissioned ∨ r.state = .unreachable ∨ r.state = .commissioning) →
        (t.site n).state = .mismatch ∧ (t.site n).found = some seen ∧ (t.site n).node = some { i with pollFrom := now }
        ∧ (t.site n).comm.map (fun k => (k.block, k.applied, k.refreshFrom))
          = r.comm.map (fun k => (k.block, k.applied, k.refreshFrom))
        ∧ (t.site n).lineDelay = r.lineDelay ∧ (t.site n).irOffset = r.irOffset ∧ (t.site n).pending = none
        ∧ (t.site n).readings = some first ∧ t.draftOf n = none ∧ t.inSiteChanges n = true
        ∧ t.flagSet .sitesChanged = true ∧ (s.draftOf n ≠ none → t.flagSet .draftDropped = true)
        ∧ (r.state = .unreachable → (t.site n).faults.isPresent .linkLost = false)
        ∧ (waits → r.pending ≠ none →
          HostItem.pending n ∉ (t.line b).hostFifo ∧ HostItem.pending n ∉ (t.line b).held))
      ∧ ((r.state = .mismatch ∨ r.state = .retiring) →
        (t.site n).state = r.state ∧ (t.site n).found = some seen ∧ (t.site n).node = some { i with pollFrom := now }
        ∧ (t.site n).comm.map (fun k => (k.block, k.applied, k.refreshFrom))
          = r.comm.map (fun k => (k.block, k.applied, k.refreshFrom))
        ∧ (t.site n).pending = r.pending ∧ t.draftOf n = s.draftOf n)
      ∧ (r.state = .discovered → ¬ other →
        (t.site n).state = .discovered
        ∧ (t.site n).node
          = some { i with serial := a.serial, plate := a.plate, mode := some a.mode, pollFrom := now }
        ∧ (t.site n).readings = some first ∧ (t.site n).lineDelay = r.lineDelay
        ∧ (t.site n).faults.latched &&& r.faults.latched = r.faults.latched
        ∧ t.draftOf n = none ∧ (s.draftOf n ≠ none → t.flagSet .draftDropped = true)
        ∧ (waits → (t.site n).pending.map (·.purpose) = if a.mode = .fresh then none else some .clean))
      ∧ (r.state = .discovered → other →
        (t.site n).state = .vacant ∧ (t.site n).node = none ∧ (t.site n).pending = none ∧ (t.site n).lineDelay = none
        ∧ t.draftOf n = none ∧ t.upkeepOf n = Upkeep.blank ∧ t.attemptOf n = none ∧ t.frozenOf n = none
        ∧ t.inSiteChanges n = true ∧ (s.draftOf n ≠ none → t.flagSet .draftDropped = true))
      ∧ ((r.state ≠ .discovered ∨ ¬ other) → (t.site n).lineErrors = 0
        ∧ (t.site n).faults.isPresent .overcurrent = a.overcurrent
        ∧ (t.site n).faults.isPresent .acLost = a.mainsLost)
      ∧ s.OthersStand t n ∧ t.background = { s.background with timebase := now }

/-- The protection window and trim at a DONE answer to a routine poll of a COMMISSIONED site with a surveyed IR offset,
no holder, no stray time and no cycle: the estimate is the ON potential less the IR offset. Above the protection limit
the under count goes up, below the overprotection limit the over count does, and the other count is 0; at the window
count the fault is present and latched, the counts are 0, and a TRIMMED site that is ACTIVE, with neither cabinet
condition and no APPLY Pending, moves its applied current by the trim step within its bounds, with refresh due and Dirty
where it changes. Within the limits both counts are 0 and neither fault is present. A lease poll of a CYCLING site of a
RUNNING lease: an answer with an instant-OFF potential is its last, and with an ON potential gives an IR offset of the
cycle's second where it lies within -2000 to 0 mV, with Dirty and the counts at 0; one without it, and a poll that was
sent and ended REFUSED or as a failure below the threshold, counts a skipped cycle. The trim status follows the IR
offset, the claims of leases and a COMMITTING draft. -/
def Obligations.PollWindow : Prop :=
  (∀ (s : State) (n : SiteName) (moment : Nat) (c : Instr) (x : Transaction) (i : NodeIdent) (k : Commissioned)
     (ir : IrOffset) (on : Int) (a : PollAnswer), s.Sound → s.BroughtUp →
     s.Ends (branchOf n) moment c x (.done (.poll a)) → x.owner = .routinePoll n → x.call = .poll →
     x.dest = positionOf n → (s.site n).state = .commissioned → (s.site n).node = some i → (s.site n).comm = some k →
     (s.site n).irOffset = some ir → (s.site n).holder = none → (s.site n).stray = none → a.serial = i.serial →
     a.cycle = .none → a.mode ≠ .fresh → a.on = some on →
     let r := s.site n
     let u := s.upkeepOf n
     let block := k.block
     let limit := min block.currentLimit i.plate.current
     let estimate := on - ir.millivolts
     ∃ t, exec c s = .next t
       ∧ (let counts : Nat × Nat := ((t.upkeepOf n).underCount, (t.upkeepOf n).overCount)
         let applies : Prop :=
           ∃ p, (t.site n).pending = some p ∧ (p.purpose = .commit ∨ p.purpose = .adopt ∨ p.purpose = .restore)
         let trims : Prop := block.mode = .trimmed ∧ s.committing n = false ∧ a.overcurrent = false
           ∧ a.mainsLost = false ∧ ¬ applies
         let applied := (t.site n).comm.map (·.applied)
         let moves (v : Nat) : Prop := (¬ trims → applied = some k.applied)
           ∧ (trims → applied = some v ∧ (v ≠ k.applied → (t.upkeepOf n).due = true ∧ (t.site n).dirty = true
             ∧ t.inSiteChanges n = true ∧ t.flagSet .sitesChanged = true))
         let f := (t.site n).faults
         (block.protectLimit < estimate →
           f.isPresent .overProtected = false
           ∧ (block.windowCount ≤ u.underCount + 1 → f.isPresent .underProtected = true ∧ counts = (0, 0)
             ∧ (r.faults.isPresent .underProtected = false → f.isLatched .underProtected = true)
             ∧ moves (min (k.applied + block.trimStep) (min block.trimCeiling limit)))
           ∧ (u.underCount + 1 < block.windowCount → counts = (u.underCount + 1, 0) ∧ applied = some k.applied
             ∧ f.isPresent .underProtected = r.faults.isPresent .underProtected))
         ∧ (estimate ≤ block.protectLimit → estimate < block.overprotectLimit →
           f.isPresent .underProtected = false
           ∧ (block.windowCount ≤ u.overCount + 1 → f.isPresent .overProtected = true ∧ counts = (0, 0)
             ∧ (r.faults.isPresent .overProtected = false → f.isLatched .overProtected = true)
             ∧ moves (min (max (k.applied - block.trimStep) block.trimFloor) limit))
           ∧ (u.overCount + 1 < block.windowCount → counts = (0, u.overCount + 1) ∧ applied = some k.applied
             ∧ f.isPresent .overProtected = r.faults.isPresent .overProtected))
         ∧ (estimate ≤ block.protectLimit → block.overprotectLimit ≤ estimate → counts = (0, 0)
           ∧ f.isPresent .underProtected = false ∧ f.isPresent .overProtected = false ∧ applied = some k.applied)
         ∧ (t.site n).comm.map (·.trim) = some (if block.mode = .trimmed then
             some (if s.committing n = true then .suspended else .active) else none)))
  ∧ (∀ (s : State) (n : SiteName) (moment : Nat) (c : Instr) (x : Transaction) (r : End) (h : Handle) (l : Lease)
       (y : LeaseSite) (i : NodeIdent) (cycle second : Nat), s.Sound → s.BroughtUp → s.Ends (branchOf n) moment c x r →
       x.owner = .leasePoll n h cycle second → x.call = .poll → x.dest = positionOf n →
         (s.site n).state = .commissioned →
       (s.site n).node = some i → (s.site n).holder = some h → s.handleOf h.entry = h → s.leaseOf h.entry = some l →
       l.state = .running → l.siteOf n = some y → y.status = .cycling →
       ((∃ a, r = .done (.poll a) ∧ a.serial = i.serial ∧ a.mode ≠ .fresh ∧ a.cycle ≠ .none) ∨ (∃ q, r = .refused q)
         ∨ r = .failure ∧ (s.site n).lineErrors + 1 < (if s.config.counting then s.config.threshold else 1)
           ∧ (s.site n).lineErrors < 15) →
       ∃ t, exec c s = .next t
         ∧ (let shows (f : LeaseSite → LeaseSite) : Prop := ∀ e, t.entry e = if e = h.entry then
             ⟨h.generation, some { l with sites := l.sites.map fun z => if z.site = n then f z else z }⟩ else s.entry e
           let skips : Prop := shows fun z => { z with skipped := min (z.skipped + 1) 255 }
           let inRange (v : Int) : Prop := -2000 ≤ v ∧ v ≤ 0
           (∀ a off number, r = .done (.poll a) → a.instantOff = some (off, number) →
             shows (fun z => { z with lastOff := some off })
             ∧ (∀ on, a.on = some on → inRange (on - off) → (t.site n).irOffset = some ⟨on - off, second⟩
               ∧ (t.site n).dirty = true ∧ (t.upkeepOf n).underCount = 0 ∧ (t.upkeepOf n).overCount = 0)
             ∧ ((∀ on, a.on = some on → ¬ inRange (on - off)) → (t.site n).irOffset = (s.site n).irOffset))
           ∧ (∀ a, r = .done (.poll a) → a.instantOff = none → skips ∧ (t.site n).irOffset = (s.site n).irOffset)
           ∧ ((∀ a, r ≠ .done a) → skips ∧ (t.site n).irOffset = (s.site n).irOffset)
           ∧ (t.site n).comm.map (·.trim) = (s.site n).comm.map (fun k => if k.block.mode = .trimmed then
               some (if (t.site n).irOffset = none then .waitingSurvey else .suspended) else none)
           ∧ (t.site n).comm.map (·.applied) = (s.site n).comm.map (·.applied) ∧ (t.site n).holder = some h
           ∧ (∀ m, m ≠ n → t.site m = s.site m) ∧ t.host.leaseChanges = s.host.leaseChanges
           ∧ t.background = { s.background with timebase := max s.timebase moment }))

/-- A BREAK answer to a routine poll: every site beyond its position on the branch is changed as R14 gives, with its
Found node cleared, LINK_LOST latched, its queued or held Pending call withdrawn and a call in flight kept in
UNREACHABLE, its draft dropped with DRAFT_DROPPED in VACANT, and a withdrawn commit failed with its draft OPEN again; no
other record is changed but for the claims of leases, the break is recorded there with its next probe 60 s on, and
LINE_BREAK is raised where the record changed. The position may be 0, by a frame of source 0 (deduced: log 54). -/
def Obligations.BreakAnswered : Prop :=
  ∀ (s : State) (n : SiteName) (moment : Nat) (frame : List Byte) (x : Transaction) (p : Nat), s.Sound → s.BroughtUp →
    (s.line (branchOf n)).txn = some x → x.owner = .routinePoll n → x.dest = positionOf n →
    readAnswerFrame frame = .brk p → p < x.dest →
    let b := branchOf n
    let now := max s.timebase moment
    ∃ t, exec (.answerFrame b moment frame) s = .next t
      ∧ (t.line b).activity = .idle ∧ (t.line b).txn = none ∧ s.BreakTaken t b p now
      ∧ t.background = { s.background with timebase := now }

/-- A DONE answer with the record's serial to the commit APPLY, its echo equal to the value sent: the commit is
complete. The record is COMMISSIONED with the draft's block and override, the applied current at the target bounded by
the limit, refresh age 0, node mode ATTENDED, nothing Pending and Dirty set; the draft is freed without DRAFT_DROPPED.
Refresh due is set where the applied current left is not the one sent, or is not the record's of before (R51). A commit
that ends in another way has failed: after a REFUSED answer or a failure the draft is OPEN again with its last commit
result, a first commit returns to DISCOVERED, another record stands, or is UNREACHABLE at the threshold; after a break
(from source 0 too: log 54) a first commit's site is VACANT with its draft dropped, and another is UNREACHABLE with its
draft OPEN; after a DONE answer with another serial the site is in MISMATCH and the draft is dropped. -/
def Obligations.CommitEnds : Prop :=
  (∀ (s : State) (n : SiteName) (moment : Nat) (frame payload : List Byte) (x : Transaction) (i : NodeIdent) (d : Draft)
     (a : ApplyAnswer) (block : Block) (carried hold : Nat) (delay : Option Nat) (p : PendingCall), s.Sound →
     s.BroughtUp → (s.line (branchOf n)).txn = some x → x.owner = .pending n → x.dest = positionOf n →
     x.call = .apply block carried delay hold → (s.line (branchOf n)).brk = none →
     readAnswerFrame frame = .done x.dest payload → x.call.readDone payload = some (.apply a) →
     ((s.site n).state = .commissioning ∨ (s.site n).state = .commissioned) → (s.site n).node = some i →
     (s.site n).pending = some p → p.purpose = .commit → p.stage = .inFlight → s.draftOf n = some d →
     (s.site n).holder = none → a.serial = i.serial → a.echo = carried →
     let now := max s.timebase moment
     let plate : Nameplate := if d.hostPlate then
       ⟨d.ratedCurrent.getD i.plate.current, d.ratedVoltage.getD i.plate.voltage⟩ else reloaded i.plate a.plate
     let applied := min d.block.targetCurrent (min d.block.currentLimit plate.current)
     ∃ t, exec (.answerFrame (branchOf n) moment frame) s = .next t
       ∧ (t.line (branchOf n)).activity = .idle ∧ (t.line (branchOf n)).txn = none
       ∧ (t.site n).state = .commissioned
       ∧ (t.site n).node = some { i with plate := plate, hostPlate := d.hostPlate, mode := some .attended }
       ∧ (t.site n).comm.map (fun c => (c.block, c.applied, c.refreshFrom)) = some (d.block, applied, now)
       ∧ (t.site n).irOffset = (s.site n).irOffset ∧ (t.site n).pending = none ∧ (t.site n).dirty = true
       ∧ (t.site n).lineErrors = 0 ∧ (t.site n).faults.isPresent .setpointMismatch = false
       ∧ (t.upkeepOf n).acknowledged = some carried ∧ (t.upkeepOf n).unconfirmed = none
       ∧ ((applied ≠ carried ∨ (s.site n).comm.map (·.applied) ≠ some applied) → (t.upkeepOf n).due = true)
       ∧ t.draftOf n = none ∧ t.flagSet .draftDropped = s.flagSet .draftDropped ∧ t.inSiteChanges n = true
       ∧ t.flagSet .sitesChanged = true ∧ s.OthersStand t n ∧ t.background = { s.background with timebase := now })
  ∧ (∀ (s : State) (n : SiteName) (moment : Nat) (c : Instr) (x : Transaction) (r : End) (i : NodeIdent) (p : PendingCall)
       (d : Draft) (block : Block) (carried hold : Nat) (delay : Option Nat), s.Sound → s.BroughtUp →
       s.Ends (branchOf n) moment c x r → x.owner = .pending n → x.dest = positionOf n →
       x.call = .apply block carried delay hold → (s.site n).node = some i → (s.site n).pending = some p →
       p.purpose = .commit → p.stage = .inFlight → s.draftOf n = some d → d.committing = true →
       ((s.site n).state = .commissioning ∨ (s.site n).state = .commissioned ∨ (s.site n).state = .unreachable) →
       let now := max s.timebase moment
       let st := (s.site n).state
       let reached : Prop :=
         (if s.config.counting then s.config.threshold else 1) ≤ min ((s.site n).lineErrors + 1) 15
       ∃ t, exec c s = .next t ∧ (t.line (branchOf n)).activity = .idle ∧ (t.line (branchOf n)).txn = none
         ∧ ((∀ a, r ≠ .done a) → (t.site n).pending = none)
         ∧ t.background = { s.background with timebase := now } ∧ ((∀ q, r ≠ .brk q) → s.OthersStand t n)
         ∧ (∀ q, r = .refused q → (t.site n).lineErrors = 0
           ∧ t.draftOf n = some { d with committing := false, lastResult := some (.refused q), idleFrom := now })
         ∧ (r = .failure →
           t.draftOf n = some { d with committing := false, lastResult := some .noAnswer, idleFrom := now }
           ∧ (st ≠ .commissioning → (t.upkeepOf n).unconfirmed = some carried)
           ∧ (st = .commissioned → reached → (t.site n).state = .unreachable))
         ∧ (((∃ q, r = .refused q) ∨ r = .failure) → st = .commissioning → (t.site n).state = .discovered
           ∧ (t.site n).comm = none ∧ (t.site n).node.map (·.hostPlate) = some false ∧ t.upkeepOf n = Upkeep.blank)
         ∧ (((∃ q, r = .refused q) ∨ r = .failure ∧ ¬ reached) → st ≠ .commissioning → (t.site n).state = st
           ∧ (t.site n).comm.map (fun k => (k.block, k.applied, k.refreshFrom))
             = (s.site n).comm.map (fun k => (k.block, k.applied, k.refreshFrom)))
         ∧ (∀ q, r = .brk q →
           (st = .commissioning → (t.site n).state = .vacant ∧ t.draftOf n = none ∧ t.flagSet .draftDropped = true)
           ∧ (st ≠ .commissioning → (t.site n).state = .unreachable
             ∧ t.draftOf n = some { d with committing := false, lastResult := some .brk, idleFrom := now }))
         ∧ (∀ a, r = .done (.apply a) → a.serial ≠ i.serial → (t.site n).state = .mismatch
           ∧ (t.site n).found = some ⟨a.serial, a.plate, a.mode⟩ ∧ (t.site n).pending = none
           ∧ (t.site n).comm.map (fun k => (k.block, k.applied)) = (s.site n).comm.map (fun k => (k.block, k.applied))
           ∧ t.draftOf n = none ∧ t.flagSet .draftDropped = true))

/-- The ends of an ADOPT, RESTORE, RETIRE or CLEAN call. DONE by the recorded node, an ADOPT or RESTORE leaves the site
COMMISSIONED with refresh age 0, its nameplate reloaded where the override is off, the applied current bounded by the
limit, the value carried acknowledged and the node ATTENDED; an echo that differs from it latches SETPOINT_MISMATCH and
places a RESTORE where restore is not spent. REFUSED, an ADOPT leaves its site COMMISSIONED with SETPOINT_MISMATCH, and
a RESTORE is spent. A failure leaves the value unconfirmed, and an ADOPT's site UNREACHABLE. A RELEASE that retires
leaves a DISCOVERED record of its node, or of the Found node as it reported itself (log 39), or VACANT where another
record holds that serial; refused, or failed below the threshold, it gives the retire up. A CLEAN leaves its node FRESH,
or only ends. Pending ends in each case but that of the RESTORE placed. A break answer (from source 0 too: log 54) ends
the call with its value neither acknowledged nor unconfirmed and the sites beyond changed as R14 gives. Every other site
and the background stand. -/
def Obligations.PendingEnds : Prop :=
  ∀ (s : State) (n : SiteName) (moment : Nat) (c : Instr) (x : Transaction) (r : End) (i : NodeIdent) (p : PendingCall),
    s.Sound → (∀ k, (s.bring k).phase = .discovering → (s.bring k).walk = .orphans → 0 < (s.bring k).extent) →
    s.Ends (branchOf n) moment c x r → x.owner = .pending n → x.dest = positionOf n →
    (s.site n).node = some i → (s.site n).pending = some p → p.stage = .inFlight →
    (match p.purpose with
      | .retire | .clean => x.call = .release
      | _ => ∃ block v delay hold, x.call = .apply block v delay hold) →
    let now := max s.timebase moment
    let w := s.site n
    let u := s.upkeepOf n
    let reached : Prop := (if s.config.counting then s.config.threshold else 1) ≤ min (w.lineErrors + 1) 15
    ∃ t, exec c s = .next t
      ∧ (t.line (branchOf n)).activity = .idle ∧ (t.line (branchOf n)).txn = none
      ∧ ((∀ q, r ≠ .brk q) → s.OthersStand t n)
      ∧ t.background = { s.background with timebase := now }
      ∧ (let ended : Prop := (t.site n).pending = none
        let mismatched : Prop := (t.site n).faults.isPresent .setpointMismatch = true
          ∧ (w.faults.isPresent .setpointMismatch = false → (t.site n).faults.isLatched .setpointMismatch = true)
        (∀ block v delay hold k a, x.call = .apply block v delay hold → w.comm = some k → r = .done (.apply a) →
          a.serial = i.serial → (p.purpose = .adopt ∧ (w.state = .commissioning ∨ w.state = .unreachable)
            ∨ p.purpose = .restore ∧ (w.state = .commissioned ∨ w.state = .unreachable)) →
          let plate : Nameplate := if i.hostPlate then i.plate else
            ⟨if 1 ≤ a.plate.current ∧ a.plate.current ≤ 6000 then a.plate.current else i.plate.current,
             if 1 ≤ a.plate.voltage ∧ a.plate.voltage ≤ 1000 then a.plate.voltage else i.plate.voltage⟩
          let limit := min k.block.currentLimit plate.current
          let applied := if k.block.mode = .trimmed then min k.applied limit else min k.block.targetCurrent limit
          (t.site n).state = .commissioned ∧ (t.site n).node = some { i with plate := plate, mode := some .attended }
          ∧ (t.site n).comm.map (fun y => (y.block, y.applied, y.refreshFrom)) = some (k.block, applied, now)
          ∧ (t.upkeepOf n).acknowledged = some v ∧ (t.upkeepOf n).unconfirmed = none ∧ (t.site n).lineErrors = 0
          ∧ (applied ≠ k.applied → (t.upkeepOf n).due = true)
          ∧ (a.echo = v → ended ∧ (t.site n).faults.isPresent .setpointMismatch = false
            ∧ (t.upkeepOf n).restoreSpent = false)
          ∧ (a.echo ≠ v → mismatched ∧ (u.restoreSpent = true → ended)
            ∧ (u.restoreSpent = false → (t.site n).pending.map (·.purpose) = some .restore)))
        ∧ (∀ q, r = .refused q → (t.site n).lineErrors = 0
          ∧ (p.purpose = .adopt → w.state = .commissioning → ended ∧ mismatched ∧ (t.site n).state = .commissioned)
          ∧ (p.purpose = .restore → w.comm ≠ none → ended ∧ mismatched ∧ (t.site n).state = w.state
            ∧ (t.upkeepOf n).restoreSpent = true ∧ (t.upkeepOf n).acknowledged = u.acknowledged))
        ∧ (r = .failure → ∀ block v delay hold, x.call = .apply block v delay hold →
          (p.purpose = .adopt → w.state = .commissioning → ended ∧ (t.site n).state = .unreachable
            ∧ (t.site n).faults.isPresent .linkLost = true ∧ (t.upkeepOf n).unconfirmed = some v)
          ∧ (p.purpose = .restore → (w.state = .commissioned ∨ w.state = .unreachable) → ended
            ∧ (t.upkeepOf n).unconfirmed = some v ∧ (t.upkeepOf n).acknowledged = u.acknowledged
            ∧ (¬ reached → (t.site n).state = w.state) ∧ (reached → (t.site n).state = .unreachable)))
        ∧ (∀ d, r = .done d → p.purpose = .retire → w.state = .retiring →
          let other : Prop := ∃ f m, w.found = some f ∧ m ≠ n ∧ (s.site m).node.map (·.serial) = some f.serial
          ended ∧ (t.site n).dirty = true ∧ t.inSiteChanges n = true ∧ (t.site n).comm = none
          ∧ (t.site n).irOffset = none ∧ (t.site n).readings = none ∧ (t.site n).found = none
          ∧ t.upkeepOf n = Upkeep.blank
          ∧ (other → (t.site n).state = .vacant)
          ∧ (¬ other → (t.site n).state = .discovered ∧ (t.site n).lineDelay = w.lineDelay ∧ (t.site n).node
            = some { i with
                serial := (w.found.map (·.serial)).getD i.serial, plate := (w.found.map (·.plate)).getD i.plate
                hostPlate := false, mode := some .fresh }))
        ∧ (((∃ q, r = .refused q) ∨ r = .failure ∧ ¬ reached) → p.purpose = .retire → w.state = .retiring →
          ended ∧ t.inSiteChanges n = true ∧ (t.site n).found = w.found
          ∧ (t.site n).state = if w.found = none then .commissioned else .mismatch)
        ∧ (r = .failure → reached → p.purpose = .retire → w.state = .retiring →
          ended ∧ (t.site n).state = .unreachable ∧ (t.site n).found = none)
        ∧ ((∀ q, r ≠ .brk q) → p.purpose = .clean → w.state = .discovered → ended ∧ (t.site n).state = .discovered
          ∧ (∀ d, r = .done d → (t.site n).node = some { i with mode := some .fresh })
          ∧ ((r = .failure ∨ ∃ q, r = .refused q ∧ q ≠ .fresh) → (t.site n).node = some i))
        ∧ (∀ q, r = .brk q →
          let stands : Prop := (t.upkeepOf n).acknowledged = u.acknowledged ∧ (t.upkeepOf n).unconfirmed = u.unconfirmed
            ∧ (t.upkeepOf n).due = u.due ∧ (t.upkeepOf n).restoreSpent = u.restoreSpent
          (p.purpose ≠ .commit → ended)
          ∧ (p.purpose = .adopt → w.state = .commissioning → (t.site n).state = .unreachable ∧ stands)
          ∧ (p.purpose = .restore → (w.state = .commissioned ∨ w.state = .unreachable) →
            (t.site n).state = .unreachable ∧ stands)
          ∧ (p.purpose = .retire → w.state = .retiring → (t.site n).state = .unreachable ∧ (t.site n).found = none)
          ∧ (p.purpose = .clean → w.state = .discovered → t.site n = { SiteRecord.blank with
              dirty := (t.site n).dirty, faults := (t.site n).faults })
          ∧ (∀ m, branchOf m = branchOf n → q < positionOf m → (t.site m).state = match (s.site m).state with
            | .commissioned | .mismatch | .retiring | .unreachable => .unreachable
            | .discovered | .vacant => .vacant
            | .commissioning => if (s.site m).pending.any (·.purpose == .adopt) then .unreachable else .vacant)
          ∧ (∀ m, ¬ (branchOf m = branchOf n ∧ q < positionOf m) → (t.site m).own = (s.site m).own)
          ∧ (t.line (branchOf n)).brk.map (·.position) = some q))

/-- The ends of a REFRESH to a COMMISSIONED or RETIRING site. DONE: the refresh age is 0, the value carried is
acknowledged, the node is ATTENDED, a STANDALONE node adds the site to the change set, and in COMMISSIONED the echo is
checked against the value: equal, SETPOINT_MISMATCH is not present; different, it is latched and a RESTORE that is not
spent is placed. REFUSED FRESH by a COMMISSIONED site is a FRESH answer: the upkeep values are absent, NODE_RESTARTED is
latched where the node was not FRESH, and a RESTORE that is not spent is placed. REFUSED otherwise: SETPOINT_MISMATCH,
and in COMMISSIONED such a RESTORE; the refresh age and the acknowledged current stand. A failure leaves the value
unconfirmed with refresh due, and at the threshold the site UNREACHABLE. Every other site stands but for the claims of
leases, and the background stands. -/
def Obligations.RefreshEnds : Prop :=
  ∀ (s : State) (n : SiteName) (moment : Nat) (c : Instr) (x : Transaction) (r : End) (i : NodeIdent) (k : Commissioned)
    (v hold : Nat) (delay : Option Nat), s.Sound → s.BroughtUp → s.Ends (branchOf n) moment c x r →
    x.owner = .refresh n → x.call = .refresh v delay hold → x.dest = positionOf n → (s.site n).node = some i →
    (s.site n).comm = some k → ((s.site n).state = .commissioned ∨ (s.site n).state = .retiring) →
    (∀ q, r ≠ .brk q) →
    let now := max s.timebase moment
    let w := s.site n
    let u := s.upkeepOf n
    let working : Prop := w.state = .commissioned
    let reached : Prop := (if s.config.counting then s.config.threshold else 1) ≤ min (w.lineErrors + 1) 15
    ∃ t, exec c s = .next t
      ∧ (t.line (branchOf n)).activity = .idle ∧ (t.line (branchOf n)).txn = none
      ∧ t.refreshing.get (branchOf n) = none ∧ s.OthersStand t n ∧ t.background = { s.background with timebase := now }
      ∧ (t.site n).comm.map (fun y => (y.block, y.applied)) = some (k.block, k.applied)
      ∧ (let age := (t.site n).comm.map (·.refreshFrom)
        let mismatched : Prop := (t.site n).faults.isPresent .setpointMismatch = true
          ∧ (w.faults.isPresent .setpointMismatch = false → (t.site n).faults.isLatched .setpointMismatch = true)
        let restores : Prop := (u.restoreSpent = true → (t.site n).pending = w.pending)
          ∧ (u.restoreSpent = false → w.pending = none → (t.site n).pending.map (·.purpose) = some .restore)
        (∀ mode told, r = .done (.refresh mode told) → (t.site n).node = some { i with mode := some .attended }
          ∧ age = some now ∧ (t.upkeepOf n).acknowledged = some v ∧ (t.upkeepOf n).unconfirmed = none
          ∧ (t.site n).lineErrors = 0 ∧ (mode = .standalone → t.inSiteChanges n = true)
          ∧ (working → told = v → (t.site n).faults.isPresent .setpointMismatch = false
            ∧ (t.upkeepOf n).restoreSpent = false ∧ (t.site n).pending = w.pending)
          ∧ (working → told ≠ v → mismatched ∧ restores)
          ∧ (¬ working → (t.site n).pending = w.pending
            ∧ (t.site n).faults.isPresent .setpointMismatch = w.faults.isPresent .setpointMismatch))
        ∧ (r = .refused .fresh → working → (t.site n).node = some { i with mode := some .fresh }
          ∧ t.upkeepOf n = ⟨none, none, false, u.restoreSpent, 0, 0⟩ ∧ age = some k.refreshFrom ∧ restores
          ∧ ((i.mode = some .attended ∨ i.mode = some .standalone) → (t.site n).faults.isLatched .nodeRestarted = true))
        ∧ (∀ q, r = .refused q → q ≠ .fresh → (t.site n).node = some i ∧ age = some k.refreshFrom ∧ mismatched
          ∧ t.upkeepOf n = u ∧ (t.site n).lineErrors = 0 ∧ (working → restores)
          ∧ (¬ working → (t.site n).pending = w.pending))
        ∧ (r = .failure → age = some k.refreshFrom ∧ (t.upkeepOf n).unconfirmed = some v ∧ (t.upkeepOf n).due = true
          ∧ (t.upkeepOf n).acknowledged = u.acknowledged ∧ (t.site n).lineErrors = min (w.lineErrors + 1) 15
          ∧ (¬ reached → (t.site n).state = w.state) ∧ (reached → (t.site n).state = .unreachable)))

/-! ### The ends of lease calls, lost sites and failed changes -/

/-- The ends of a lease call that counts, at a COMMISSIONED site that stays so. An ARM of an ARMING lease: DONE makes
the site ARMED, and the lease too once every undropped site is ARMED with no Failure; REFUSED or failed, the site keeps
its status with a Failure. An ARM answered DONE to a STOPPING lease is followed by a DISARM. A DISARM or STOP of a
STOPPING lease: DONE, NOT_CYCLING or FRESH makes the site STOPPED, another end STOP_FAILED with its Failure; so does a
CHECK that shows no cycle, or ends REFUSED or failed, and one that shows a cycle places a STOP. With no call left the
lease closes with the cause it entered STOPPING with, its sites lose their holders, and a STOP_FAILED one takes a stray
time until its end bound. An EXTEND or REPATTERN that is not the last joins the answered set with its end, and an EXTEND
changes the end bound; the last EXTEND of a change that every site took moves the End. A Failure is kept where there is
one. Every other entry and site stands. -/
def Obligations.LeaseCallEnds : Prop :=
  ∀ (s : State) (n : SiteName) (moment : Nat) (c : Instr) (x : Transaction) (r : End) (h : Handle) (l : Lease)
    (y : LeaseSite) (call : LeaseCall), s.Sound → s.BroughtUp → s.Ends (branchOf n) moment c x r →
    x.owner = .leaseCall n h → x.dest = positionOf n → (s.site n).state = .commissioned → s.handleOf h.entry = h →
    s.leaseOf h.entry = some l → (l.sites.map (·.site)).Nodup → l.siteOf n = some y → y.status ≠ .dropped →
    y.call = some ⟨call, true, true⟩ → y.waiting = [] → (∀ q, r ≠ .brk q) →
    (r = .failure → (s.site n).lineErrors + 1 < (if s.config.counting then s.config.threshold else 1)
      ∧ (s.site n).lineErrors < 15) →
    ∃ t, exec c s = .next t
      ∧ (t.line (branchOf n)).activity = .idle ∧ (t.line (branchOf n)).txn = none ∧ s.OthersStand t n
      ∧ t.background = { s.background with timebase := max s.timebase moment }
      ∧ (∀ e, e ≠ h.entry → t.entry e = s.entry e)
      ∧ (let failure : Failure := match r with
          | .refused q => .refused q
          | _ => .noAnswer
        let ended := { y with call := none }
        let failed := { ended with failure := y.failure.or (some failure) }
        let shows (k : Lease) (z : LeaseSite) : Prop := t.entry h.entry
          = ⟨h.generation, some { k with sites := l.sites.map fun w => if w.site = n then z else w }⟩
        let left : Prop := ∃ z ∈ l.sites, z.site ≠ n ∧ (z.call ≠ none ∨ z.waiting ≠ [])
        let settles (z : LeaseSite) (gone : Prop) : Prop := t.inLeaseChanges h.entry = true ∧ (left → shows l z)
          ∧ (¬ left → (∃ k, t.entry h.entry = ⟨h.generation, some k⟩ ∧ k.state = .closed
              ∧ k.closeCause = some (l.stopCause.getD .released) ∧ k.siteOf n = some { z with change := none })
            ∧ t.closeOrder = s.closeOrder.filter (· != h.entry) ++ [h.entry]
            ∧ (∀ m z, l.siteOf m = some z → (t.site m).holder ≠ some h)
            ∧ ((s.site n).holder = some h → (gone → (t.site n).stray = none)
              ∧ (¬ gone → (t.site n).stray = some (max (y.endBound.getD l.stop) l.stop))))
        let fails : Prop := (∃ q, r = .refused q) ∨ r = .failure
        let run := l.run.or (some ⟨l.start * 10, 1, []⟩)
        (call = .arm → l.state = .arming → l.change = none →
          (r = .done .plain →
            let all : Prop := y.failure = none
              ∧ ∀ z ∈ l.sites, z.site ≠ n → z.status = .dropped ∨ z.status = .armed ∧ z.failure = none
            let armed := { ended with status := .armed, exchange := .armDone }
            (all → shows { l with state := .armed, run := run } armed ∧ t.flagSet .leasesChanged = true)
            ∧ (¬ all → shows { l with run := run } armed)
            ∧ (y.status ≠ .armed → t.inLeaseChanges h.entry = true))
          ∧ (∀ q, r = .refused q →
            shows l { failed with exchange := if q = .occupied then .armOccupied else .armRefused })
          ∧ (r = .failure → shows l failed))
        ∧ (call = .arm → l.state = .stopping → r = .done .plain →
          shows { l with run := run } { y with
            status := .armed, exchange := .armDone, call := some ⟨.disarm, false, true⟩ }
          ∧ s.CallsMoved t h (fun _ => false) (· = n))
        ∧ ((call = .disarm ∨ call = .stop) → l.state = .stopping →
          let gone : Prop := r = .done .plain ∨ r = .refused .notCycling ∨ r = .refused .fresh
          (gone → y.status ≠ .stopped → settles { ended with status := .stopped, exchange := .cycleGone } True)
          ∧ (fails → ¬ gone → y.status ≠ .stopFailed →
            settles { failed with status := .stopFailed, exchange := .stopFailed } False))
        ∧ (call = .check → l.state = .stopping → y.status = .cycling →
          (∀ until_, r = .done (.check .none until_) →
            settles { ended with status := .stopped, exchange := .cycleGone } True)
          ∧ (∀ cycle until_, r = .done (.check cycle until_) → cycle ≠ .none →
            shows l { y with call := some ⟨.stop, false, true⟩ } ∧ s.CallsMoved t h (fun _ => false) (· = n))
          ∧ (fails → settles { failed with status := .stopFailed } False))
        ∧ (∀ newEnd v, call = .extend v → l.change = some (.extend newEnd false) → y.change = some none →
          (l.state = .armed ∨ l.state = .running) →
          let others : Prop := ∃ z ∈ l.sites, z.site ≠ n ∧ z.change = some none
          let took := { ended with endBound := some v, change := some (some .done) }
          (others → (r = .done .plain → shows l took)
            ∧ (∀ q, r = .refused q → q ≠ .notCycling → shows l { ended with change := some (some (.refused q)) })
            ∧ (r = .failure → shows l { ended with
                endBound := some (y.endBound.elim v (max v)), change := some (some .noAnswer) }))
          ∧ (¬ others → r = .done .plain →
            (∀ z ∈ l.sites, z.site ≠ n → z.change = none ∨ z.change = some (some .done)) →
            t.entry h.entry = ⟨h.generation, some { l with
              stop := newEnd, change := none, lastResult := some .taken
              sites := l.sites.map fun w => { (if w.site = n then took else w) with change := none } }⟩))
        ∧ (∀ p boundary p' boundary', call = .repattern p' boundary' → l.change = some (.repattern p boundary) →
          y.change = some none → (∃ z ∈ l.sites, z.site ≠ n ∧ z.change = some none) →
          (r = .done .plain → shows l { ended with change := some (some .done) })
          ∧ (∀ q, r = .refused q → q ≠ .notCycling → shows l { ended with change := some (some (.refused q)) })
          ∧ (r = .failure → shows l { ended with change := some (some .noAnswer) })))

/-- A site held by a lease is lost by the failure of a poll at the line error threshold, seen to hold no cycle at least
2 s before the End, or reports FRESH. GRANTED: a lost site closes a STRICT lease at once with Failure LOST (deduced: log
14), and is dropped by a LENIENT one, which closes when no site is left; a FRESH one changes nothing. ARMING: the site
takes its Failure and the decision waits for the deadline. ARMED and RUNNING: in a STRICT lease the site keeps its
status with a Failure, or is STOPPED where its node holds no cycle, and the other sites of the lease that are armed or
cycling are called to stop; in a LENIENT one it is dropped. The lease is STOPPING with SITE_LOST to come, or closed with
it where none is left. STOPPING: a lost site changes nothing, and a FRESH one is STOPPED. A site that leaves loses its
holder, and takes a stray time until its end bound where its node may hold a cycle by its last exchange (deduced: log
40). Every other entry stands, and every other site but for the claims of leases. -/
def Obligations.LeaseLoss : Prop :=
  ∀ (s : State) (n : SiteName) (moment : Nat) (c : Instr) (x : Transaction) (r : End) (h : Handle) (l : Lease)
    (y : LeaseSite) (i : NodeIdent) (f : Failure) (free : Bool), s.Sound → s.BroughtUp →
    s.Ends (branchOf n) moment c x r → x.owner = .routinePoll n → x.call = .poll → x.dest = positionOf n →
    (s.site n).state = .commissioned → (s.site n).node = some i → (s.site n).holder = some h →
    s.handleOf h.entry = h → s.leaseOf h.entry = some l → l.state ≠ .closed → (l.sites.map (·.site)).Nodup →
    l.siteOf n = some y → y.status ≠ .dropped → y.call = none → y.waiting = [] → l.change = none →
    (∀ z ∈ l.sites, z.status = .dropped → z.call = none ∧ z.waiting = []) →
    (∀ q ∈ (s.line (branchOf n)).leasePolls, q.site = n → q.handle = h) →
    (∀ e k, e ≠ h.entry → s.leaseOf e = some k → (∀ z, k.siteOf n = some z → z.call = none)
      ∧ (k.state = .stopping → ∃ z ∈ k.sites, z.call ≠ none)) →
    let lost : Prop := r = .failure
      ∧ (if s.config.counting then s.config.threshold else 1) ≤ min ((s.site n).lineErrors + 1) 15
    let fresh : Prop := ∃ a, r = .done (.poll a) ∧ a.serial = i.serial ∧ a.mode = .fresh
    let gone : Prop := (∃ a, r = .done (.poll a) ∧ a.serial = i.serial ∧ a.mode ≠ .fresh ∧ a.cycle = .none)
      ∧ l.state = .running ∧ y.status = .cycling ∧ s.clock.count.getD 0 + 2 ≤ l.stop
    ((lost ∧ f = .lost ∧ free = false) ∨ (fresh ∧ f = .fresh ∧ free = true) ∨ (gone ∧ f = .lost ∧ free = true)) →
    ∃ (t : State) (k : Lease), exec c s = .next t ∧ t.entry h.entry = ⟨h.generation, some k⟩
      ∧ s.OthersStand t n ∧ t.background = { s.background with timebase := max s.timebase moment }
      ∧ (∀ e, e ≠ h.entry → t.entry e = s.entry e) ∧ k.stop = l.stop ∧ k.pattern = l.pattern
      ∧ (∀ m z, l.siteOf m = some z → m ≠ n → ∃ w, k.siteOf m = some w ∧ w.status = z.status ∧ w.failure = z.failure)
      ∧ (let failure := y.failure.or (some f)
        let shown (status : OutcomeStatus) (failure : Option Failure) : Prop :=
          ∃ z, k.siteOf n = some z ∧ z.status = status ∧ z.failure = failure
        let leaves : Prop := (t.site n).holder = none ∧ (t.site n).stray
          = if free ∨ y.exchange = .noArm ∨ y.exchange = .armRefused ∨ y.exchange = .cycleGone then none
            else some (max (y.endBound.getD l.stop) l.stop)
        let closed : Prop := k.state = .closed ∧ k.closeCause = some .siteLost
          ∧ t.closeOrder = s.closeOrder.filter (· != h.entry) ++ [h.entry]
          ∧ (∀ m z, l.siteOf m = some z → (t.site m).holder ≠ some h)
        let goesOn : Prop := k.state = l.state ∧ t.closeOrder = s.closeOrder
        let drops (other : Prop) : Prop := shown .dropped failure ∧ (y.status ≠ .stopFailed → leaves)
          ∧ (other → goesOn) ∧ (¬ other → closed) ∧ t.inLeaseChanges h.entry = true
        let stops (status left : OutcomeStatus) (call : LeaseCall) : Prop :=
          let other (m : SiteName) : Prop := m ≠ n ∧ (s.site m).state = .commissioned
            ∧ ∃ z, l.siteOf m = some z ∧ z.status = status
          shown left failure ∧ t.inLeaseChanges h.entry = true
          ∧ ((∃ m, other m) → k.state = .stopping ∧ k.stopCause = some .siteLost ∧ t.closeOrder = s.closeOrder
            ∧ s.CallsMoved t h (fun _ => false) (fun m => other m ∧ ∃ z, l.siteOf m = some z ∧ z.call = none)
            ∧ (∀ m z, l.siteOf m = some z → other m → z.call = none →
              ∃ w, k.siteOf m = some w ∧ w.call = some ⟨call, false, true⟩)
            ∧ (∀ b, (t.line b).leasePolls = (s.line b).leasePolls.filter (·.handle != h)))
          ∧ ((∀ m, ¬ other m) → closed ∧ leaves)
        (l.state = .granted →
          (free = false → l.strictness = .strict → shown y.status failure ∧ closed)
          ∧ (free = false → l.strictness = .lenient → drops (∃ z ∈ l.sites, z.site ≠ n ∧ z.status ≠ .dropped))
          ∧ (free = true → shown y.status y.failure ∧ goesOn))
        ∧ (l.state = .arming → goesOn ∧ (t.site n).holder = some h
          ∧ ((free = false ∨ y.status = .armed) → shown y.status failure)
          ∧ (free = true → y.status ≠ .armed → shown y.status y.failure))
        ∧ (l.state = .armed → y.status = .armed →
          (l.strictness = .strict → stops .armed .armed .disarm)
          ∧ (l.strictness = .lenient → drops (∃ z ∈ l.sites, z.site ≠ n ∧ z.status = .armed)))
        ∧ (l.state = .running → y.status = .cycling →
          (l.strictness = .strict → stops .cycling (if free = true then .stopped else .cycling) .stop)
          ∧ (l.strictness = .lenient → drops (∃ z ∈ l.sites, z.site ≠ n ∧ z.status = .cycling)))
        ∧ (l.state = .stopping → (∃ z ∈ l.sites, z.call ≠ none) → goesOn ∧ k.stopCause = l.stopCause
          ∧ (free = false → k = l) ∧ (free = true → shown .stopped y.failure)))

/-- A pending change that a site failed, decided when the last expected site of an ARMED or RUNNING lease has answered,
DONE, REFUSED or failed below the threshold, or at its deadline, where each site that has not answered is given
NOT_IN_TIME, its queued call is withdrawn, and its call in flight counts no more, with the new end as its end bound. An
extension: a STRICT lease keeps its End and gives every COMMISSIONED site that took the new one the old End back by a
revert, the change pending meanwhile; with no site that took it, it ends as REFUSED_BY_SITE. A LENIENT lease drops each
failed site with its Failure, its stray time by the old End and its bound, and takes the new End, as PARTIAL where a
site took it and REFUSED_BY_SITE where none did, a site DROPPED since its DONE end not counted (the model's choice: log
53); it closes with SITE_LOST where no site is left. A repattern: a STRICT lease enters STOPPING for PATTERN_FAILED with
a STOP to every armed or cycling site, or closes where there is none; a LENIENT one drops the failed sites, calls each
of them to stop, and takes the pattern for the others, with the same two results. The entry is marked; every other entry
and site stands. -/
def Obligations.ChangeFailed : Prop :=
  (∀ (s : State) (n : SiteName) (moment : Nat) (c : Instr) (x : Transaction) (r : End) (h : Handle) (l : Lease)
     (y : LeaseSite) (call : LeaseCall), s.Sound → s.BroughtUp → s.Ends (branchOf n) moment c x r →
     x.owner = .leaseCall n h → x.dest = positionOf n → (s.site n).state = .commissioned → s.handleOf h.entry = h →
     s.leaseOf h.entry = some l → (l.state = .armed ∨ l.state = .running) → (l.sites.map (·.site)).Nodup →
     l.siteOf n = some y → y.status ≠ .dropped → y.change = some none → y.call = some ⟨call, true, true⟩ →
     y.waiting = [] → (∀ z ∈ l.sites, z.site ≠ n → z.call = none ∧ z.waiting = [] ∧ z.change ≠ some none) →
     (∀ q, r ≠ .brk q) → r ≠ .refused .notCycling →
     (r = .failure → (s.site n).lineErrors + 1 < (if s.config.counting then s.config.threshold else 1)
       ∧ (s.site n).lineErrors < 15) →
     let answer : ChangeEnd := match r with
       | .refused q => .refused q
       | .failure => .noAnswer
       | _ => .done
     let bound (v : Nat) : Option Nat := match r with
       | .failure => some (y.endBound.elim v (max v))
       | .refused _ => y.endBound
       | _ => some v
     let told (b : Option Nat) : Lease := { l with
       sites := l.sites.map fun z =>
         if z.site = n then { y with call := none, endBound := b, change := some (some answer) } else z }
     (∀ newEnd, call = .extend newEnd → x.call = .extend newEnd → l.change = some (.extend newEnd false) →
       (told (bound newEnd)).sites.any (·.failedIn) = true →
       ∃ t, exec c s = .next t ∧ s.ExtendFails t h (told (bound newEnd)) newEnd (fun _ => false) ∧ s.OthersStand t n
         ∧ (∀ e, e ≠ h.entry → t.entry e = s.entry e)
         ∧ t.background = { s.background with timebase := max s.timebase moment })
     ∧ (∀ p boundary, call = .repattern p boundary → x.call = .repattern p boundary →
       l.change = some (.repattern p boundary) →
       (told y.endBound).sites.any (·.failedIn) = true →
       ∃ t, exec c s = .next t ∧ s.RepatternFails t h (told y.endBound) p boundary (fun _ => false) ∧ s.OthersStand t n
         ∧ (∀ e, e ≠ h.entry → t.entry e = s.entry e)
         ∧ t.background = { s.background with timebase := max s.timebase moment }))
  ∧ (∀ (s : State) (e : EntryNo) (moment : Nat) (l : Lease), s.Sound → s.leaseOf e = some l →
       (l.sites.map (·.site)).Nodup →
       (∀ z ∈ l.sites, z.waiting = [] ∧ (z.change ≠ some none → z.call = none) ∧ (z.status = .dropped →
         z.change = none)) →
       (∀ z ∈ l.sites, z.change = some none → ∀ k, z.call = some k → k.counts = true ∧ k.call.isChange = true) →
       let h := s.handleOf e
       let told (bound : Option Nat) : Lease := { l with sites := l.sites.map fun z => z.decidedAt bound }
       let withdrawn (m : SiteName) : Bool :=
         l.sites.any fun z => z.site == m && z.change == some none && z.call.any (!·.inFlight)
       (∀ newEnd, l.change = some (.extend newEnd false) → (s.clock.state = .locked ∨ s.clock.state = .holdover) →
         l.stop - 2 ≤ s.clock.count.getD 0 → (told none).sites.any (·.failedIn) = true →
         ∃ t, exec (.extendDeadline e) s = .next t ∧ s.ExtendFails t h (told (some newEnd)) newEnd withdrawn
           ∧ t.unleased = s.unleased ∧ ∀ k, k ≠ e → t.entry k = s.entry k)
       ∧ (∀ p boundary, l.change = some (.repattern p boundary) →
         boundary ≤ s.clock.count.getD 0 * 10
           + (max s.timebase moment - s.clock.instant.getD (max s.timebase moment)) / 100000 + 20 →
         (told none).sites.any (·.failedIn) = true →
         ∃ t, exec (.repatternDeadline e moment) s = .next t ∧ s.RepatternFails t h (told none) p boundary withdrawn
           ∧ t.unleased = { s.unleased with timebase := max s.timebase moment } ∧ ∀ k, k ≠ e → t.entry k = s.entry k))

/-! ### Bring-up: walks, reconciliation, training -/

/-- The end of a discovery ENUM at position q. DONE without the end flag and nearer than 32, its node joins the
discovery list and an ENUM goes to q + 1, to the FIFO where it has room though older items may be held (log 25). The
walk ends otherwise: DONE with the end flag at extent q, at 32 without it with Overlength, after a break answer at its
position (0 too: log 54), and after a failure or a REFUSED answer at q - 1, also where another call has recorded a
nearer break (the model's choice: log 38); LINE_BREAK is raised where Overlength changes. At start-up, with the other
branch's walk still on, reconciliation waits: no record takes anything of the answer but its line error count, and after
a break answer the sites beyond it change as R14 gives, with their Found nodes, drafts and Pending calls, and the break
is recorded. -/
def Obligations.DiscoveryWalk : Prop :=
  ∀ (s : State) (b : Branch) (moment : Nat) (c : Instr) (x : Transaction) (r : End) (first : Nat), s.Sound →
    s.Ends b moment c x r → x.owner = .discovery → x.call = .enum → 1 ≤ x.dest → x.dest ≤ 32 →
    (s.bring b).walk = .asking first → (s.bring b).restores = [] → (s.bring b).orphans = [] →
    (∀ k, (s.bring k).phase ≠ .applying ∧ (s.bring k).walk ≠ .orphans) →
    let q := x.dest
    let bring := s.bring b
    let l := s.line b
    let now := max s.timebase moment
    let keeps (xs : List HostItem) : List HostItem :=
      if l.brk.any (fun k => decide (k.position < q)) = true then xs.filter (· != .probe) else xs
    let stands (t : State) : Prop := (t.line b).activity = .idle ∧ (t.line b).txn = none
      ∧ t.background = { s.background with timebase := now } ∧ (∀ k, k ≠ b → t.bring k = s.bring k)
      ∧ ((∀ p, r ≠ .brk p) → ∀ n, siteAt? b q = some n → s.OthersStand t n
        ∧ ((∀ k, r ≠ .refused k) → r ≠ .failure → (t.site n).state = (s.site n).state
          ∧ ((s.site n).state ≠ .vacant → (t.site n).own = { (s.site n).own with lineErrors := 0 })))
    (∀ a, r = .done (.enum a) → a.endFlag = false → q < 32 → ∃ t, exec c s = .next t ∧ stands t
      ∧ t.bring b = { bring with found := bring.found ++ [(q, a)] }
      ∧ ((keeps l.hostFifo).length < 16 → (t.line b).hostFifo = keeps l.hostFifo ++ [.enum (q + 1)])
      ∧ (16 ≤ (keeps l.hostFifo).length → (t.line b).held = keeps l.held ++ [.enum (q + 1)]))
    ∧ (bring.phase = .discovering →
      (∃ k, k ≠ b ∧ s.strap.selects k = true ∧ ∀ f, (s.bring k).walk ≠ .walked f) → s.strap.selects b = true →
      let ends (found : List (Nat × EnumAnswer)) (extent : Nat) (beyond : Bool)
          (request : Option (Nat × EnumAnswer)) : Prop :=
        ∃ t, exec c s = .next t ∧ stands t ∧ (beyond ≠ bring.overlength → t.flagSet .lineBreak = true)
          ∧ t.bring b = { bring with
              walk := .walked first, found := found, extent := extent, overlength := beyond, request := request }
      (∀ a, r = .done (.enum a) → a.endFlag = true → ends (bring.found ++ [(q, a)]) q false bring.request)
      ∧ (∀ a, r = .done (.enum a) → a.endFlag = false → q = 32 →
        ends (bring.found ++ [(q, a)]) 32 true bring.request)
      ∧ (∀ p, r = .brk p → ends bring.found p false none ∧ ∀ t, exec c s = .next t → s.BreakTaken t b p now)
      ∧ (((∃ k, r = .refused k) ∨ r = .failure) → ends bring.found (q - 1) false bring.request))

/-- A discovery walk ends at position q, every serial reported once: the walk of a DISCOVER or partial job, the last or
only walk at start-up (step 5, over every strapped branch), or a kept Partial request or a probe whose answer ends it at
once. Its range goes to q with DONE, to q - 1 with REFUSED or a failure, which count on the line, also beyond another
call's break (log 38), and to p after a break answer from p (0 too: log 54), the sites beyond first changed as R14
gives. The moves made are all that stand together: a free record moves to the site of its node where that site has no
block, or its record moves too. A moved record, and one at home, is back from UNREACHABLE and MISMATCH with Found node
cleared and the mode taken; a moved one carries serial, override, block and latches, is Dirty with SITE_MOVED naming its
source, and its IR offset, line delay, readings, upkeep items, ages and line error count begin again, onto a DISCOVERED
site too (log 17). A record with a block that stays takes another node as Found node. A node with no home record makes
its site DISCOVERED, as it reports itself (log 39); one whose record stays elsewhere, or is replaced there by a move
(log 47), leaves it VACANT. A site left with no node there is VACANT, and so is a DISCOVERED one beyond the extent,
where COMMISSIONED, MISMATCH, RETIRING and adopted records are UNREACHABLE; at start-up LINK_LOST is latched on each
record left UNREACHABLE. A DISCOVERED node that is driven is cleaned. A node that reports a cycle (with no end given,
one that ends at second 0: log 36) at a site with no holder is an orphan with ORPHAN_CYCLE latched, on the record of its
serial where the site is VACANT (log 58), and its call is placed in the order of the walk (log 57). With none, a job
ends with DISCOVER_DONE, and at start-up the branch trains, or with an extent of 0 is READY. Every other site stands. -/
def Obligations.Reconciliation : Prop :=
  (∀ (s : State) (b : Branch) (moment : Nat) (c : Instr) (x : Transaction) (r : End) (first extent : Nat) (beyond : Bool)
     (range : List (Nat × EnumAnswer)), s.Sound → s.SerialsSound → s.Ends b moment c x r → x.owner = .discovery →
     x.call = .enum → (s.bring b).walk = .asking first → 1 ≤ first → first ≤ x.dest → x.dest ≤ 32 →
     (s.bring b).found.map (·.1) = List.range' first (x.dest - first) →
     WalkEnds x.dest (s.bring b).found r range extent beyond →
     let q := x.dest
     let now := max s.timebase moment
     let reached (n : SiteName) : Prop :=
       (if s.config.counting then s.config.threshold else 1) ≤ min ((s.site n).lineErrors + 1) 15
     let u : State := ((s.atMoment moment).setLine b { s.line b with activity := .idle, txn := none }).siteTableEnd b x r
     let counted : Prop := u.background = { s.background with timebase := now } ∧ match r with
       | .brk p => s.BreakTaken u b p now
       | .failure => ∀ n, siteAt? b q = some n → s.OthersStand u n
         ∧ ((s.site n).state ≠ .vacant → ¬ reached n →
           (u.site n).own = { (s.site n).own with lineErrors := min ((s.site n).lineErrors + 1) 15 })
         ∧ (reached n → (s.site n).state = .commissioned ∨ (s.site n).state = .mismatch ∨ (s.site n).state = .retiring →
           (u.site n).state = .unreachable)
       | _ => ∀ n, siteAt? b q = some n → s.OthersStand u n ∧ (u.site n).state = (s.site n).state
         ∧ ((s.site n).state ≠ .vacant → (u.site n).lineErrors = 0)
     let before : State := match r with
       | .done _ => s
       | _ => u
     let here : EndedWalk := ⟨b, first, extent, nodesAt b range⟩
     let idles (t : State) : Prop :=
       (t.line b).activity = .idle ∧ (t.line b).txn = none ∧ t.background = { s.background with timebase := now }
     counted
     ∧ (s.BroughtUp → (s.bring b).job ≠ .none → (here.nodes.map (·.2.serial)).Nodup →
       ∃ t, exec c s = .next t ∧ before.Reconciled t now [here] false ∧ s.JobReconciled t here beyond
         ∧ (t.orphansOf here ≠ [] → (t.bring b).job = (s.bring b).job)
         ∧ (t.bring b).request = (match r with
           | .brk _ => none
           | _ => (s.bring b).request)
         ∧ idles t)
     ∧ ((s.bring b).phase = .discovering → s.strap.selects b = true → first = 1 →
       (∀ k, k ≠ b → if s.strap.selects k = true then (s.bring k).phase = .discovering ∧ (s.bring k).walk = .walked 1
           ∧ (s.bring k).found.map (·.1) = List.range' 1 (s.bring k).found.length
         else (s.bring k).phase = .ready ∧ (s.bring k).walk = .none) →
       let walkOf (k : Branch) : EndedWalk := if k = b then here else
         ⟨k, 1, (s.bring k).extent, nodesAt k ((s.bring k).found.filter fun p => decide (p.1 ≤ (s.bring k).extent))⟩
       let walks := s.strap.branches.map walkOf
       ((walks.flatMap (·.nodes)).map (·.2.serial)).Nodup →
       ∃ t, exec c s = .next t ∧ before.Reconciled t now walks true
         ∧ (∀ k, s.strap.selects k = true →
           t.StartReconciled (walkOf k) (if k = b then beyond else (s.bring k).overlength))
         ∧ (beyond ≠ (s.bring b).overlength → t.flagSet .lineBreak = true)
         ∧ (s.bringupDone = false → (∀ k, (t.bring k).phase = .ready) →
           t.bringupDone = true ∧ t.flagSet .bringupDone = true)
         ∧ t.flagSet .discoverDone = s.flagSet .discoverDone ∧ idles t))
  ∧ (∀ (s : State) (b : Branch) (moment : Nat) (c : Instr) (x : Transaction) (q now : Nat) (a : EnumAnswer), s.Sound →
       s.SerialsSound → s.BroughtUp → (s.bring b).job = .none → 1 ≤ q → q ≤ 32 → (a.endFlag = true ∨ q = 32) →
       (c = .partialDiscovery b ∧ (s.bring b).request = some (q, a) ∧ now = s.timebase
         ∨ s.Ends b moment c x (.done (.enum a)) ∧ x.owner = .probe ∧ x.call = .enum ∧ x.dest = q
           ∧ now = max s.timebase moment) →
       let here : EndedWalk := ⟨b, q, q, nodesAt b [(q, a)]⟩
       ∃ t, exec c s = .next t ∧ s.Reconciled t now [here] false ∧ s.JobReconciled t here (!a.endFlag)
         ∧ (t.orphansOf here ≠ [] → (t.bring b).job = .partly) ∧ (t.bring b).request = none
         ∧ t.background = { s.background with timebase := now })

/-- The end of a training ECHO with no break recorded. DONE, the least round trip of the position, each from its last
sending (log 19), is kept, and another ECHO goes there until four have ended; the fourth gives the line delay, half the
sum of the steps between least round trips rounded down, each at least 0, taken by a record with a node, and the walk
goes on to the next position within the extent, each ECHO to the FIFO where it has room though older items may be held
(log 25). The walk ends at the extent, with a delay above 65,535 that is not taken, and with a failure or a REFUSED
answer: a job ends with TRAIN_DONE, and at start-up the branch enters APPLYING with a RESTORE for each COMMISSIONED
site, or READY where it has none. An orphan call ends: DONE, NOT_CYCLING or FRESH clears the stray time, and another
reason, a failure or a break answer (from source 0 too: log 54) makes it the later of its own and the cycle end, but at
a VACANT site, which has none; with calls left the branch waits, and with the last a job ends with DISCOVER_DONE, and at
start-up the branch trains from position 1. A RESTORE of step 8 ends in any way, by the recorded node or another,
refused, failed or in a break: with RESTOREs left the branch stays APPLYING, and with the last it is READY; when both
branches are, bring-up is done with BRINGUP_DONE. -/
def Obligations.TrainingPhases : Prop :=
  (∀ (s : State) (b : Branch) (moment : Nat) (c : Instr) (x : Transaction) (r : End) (w : Training) (n : SiteName),
     s.Sound → s.Ends b moment c x r → x.owner = .training → x.call = .echo → siteAt? b w.position = some n →
     x.dest = w.position → (s.bring b).walk = .training w → (s.bring b).restores = [] → (s.line b).brk = none →
     (∀ k, (s.bring k).phase ≠ .applying ∧ (s.bring k).walk ≠ .orphans) → (∀ p, r ≠ .brk p) →
     let bring := s.bring b
     let l := s.line b
     let now := max s.timebase moment
     let trip := now - x.sentAt
     let least := match w.least with
       | some k => min k trip
       | none => trip
     let sum := w.sum + (least - w.before)
     let delay := sum / 2
     let old := s.site n
     ∃ t, exec c s = .next t
       ∧ (let asks (walk : Training) : Prop := t.bring b = { bring with walk := .training walk }
           ∧ (l.hostFifo.length < 16 → (t.line b).hostFifo = l.hostFifo ++ [.echo walk.position])
           ∧ (16 ≤ l.hostFifo.length → (t.line b).held = l.held ++ [.echo walk.position])
         let ends : Prop :=
           (bring.phase = .ready →
             t.bring b = { bring with job := .none, walk := .none } ∧ t.flagSet .trainDone = true)
           ∧ (bring.phase = .training →
             let sites := (branchSites b).filter fun m => (t.site m).state == .commissioned
             (∀ m ∈ sites, (s.site m).pending = none → (t.site m).pending.map (·.purpose) = some .restore)
             ∧ (sites ≠ [] →
               t.bring b = { bring with phase := .applying, walk := .applying, restores := sites }
               ∧ t.bringupDone = s.bringupDone)
             ∧ (sites = [] → t.bring b = { bring with phase := .ready, walk := .none, restores := [] }
               ∧ (s.bringupDone = false → (∀ k, k ≠ b → (s.bring k).phase = .ready) →
                 t.bringupDone = true ∧ t.flagSet .bringupDone = true)))
         let takes : Prop := (old.node = none → (t.site n).lineDelay = old.lineDelay)
           ∧ (old.node ≠ none → (t.site n).lineDelay = some delay
             ∧ (old.lineDelay ≠ some delay → t.inSiteChanges n = true ∧ t.flagSet .sitesChanged = true
               ∧ (old.comm ≠ none → (t.upkeepOf n).due = true)))
         (∀ d, r = .done d →
           (w.ended < 3 → asks { w with ended := w.ended + 1, least := some least }
             ∧ (t.site n).lineDelay = old.lineDelay)
           ∧ (3 ≤ w.ended → delay ≤ 65535 → takes
             ∧ (w.position < bring.extent → asks ⟨w.position + 1, 0, none, least, sum⟩)
             ∧ (bring.extent ≤ w.position → ends))
           ∧ (3 ≤ w.ended → 65535 < delay → (t.site n).lineDelay = old.lineDelay ∧ ends))
         ∧ ((∀ d, r ≠ .done d) → (t.site n).lineDelay = old.lineDelay ∧ ends))
       ∧ (∀ m, m ≠ n → (t.site m).lineDelay = (s.site m).lineDelay) ∧ (∀ k, k ≠ b → t.bring k = s.bring k)
       ∧ (bring.phase = .ready → s.OthersStand t n) ∧ t.background = { s.background with timebase := now })
  ∧ (∀ (s : State) (n : SiteName) (moment : Nat) (c : Instr) (x : Transaction) (r : End), s.Sound →
       s.Ends (branchOf n) moment c x r → x.dest = positionOf n → (s.line (branchOf n)).brk = none →
       (∀ k, k ≠ branchOf n → (s.bring k).phase ≠ .applying ∧ (s.bring k).walk ≠ .orphans) →
       let b := branchOf n
       let bring := s.bring b
       let l := s.line b
       let readied (t : State) : Prop :=
         s.bringupDone = false → (∀ k, k ≠ b → (s.bring k).phase = .ready) →
           t.bringupDone = true ∧ t.flagSet .bringupDone = true
       let kept : BringUp := match r with
         | .brk _ => { bring with request := none }
         | _ => bring
       let whole : Prop := ∀ p, r ≠ .brk p
       (∀ cycleEnd, x.owner = .orphan n cycleEnd → (x.call = .stop ∨ x.call = .disarm) → bring.walk = .orphans →
         n ∈ bring.orphans → (s.site n).holder = none →
         (r = .done .plain ∨ (∃ q, r = .refused q) ∨ bring.restores = []) →
         let left := bring.orphans.filter (· != n)
         let stopped : Prop := r = .done .plain ∨ r = .refused .notCycling ∨ r = .refused .fresh
         (left ≠ [] → whole ∧ (bring.phase = .ready ∨ bring.phase = .discovering)) →
         ∃ t, exec c s = .next t
           ∧ ((stopped ∨ (t.site n).state = .vacant) → (t.site n).stray = none)
           ∧ (¬ stopped → (t.site n).state ≠ .vacant →
             (t.site n).stray = some (max ((s.site n).stray.getD cycleEnd) cycleEnd))
           ∧ (left ≠ [] → t.bring b = { bring with orphans := left } ∧ t.flagSet .discoverDone = s.flagSet .discoverDone)
           ∧ (left = [] → bring.phase = .ready → t.bring b = { kept with orphans := [], job := .none, walk := .none }
             ∧ t.flagSet .discoverDone = true)
           ∧ (left = [] → bring.phase = .discovering → 0 < bring.extent →
             t.bring b = { kept with orphans := [], phase := .training, walk := .training ⟨1, 0, none, 2000, 0⟩ }
             ∧ HostItem.echo 1 ∈ (t.line b).hostFifo ++ (t.line b).held
             ∧ ((r = .done .plain ∨ ∃ q, r = .refused q) →
               (l.hostFifo.length < 16 → (t.line b).hostFifo = l.hostFifo ++ [.echo 1])
               ∧ (16 ≤ l.hostFifo.length → (t.line b).held = l.held ++ [.echo 1])))
           ∧ (whole → (bring.phase = .ready ∨ 0 < bring.extent ∨ left ≠ []) → s.OthersStand t n))
       ∧ (∀ p, x.owner = .pending n → (s.site n).pending = some p → p.purpose = .restore → p.stage = .inFlight →
         bring.phase = .applying → bring.walk = .applying → bring.job = .none → n ∈ bring.restores → bring.restores.Nodup →
         ((∃ q, r = .refused q) ∨ bring.orphans = []) →
         let left := bring.restores.filter (· != n)
         (left ≠ [] → whole) →
         ∃ t, exec c s = .next t
           ∧ (left = [] → t.bring b = { kept with restores := [], phase := .ready, walk := .none } ∧ readied t)
           ∧ (left ≠ [] → t.bring b = { bring with restores := left } ∧ t.bringupDone = s.bringupDone)
           ∧ (whole → s.OthersStand t n)))

/-! ### The smaller line events, jobs and the relay -/

/-- The end of a RELAY sets its result: the node's outcomes with DONE, and each slot NOT_SENT with REFUSED, NO_ANSWER or
BREAK, with RELAY_DONE; a queued one is withdrawn as LOST when its site enters UNREACHABLE or VACANT. The end of a probe
while a break is recorded: an answer clears the record with LINE_BREAK, and a DONE one asks for a partial discovery from
its position, taken at once by a branch with no job, while a REFUSED one asks for none (deduced: log 18); a failure
leaves the record and all records of sites, with the next probe 60 s on; a break answer (from source 0 too: log 54)
moves the record, with LINE_BREAK where it changes. A granted call beyond a recorded break is not sent and ends as
BREAK, the record standing (log 34); on a line without carrier it is not sent, and a break is recorded at 0; otherwise
it is sent. Discovery ENUMs are sent whatever break is recorded, and so is a probe, one position beyond the break, or to
position 1 without carrier (log 25). A lease poll that is not sent skips no cycle. -/
def Obligations.RelayProbeEnds : Prop :=
  (∀ (s : State) (n : SiteName) (moment : Nat) (c : Instr) (x : Transaction) (r : End) (slots : List RelaySlot)
     (o : Option RelayResult), s.Sound → s.BroughtUp → s.Ends (branchOf n) moment c x r → x.owner = .relay →
     x.call = .relay slots → x.dest = positionOf n → s.relay = ⟨.inFlight, some (n, slots), o⟩ →
     let unsent := slots.map fun _ => SlotOutcome.notSent
     ∃ t, exec c s = .next t ∧ (t.line (branchOf n)).activity = .idle ∧ (t.line (branchOf n)).txn = none
       ∧ (let gives (outcomes : List SlotOutcome) (line : LineOutcome) : Prop :=
           t.relay = ⟨.idle, none, some ⟨n, outcomes, line⟩⟩
         (∀ outcomes, r = .done (.relay outcomes) → gives outcomes .done)
         ∧ (∀ q, r = .refused q → gives unsent (.refused q)) ∧ (r = .failure → gives unsent .noAnswer)
         ∧ (∀ p, r = .brk p → gives unsent .brk))
       ∧ t.flagSet .relayDone = true ∧ ((∀ p, r ≠ .brk p) → s.OthersStand t n)
       ∧ t.background = { s.background with timebase := max s.timebase moment })
  ∧ (∀ (s : State) (m : SiteName) (moment : Nat) (c : Instr) (x : Transaction) (p : Nat) (slots : List RelaySlot)
       (o : Option RelayResult), s.Sound → s.BroughtUp → s.Ends (branchOf m) moment c x (.brk p) →
       (∃ n, x.owner = .routinePoll n ∧ branchOf n = branchOf m) → p < positionOf m →
       s.relay = ⟨.queued, some (m, slots), o⟩ →
       ((s.site m).state = .commissioned ∨ (s.site m).state = .discovered ∨ (s.site m).state = .retiring) →
       ∃ t, exec c s = .next t ∧ t.relay = ⟨.idle, none, some ⟨m, slots.map fun _ => .notSent, .lost⟩⟩
         ∧ t.flagSet .relayDone = true ∧ HostItem.relay ∉ (t.line (branchOf m)).hostFifo
         ∧ HostItem.relay ∉ (t.line (branchOf m)).held)
  ∧ (∀ (s : State) (b : Branch) (moment : Nat) (c : Instr) (x : Transaction) (r : End) (k : BreakRecord), s.Sound →
       s.BroughtUp → s.Ends b moment c x r → x.owner = .probe → x.call = .enum → (s.line b).brk = some k →
       let bring := s.bring b
       let now := max s.timebase moment
       let again : Nat := now + 60000000
       (∀ k, (s.bring k).walk = .orphans → (s.bring k).orphans ≠ []) → ∃ t, exec c s = .next t
         ∧ (t.line b).activity = .idle ∧ (t.line b).txn = none ∧ t.background = { s.background with timebase := now }
         ∧ (((∃ d, r = .done d) ∨ ∃ q, r = .refused q) → (t.line b).brk = none ∧ t.flagSet .lineBreak = true
           ∧ HostItem.probe ∉ (t.line b).hostFifo ∧ HostItem.probe ∉ (t.line b).held)
         ∧ (∀ a, r = .done (.enum a) →
           (bring.job ≠ .none → t.bring b = { bring with request := some (x.dest, a) })
           ∧ (bring.job = .none → a.endFlag = false → x.dest < 32 →
             t.bring b = { bring with job := .partly, request := none, walk := .asking x.dest, found := [(x.dest, a)] }
             ∧ (HostItem.enum (x.dest + 1) ∈ (t.line b).hostFifo ∨ HostItem.enum (x.dest + 1) ∈ (t.line b).held)))
         ∧ (∀ q, r = .refused q → t.bring b = bring)
         ∧ (r = .failure → (t.line b).brk = some ⟨k.position, again, false⟩ ∧ t.bring b = bring ∧ t.sites = s.sites
           ∧ t.host = s.host)
         ∧ (∀ p, r = .brk p → (t.line b).brk = some ⟨p, again, false⟩ ∧ (t.bring b).request = none
           ∧ (p ≠ k.position → t.flagSet .lineBreak = true)))
  ∧ (∀ (s : State) (b : Branch) (moment : Nat) (carrier : Bool), s.Sound → s.BroughtUp →
       let now := max s.timebase moment
       let l := s.line b
       let run := exec (.arbiterGrant b moment carrier) s
       l.activity = .idle → l.txn = none → l.sync = none → l.leaseFifo = [] →
         State.overdueRefresh { s with timebase := now } b = none →
       let sends (call : Call) (dest timeout : Nat) (owner : Owner) (rest : List HostItem) : Prop := ∃ t, run = .next t
         ∧ t.line b = { l with
             hostFifo := rest, activity := .awaitingAnswer, txn := some ⟨call, dest, false, timeout, now, owner⟩
             sent := call.frame dest }
         ∧ t.sites = s.sites
       let timeoutOf (dest : Nat) : Nat :=
         (((siteAt? b dest).bind fun n => (s.site n).lineDelay).map fun d => 2 * d + 22000).getD 86000
       let nearer (dest : Nat) : Prop := ∃ k, l.brk = some k ∧ k.position < dest
       (∀ rest n slots o, l.hostFifo = .relay :: rest → s.relay = ⟨.queued, some (n, slots), o⟩ → branchOf n = b →
         let unsent (brk : Option BreakRecord) : Prop := ∃ t, run = .next t ∧ (t.line b).activity = .idle
           ∧ (t.line b).txn = none ∧ (t.line b).sent = l.sent ∧ (t.line b).brk = brk ∧ t.flagSet .relayDone = true
           ∧ t.relay = ⟨.idle, none, some ⟨n, slots.map fun _ => .notSent, .brk⟩⟩
         (nearer (positionOf n) → unsent l.brk)
         ∧ (¬ nearer (positionOf n) → carrier = true →
           sends (.relay slots) (positionOf n) (timeoutOf (positionOf n)) .relay rest)
         ∧ (¬ nearer (positionOf n) → carrier = false →
           unsent (some ⟨0, now + 60000000, rest.contains .probe || l.held.contains .probe⟩)
           ∧ ∀ t, run = .next t → ∀ m, branchOf m = b → (t.site m).state = .unreachable ∨ (t.site m).state = .vacant))
       ∧ (∀ rest q, l.hostFifo = .enum q :: rest → carrier = true → sends .enum q 86000 .discovery rest)
       ∧ (∀ rest k, l.hostFifo = .probe :: rest → l.brk = some k →
         let dest := if carrier = true then k.position + 1 else 1
         sends .enum dest (timeoutOf dest) .probe rest)
       ∧ (∀ p rest, l.hostFifo = [] → l.leasePolls = p :: rest → branchOf p.site = b →
         (nearer (positionOf p.site) ∨ carrier = false) → ∃ t, run = .next t ∧ (t.line b).activity = .idle
           ∧ (t.line b).txn = none ∧ (t.line b).sent = l.sent ∧ ∀ w y z, s.leaseOf p.handle.entry = some w →
             w.siteOf p.site = some y → (t.leaseOf p.handle.entry).bind (·.siteOf p.site) = some z →
               z.skipped = y.skipped))

/-- The line's smaller events: a SYNC's last byte frees the branch; a waiting SYNC of 1,000,000 microseconds is
withdrawn; a probe falls due once; the oldest held item takes a free slot; and a kept Partial request is taken by a
READY branch with no job. A probe, and the ENUM of a kept Partial request, goes to the FIFO where it has room, though
older items may be held (log 25). Where its condition does not hold each event takes its moment and nothing else (log
20). Section time passing a site's stray time clears it, and adds the site to the change set; otherwise nothing happens.
-/
def Obligations.LineEvents : Prop :=
  (∀ (s : State) (b : Branch) (moment : Nat),
     let now := max s.timebase moment
     let l := s.line b
     let puts (l' : Line) : Host.Outcome State Fault Refusal := .next { s with timebase := now, lines := s.lines.put b l' }
     let waits : Host.Outcome State Fault Refusal := .next { s with timebase := now }
     (l.activity = .sendingSync → exec (.syncSent b moment) s = puts { l with activity := .idle })
     ∧ (l.activity ≠ .sendingSync → exec (.syncSent b moment) s = waits)
     ∧ (∀ y, l.sync = some y → y.instant + 1000000 ≤ now → exec (.syncExpiry b moment) s = puts { l with sync := none })
     ∧ ((∀ y, l.sync = some y → now < y.instant + 1000000) → exec (.syncExpiry b moment) s = waits)
     ∧ (∀ k, l.brk = some k → k.placed = false → k.probeAt ≤ now →
       (l.hostFifo.length < 16 → exec (.probeDue b moment) s
         = puts { l with brk := some { k with placed := true }, hostFifo := l.hostFifo ++ [.probe] })
       ∧ (16 ≤ l.hostFifo.length → exec (.probeDue b moment) s
         = puts { l with brk := some { k with placed := true }, held := l.held ++ [.probe] }))
     ∧ ((∀ k, l.brk = some k → k.placed = true ∨ now < k.probeAt) → exec (.probeDue b moment) s = waits)
     ∧ (∀ item rest, l.held = item :: rest → l.hostFifo.length < 16 → (∀ n, item ≠ .pending n) →
       exec (.heldItemPlaced b) s
         = .next { s with lines := s.lines.put b { l with held := rest, hostFifo := l.hostFifo ++ [item] } })
     ∧ (∀ n p rest, s.Sound → l.held = .pending n :: rest → l.hostFifo.length < 16 → (s.site n).pending = some p →
       ∃ t, exec (.heldItemPlaced b) s = .next t
         ∧ t.lines = s.lines.put b { l with held := rest, hostFifo := l.hostFifo ++ [.pending n] }
         ∧ (t.site n).own = { (s.site n).own with pending := some { p with stage := .queued } } ∧ s.OthersStand t n
         ∧ t.background = s.background)
     ∧ ((l.held = [] ∨ 16 ≤ l.hostFifo.length) → exec (.heldItemPlaced b) s = .next s)
     ∧ (∀ q a, (s.bring b).request = some (q, a) → (s.bring b).phase = .ready → (s.bring b).job = .none →
       a.endFlag = false → q < 32 → (∀ k, ((s.bring k).walk = .orphans → (s.bring k).orphans ≠ [])
         ∧ ((s.bring k).phase = .applying → (s.bring k).restores ≠ [])) → ∃ t, exec (.partialDiscovery b) s = .next t
         ∧ t.bring b = { s.bring b with job := .partly, request := none, walk := .asking q, found := [(q, a)] }
         ∧ (l.hostFifo.length < 16 → (t.line b).hostFifo = l.hostFifo ++ [.enum (q + 1)])
         ∧ (16 ≤ l.hostFifo.length → (t.line b).held = l.held ++ [.enum (q + 1)])
         ∧ { t with lines := s.lines, bringup := s.bringup } = s)
     ∧ (((s.bring b).request = none ∨ (s.bring b).phase ≠ .ready ∨ (s.bring b).job ≠ .none) →
       exec (.partialDiscovery b) s = .next s))
  ∧ (∀ (s : State) (n : SiteName), s.Sound →
       (∀ now w, s.clock.count = some now → (s.site n).stray = some w → w < now →
         ∃ t, exec (.strayTimeExpiry n) s = .next t ∧ (t.site n).stray = none ∧ (t.site n).own = (s.site n).own
           ∧ (t.site n).holder = none ∧ t.inSiteChanges n = true ∧ t.flagSet .sitesChanged = true
           ∧ (∀ m, m ≠ n → t.site m = s.site m) ∧ { t with sites := s.sites, host := s.host } = s)
       ∧ ((s.clock.count = none ∨ (s.site n).stray = none
           ∨ ∃ now w, s.clock.count = some now ∧ (s.site n).stray = some w ∧ now ≤ w) →
         exec (.strayTimeExpiry n) s = .next s))

/-- DISCOVER and TRAIN: the refusals of R185 in order, and the start of each job. A DISCOVER places an ENUM to position
1; a TRAIN an ECHO to position 1, or with a discovered extent of 0 it ends at once with TRAIN_DONE; each item goes to
the FIFO where it has room, though older items may be held (log 25). RELAY: the refusals of R168 in order, and a
transfer taken, which drops the result and is queued at the tail of the host-driven FIFO. RELAY RESULT, in every phase,
shows the result of a transfer that has ended, BUSY while one runs and UNKNOWN with none; it changes nothing. -/
def Obligations.JobsRelay : Prop :=
  (∀ (tag : Tag) (s : State) (b : Branch), s.strap.selects b = true → s.bringupDone = true →
     (s.bring b).phase = .ready →
     let code := match b with
       | .west => 1
       | .east => 2
     let leased : Prop := ∃ e k x, s.leaseOf e = some k ∧ k.state ≠ .closed ∧ x ∈ k.sites ∧ branchOf x.site = b
     let busy : Prop := (s.bring b).job ≠ .none ∨ (s.bring b).request ≠ none
     let committing : Prop := ∃ d ∈ s.drafts, d.committing = true ∧ branchOf d.site = b
     let l := s.line b
     let starts (run : Host.Outcome State Fault Refusal) (request : Byte) (item : HostItem) (x : BringUp) : Prop :=
       run = .next (State.reply { s with
         bringup := s.bringup.put b x
         lines := s.lines.put b (if l.hostFifo.length < 16 then { l with hostFifo := l.hostFifo ++ [item] }
           else { l with held := l.held ++ [item] }) } request tag .accepted .empty)
     let discover := exec (.discover tag (some code)) s
     let train := exec (.train tag (some code)) s
     (leased → discover = .next (s.reply 0x40#8 tag .leaseActive .empty)
       ∧ train = .next (s.reply 0x41#8 tag .leaseActive .empty))
     ∧ (¬ leased → busy → discover = .next (s.reply 0x40#8 tag .busy .empty)
       ∧ train = .next (s.reply 0x41#8 tag .busy .empty))
     ∧ (¬ leased → ¬ busy → committing → discover = .next (s.reply 0x40#8 tag .busy .empty))
     ∧ (¬ leased → ¬ busy → ¬ committing →
       starts discover 0x40#8 (.enum 1) { s.bring b with job := .discover, walk := .asking 1, found := [] })
     ∧ (¬ leased → ¬ busy → 0 < (s.bring b).extent →
       starts train 0x41#8 (.echo 1) { s.bring b with job := .train, walk := .training ⟨1, 0, none, 2000, 0⟩ })
     ∧ (¬ leased → ¬ busy → (s.bring b).extent = 0 →
       train = .next (State.reply (State.raise { s with
         bringup := s.bringup.put b { s.bring b with job := .none, walk := .none } } .trainDone) 0x41#8 tag .accepted .empty)))
  ∧ (∀ (tag : Tag) (s : State) (n : SiteName) (slots : List RelaySlot), s.Names n → s.bringupDone = true →
       let fits : Prop := (1 ≤ slots.length ∧ slots.length ≤ 3) ∧ (∀ x, slots.head? = some x → x.before ≠ .none)
         ∧ ∀ x ∈ slots, match x.direction with
           | .write _ => x.after ≠ .nack ∧ x.after ≠ .nackStop
           | .read => x.after ≠ .stop
       let reachable : Prop := (s.site n).state = .commissioned ∨ (s.site n).state = .discovered
       let b := branchOf n
       let l := s.line b
       let run := exec (.relay tag (some ⟨siteCode n, slots⟩)) s
       let answers (status : Status) : Prop := run = .next (s.reply 0x43#8 tag status .empty)
       (¬ fits → answers .range)
       ∧ (fits → ¬ reachable → answers .state)
       ∧ (fits → reachable → (s.relay.state ≠ .idle ∨ 16 ≤ l.hostFifo.length) → answers .busy)
       ∧ (fits → reachable → s.relay.state = .idle → l.hostFifo.length < 16 →
         run = .next (State.reply { s with
           relay := ⟨.queued, some (n, slots), none⟩
           lines := s.lines.put b { l with hostFifo := l.hostFifo ++ [.relay] } } 0x43#8 tag .accepted .empty)))
  ∧ (∀ (tag : Tag) (s : State),
       let answers (status : Status) (body : Body) : Prop :=
         exec (.relayResult tag (some ())) s = .next (s.reply 0x44#8 tag status body)
       (s.relay.state ≠ .idle → answers .busy .empty)
       ∧ (∀ r, s.relay.state = .idle → s.relay.result = some r → answers .ok (.relay r))
       ∧ (s.relay.state = .idle → s.relay.result = none → answers .unknown .empty))

/-! ### The Record Store -/

/-- PERSIST with nothing dirty is answered OK with PERSIST_DONE at once, and BUSY while a pass runs. Otherwise the pass
begins at the first dirty slot in site-name order, takes the record's image and clears its Dirty mark. The end of a slot
write: read back well, the slot holds its image and leaves the load report, and the pass goes on to the next dirty slot
or ends with PERSIST_DONE. Read back badly, it is written once more; badly twice, the slot is dirty again, reported
WRITE_FAILED with STORE_ERROR, and the pass goes on in the same way; what it then holds is left open (log 7). That a
slot read back well holds its image with no corrected bit (log 48), and that the next dirty slot's image is taken, or
the pass ends, in the step that moves the pass on (log 55), are the model's choices. The end of the section slot's write
ends the pass with PERSIST_DONE, read back well or badly twice, and in the second case the section is dirty again and
reported in the same way. With no pass running and no step 3 to come nothing happens. An image holds the serial, the
nameplate, the override, the block, the applied current and the IR offset of a record that has commissioned content to
keep, an ADOPT among them, and is empty for DISCOVERED, VACANT and a first commit. The end of the boot count's write at
start-up: each strapped branch is DISCOVERING with an ENUM to position 1 placed, an unstrapped one is READY, and no
PERSIST_DONE is raised, also where it was read back badly twice. -/
def Obligations.StoreWrites : Prop :=
  (∀ (tag : Tag) (s : State), s.bringupDone = true →
     let run := exec (.persist tag (some ())) s
     (s.store.pass ≠ none → run = .next (s.reply 0x42#8 tag .busy .empty))
     ∧ (s.store.pass = none → (∀ n, (s.site n).dirty = false) → s.store.sectionDirty = false →
       run = .next ((s.raise .persistDone).reply 0x42#8 tag .ok .empty))
     ∧ (s.store.pass = none → ∀ n : SiteName, (s.site n).dirty = true → (∀ m, m < n → (s.site m).dirty = false) →
       run = .next ((State.setSite { s with store := { s.store with pass := some ⟨.site n (s.site n).image, false, false⟩ } }
         n { s.site n with dirty := false }).reply 0x42#8 tag .accepted .empty))
     ∧ (s.store.pass = none → (∀ n, (s.site n).dirty = false) → s.store.sectionDirty = true →
       run = .next (State.reply { s with store := { s.store with
         pass := some ⟨.section_ ⟨s.config, s.bootCount⟩, false, false⟩, sectionDirty := false } } 0x42#8 tag .accepted
         .empty)))
  ∧ ((∀ (s : State) (result : ReadBack), s.store.pass = none → s.store.stepThree = .idle →
       exec (.slotWriteDone result) s = .next s)
     ∧ (∀ (s : State) (p : Pass), s.store.pass = some p → p.again = false →
       exec (.slotWriteDone .bad) s = .next { s with store := { s.store with pass := some { p with again := true } } })
     ∧ ∀ (s : State) (n : SiteName) (image : Option SiteImage) (again : Bool),
       s.store.pass = some ⟨.site n image, again, false⟩ →
       (∃ t, exec (.slotWriteDone .good) s = .next t ∧ t.store.siteSlots.get n = .holds image false
         ∧ (∀ m, m ≠ n → t.store.siteSlots.get m = s.store.siteSlots.get m)
         ∧ t.store.sectionSlot = s.store.sectionSlot
         ∧ t.store.report = s.store.report.filter (fun x => x.1 != .site n)
         ∧ (∀ m : SiteName, n < m → (s.site m).dirty = true → (∀ k, n < k → k < m → (s.site k).dirty = false) →
           t.store.pass = some ⟨.site m (s.site m).image, false, false⟩ ∧ (t.site m).dirty = false)
         ∧ ((∀ m : SiteName, n < m → (s.site m).dirty = false) →
           (s.store.sectionDirty = true → t.store.pass = some ⟨.section_ ⟨s.config, s.bootCount⟩, false, false⟩)
           ∧ (s.store.sectionDirty = false → t.store.pass = none ∧ t.flagSet .persistDone = true))
         ∧ (∀ m, { t.site m with dirty := (s.site m).dirty } = s.site m)
         ∧ { t with sites := s.sites, store := s.store, host := s.host } = s)
       ∧ (again = true → ∃ t, exec (.slotWriteDone .bad) s = .next t ∧ (t.site n).dirty = true
           ∧ (SlotName.site n, .writeFailed) ∈ t.store.report ∧ t.flagSet .storeError = true
           ∧ t.store.sectionSlot = s.store.sectionSlot
           ∧ (∀ m, m ≠ n → t.store.siteSlots.get m = s.store.siteSlots.get m)
           ∧ (∀ m : SiteName, n < m → (s.site m).dirty = true → (∀ k, n < k → k < m → (s.site k).dirty = false) →
             t.store.pass = some ⟨.site m (s.site m).image, false, false⟩ ∧ (t.site m).dirty = false)
           ∧ ((∀ m : SiteName, n < m → (s.site m).dirty = false) →
             (s.store.sectionDirty = true → t.store.pass = some ⟨.section_ ⟨s.config, s.bootCount⟩, false, false⟩)
             ∧ (s.store.sectionDirty = false → t.store.pass = none ∧ t.flagSet .persistDone = true))
           ∧ (∀ m, { t.site m with dirty := (s.site m).dirty } = s.site m)
           ∧ { t with sites := s.sites, store := s.store, host := s.host, freeIndex := s.freeIndex } = s))
  ∧ (∀ (s : State) (image : SectionImage) (again : Bool), s.store.pass = some ⟨.section_ image, again, false⟩ →
       exec (.slotWriteDone .good) s = .next (State.raise { s with store := { s.store with
         pass := none, sectionSlot := .holds image false
         report := s.store.report.filter (fun x => x.1 != .section_) } } .persistDone)
       ∧ (again = true → ∃ t, exec (.slotWriteDone .bad) s = .next t ∧ s.SectionWriteFailed t
         ∧ t.flagSet .persistDone = true
         ∧ { t with store := s.store, host := s.host, freeIndex := s.freeIndex } = s))
  ∧ (∀ (s : State) (image : SectionImage) (again : Bool), s.store.pass = some ⟨.section_ image, again, true⟩ →
       s.bringupDone = false → (∀ b, s.line b = Line.blank ∧ s.bring b = BringUp.blank) →
       let begins (t : State) : Prop := t.bringupDone = false ∧ t.flagSet .persistDone = s.flagSet .persistDone
         ∧ ∀ b, if s.strap.selects b = true then (t.bring b).phase = .discovering ∧ (t.bring b).walk = .asking 1
               ∧ (t.line b).hostFifo = [.enum 1]
             else (t.bring b).phase = .ready ∧ t.line b = Line.blank
       (∃ t, exec (.slotWriteDone .good) s = .next t ∧ begins t
         ∧ t.store = { s.store with
             pass := none, sectionSlot := .holds image false
             report := s.store.report.filter (fun x => x.1 != .section_) }
         ∧ { t with store := s.store, bringup := s.bringup, lines := s.lines } = s)
       ∧ (again = true → ∃ t, exec (.slotWriteDone .bad) s = .next t ∧ begins t ∧ s.SectionWriteFailed t
         ∧ { t with
             store := s.store, bringup := s.bringup, lines := s.lines, host := s.host, freeIndex := s.freeIndex } = s))
  ∧ (∀ r : SiteRecord,
       let stored : Prop := r.state = .commissioned ∨ r.state = .unreachable ∨ r.state = .mismatch ∨ r.state = .retiring
         ∨ r.state = .commissioning ∧ r.pending.map (·.purpose) = some .adopt
       (∀ i c, r.node = some i → r.comm = some c → stored →
         r.image = some ⟨i.serial, i.plate, i.hostPlate, c.block, c.applied, r.irOffset⟩)
       ∧ (¬ stored → r.image = none))

/-! ### What every step keeps -/

/-- Every step keeps the site records, the Draft Pool and the host-driven FIFOs as the rules keep them: each record
carries exactly the fields its state asks for, its applied current within its effective limit and LIMIT_CLAMPED by that
limit, never a holder beside a stray time; at most 8 drafts, one to a site; at most 16 items in each FIFO. -/
def Obligations.SoundKept : Prop :=
  ∀ s t : State, s.Sound → Sys2Proof.Machine.step s = .next t → t.Sound

/-- Every step keeps bring-up as R173 and R193 give it: it is done only with both branches READY, and while step 3 waits
or its slot write runs both are LOADING. -/
def Obligations.BringupKept : Prop :=
  ∀ s t : State, s.BringupSound → Sys2Proof.Machine.step s = .next t → t.BringupSound

/-- Every step keeps the serials apart: no Node serial stands in two records. -/
def Obligations.SerialsKept : Prop :=
  ∀ s t : State, s.Sound → s.SerialsSound → Sys2Proof.Machine.step s = .next t → t.SerialsSound

/-- Every step keeps the close order to the CLOSED entries, each once, and leaves a CLOSED lease no pending change and
no call, placed or waiting. -/
def Obligations.ClosedKept : Prop :=
  ∀ s t : State, s.Sound → s.ClosedSound → Sys2Proof.Machine.step s = .next t → t.ClosedSound

/-- Every step keeps the law of holders: a record is held by a handle just where that handle names a live lease with the
site in its span, not DROPPED. -/
def Obligations.HoldersKept : Prop :=
  ∀ s t : State, s.Sound → s.ClosedSound → s.HoldersSound → Sys2Proof.Machine.step s = .next t → t.HoldersSound

/-- Every step keeps the lease queues: each site has at most one lease poll, and each lease call stands once, for a site
of its branch with that call queued in the work record of a live lease. -/
def Obligations.QueuesKept : Prop :=
  ∀ s t : State, s.Sound → s.ClosedSound → s.QueuesSound → Sys2Proof.Machine.step s = .next t → t.QueuesSound

/-- Every step with a well-formed command in front keeps section time's items in their ranges and present as R123 gives,
and no lease ARMING, ARMED or RUNNING in UNSET or LOST. That the holdover seconds are present in LOST is the model's
choice (log 25). -/
def Obligations.TimeKept : Prop :=
  ∀ s t : State, s.Sound → s.TimeSound → (∀ c ∈ s.pending, c.wellFormed = true) → Sys2Proof.Machine.step s = .next t →
    t.TimeSound

end Statements
end

