-- ==== Sys2Proof/Laws/State.lean ====
section
/-! SUPPORT. What each plain update of the state leaves and writes: one lemma for each field and update, and one
for each accessor. -/

namespace Sys2Proof.Machine

open Sys2Proof

/-! ### Fields an update does not write -/

@[simp] theorem setSite_pending (s : State) (n : SiteName) (r : SiteRecord) : (s.setSite n r).pending = s.pending := rfl
@[simp] theorem setSite_timebase (s : State) (n : SiteName) (r : SiteRecord) : (s.setSite n r).timebase = s.timebase := rfl
@[simp] theorem setSite_pins (s : State) (n : SiteName) (r : SiteRecord) : (s.setSite n r).pins = s.pins := rfl
@[simp] theorem setSite_upkeep (s : State) (n : SiteName) (r : SiteRecord) : (s.setSite n r).upkeep = s.upkeep := rfl
@[simp] theorem setSite_refreshing (s : State) (n : SiteName) (r : SiteRecord) : (s.setSite n r).refreshing = s.refreshing := rfl
@[simp] theorem setSite_attemptFrom (s : State) (n : SiteName) (r : SiteRecord) : (s.setSite n r).attemptFrom = s.attemptFrom := rfl
@[simp] theorem setSite_polling (s : State) (n : SiteName) (r : SiteRecord) : (s.setSite n r).polling = s.polling := rfl
@[simp] theorem setSite_frozen (s : State) (n : SiteName) (r : SiteRecord) : (s.setSite n r).frozen = s.frozen := rfl
@[simp] theorem setSite_snapTime (s : State) (n : SiteName) (r : SiteRecord) : (s.setSite n r).snapTime = s.snapTime := rfl
@[simp] theorem setSite_frozenReadings (s : State) (n : SiteName) (r : SiteRecord) : (s.setSite n r).frozenReadings = s.frozenReadings := rfl
@[simp] theorem setSite_drafts (s : State) (n : SiteName) (r : SiteRecord) : (s.setSite n r).drafts = s.drafts := rfl
@[simp] theorem setSite_leases (s : State) (n : SiteName) (r : SiteRecord) : (s.setSite n r).leases = s.leases := rfl
@[simp] theorem setSite_closeOrder (s : State) (n : SiteName) (r : SiteRecord) : (s.setSite n r).closeOrder = s.closeOrder := rfl
@[simp] theorem setSite_clock (s : State) (n : SiteName) (r : SiteRecord) : (s.setSite n r).clock = s.clock := rfl
@[simp] theorem setSite_lines (s : State) (n : SiteName) (r : SiteRecord) : (s.setSite n r).lines = s.lines := rfl
@[simp] theorem setSite_relay (s : State) (n : SiteName) (r : SiteRecord) : (s.setSite n r).relay = s.relay := rfl
@[simp] theorem setSite_strap (s : State) (n : SiteName) (r : SiteRecord) : (s.setSite n r).strap = s.strap := rfl
@[simp] theorem setSite_bringup (s : State) (n : SiteName) (r : SiteRecord) : (s.setSite n r).bringup = s.bringup := rfl
@[simp] theorem setSite_bringupDone (s : State) (n : SiteName) (r : SiteRecord) : (s.setSite n r).bringupDone = s.bringupDone := rfl
@[simp] theorem setSite_store (s : State) (n : SiteName) (r : SiteRecord) : (s.setSite n r).store = s.store := rfl
@[simp] theorem setSite_bootCount (s : State) (n : SiteName) (r : SiteRecord) : (s.setSite n r).bootCount = s.bootCount := rfl
@[simp] theorem setSite_config (s : State) (n : SiteName) (r : SiteRecord) : (s.setSite n r).config = s.config := rfl
@[simp] theorem setSite_host (s : State) (n : SiteName) (r : SiteRecord) : (s.setSite n r).host = s.host := rfl
@[simp] theorem setSite_freeIndex (s : State) (n : SiteName) (r : SiteRecord) : (s.setSite n r).freeIndex = s.freeIndex := rfl

@[simp] theorem setUpkeep_pending (s : State) (n : SiteName) (u : Upkeep) : (s.setUpkeep n u).pending = s.pending := rfl
@[simp] theorem setUpkeep_timebase (s : State) (n : SiteName) (u : Upkeep) : (s.setUpkeep n u).timebase = s.timebase := rfl
@[simp] theorem setUpkeep_pins (s : State) (n : SiteName) (u : Upkeep) : (s.setUpkeep n u).pins = s.pins := rfl
@[simp] theorem setUpkeep_sites (s : State) (n : SiteName) (u : Upkeep) : (s.setUpkeep n u).sites = s.sites := rfl
@[simp] theorem setUpkeep_refreshing (s : State) (n : SiteName) (u : Upkeep) : (s.setUpkeep n u).refreshing = s.refreshing := rfl
@[simp] theorem setUpkeep_attemptFrom (s : State) (n : SiteName) (u : Upkeep) : (s.setUpkeep n u).attemptFrom = s.attemptFrom := rfl
@[simp] theorem setUpkeep_polling (s : State) (n : SiteName) (u : Upkeep) : (s.setUpkeep n u).polling = s.polling := rfl
@[simp] theorem setUpkeep_frozen (s : State) (n : SiteName) (u : Upkeep) : (s.setUpkeep n u).frozen = s.frozen := rfl
@[simp] theorem setUpkeep_snapTime (s : State) (n : SiteName) (u : Upkeep) : (s.setUpkeep n u).snapTime = s.snapTime := rfl
@[simp] theorem setUpkeep_frozenReadings (s : State) (n : SiteName) (u : Upkeep) : (s.setUpkeep n u).frozenReadings = s.frozenReadings := rfl
@[simp] theorem setUpkeep_drafts (s : State) (n : SiteName) (u : Upkeep) : (s.setUpkeep n u).drafts = s.drafts := rfl
@[simp] theorem setUpkeep_leases (s : State) (n : SiteName) (u : Upkeep) : (s.setUpkeep n u).leases = s.leases := rfl
@[simp] theorem setUpkeep_closeOrder (s : State) (n : SiteName) (u : Upkeep) : (s.setUpkeep n u).closeOrder = s.closeOrder := rfl
@[simp] theorem setUpkeep_clock (s : State) (n : SiteName) (u : Upkeep) : (s.setUpkeep n u).clock = s.clock := rfl
@[simp] theorem setUpkeep_lines (s : State) (n : SiteName) (u : Upkeep) : (s.setUpkeep n u).lines = s.lines := rfl
@[simp] theorem setUpkeep_relay (s : State) (n : SiteName) (u : Upkeep) : (s.setUpkeep n u).relay = s.relay := rfl
@[simp] theorem setUpkeep_strap (s : State) (n : SiteName) (u : Upkeep) : (s.setUpkeep n u).strap = s.strap := rfl
@[simp] theorem setUpkeep_bringup (s : State) (n : SiteName) (u : Upkeep) : (s.setUpkeep n u).bringup = s.bringup := rfl
@[simp] theorem setUpkeep_bringupDone (s : State) (n : SiteName) (u : Upkeep) : (s.setUpkeep n u).bringupDone = s.bringupDone := rfl
@[simp] theorem setUpkeep_store (s : State) (n : SiteName) (u : Upkeep) : (s.setUpkeep n u).store = s.store := rfl
@[simp] theorem setUpkeep_bootCount (s : State) (n : SiteName) (u : Upkeep) : (s.setUpkeep n u).bootCount = s.bootCount := rfl
@[simp] theorem setUpkeep_config (s : State) (n : SiteName) (u : Upkeep) : (s.setUpkeep n u).config = s.config := rfl
@[simp] theorem setUpkeep_host (s : State) (n : SiteName) (u : Upkeep) : (s.setUpkeep n u).host = s.host := rfl
@[simp] theorem setUpkeep_freeIndex (s : State) (n : SiteName) (u : Upkeep) : (s.setUpkeep n u).freeIndex = s.freeIndex := rfl

@[simp] theorem setAttempt_pending (s : State) (n : SiteName) (t : Option Nat) : (s.setAttempt n t).pending = s.pending := rfl
@[simp] theorem setAttempt_timebase (s : State) (n : SiteName) (t : Option Nat) : (s.setAttempt n t).timebase = s.timebase := rfl
@[simp] theorem setAttempt_pins (s : State) (n : SiteName) (t : Option Nat) : (s.setAttempt n t).pins = s.pins := rfl
@[simp] theorem setAttempt_sites (s : State) (n : SiteName) (t : Option Nat) : (s.setAttempt n t).sites = s.sites := rfl
@[simp] theorem setAttempt_upkeep (s : State) (n : SiteName) (t : Option Nat) : (s.setAttempt n t).upkeep = s.upkeep := rfl
@[simp] theorem setAttempt_refreshing (s : State) (n : SiteName) (t : Option Nat) : (s.setAttempt n t).refreshing = s.refreshing := rfl
@[simp] theorem setAttempt_polling (s : State) (n : SiteName) (t : Option Nat) : (s.setAttempt n t).polling = s.polling := rfl
@[simp] theorem setAttempt_frozen (s : State) (n : SiteName) (t : Option Nat) : (s.setAttempt n t).frozen = s.frozen := rfl
@[simp] theorem setAttempt_snapTime (s : State) (n : SiteName) (t : Option Nat) : (s.setAttempt n t).snapTime = s.snapTime := rfl
@[simp] theorem setAttempt_frozenReadings (s : State) (n : SiteName) (t : Option Nat) : (s.setAttempt n t).frozenReadings = s.frozenReadings := rfl
@[simp] theorem setAttempt_drafts (s : State) (n : SiteName) (t : Option Nat) : (s.setAttempt n t).drafts = s.drafts := rfl
@[simp] theorem setAttempt_leases (s : State) (n : SiteName) (t : Option Nat) : (s.setAttempt n t).leases = s.leases := rfl
@[simp] theorem setAttempt_closeOrder (s : State) (n : SiteName) (t : Option Nat) : (s.setAttempt n t).closeOrder = s.closeOrder := rfl
@[simp] theorem setAttempt_clock (s : State) (n : SiteName) (t : Option Nat) : (s.setAttempt n t).clock = s.clock := rfl
@[simp] theorem setAttempt_lines (s : State) (n : SiteName) (t : Option Nat) : (s.setAttempt n t).lines = s.lines := rfl
@[simp] theorem setAttempt_relay (s : State) (n : SiteName) (t : Option Nat) : (s.setAttempt n t).relay = s.relay := rfl
@[simp] theorem setAttempt_strap (s : State) (n : SiteName) (t : Option Nat) : (s.setAttempt n t).strap = s.strap := rfl
@[simp] theorem setAttempt_bringup (s : State) (n : SiteName) (t : Option Nat) : (s.setAttempt n t).bringup = s.bringup := rfl
@[simp] theorem setAttempt_bringupDone (s : State) (n : SiteName) (t : Option Nat) : (s.setAttempt n t).bringupDone = s.bringupDone := rfl
@[simp] theorem setAttempt_store (s : State) (n : SiteName) (t : Option Nat) : (s.setAttempt n t).store = s.store := rfl
@[simp] theorem setAttempt_bootCount (s : State) (n : SiteName) (t : Option Nat) : (s.setAttempt n t).bootCount = s.bootCount := rfl
@[simp] theorem setAttempt_config (s : State) (n : SiteName) (t : Option Nat) : (s.setAttempt n t).config = s.config := rfl
@[simp] theorem setAttempt_host (s : State) (n : SiteName) (t : Option Nat) : (s.setAttempt n t).host = s.host := rfl
@[simp] theorem setAttempt_freeIndex (s : State) (n : SiteName) (t : Option Nat) : (s.setAttempt n t).freeIndex = s.freeIndex := rfl

@[simp] theorem setFrozen_pending (s : State) (n : SiteName) (r : Option Readings) : (s.setFrozen n r).pending = s.pending := rfl
@[simp] theorem setFrozen_timebase (s : State) (n : SiteName) (r : Option Readings) : (s.setFrozen n r).timebase = s.timebase := rfl
@[simp] theorem setFrozen_pins (s : State) (n : SiteName) (r : Option Readings) : (s.setFrozen n r).pins = s.pins := rfl
@[simp] theorem setFrozen_sites (s : State) (n : SiteName) (r : Option Readings) : (s.setFrozen n r).sites = s.sites := rfl
@[simp] theorem setFrozen_upkeep (s : State) (n : SiteName) (r : Option Readings) : (s.setFrozen n r).upkeep = s.upkeep := rfl
@[simp] theorem setFrozen_refreshing (s : State) (n : SiteName) (r : Option Readings) : (s.setFrozen n r).refreshing = s.refreshing := rfl
@[simp] theorem setFrozen_attemptFrom (s : State) (n : SiteName) (r : Option Readings) : (s.setFrozen n r).attemptFrom = s.attemptFrom := rfl
@[simp] theorem setFrozen_polling (s : State) (n : SiteName) (r : Option Readings) : (s.setFrozen n r).polling = s.polling := rfl
@[simp] theorem setFrozen_frozen (s : State) (n : SiteName) (r : Option Readings) : (s.setFrozen n r).frozen = s.frozen := rfl
@[simp] theorem setFrozen_snapTime (s : State) (n : SiteName) (r : Option Readings) : (s.setFrozen n r).snapTime = s.snapTime := rfl
@[simp] theorem setFrozen_drafts (s : State) (n : SiteName) (r : Option Readings) : (s.setFrozen n r).drafts = s.drafts := rfl
@[simp] theorem setFrozen_leases (s : State) (n : SiteName) (r : Option Readings) : (s.setFrozen n r).leases = s.leases := rfl
@[simp] theorem setFrozen_closeOrder (s : State) (n : SiteName) (r : Option Readings) : (s.setFrozen n r).closeOrder = s.closeOrder := rfl
@[simp] theorem setFrozen_clock (s : State) (n : SiteName) (r : Option Readings) : (s.setFrozen n r).clock = s.clock := rfl
@[simp] theorem setFrozen_lines (s : State) (n : SiteName) (r : Option Readings) : (s.setFrozen n r).lines = s.lines := rfl
@[simp] theorem setFrozen_relay (s : State) (n : SiteName) (r : Option Readings) : (s.setFrozen n r).relay = s.relay := rfl
@[simp] theorem setFrozen_strap (s : State) (n : SiteName) (r : Option Readings) : (s.setFrozen n r).strap = s.strap := rfl
@[simp] theorem setFrozen_bringup (s : State) (n : SiteName) (r : Option Readings) : (s.setFrozen n r).bringup = s.bringup := rfl
@[simp] theorem setFrozen_bringupDone (s : State) (n : SiteName) (r : Option Readings) : (s.setFrozen n r).bringupDone = s.bringupDone := rfl
@[simp] theorem setFrozen_store (s : State) (n : SiteName) (r : Option Readings) : (s.setFrozen n r).store = s.store := rfl
@[simp] theorem setFrozen_bootCount (s : State) (n : SiteName) (r : Option Readings) : (s.setFrozen n r).bootCount = s.bootCount := rfl
@[simp] theorem setFrozen_config (s : State) (n : SiteName) (r : Option Readings) : (s.setFrozen n r).config = s.config := rfl
@[simp] theorem setFrozen_host (s : State) (n : SiteName) (r : Option Readings) : (s.setFrozen n r).host = s.host := rfl
@[simp] theorem setFrozen_freeIndex (s : State) (n : SiteName) (r : Option Readings) : (s.setFrozen n r).freeIndex = s.freeIndex := rfl

@[simp] theorem setEntry_pending (s : State) (e : EntryNo) (x : LeaseEntry) : (s.setEntry e x).pending = s.pending := rfl
@[simp] theorem setEntry_timebase (s : State) (e : EntryNo) (x : LeaseEntry) : (s.setEntry e x).timebase = s.timebase := rfl
@[simp] theorem setEntry_pins (s : State) (e : EntryNo) (x : LeaseEntry) : (s.setEntry e x).pins = s.pins := rfl
@[simp] theorem setEntry_sites (s : State) (e : EntryNo) (x : LeaseEntry) : (s.setEntry e x).sites = s.sites := rfl
@[simp] theorem setEntry_upkeep (s : State) (e : EntryNo) (x : LeaseEntry) : (s.setEntry e x).upkeep = s.upkeep := rfl
@[simp] theorem setEntry_refreshing (s : State) (e : EntryNo) (x : LeaseEntry) : (s.setEntry e x).refreshing = s.refreshing := rfl
@[simp] theorem setEntry_attemptFrom (s : State) (e : EntryNo) (x : LeaseEntry) : (s.setEntry e x).attemptFrom = s.attemptFrom := rfl
@[simp] theorem setEntry_polling (s : State) (e : EntryNo) (x : LeaseEntry) : (s.setEntry e x).polling = s.polling := rfl
@[simp] theorem setEntry_frozen (s : State) (e : EntryNo) (x : LeaseEntry) : (s.setEntry e x).frozen = s.frozen := rfl
@[simp] theorem setEntry_snapTime (s : State) (e : EntryNo) (x : LeaseEntry) : (s.setEntry e x).snapTime = s.snapTime := rfl
@[simp] theorem setEntry_frozenReadings (s : State) (e : EntryNo) (x : LeaseEntry) : (s.setEntry e x).frozenReadings = s.frozenReadings := rfl
@[simp] theorem setEntry_drafts (s : State) (e : EntryNo) (x : LeaseEntry) : (s.setEntry e x).drafts = s.drafts := rfl
@[simp] theorem setEntry_closeOrder (s : State) (e : EntryNo) (x : LeaseEntry) : (s.setEntry e x).closeOrder = s.closeOrder := rfl
@[simp] theorem setEntry_clock (s : State) (e : EntryNo) (x : LeaseEntry) : (s.setEntry e x).clock = s.clock := rfl
@[simp] theorem setEntry_lines (s : State) (e : EntryNo) (x : LeaseEntry) : (s.setEntry e x).lines = s.lines := rfl
@[simp] theorem setEntry_relay (s : State) (e : EntryNo) (x : LeaseEntry) : (s.setEntry e x).relay = s.relay := rfl
@[simp] theorem setEntry_strap (s : State) (e : EntryNo) (x : LeaseEntry) : (s.setEntry e x).strap = s.strap := rfl
@[simp] theorem setEntry_bringup (s : State) (e : EntryNo) (x : LeaseEntry) : (s.setEntry e x).bringup = s.bringup := rfl
@[simp] theorem setEntry_bringupDone (s : State) (e : EntryNo) (x : LeaseEntry) : (s.setEntry e x).bringupDone = s.bringupDone := rfl
@[simp] theorem setEntry_store (s : State) (e : EntryNo) (x : LeaseEntry) : (s.setEntry e x).store = s.store := rfl
@[simp] theorem setEntry_bootCount (s : State) (e : EntryNo) (x : LeaseEntry) : (s.setEntry e x).bootCount = s.bootCount := rfl
@[simp] theorem setEntry_config (s : State) (e : EntryNo) (x : LeaseEntry) : (s.setEntry e x).config = s.config := rfl
@[simp] theorem setEntry_host (s : State) (e : EntryNo) (x : LeaseEntry) : (s.setEntry e x).host = s.host := rfl
@[simp] theorem setEntry_freeIndex (s : State) (e : EntryNo) (x : LeaseEntry) : (s.setEntry e x).freeIndex = s.freeIndex := rfl

@[simp] theorem setLine_pending (s : State) (b : Branch) (l : Line) : (s.setLine b l).pending = s.pending := rfl
@[simp] theorem setLine_timebase (s : State) (b : Branch) (l : Line) : (s.setLine b l).timebase = s.timebase := rfl
@[simp] theorem setLine_pins (s : State) (b : Branch) (l : Line) : (s.setLine b l).pins = s.pins := rfl
@[simp] theorem setLine_sites (s : State) (b : Branch) (l : Line) : (s.setLine b l).sites = s.sites := rfl
@[simp] theorem setLine_upkeep (s : State) (b : Branch) (l : Line) : (s.setLine b l).upkeep = s.upkeep := rfl
@[simp] theorem setLine_refreshing (s : State) (b : Branch) (l : Line) : (s.setLine b l).refreshing = s.refreshing := rfl
@[simp] theorem setLine_attemptFrom (s : State) (b : Branch) (l : Line) : (s.setLine b l).attemptFrom = s.attemptFrom := rfl
@[simp] theorem setLine_polling (s : State) (b : Branch) (l : Line) : (s.setLine b l).polling = s.polling := rfl
@[simp] theorem setLine_frozen (s : State) (b : Branch) (l : Line) : (s.setLine b l).frozen = s.frozen := rfl
@[simp] theorem setLine_snapTime (s : State) (b : Branch) (l : Line) : (s.setLine b l).snapTime = s.snapTime := rfl
@[simp] theorem setLine_frozenReadings (s : State) (b : Branch) (l : Line) : (s.setLine b l).frozenReadings = s.frozenReadings := rfl
@[simp] theorem setLine_drafts (s : State) (b : Branch) (l : Line) : (s.setLine b l).drafts = s.drafts := rfl
@[simp] theorem setLine_leases (s : State) (b : Branch) (l : Line) : (s.setLine b l).leases = s.leases := rfl
@[simp] theorem setLine_closeOrder (s : State) (b : Branch) (l : Line) : (s.setLine b l).closeOrder = s.closeOrder := rfl
@[simp] theorem setLine_clock (s : State) (b : Branch) (l : Line) : (s.setLine b l).clock = s.clock := rfl
@[simp] theorem setLine_relay (s : State) (b : Branch) (l : Line) : (s.setLine b l).relay = s.relay := rfl
@[simp] theorem setLine_strap (s : State) (b : Branch) (l : Line) : (s.setLine b l).strap = s.strap := rfl
@[simp] theorem setLine_bringup (s : State) (b : Branch) (l : Line) : (s.setLine b l).bringup = s.bringup := rfl
@[simp] theorem setLine_bringupDone (s : State) (b : Branch) (l : Line) : (s.setLine b l).bringupDone = s.bringupDone := rfl
@[simp] theorem setLine_store (s : State) (b : Branch) (l : Line) : (s.setLine b l).store = s.store := rfl
@[simp] theorem setLine_bootCount (s : State) (b : Branch) (l : Line) : (s.setLine b l).bootCount = s.bootCount := rfl
@[simp] theorem setLine_config (s : State) (b : Branch) (l : Line) : (s.setLine b l).config = s.config := rfl
@[simp] theorem setLine_host (s : State) (b : Branch) (l : Line) : (s.setLine b l).host = s.host := rfl
@[simp] theorem setLine_freeIndex (s : State) (b : Branch) (l : Line) : (s.setLine b l).freeIndex = s.freeIndex := rfl

@[simp] theorem setBring_pending (s : State) (b : Branch) (x : BringUp) : (s.setBring b x).pending = s.pending := rfl
@[simp] theorem setBring_timebase (s : State) (b : Branch) (x : BringUp) : (s.setBring b x).timebase = s.timebase := rfl
@[simp] theorem setBring_pins (s : State) (b : Branch) (x : BringUp) : (s.setBring b x).pins = s.pins := rfl
@[simp] theorem setBring_sites (s : State) (b : Branch) (x : BringUp) : (s.setBring b x).sites = s.sites := rfl
@[simp] theorem setBring_upkeep (s : State) (b : Branch) (x : BringUp) : (s.setBring b x).upkeep = s.upkeep := rfl
@[simp] theorem setBring_refreshing (s : State) (b : Branch) (x : BringUp) : (s.setBring b x).refreshing = s.refreshing := rfl
@[simp] theorem setBring_attemptFrom (s : State) (b : Branch) (x : BringUp) : (s.setBring b x).attemptFrom = s.attemptFrom := rfl
@[simp] theorem setBring_polling (s : State) (b : Branch) (x : BringUp) : (s.setBring b x).polling = s.polling := rfl
@[simp] theorem setBring_frozen (s : State) (b : Branch) (x : BringUp) : (s.setBring b x).frozen = s.frozen := rfl
@[simp] theorem setBring_snapTime (s : State) (b : Branch) (x : BringUp) : (s.setBring b x).snapTime = s.snapTime := rfl
@[simp] theorem setBring_frozenReadings (s : State) (b : Branch) (x : BringUp) : (s.setBring b x).frozenReadings = s.frozenReadings := rfl
@[simp] theorem setBring_drafts (s : State) (b : Branch) (x : BringUp) : (s.setBring b x).drafts = s.drafts := rfl
@[simp] theorem setBring_leases (s : State) (b : Branch) (x : BringUp) : (s.setBring b x).leases = s.leases := rfl
@[simp] theorem setBring_closeOrder (s : State) (b : Branch) (x : BringUp) : (s.setBring b x).closeOrder = s.closeOrder := rfl
@[simp] theorem setBring_clock (s : State) (b : Branch) (x : BringUp) : (s.setBring b x).clock = s.clock := rfl
@[simp] theorem setBring_lines (s : State) (b : Branch) (x : BringUp) : (s.setBring b x).lines = s.lines := rfl
@[simp] theorem setBring_relay (s : State) (b : Branch) (x : BringUp) : (s.setBring b x).relay = s.relay := rfl
@[simp] theorem setBring_strap (s : State) (b : Branch) (x : BringUp) : (s.setBring b x).strap = s.strap := rfl
@[simp] theorem setBring_bringupDone (s : State) (b : Branch) (x : BringUp) : (s.setBring b x).bringupDone = s.bringupDone := rfl
@[simp] theorem setBring_store (s : State) (b : Branch) (x : BringUp) : (s.setBring b x).store = s.store := rfl
@[simp] theorem setBring_bootCount (s : State) (b : Branch) (x : BringUp) : (s.setBring b x).bootCount = s.bootCount := rfl
@[simp] theorem setBring_config (s : State) (b : Branch) (x : BringUp) : (s.setBring b x).config = s.config := rfl
@[simp] theorem setBring_host (s : State) (b : Branch) (x : BringUp) : (s.setBring b x).host = s.host := rfl
@[simp] theorem setBring_freeIndex (s : State) (b : Branch) (x : BringUp) : (s.setBring b x).freeIndex = s.freeIndex := rfl

@[simp] theorem setClock_pending (s : State) (c : Clock) : (s.setClock c).pending = s.pending := rfl
@[simp] theorem setClock_timebase (s : State) (c : Clock) : (s.setClock c).timebase = s.timebase := rfl
@[simp] theorem setClock_pins (s : State) (c : Clock) : (s.setClock c).pins = s.pins := rfl
@[simp] theorem setClock_sites (s : State) (c : Clock) : (s.setClock c).sites = s.sites := rfl
@[simp] theorem setClock_upkeep (s : State) (c : Clock) : (s.setClock c).upkeep = s.upkeep := rfl
@[simp] theorem setClock_refreshing (s : State) (c : Clock) : (s.setClock c).refreshing = s.refreshing := rfl
@[simp] theorem setClock_attemptFrom (s : State) (c : Clock) : (s.setClock c).attemptFrom = s.attemptFrom := rfl
@[simp] theorem setClock_polling (s : State) (c : Clock) : (s.setClock c).polling = s.polling := rfl
@[simp] theorem setClock_frozen (s : State) (c : Clock) : (s.setClock c).frozen = s.frozen := rfl
@[simp] theorem setClock_snapTime (s : State) (c : Clock) : (s.setClock c).snapTime = s.snapTime := rfl
@[simp] theorem setClock_frozenReadings (s : State) (c : Clock) : (s.setClock c).frozenReadings = s.frozenReadings := rfl
@[simp] theorem setClock_drafts (s : State) (c : Clock) : (s.setClock c).drafts = s.drafts := rfl
@[simp] theorem setClock_leases (s : State) (c : Clock) : (s.setClock c).leases = s.leases := rfl
@[simp] theorem setClock_closeOrder (s : State) (c : Clock) : (s.setClock c).closeOrder = s.closeOrder := rfl
@[simp] theorem setClock_lines (s : State) (c : Clock) : (s.setClock c).lines = s.lines := rfl
@[simp] theorem setClock_relay (s : State) (c : Clock) : (s.setClock c).relay = s.relay := rfl
@[simp] theorem setClock_strap (s : State) (c : Clock) : (s.setClock c).strap = s.strap := rfl
@[simp] theorem setClock_bringup (s : State) (c : Clock) : (s.setClock c).bringup = s.bringup := rfl
@[simp] theorem setClock_bringupDone (s : State) (c : Clock) : (s.setClock c).bringupDone = s.bringupDone := rfl
@[simp] theorem setClock_store (s : State) (c : Clock) : (s.setClock c).store = s.store := rfl
@[simp] theorem setClock_bootCount (s : State) (c : Clock) : (s.setClock c).bootCount = s.bootCount := rfl
@[simp] theorem setClock_config (s : State) (c : Clock) : (s.setClock c).config = s.config := rfl
@[simp] theorem setClock_host (s : State) (c : Clock) : (s.setClock c).host = s.host := rfl
@[simp] theorem setClock_freeIndex (s : State) (c : Clock) : (s.setClock c).freeIndex = s.freeIndex := rfl

@[simp] theorem atMoment_pending (s : State) (m : Nat) : (s.atMoment m).pending = s.pending := rfl
@[simp] theorem atMoment_pins (s : State) (m : Nat) : (s.atMoment m).pins = s.pins := rfl
@[simp] theorem atMoment_sites (s : State) (m : Nat) : (s.atMoment m).sites = s.sites := rfl
@[simp] theorem atMoment_upkeep (s : State) (m : Nat) : (s.atMoment m).upkeep = s.upkeep := rfl
@[simp] theorem atMoment_refreshing (s : State) (m : Nat) : (s.atMoment m).refreshing = s.refreshing := rfl
@[simp] theorem atMoment_attemptFrom (s : State) (m : Nat) : (s.atMoment m).attemptFrom = s.attemptFrom := rfl
@[simp] theorem atMoment_polling (s : State) (m : Nat) : (s.atMoment m).polling = s.polling := rfl
@[simp] theorem atMoment_frozen (s : State) (m : Nat) : (s.atMoment m).frozen = s.frozen := rfl
@[simp] theorem atMoment_snapTime (s : State) (m : Nat) : (s.atMoment m).snapTime = s.snapTime := rfl
@[simp] theorem atMoment_frozenReadings (s : State) (m : Nat) : (s.atMoment m).frozenReadings = s.frozenReadings := rfl
@[simp] theorem atMoment_drafts (s : State) (m : Nat) : (s.atMoment m).drafts = s.drafts := rfl
@[simp] theorem atMoment_leases (s : State) (m : Nat) : (s.atMoment m).leases = s.leases := rfl
@[simp] theorem atMoment_closeOrder (s : State) (m : Nat) : (s.atMoment m).closeOrder = s.closeOrder := rfl
@[simp] theorem atMoment_clock (s : State) (m : Nat) : (s.atMoment m).clock = s.clock := rfl
@[simp] theorem atMoment_lines (s : State) (m : Nat) : (s.atMoment m).lines = s.lines := rfl
@[simp] theorem atMoment_relay (s : State) (m : Nat) : (s.atMoment m).relay = s.relay := rfl
@[simp] theorem atMoment_strap (s : State) (m : Nat) : (s.atMoment m).strap = s.strap := rfl
@[simp] theorem atMoment_bringup (s : State) (m : Nat) : (s.atMoment m).bringup = s.bringup := rfl
@[simp] theorem atMoment_bringupDone (s : State) (m : Nat) : (s.atMoment m).bringupDone = s.bringupDone := rfl
@[simp] theorem atMoment_store (s : State) (m : Nat) : (s.atMoment m).store = s.store := rfl
@[simp] theorem atMoment_bootCount (s : State) (m : Nat) : (s.atMoment m).bootCount = s.bootCount := rfl
@[simp] theorem atMoment_config (s : State) (m : Nat) : (s.atMoment m).config = s.config := rfl
@[simp] theorem atMoment_host (s : State) (m : Nat) : (s.atMoment m).host = s.host := rfl
@[simp] theorem atMoment_freeIndex (s : State) (m : Nat) : (s.atMoment m).freeIndex = s.freeIndex := rfl

@[simp] theorem raise_pending (s : State) (f : EventFlag) : (s.raise f).pending = s.pending := rfl
@[simp] theorem raise_timebase (s : State) (f : EventFlag) : (s.raise f).timebase = s.timebase := rfl
@[simp] theorem raise_pins (s : State) (f : EventFlag) : (s.raise f).pins = s.pins := rfl
@[simp] theorem raise_sites (s : State) (f : EventFlag) : (s.raise f).sites = s.sites := rfl
@[simp] theorem raise_upkeep (s : State) (f : EventFlag) : (s.raise f).upkeep = s.upkeep := rfl
@[simp] theorem raise_refreshing (s : State) (f : EventFlag) : (s.raise f).refreshing = s.refreshing := rfl
@[simp] theorem raise_attemptFrom (s : State) (f : EventFlag) : (s.raise f).attemptFrom = s.attemptFrom := rfl
@[simp] theorem raise_polling (s : State) (f : EventFlag) : (s.raise f).polling = s.polling := rfl
@[simp] theorem raise_frozen (s : State) (f : EventFlag) : (s.raise f).frozen = s.frozen := rfl
@[simp] theorem raise_snapTime (s : State) (f : EventFlag) : (s.raise f).snapTime = s.snapTime := rfl
@[simp] theorem raise_frozenReadings (s : State) (f : EventFlag) : (s.raise f).frozenReadings = s.frozenReadings := rfl
@[simp] theorem raise_drafts (s : State) (f : EventFlag) : (s.raise f).drafts = s.drafts := rfl
@[simp] theorem raise_leases (s : State) (f : EventFlag) : (s.raise f).leases = s.leases := rfl
@[simp] theorem raise_closeOrder (s : State) (f : EventFlag) : (s.raise f).closeOrder = s.closeOrder := rfl
@[simp] theorem raise_clock (s : State) (f : EventFlag) : (s.raise f).clock = s.clock := rfl
@[simp] theorem raise_lines (s : State) (f : EventFlag) : (s.raise f).lines = s.lines := rfl
@[simp] theorem raise_relay (s : State) (f : EventFlag) : (s.raise f).relay = s.relay := rfl
@[simp] theorem raise_strap (s : State) (f : EventFlag) : (s.raise f).strap = s.strap := rfl
@[simp] theorem raise_bringup (s : State) (f : EventFlag) : (s.raise f).bringup = s.bringup := rfl
@[simp] theorem raise_bringupDone (s : State) (f : EventFlag) : (s.raise f).bringupDone = s.bringupDone := rfl
@[simp] theorem raise_store (s : State) (f : EventFlag) : (s.raise f).store = s.store := rfl
@[simp] theorem raise_bootCount (s : State) (f : EventFlag) : (s.raise f).bootCount = s.bootCount := rfl
@[simp] theorem raise_config (s : State) (f : EventFlag) : (s.raise f).config = s.config := rfl
@[simp] theorem raise_freeIndex (s : State) (f : EventFlag) : (s.raise f).freeIndex = s.freeIndex := rfl
@[simp] theorem raise_host_answer (s : State) (f : EventFlag) : (s.raise f).host.answer = s.host.answer := rfl
@[simp] theorem raise_host_exchange (s : State) (f : EventFlag) : (s.raise f).host.exchange = s.host.exchange := rfl
@[simp] theorem raise_host_mask (s : State) (f : EventFlag) : (s.raise f).host.mask = s.host.mask := rfl
@[simp] theorem raise_host_siteChanges (s : State) (f : EventFlag) : (s.raise f).host.siteChanges = s.host.siteChanges := rfl
@[simp] theorem raise_host_leaseChanges (s : State) (f : EventFlag) : (s.raise f).host.leaseChanges = s.host.leaseChanges := rfl
@[simp] theorem raise_host_cause (s : State) (f : EventFlag) : (s.raise f).host.cause = s.host.cause := rfl
@[simp] theorem raise_host_restarted (s : State) (f : EventFlag) : (s.raise f).host.restarted = s.host.restarted := rfl
@[simp] theorem raise_host_supplyLow (s : State) (f : EventFlag) : (s.raise f).host.supplyLow = s.host.supplyLow := rfl

@[simp] theorem siteChanged_pending (s : State) (n : SiteName) : (s.siteChanged n).pending = s.pending := rfl
@[simp] theorem siteChanged_timebase (s : State) (n : SiteName) : (s.siteChanged n).timebase = s.timebase := rfl
@[simp] theorem siteChanged_pins (s : State) (n : SiteName) : (s.siteChanged n).pins = s.pins := rfl
@[simp] theorem siteChanged_sites (s : State) (n : SiteName) : (s.siteChanged n).sites = s.sites := rfl
@[simp] theorem siteChanged_upkeep (s : State) (n : SiteName) : (s.siteChanged n).upkeep = s.upkeep := rfl
@[simp] theorem siteChanged_refreshing (s : State) (n : SiteName) : (s.siteChanged n).refreshing = s.refreshing := rfl
@[simp] theorem siteChanged_attemptFrom (s : State) (n : SiteName) : (s.siteChanged n).attemptFrom = s.attemptFrom := rfl
@[simp] theorem siteChanged_polling (s : State) (n : SiteName) : (s.siteChanged n).polling = s.polling := rfl
@[simp] theorem siteChanged_frozen (s : State) (n : SiteName) : (s.siteChanged n).frozen = s.frozen := rfl
@[simp] theorem siteChanged_snapTime (s : State) (n : SiteName) : (s.siteChanged n).snapTime = s.snapTime := rfl
@[simp] theorem siteChanged_frozenReadings (s : State) (n : SiteName) : (s.siteChanged n).frozenReadings = s.frozenReadings := rfl
@[simp] theorem siteChanged_drafts (s : State) (n : SiteName) : (s.siteChanged n).drafts = s.drafts := rfl
@[simp] theorem siteChanged_leases (s : State) (n : SiteName) : (s.siteChanged n).leases = s.leases := rfl
@[simp] theorem siteChanged_closeOrder (s : State) (n : SiteName) : (s.siteChanged n).closeOrder = s.closeOrder := rfl
@[simp] theorem siteChanged_clock (s : State) (n : SiteName) : (s.siteChanged n).clock = s.clock := rfl
@[simp] theorem siteChanged_lines (s : State) (n : SiteName) : (s.siteChanged n).lines = s.lines := rfl
@[simp] theorem siteChanged_relay (s : State) (n : SiteName) : (s.siteChanged n).relay = s.relay := rfl
@[simp] theorem siteChanged_strap (s : State) (n : SiteName) : (s.siteChanged n).strap = s.strap := rfl
@[simp] theorem siteChanged_bringup (s : State) (n : SiteName) : (s.siteChanged n).bringup = s.bringup := rfl
@[simp] theorem siteChanged_bringupDone (s : State) (n : SiteName) : (s.siteChanged n).bringupDone = s.bringupDone := rfl
@[simp] theorem siteChanged_store (s : State) (n : SiteName) : (s.siteChanged n).store = s.store := rfl
@[simp] theorem siteChanged_bootCount (s : State) (n : SiteName) : (s.siteChanged n).bootCount = s.bootCount := rfl
@[simp] theorem siteChanged_config (s : State) (n : SiteName) : (s.siteChanged n).config = s.config := rfl
@[simp] theorem siteChanged_freeIndex (s : State) (n : SiteName) : (s.siteChanged n).freeIndex = s.freeIndex := rfl
@[simp] theorem siteChanged_host_answer (s : State) (n : SiteName) : (s.siteChanged n).host.answer = s.host.answer := rfl
@[simp] theorem siteChanged_host_exchange (s : State) (n : SiteName) : (s.siteChanged n).host.exchange = s.host.exchange := rfl
@[simp] theorem siteChanged_host_mask (s : State) (n : SiteName) : (s.siteChanged n).host.mask = s.host.mask := rfl
@[simp] theorem siteChanged_host_leaseChanges (s : State) (n : SiteName) : (s.siteChanged n).host.leaseChanges = s.host.leaseChanges := rfl
@[simp] theorem siteChanged_host_cause (s : State) (n : SiteName) : (s.siteChanged n).host.cause = s.host.cause := rfl
@[simp] theorem siteChanged_host_restarted (s : State) (n : SiteName) : (s.siteChanged n).host.restarted = s.host.restarted := rfl
@[simp] theorem siteChanged_host_supplyLow (s : State) (n : SiteName) : (s.siteChanged n).host.supplyLow = s.host.supplyLow := rfl

@[simp] theorem siteMoved_pending (s : State) (n m : SiteName) : (s.siteMoved n m).pending = s.pending := rfl
@[simp] theorem siteMoved_timebase (s : State) (n m : SiteName) : (s.siteMoved n m).timebase = s.timebase := rfl
@[simp] theorem siteMoved_pins (s : State) (n m : SiteName) : (s.siteMoved n m).pins = s.pins := rfl
@[simp] theorem siteMoved_sites (s : State) (n m : SiteName) : (s.siteMoved n m).sites = s.sites := rfl
@[simp] theorem siteMoved_upkeep (s : State) (n m : SiteName) : (s.siteMoved n m).upkeep = s.upkeep := rfl
@[simp] theorem siteMoved_refreshing (s : State) (n m : SiteName) : (s.siteMoved n m).refreshing = s.refreshing := rfl
@[simp] theorem siteMoved_attemptFrom (s : State) (n m : SiteName) : (s.siteMoved n m).attemptFrom = s.attemptFrom := rfl
@[simp] theorem siteMoved_polling (s : State) (n m : SiteName) : (s.siteMoved n m).polling = s.polling := rfl
@[simp] theorem siteMoved_frozen (s : State) (n m : SiteName) : (s.siteMoved n m).frozen = s.frozen := rfl
@[simp] theorem siteMoved_snapTime (s : State) (n m : SiteName) : (s.siteMoved n m).snapTime = s.snapTime := rfl
@[simp] theorem siteMoved_frozenReadings (s : State) (n m : SiteName) : (s.siteMoved n m).frozenReadings = s.frozenReadings := rfl
@[simp] theorem siteMoved_drafts (s : State) (n m : SiteName) : (s.siteMoved n m).drafts = s.drafts := rfl
@[simp] theorem siteMoved_leases (s : State) (n m : SiteName) : (s.siteMoved n m).leases = s.leases := rfl
@[simp] theorem siteMoved_closeOrder (s : State) (n m : SiteName) : (s.siteMoved n m).closeOrder = s.closeOrder := rfl
@[simp] theorem siteMoved_clock (s : State) (n m : SiteName) : (s.siteMoved n m).clock = s.clock := rfl
@[simp] theorem siteMoved_lines (s : State) (n m : SiteName) : (s.siteMoved n m).lines = s.lines := rfl
@[simp] theorem siteMoved_relay (s : State) (n m : SiteName) : (s.siteMoved n m).relay = s.relay := rfl
@[simp] theorem siteMoved_strap (s : State) (n m : SiteName) : (s.siteMoved n m).strap = s.strap := rfl
@[simp] theorem siteMoved_bringup (s : State) (n m : SiteName) : (s.siteMoved n m).bringup = s.bringup := rfl
@[simp] theorem siteMoved_bringupDone (s : State) (n m : SiteName) : (s.siteMoved n m).bringupDone = s.bringupDone := rfl
@[simp] theorem siteMoved_store (s : State) (n m : SiteName) : (s.siteMoved n m).store = s.store := rfl
@[simp] theorem siteMoved_bootCount (s : State) (n m : SiteName) : (s.siteMoved n m).bootCount = s.bootCount := rfl
@[simp] theorem siteMoved_config (s : State) (n m : SiteName) : (s.siteMoved n m).config = s.config := rfl
@[simp] theorem siteMoved_freeIndex (s : State) (n m : SiteName) : (s.siteMoved n m).freeIndex = s.freeIndex := rfl
@[simp] theorem siteMoved_host_answer (s : State) (n m : SiteName) : (s.siteMoved n m).host.answer = s.host.answer := rfl
@[simp] theorem siteMoved_host_exchange (s : State) (n m : SiteName) : (s.siteMoved n m).host.exchange = s.host.exchange := rfl
@[simp] theorem siteMoved_host_mask (s : State) (n m : SiteName) : (s.siteMoved n m).host.mask = s.host.mask := rfl
@[simp] theorem siteMoved_host_leaseChanges (s : State) (n m : SiteName) : (s.siteMoved n m).host.leaseChanges = s.host.leaseChanges := rfl
@[simp] theorem siteMoved_host_cause (s : State) (n m : SiteName) : (s.siteMoved n m).host.cause = s.host.cause := rfl
@[simp] theorem siteMoved_host_restarted (s : State) (n m : SiteName) : (s.siteMoved n m).host.restarted = s.host.restarted := rfl
@[simp] theorem siteMoved_host_supplyLow (s : State) (n m : SiteName) : (s.siteMoved n m).host.supplyLow = s.host.supplyLow := rfl

@[simp] theorem leaseChanged_pending (s : State) (e : EntryNo) : (s.leaseChanged e).pending = s.pending := rfl
@[simp] theorem leaseChanged_timebase (s : State) (e : EntryNo) : (s.leaseChanged e).timebase = s.timebase := rfl
@[simp] theorem leaseChanged_pins (s : State) (e : EntryNo) : (s.leaseChanged e).pins = s.pins := rfl
@[simp] theorem leaseChanged_sites (s : State) (e : EntryNo) : (s.leaseChanged e).sites = s.sites := rfl
@[simp] theorem leaseChanged_upkeep (s : State) (e : EntryNo) : (s.leaseChanged e).upkeep = s.upkeep := rfl
@[simp] theorem leaseChanged_refreshing (s : State) (e : EntryNo) : (s.leaseChanged e).refreshing = s.refreshing := rfl
@[simp] theorem leaseChanged_attemptFrom (s : State) (e : EntryNo) : (s.leaseChanged e).attemptFrom = s.attemptFrom := rfl
@[simp] theorem leaseChanged_polling (s : State) (e : EntryNo) : (s.leaseChanged e).polling = s.polling := rfl
@[simp] theorem leaseChanged_frozen (s : State) (e : EntryNo) : (s.leaseChanged e).frozen = s.frozen := rfl
@[simp] theorem leaseChanged_snapTime (s : State) (e : EntryNo) : (s.leaseChanged e).snapTime = s.snapTime := rfl
@[simp] theorem leaseChanged_frozenReadings (s : State) (e : EntryNo) : (s.leaseChanged e).frozenReadings = s.frozenReadings := rfl
@[simp] theorem leaseChanged_drafts (s : State) (e : EntryNo) : (s.leaseChanged e).drafts = s.drafts := rfl
@[simp] theorem leaseChanged_leases (s : State) (e : EntryNo) : (s.leaseChanged e).leases = s.leases := rfl
@[simp] theorem leaseChanged_closeOrder (s : State) (e : EntryNo) : (s.leaseChanged e).closeOrder = s.closeOrder := rfl
@[simp] theorem leaseChanged_clock (s : State) (e : EntryNo) : (s.leaseChanged e).clock = s.clock := rfl
@[simp] theorem leaseChanged_lines (s : State) (e : EntryNo) : (s.leaseChanged e).lines = s.lines := rfl
@[simp] theorem leaseChanged_relay (s : State) (e : EntryNo) : (s.leaseChanged e).relay = s.relay := rfl
@[simp] theorem leaseChanged_strap (s : State) (e : EntryNo) : (s.leaseChanged e).strap = s.strap := rfl
@[simp] theorem leaseChanged_bringup (s : State) (e : EntryNo) : (s.leaseChanged e).bringup = s.bringup := rfl
@[simp] theorem leaseChanged_bringupDone (s : State) (e : EntryNo) : (s.leaseChanged e).bringupDone = s.bringupDone := rfl
@[simp] theorem leaseChanged_store (s : State) (e : EntryNo) : (s.leaseChanged e).store = s.store := rfl
@[simp] theorem leaseChanged_bootCount (s : State) (e : EntryNo) : (s.leaseChanged e).bootCount = s.bootCount := rfl
@[simp] theorem leaseChanged_config (s : State) (e : EntryNo) : (s.leaseChanged e).config = s.config := rfl
@[simp] theorem leaseChanged_freeIndex (s : State) (e : EntryNo) : (s.leaseChanged e).freeIndex = s.freeIndex := rfl
@[simp] theorem leaseChanged_host_answer (s : State) (e : EntryNo) : (s.leaseChanged e).host.answer = s.host.answer := rfl
@[simp] theorem leaseChanged_host_exchange (s : State) (e : EntryNo) : (s.leaseChanged e).host.exchange = s.host.exchange := rfl
@[simp] theorem leaseChanged_host_mask (s : State) (e : EntryNo) : (s.leaseChanged e).host.mask = s.host.mask := rfl
@[simp] theorem leaseChanged_host_siteChanges (s : State) (e : EntryNo) : (s.leaseChanged e).host.siteChanges = s.host.siteChanges := rfl
@[simp] theorem leaseChanged_host_cause (s : State) (e : EntryNo) : (s.leaseChanged e).host.cause = s.host.cause := rfl
@[simp] theorem leaseChanged_host_restarted (s : State) (e : EntryNo) : (s.leaseChanged e).host.restarted = s.host.restarted := rfl
@[simp] theorem leaseChanged_host_supplyLow (s : State) (e : EntryNo) : (s.leaseChanged e).host.supplyLow = s.host.supplyLow := rfl

@[simp] theorem putDraft_pending (s : State) (d : Draft) : (s.putDraft d).pending = s.pending := rfl
@[simp] theorem putDraft_timebase (s : State) (d : Draft) : (s.putDraft d).timebase = s.timebase := rfl
@[simp] theorem putDraft_pins (s : State) (d : Draft) : (s.putDraft d).pins = s.pins := rfl
@[simp] theorem putDraft_sites (s : State) (d : Draft) : (s.putDraft d).sites = s.sites := rfl
@[simp] theorem putDraft_upkeep (s : State) (d : Draft) : (s.putDraft d).upkeep = s.upkeep := rfl
@[simp] theorem putDraft_refreshing (s : State) (d : Draft) : (s.putDraft d).refreshing = s.refreshing := rfl
@[simp] theorem putDraft_attemptFrom (s : State) (d : Draft) : (s.putDraft d).attemptFrom = s.attemptFrom := rfl
@[simp] theorem putDraft_polling (s : State) (d : Draft) : (s.putDraft d).polling = s.polling := rfl
@[simp] theorem putDraft_frozen (s : State) (d : Draft) : (s.putDraft d).frozen = s.frozen := rfl
@[simp] theorem putDraft_snapTime (s : State) (d : Draft) : (s.putDraft d).snapTime = s.snapTime := rfl
@[simp] theorem putDraft_frozenReadings (s : State) (d : Draft) : (s.putDraft d).frozenReadings = s.frozenReadings := rfl
@[simp] theorem putDraft_leases (s : State) (d : Draft) : (s.putDraft d).leases = s.leases := rfl
@[simp] theorem putDraft_closeOrder (s : State) (d : Draft) : (s.putDraft d).closeOrder = s.closeOrder := rfl
@[simp] theorem putDraft_clock (s : State) (d : Draft) : (s.putDraft d).clock = s.clock := rfl
@[simp] theorem putDraft_lines (s : State) (d : Draft) : (s.putDraft d).lines = s.lines := rfl
@[simp] theorem putDraft_relay (s : State) (d : Draft) : (s.putDraft d).relay = s.relay := rfl
@[simp] theorem putDraft_strap (s : State) (d : Draft) : (s.putDraft d).strap = s.strap := rfl
@[simp] theorem putDraft_bringup (s : State) (d : Draft) : (s.putDraft d).bringup = s.bringup := rfl
@[simp] theorem putDraft_bringupDone (s : State) (d : Draft) : (s.putDraft d).bringupDone = s.bringupDone := rfl
@[simp] theorem putDraft_store (s : State) (d : Draft) : (s.putDraft d).store = s.store := rfl
@[simp] theorem putDraft_bootCount (s : State) (d : Draft) : (s.putDraft d).bootCount = s.bootCount := rfl
@[simp] theorem putDraft_config (s : State) (d : Draft) : (s.putDraft d).config = s.config := rfl
@[simp] theorem putDraft_host (s : State) (d : Draft) : (s.putDraft d).host = s.host := rfl
@[simp] theorem putDraft_freeIndex (s : State) (d : Draft) : (s.putDraft d).freeIndex = s.freeIndex := rfl

@[simp] theorem removeDraft_pending (s : State) (n : SiteName) : (s.removeDraft n).pending = s.pending := rfl
@[simp] theorem removeDraft_timebase (s : State) (n : SiteName) : (s.removeDraft n).timebase = s.timebase := rfl
@[simp] theorem removeDraft_pins (s : State) (n : SiteName) : (s.removeDraft n).pins = s.pins := rfl
@[simp] theorem removeDraft_sites (s : State) (n : SiteName) : (s.removeDraft n).sites = s.sites := rfl
@[simp] theorem removeDraft_upkeep (s : State) (n : SiteName) : (s.removeDraft n).upkeep = s.upkeep := rfl
@[simp] theorem removeDraft_refreshing (s : State) (n : SiteName) : (s.removeDraft n).refreshing = s.refreshing := rfl
@[simp] theorem removeDraft_attemptFrom (s : State) (n : SiteName) : (s.removeDraft n).attemptFrom = s.attemptFrom := rfl
@[simp] theorem removeDraft_polling (s : State) (n : SiteName) : (s.removeDraft n).polling = s.polling := rfl
@[simp] theorem removeDraft_frozen (s : State) (n : SiteName) : (s.removeDraft n).frozen = s.frozen := rfl
@[simp] theorem removeDraft_snapTime (s : State) (n : SiteName) : (s.removeDraft n).snapTime = s.snapTime := rfl
@[simp] theorem removeDraft_frozenReadings (s : State) (n : SiteName) : (s.removeDraft n).frozenReadings = s.frozenReadings := rfl
@[simp] theorem removeDraft_leases (s : State) (n : SiteName) : (s.removeDraft n).leases = s.leases := rfl
@[simp] theorem removeDraft_closeOrder (s : State) (n : SiteName) : (s.removeDraft n).closeOrder = s.closeOrder := rfl
@[simp] theorem removeDraft_clock (s : State) (n : SiteName) : (s.removeDraft n).clock = s.clock := rfl
@[simp] theorem removeDraft_lines (s : State) (n : SiteName) : (s.removeDraft n).lines = s.lines := rfl
@[simp] theorem removeDraft_relay (s : State) (n : SiteName) : (s.removeDraft n).relay = s.relay := rfl
@[simp] theorem removeDraft_strap (s : State) (n : SiteName) : (s.removeDraft n).strap = s.strap := rfl
@[simp] theorem removeDraft_bringup (s : State) (n : SiteName) : (s.removeDraft n).bringup = s.bringup := rfl
@[simp] theorem removeDraft_bringupDone (s : State) (n : SiteName) : (s.removeDraft n).bringupDone = s.bringupDone := rfl
@[simp] theorem removeDraft_store (s : State) (n : SiteName) : (s.removeDraft n).store = s.store := rfl
@[simp] theorem removeDraft_bootCount (s : State) (n : SiteName) : (s.removeDraft n).bootCount = s.bootCount := rfl
@[simp] theorem removeDraft_config (s : State) (n : SiteName) : (s.removeDraft n).config = s.config := rfl
@[simp] theorem removeDraft_host (s : State) (n : SiteName) : (s.removeDraft n).host = s.host := rfl
@[simp] theorem removeDraft_freeIndex (s : State) (n : SiteName) : (s.removeDraft n).freeIndex = s.freeIndex := rfl

@[simp] theorem reply_pending (s : State) (c : Byte) (t : Tag) (st : Status) (y : Body) : (s.reply c t st y).pending = s.pending := rfl
@[simp] theorem reply_timebase (s : State) (c : Byte) (t : Tag) (st : Status) (y : Body) : (s.reply c t st y).timebase = s.timebase := rfl
@[simp] theorem reply_pins (s : State) (c : Byte) (t : Tag) (st : Status) (y : Body) : (s.reply c t st y).pins = s.pins := rfl
@[simp] theorem reply_sites (s : State) (c : Byte) (t : Tag) (st : Status) (y : Body) : (s.reply c t st y).sites = s.sites := rfl
@[simp] theorem reply_upkeep (s : State) (c : Byte) (t : Tag) (st : Status) (y : Body) : (s.reply c t st y).upkeep = s.upkeep := rfl
@[simp] theorem reply_refreshing (s : State) (c : Byte) (t : Tag) (st : Status) (y : Body) : (s.reply c t st y).refreshing = s.refreshing := rfl
@[simp] theorem reply_attemptFrom (s : State) (c : Byte) (t : Tag) (st : Status) (y : Body) : (s.reply c t st y).attemptFrom = s.attemptFrom := rfl
@[simp] theorem reply_polling (s : State) (c : Byte) (t : Tag) (st : Status) (y : Body) : (s.reply c t st y).polling = s.polling := rfl
@[simp] theorem reply_frozen (s : State) (c : Byte) (t : Tag) (st : Status) (y : Body) : (s.reply c t st y).frozen = s.frozen := rfl
@[simp] theorem reply_snapTime (s : State) (c : Byte) (t : Tag) (st : Status) (y : Body) : (s.reply c t st y).snapTime = s.snapTime := rfl
@[simp] theorem reply_frozenReadings (s : State) (c : Byte) (t : Tag) (st : Status) (y : Body) : (s.reply c t st y).frozenReadings = s.frozenReadings := rfl
@[simp] theorem reply_drafts (s : State) (c : Byte) (t : Tag) (st : Status) (y : Body) : (s.reply c t st y).drafts = s.drafts := rfl
@[simp] theorem reply_leases (s : State) (c : Byte) (t : Tag) (st : Status) (y : Body) : (s.reply c t st y).leases = s.leases := rfl
@[simp] theorem reply_closeOrder (s : State) (c : Byte) (t : Tag) (st : Status) (y : Body) : (s.reply c t st y).closeOrder = s.closeOrder := rfl
@[simp] theorem reply_clock (s : State) (c : Byte) (t : Tag) (st : Status) (y : Body) : (s.reply c t st y).clock = s.clock := rfl
@[simp] theorem reply_lines (s : State) (c : Byte) (t : Tag) (st : Status) (y : Body) : (s.reply c t st y).lines = s.lines := rfl
@[simp] theorem reply_relay (s : State) (c : Byte) (t : Tag) (st : Status) (y : Body) : (s.reply c t st y).relay = s.relay := rfl
@[simp] theorem reply_strap (s : State) (c : Byte) (t : Tag) (st : Status) (y : Body) : (s.reply c t st y).strap = s.strap := rfl
@[simp] theorem reply_bringup (s : State) (c : Byte) (t : Tag) (st : Status) (y : Body) : (s.reply c t st y).bringup = s.bringup := rfl
@[simp] theorem reply_bringupDone (s : State) (c : Byte) (t : Tag) (st : Status) (y : Body) : (s.reply c t st y).bringupDone = s.bringupDone := rfl
@[simp] theorem reply_store (s : State) (c : Byte) (t : Tag) (st : Status) (y : Body) : (s.reply c t st y).store = s.store := rfl
@[simp] theorem reply_bootCount (s : State) (c : Byte) (t : Tag) (st : Status) (y : Body) : (s.reply c t st y).bootCount = s.bootCount := rfl
@[simp] theorem reply_config (s : State) (c : Byte) (t : Tag) (st : Status) (y : Body) : (s.reply c t st y).config = s.config := rfl
@[simp] theorem reply_freeIndex (s : State) (c : Byte) (t : Tag) (st : Status) (y : Body) : (s.reply c t st y).freeIndex = s.freeIndex := rfl
@[simp] theorem reply_host_exchange (s : State) (c : Byte) (t : Tag) (st : Status) (y : Body) : (s.reply c t st y).host.exchange = s.host.exchange := rfl
@[simp] theorem reply_host_flags (s : State) (c : Byte) (t : Tag) (st : Status) (y : Body) : (s.reply c t st y).host.flags = s.host.flags := rfl
@[simp] theorem reply_host_mask (s : State) (c : Byte) (t : Tag) (st : Status) (y : Body) : (s.reply c t st y).host.mask = s.host.mask := rfl
@[simp] theorem reply_host_siteChanges (s : State) (c : Byte) (t : Tag) (st : Status) (y : Body) : (s.reply c t st y).host.siteChanges = s.host.siteChanges := rfl
@[simp] theorem reply_host_leaseChanges (s : State) (c : Byte) (t : Tag) (st : Status) (y : Body) : (s.reply c t st y).host.leaseChanges = s.host.leaseChanges := rfl
@[simp] theorem reply_host_cause (s : State) (c : Byte) (t : Tag) (st : Status) (y : Body) : (s.reply c t st y).host.cause = s.host.cause := rfl
@[simp] theorem reply_host_restarted (s : State) (c : Byte) (t : Tag) (st : Status) (y : Body) : (s.reply c t st y).host.restarted = s.host.restarted := rfl
@[simp] theorem reply_host_supplyLow (s : State) (c : Byte) (t : Tag) (st : Status) (y : Body) : (s.reply c t st y).host.supplyLow = s.host.supplyLow := rfl

/-! ### Fields an update writes -/

@[simp] theorem setClock_clock (s : State) (c : Clock) : (s.setClock c).clock = c := rfl
@[simp] theorem atMoment_timebase (s : State) (m : Nat) : (s.atMoment m).timebase = max s.timebase m := rfl
@[simp] theorem raise_host_flags (s : State) (f : EventFlag) : (s.raise f).host.flags = s.host.flags ||| f.mask := rfl
@[simp] theorem siteChanged_host_flags (s : State) (n : SiteName) :
    (s.siteChanged n).host.flags = s.host.flags ||| EventFlag.sitesChanged.mask := rfl
@[simp] theorem siteChanged_host_siteChanges (s : State) (n : SiteName) :
    (s.siteChanged n).host.siteChanges = insertSite n none s.host.siteChanges := rfl
@[simp] theorem leaseChanged_host_flags (s : State) (e : EntryNo) :
    (s.leaseChanged e).host.flags = s.host.flags ||| EventFlag.leasesChanged.mask := rfl
@[simp] theorem leaseChanged_host_leaseChanges (s : State) (e : EntryNo) :
    (s.leaseChanged e).host.leaseChanges = insertEntry e s.host.leaseChanges := rfl
@[simp] theorem reply_host_answer (s : State) (c : Byte) (t : Tag) (st : Status) (y : Body) :
    (s.reply c t st y).host.answer = .built ⟨c, t, st, y⟩ := rfl

/-! ### Pairs -/

@[simp] theorem Pair_get_put {α : Type} (p : Pair α) (b c : Branch) (x : α) :
    (p.put b x).get c = if c = b then x else p.get c := by cases b <;> cases c <;> rfl

theorem Pair_ext_get {α : Type} {p q : Pair α} (h : ∀ b, p.get b = q.get b) : p = q := by
  cases p; cases q; have hw := h .west; have he := h .east; simp_all [Pair.get]

/-! ### Accessors after an update -/

theorem Vector_get_set {α : Type} {k : Nat} (v : Vector α k) (i j : Fin k) (x : α) :
    (v.set i.val x i.isLt).get j = if j = i then x else v.get j := by
  have h : ∀ w : Vector α k, w.get j = w[j.val]'j.isLt := fun _ => rfl
  rw [h, h, Vector.getElem_set]
  by_cases hij : j = i
  · subst hij; simp
  · have : i.val ≠ j.val := fun hv => hij (Fin.ext hv.symm)
    simp [hij, this]

@[simp] theorem site_setSite (s : State) (n m : SiteName) (r : SiteRecord) :
    (s.setSite n r).site m = if m = n then r else s.site m := Vector_get_set ..

@[simp] theorem upkeepOf_setUpkeep (s : State) (n m : SiteName) (u : Upkeep) :
    (s.setUpkeep n u).upkeepOf m = if m = n then u else s.upkeepOf m := Vector_get_set ..

@[simp] theorem attemptOf_setAttempt (s : State) (n m : SiteName) (t : Option Nat) :
    (s.setAttempt n t).attemptOf m = if m = n then t else s.attemptOf m := Vector_get_set ..

@[simp] theorem frozenOf_setFrozen (s : State) (n m : SiteName) (r : Option Readings) :
    (s.setFrozen n r).frozenOf m = if m = n then r else s.frozenOf m := Vector_get_set ..

@[simp] theorem entry_setEntry (s : State) (e f : EntryNo) (x : LeaseEntry) :
    (s.setEntry e x).entry f = if f = e then x else s.entry f := Vector_get_set ..

@[simp] theorem line_setLine (s : State) (b c : Branch) (l : Line) :
    (s.setLine b l).line c = if c = b then l else s.line c := Pair_get_put ..

@[simp] theorem bring_setBring (s : State) (b c : Branch) (x : BringUp) :
    (s.setBring b x).bring c = if c = b then x else s.bring c := Pair_get_put ..

/-- An accessor reads its table alone. -/
theorem site_congr {s t : State} (h : t.sites = s.sites) (n : SiteName) : t.site n = s.site n := by simp [State.site, h]

theorem upkeepOf_congr {s t : State} (h : t.upkeep = s.upkeep) (n : SiteName) : t.upkeepOf n = s.upkeepOf n := by
  simp [State.upkeepOf, h]

theorem entry_congr {s t : State} (h : t.leases = s.leases) (e : EntryNo) : t.entry e = s.entry e := by
  simp [State.entry, h]

theorem line_congr {s t : State} (h : t.lines = s.lines) (b : Branch) : t.line b = s.line b := by simp [State.line, h]

theorem bring_congr {s t : State} (h : t.bringup = s.bringup) (b : Branch) : t.bring b = s.bring b := by
  simp [State.bring, h]

theorem draftOf_congr {s t : State} (h : t.drafts = s.drafts) (n : SiteName) : t.draftOf n = s.draftOf n := by
  simp [State.draftOf, h]

theorem committing_congr {s t : State} (h : t.drafts = s.drafts) (n : SiteName) : t.committing n = s.committing n := by
  simp [State.committing, draftOf_congr h]

/-! ### Accessors of the tables an update does not write -/

@[simp] theorem upkeepOf_setSite (s : State) (n : SiteName) (r : SiteRecord) (q : SiteName) : (s.setSite n r).upkeepOf q = s.upkeepOf q := rfl
@[simp] theorem attemptOf_setSite (s : State) (n : SiteName) (r : SiteRecord) (q : SiteName) : (s.setSite n r).attemptOf q = s.attemptOf q := rfl
@[simp] theorem frozenOf_setSite (s : State) (n : SiteName) (r : SiteRecord) (q : SiteName) : (s.setSite n r).frozenOf q = s.frozenOf q := rfl
@[simp] theorem entry_setSite (s : State) (n : SiteName) (r : SiteRecord) (q : EntryNo) : (s.setSite n r).entry q = s.entry q := rfl
@[simp] theorem leaseOf_setSite (s : State) (n : SiteName) (r : SiteRecord) (q : EntryNo) : (s.setSite n r).leaseOf q = s.leaseOf q := rfl
@[simp] theorem line_setSite (s : State) (n : SiteName) (r : SiteRecord) (q : Branch) : (s.setSite n r).line q = s.line q := rfl
@[simp] theorem bring_setSite (s : State) (n : SiteName) (r : SiteRecord) (q : Branch) : (s.setSite n r).bring q = s.bring q := rfl
@[simp] theorem draftOf_setSite (s : State) (n : SiteName) (r : SiteRecord) (q : SiteName) : (s.setSite n r).draftOf q = s.draftOf q := rfl
@[simp] theorem committing_setSite (s : State) (n : SiteName) (r : SiteRecord) (q : SiteName) : (s.setSite n r).committing q = s.committing q := rfl
@[simp] theorem handleOf_setSite (s : State) (n : SiteName) (r : SiteRecord) (q : EntryNo) : (s.setSite n r).handleOf q = s.handleOf q := rfl

@[simp] theorem site_setUpkeep (s : State) (n : SiteName) (u : Upkeep) (q : SiteName) : (s.setUpkeep n u).site q = s.site q := rfl
@[simp] theorem attemptOf_setUpkeep (s : State) (n : SiteName) (u : Upkeep) (q : SiteName) : (s.setUpkeep n u).attemptOf q = s.attemptOf q := rfl
@[simp] theorem frozenOf_setUpkeep (s : State) (n : SiteName) (u : Upkeep) (q : SiteName) : (s.setUpkeep n u).frozenOf q = s.frozenOf q := rfl
@[simp] theorem entry_setUpkeep (s : State) (n : SiteName) (u : Upkeep) (q : EntryNo) : (s.setUpkeep n u).entry q = s.entry q := rfl
@[simp] theorem leaseOf_setUpkeep (s : State) (n : SiteName) (u : Upkeep) (q : EntryNo) : (s.setUpkeep n u).leaseOf q = s.leaseOf q := rfl
@[simp] theorem line_setUpkeep (s : State) (n : SiteName) (u : Upkeep) (q : Branch) : (s.setUpkeep n u).line q = s.line q := rfl
@[simp] theorem bring_setUpkeep (s : State) (n : SiteName) (u : Upkeep) (q : Branch) : (s.setUpkeep n u).bring q = s.bring q := rfl
@[simp] theorem draftOf_setUpkeep (s : State) (n : SiteName) (u : Upkeep) (q : SiteName) : (s.setUpkeep n u).draftOf q = s.draftOf q := rfl
@[simp] theorem committing_setUpkeep (s : State) (n : SiteName) (u : Upkeep) (q : SiteName) : (s.setUpkeep n u).committing q = s.committing q := rfl
@[simp] theorem handleOf_setUpkeep (s : State) (n : SiteName) (u : Upkeep) (q : EntryNo) : (s.setUpkeep n u).handleOf q = s.handleOf q := rfl

@[simp] theorem site_setAttempt (s : State) (n : SiteName) (t : Option Nat) (q : SiteName) : (s.setAttempt n t).site q = s.site q := rfl
@[simp] theorem upkeepOf_setAttempt (s : State) (n : SiteName) (t : Option Nat) (q : SiteName) : (s.setAttempt n t).upkeepOf q = s.upkeepOf q := rfl
@[simp] theorem frozenOf_setAttempt (s : State) (n : SiteName) (t : Option Nat) (q : SiteName) : (s.setAttempt n t).frozenOf q = s.frozenOf q := rfl
@[simp] theorem entry_setAttempt (s : State) (n : SiteName) (t : Option Nat) (q : EntryNo) : (s.setAttempt n t).entry q = s.entry q := rfl
@[simp] theorem leaseOf_setAttempt (s : State) (n : SiteName) (t : Option Nat) (q : EntryNo) : (s.setAttempt n t).leaseOf q = s.leaseOf q := rfl
@[simp] theorem line_setAttempt (s : State) (n : SiteName) (t : Option Nat) (q : Branch) : (s.setAttempt n t).line q = s.line q := rfl
@[simp] theorem bring_setAttempt (s : State) (n : SiteName) (t : Option Nat) (q : Branch) : (s.setAttempt n t).bring q = s.bring q := rfl
@[simp] theorem draftOf_setAttempt (s : State) (n : SiteName) (t : Option Nat) (q : SiteName) : (s.setAttempt n t).draftOf q = s.draftOf q := rfl
@[simp] theorem committing_setAttempt (s : State) (n : SiteName) (t : Option Nat) (q : SiteName) : (s.setAttempt n t).committing q = s.committing q := rfl
@[simp] theorem handleOf_setAttempt (s : State) (n : SiteName) (t : Option Nat) (q : EntryNo) : (s.setAttempt n t).handleOf q = s.handleOf q := rfl

@[simp] theorem site_setFrozen (s : State) (n : SiteName) (r : Option Readings) (q : SiteName) : (s.setFrozen n r).site q = s.site q := rfl
@[simp] theorem upkeepOf_setFrozen (s : State) (n : SiteName) (r : Option Readings) (q : SiteName) : (s.setFrozen n r).upkeepOf q = s.upkeepOf q := rfl
@[simp] theorem attemptOf_setFrozen (s : State) (n : SiteName) (r : Option Readings) (q : SiteName) : (s.setFrozen n r).attemptOf q = s.attemptOf q := rfl
@[simp] theorem entry_setFrozen (s : State) (n : SiteName) (r : Option Readings) (q : EntryNo) : (s.setFrozen n r).entry q = s.entry q := rfl
@[simp] theorem leaseOf_setFrozen (s : State) (n : SiteName) (r : Option Readings) (q : EntryNo) : (s.setFrozen n r).leaseOf q = s.leaseOf q := rfl
@[simp] theorem line_setFrozen (s : State) (n : SiteName) (r : Option Readings) (q : Branch) : (s.setFrozen n r).line q = s.line q := rfl
@[simp] theorem bring_setFrozen (s : State) (n : SiteName) (r : Option Readings) (q : Branch) : (s.setFrozen n r).bring q = s.bring q := rfl
@[simp] theorem draftOf_setFrozen (s : State) (n : SiteName) (r : Option Readings) (q : SiteName) : (s.setFrozen n r).draftOf q = s.draftOf q := rfl
@[simp] theorem committing_setFrozen (s : State) (n : SiteName) (r : Option Readings) (q : SiteName) : (s.setFrozen n r).committing q = s.committing q := rfl
@[simp] theorem handleOf_setFrozen (s : State) (n : SiteName) (r : Option Readings) (q : EntryNo) : (s.setFrozen n r).handleOf q = s.handleOf q := rfl

@[simp] theorem site_setEntry (s : State) (e : EntryNo) (x : LeaseEntry) (q : SiteName) : (s.setEntry e x).site q = s.site q := rfl
@[simp] theorem upkeepOf_setEntry (s : State) (e : EntryNo) (x : LeaseEntry) (q : SiteName) : (s.setEntry e x).upkeepOf q = s.upkeepOf q := rfl
@[simp] theorem attemptOf_setEntry (s : State) (e : EntryNo) (x : LeaseEntry) (q : SiteName) : (s.setEntry e x).attemptOf q = s.attemptOf q := rfl
@[simp] theorem frozenOf_setEntry (s : State) (e : EntryNo) (x : LeaseEntry) (q : SiteName) : (s.setEntry e x).frozenOf q = s.frozenOf q := rfl
@[simp] theorem line_setEntry (s : State) (e : EntryNo) (x : LeaseEntry) (q : Branch) : (s.setEntry e x).line q = s.line q := rfl
@[simp] theorem bring_setEntry (s : State) (e : EntryNo) (x : LeaseEntry) (q : Branch) : (s.setEntry e x).bring q = s.bring q := rfl
@[simp] theorem draftOf_setEntry (s : State) (e : EntryNo) (x : LeaseEntry) (q : SiteName) : (s.setEntry e x).draftOf q = s.draftOf q := rfl
@[simp] theorem committing_setEntry (s : State) (e : EntryNo) (x : LeaseEntry) (q : SiteName) : (s.setEntry e x).committing q = s.committing q := rfl

@[simp] theorem site_setLine (s : State) (b : Branch) (l : Line) (q : SiteName) : (s.setLine b l).site q = s.site q := rfl
@[simp] theorem upkeepOf_setLine (s : State) (b : Branch) (l : Line) (q : SiteName) : (s.setLine b l).upkeepOf q = s.upkeepOf q := rfl
@[simp] theorem attemptOf_setLine (s : State) (b : Branch) (l : Line) (q : SiteName) : (s.setLine b l).attemptOf q = s.attemptOf q := rfl
@[simp] theorem frozenOf_setLine (s : State) (b : Branch) (l : Line) (q : SiteName) : (s.setLine b l).frozenOf q = s.frozenOf q := rfl
@[simp] theorem entry_setLine (s : State) (b : Branch) (l : Line) (q : EntryNo) : (s.setLine b l).entry q = s.entry q := rfl
@[simp] theorem leaseOf_setLine (s : State) (b : Branch) (l : Line) (q : EntryNo) : (s.setLine b l).leaseOf q = s.leaseOf q := rfl
@[simp] theorem bring_setLine (s : State) (b : Branch) (l : Line) (q : Branch) : (s.setLine b l).bring q = s.bring q := rfl
@[simp] theorem draftOf_setLine (s : State) (b : Branch) (l : Line) (q : SiteName) : (s.setLine b l).draftOf q = s.draftOf q := rfl
@[simp] theorem committing_setLine (s : State) (b : Branch) (l : Line) (q : SiteName) : (s.setLine b l).committing q = s.committing q := rfl
@[simp] theorem handleOf_setLine (s : State) (b : Branch) (l : Line) (q : EntryNo) : (s.setLine b l).handleOf q = s.handleOf q := rfl

@[simp] theorem site_setBring (s : State) (b : Branch) (x : BringUp) (q : SiteName) : (s.setBring b x).site q = s.site q := rfl
@[simp] theorem upkeepOf_setBring (s : State) (b : Branch) (x : BringUp) (q : SiteName) : (s.setBring b x).upkeepOf q = s.upkeepOf q := rfl
@[simp] theorem attemptOf_setBring (s : State) (b : Branch) (x : BringUp) (q : SiteName) : (s.setBring b x).attemptOf q = s.attemptOf q := rfl
@[simp] theorem frozenOf_setBring (s : State) (b : Branch) (x : BringUp) (q : SiteName) : (s.setBring b x).frozenOf q = s.frozenOf q := rfl
@[simp] theorem entry_setBring (s : State) (b : Branch) (x : BringUp) (q : EntryNo) : (s.setBring b x).entry q = s.entry q := rfl
@[simp] theorem leaseOf_setBring (s : State) (b : Branch) (x : BringUp) (q : EntryNo) : (s.setBring b x).leaseOf q = s.leaseOf q := rfl
@[simp] theorem line_setBring (s : State) (b : Branch) (x : BringUp) (q : Branch) : (s.setBring b x).line q = s.line q := rfl
@[simp] theorem draftOf_setBring (s : State) (b : Branch) (x : BringUp) (q : SiteName) : (s.setBring b x).draftOf q = s.draftOf q := rfl
@[simp] theorem committing_setBring (s : State) (b : Branch) (x : BringUp) (q : SiteName) : (s.setBring b x).committing q = s.committing q := rfl
@[simp] theorem handleOf_setBring (s : State) (b : Branch) (x : BringUp) (q : EntryNo) : (s.setBring b x).handleOf q = s.handleOf q := rfl

@[simp] theorem site_setClock (s : State) (c : Clock) (q : SiteName) : (s.setClock c).site q = s.site q := rfl
@[simp] theorem upkeepOf_setClock (s : State) (c : Clock) (q : SiteName) : (s.setClock c).upkeepOf q = s.upkeepOf q := rfl
@[simp] theorem attemptOf_setClock (s : State) (c : Clock) (q : SiteName) : (s.setClock c).attemptOf q = s.attemptOf q := rfl
@[simp] theorem frozenOf_setClock (s : State) (c : Clock) (q : SiteName) : (s.setClock c).frozenOf q = s.frozenOf q := rfl
@[simp] theorem entry_setClock (s : State) (c : Clock) (q : EntryNo) : (s.setClock c).entry q = s.entry q := rfl
@[simp] theorem leaseOf_setClock (s : State) (c : Clock) (q : EntryNo) : (s.setClock c).leaseOf q = s.leaseOf q := rfl
@[simp] theorem line_setClock (s : State) (c : Clock) (q : Branch) : (s.setClock c).line q = s.line q := rfl
@[simp] theorem bring_setClock (s : State) (c : Clock) (q : Branch) : (s.setClock c).bring q = s.bring q := rfl
@[simp] theorem draftOf_setClock (s : State) (c : Clock) (q : SiteName) : (s.setClock c).draftOf q = s.draftOf q := rfl
@[simp] theorem committing_setClock (s : State) (c : Clock) (q : SiteName) : (s.setClock c).committing q = s.committing q := rfl
@[simp] theorem handleOf_setClock (s : State) (c : Clock) (q : EntryNo) : (s.setClock c).handleOf q = s.handleOf q := rfl

@[simp] theorem site_atMoment (s : State) (k : Nat) (q : SiteName) : (s.atMoment k).site q = s.site q := rfl
@[simp] theorem upkeepOf_atMoment (s : State) (k : Nat) (q : SiteName) : (s.atMoment k).upkeepOf q = s.upkeepOf q := rfl
@[simp] theorem attemptOf_atMoment (s : State) (k : Nat) (q : SiteName) : (s.atMoment k).attemptOf q = s.attemptOf q := rfl
@[simp] theorem frozenOf_atMoment (s : State) (k : Nat) (q : SiteName) : (s.atMoment k).frozenOf q = s.frozenOf q := rfl
@[simp] theorem entry_atMoment (s : State) (k : Nat) (q : EntryNo) : (s.atMoment k).entry q = s.entry q := rfl
@[simp] theorem leaseOf_atMoment (s : State) (k : Nat) (q : EntryNo) : (s.atMoment k).leaseOf q = s.leaseOf q := rfl
@[simp] theorem line_atMoment (s : State) (k : Nat) (q : Branch) : (s.atMoment k).line q = s.line q := rfl
@[simp] theorem bring_atMoment (s : State) (k : Nat) (q : Branch) : (s.atMoment k).bring q = s.bring q := rfl
@[simp] theorem draftOf_atMoment (s : State) (k : Nat) (q : SiteName) : (s.atMoment k).draftOf q = s.draftOf q := rfl
@[simp] theorem committing_atMoment (s : State) (k : Nat) (q : SiteName) : (s.atMoment k).committing q = s.committing q := rfl
@[simp] theorem handleOf_atMoment (s : State) (k : Nat) (q : EntryNo) : (s.atMoment k).handleOf q = s.handleOf q := rfl

@[simp] theorem site_raise (s : State) (f : EventFlag) (q : SiteName) : (s.raise f).site q = s.site q := rfl
@[simp] theorem upkeepOf_raise (s : State) (f : EventFlag) (q : SiteName) : (s.raise f).upkeepOf q = s.upkeepOf q := rfl
@[simp] theorem attemptOf_raise (s : State) (f : EventFlag) (q : SiteName) : (s.raise f).attemptOf q = s.attemptOf q := rfl
@[simp] theorem frozenOf_raise (s : State) (f : EventFlag) (q : SiteName) : (s.raise f).frozenOf q = s.frozenOf q := rfl
@[simp] theorem entry_raise (s : State) (f : EventFlag) (q : EntryNo) : (s.raise f).entry q = s.entry q := rfl
@[simp] theorem leaseOf_raise (s : State) (f : EventFlag) (q : EntryNo) : (s.raise f).leaseOf q = s.leaseOf q := rfl
@[simp] theorem line_raise (s : State) (f : EventFlag) (q : Branch) : (s.raise f).line q = s.line q := rfl
@[simp] theorem bring_raise (s : State) (f : EventFlag) (q : Branch) : (s.raise f).bring q = s.bring q := rfl
@[simp] theorem draftOf_raise (s : State) (f : EventFlag) (q : SiteName) : (s.raise f).draftOf q = s.draftOf q := rfl
@[simp] theorem committing_raise (s : State) (f : EventFlag) (q : SiteName) : (s.raise f).committing q = s.committing q := rfl
@[simp] theorem handleOf_raise (s : State) (f : EventFlag) (q : EntryNo) : (s.raise f).handleOf q = s.handleOf q := rfl

@[simp] theorem site_siteChanged (s : State) (n : SiteName) (q : SiteName) : (s.siteChanged n).site q = s.site q := rfl
@[simp] theorem upkeepOf_siteChanged (s : State) (n : SiteName) (q : SiteName) : (s.siteChanged n).upkeepOf q = s.upkeepOf q := rfl
@[simp] theorem attemptOf_siteChanged (s : State) (n : SiteName) (q : SiteName) : (s.siteChanged n).attemptOf q = s.attemptOf q := rfl
@[simp] theorem frozenOf_siteChanged (s : State) (n : SiteName) (q : SiteName) : (s.siteChanged n).frozenOf q = s.frozenOf q := rfl
@[simp] theorem entry_siteChanged (s : State) (n : SiteName) (q : EntryNo) : (s.siteChanged n).entry q = s.entry q := rfl
@[simp] theorem leaseOf_siteChanged (s : State) (n : SiteName) (q : EntryNo) : (s.siteChanged n).leaseOf q = s.leaseOf q := rfl
@[simp] theorem line_siteChanged (s : State) (n : SiteName) (q : Branch) : (s.siteChanged n).line q = s.line q := rfl
@[simp] theorem bring_siteChanged (s : State) (n : SiteName) (q : Branch) : (s.siteChanged n).bring q = s.bring q := rfl
@[simp] theorem draftOf_siteChanged (s : State) (n : SiteName) (q : SiteName) : (s.siteChanged n).draftOf q = s.draftOf q := rfl
@[simp] theorem committing_siteChanged (s : State) (n : SiteName) (q : SiteName) : (s.siteChanged n).committing q = s.committing q := rfl
@[simp] theorem handleOf_siteChanged (s : State) (n : SiteName) (q : EntryNo) : (s.siteChanged n).handleOf q = s.handleOf q := rfl

@[simp] theorem site_siteMoved (s : State) (n k : SiteName) (q : SiteName) : (s.siteMoved n k).site q = s.site q := rfl
@[simp] theorem upkeepOf_siteMoved (s : State) (n k : SiteName) (q : SiteName) : (s.siteMoved n k).upkeepOf q = s.upkeepOf q := rfl
@[simp] theorem attemptOf_siteMoved (s : State) (n k : SiteName) (q : SiteName) : (s.siteMoved n k).attemptOf q = s.attemptOf q := rfl
@[simp] theorem frozenOf_siteMoved (s : State) (n k : SiteName) (q : SiteName) : (s.siteMoved n k).frozenOf q = s.frozenOf q := rfl
@[simp] theorem entry_siteMoved (s : State) (n k : SiteName) (q : EntryNo) : (s.siteMoved n k).entry q = s.entry q := rfl
@[simp] theorem leaseOf_siteMoved (s : State) (n k : SiteName) (q : EntryNo) : (s.siteMoved n k).leaseOf q = s.leaseOf q := rfl
@[simp] theorem line_siteMoved (s : State) (n k : SiteName) (q : Branch) : (s.siteMoved n k).line q = s.line q := rfl
@[simp] theorem bring_siteMoved (s : State) (n k : SiteName) (q : Branch) : (s.siteMoved n k).bring q = s.bring q := rfl
@[simp] theorem draftOf_siteMoved (s : State) (n k : SiteName) (q : SiteName) : (s.siteMoved n k).draftOf q = s.draftOf q := rfl
@[simp] theorem committing_siteMoved (s : State) (n k : SiteName) (q : SiteName) : (s.siteMoved n k).committing q = s.committing q := rfl
@[simp] theorem handleOf_siteMoved (s : State) (n k : SiteName) (q : EntryNo) : (s.siteMoved n k).handleOf q = s.handleOf q := rfl

@[simp] theorem site_leaseChanged (s : State) (e : EntryNo) (q : SiteName) : (s.leaseChanged e).site q = s.site q := rfl
@[simp] theorem upkeepOf_leaseChanged (s : State) (e : EntryNo) (q : SiteName) : (s.leaseChanged e).upkeepOf q = s.upkeepOf q := rfl
@[simp] theorem attemptOf_leaseChanged (s : State) (e : EntryNo) (q : SiteName) : (s.leaseChanged e).attemptOf q = s.attemptOf q := rfl
@[simp] theorem frozenOf_leaseChanged (s : State) (e : EntryNo) (q : SiteName) : (s.leaseChanged e).frozenOf q = s.frozenOf q := rfl
@[simp] theorem entry_leaseChanged (s : State) (e : EntryNo) (q : EntryNo) : (s.leaseChanged e).entry q = s.entry q := rfl
@[simp] theorem leaseOf_leaseChanged (s : State) (e : EntryNo) (q : EntryNo) : (s.leaseChanged e).leaseOf q = s.leaseOf q := rfl
@[simp] theorem line_leaseChanged (s : State) (e : EntryNo) (q : Branch) : (s.leaseChanged e).line q = s.line q := rfl
@[simp] theorem bring_leaseChanged (s : State) (e : EntryNo) (q : Branch) : (s.leaseChanged e).bring q = s.bring q := rfl
@[simp] theorem draftOf_leaseChanged (s : State) (e : EntryNo) (q : SiteName) : (s.leaseChanged e).draftOf q = s.draftOf q := rfl
@[simp] theorem committing_leaseChanged (s : State) (e : EntryNo) (q : SiteName) : (s.leaseChanged e).committing q = s.committing q := rfl
@[simp] theorem handleOf_leaseChanged (s : State) (e : EntryNo) (q : EntryNo) : (s.leaseChanged e).handleOf q = s.handleOf q := rfl

@[simp] theorem site_putDraft (s : State) (d : Draft) (q : SiteName) : (s.putDraft d).site q = s.site q := rfl
@[simp] theorem upkeepOf_putDraft (s : State) (d : Draft) (q : SiteName) : (s.putDraft d).upkeepOf q = s.upkeepOf q := rfl
@[simp] theorem attemptOf_putDraft (s : State) (d : Draft) (q : SiteName) : (s.putDraft d).attemptOf q = s.attemptOf q := rfl
@[simp] theorem frozenOf_putDraft (s : State) (d : Draft) (q : SiteName) : (s.putDraft d).frozenOf q = s.frozenOf q := rfl
@[simp] theorem entry_putDraft (s : State) (d : Draft) (q : EntryNo) : (s.putDraft d).entry q = s.entry q := rfl
@[simp] theorem leaseOf_putDraft (s : State) (d : Draft) (q : EntryNo) : (s.putDraft d).leaseOf q = s.leaseOf q := rfl
@[simp] theorem line_putDraft (s : State) (d : Draft) (q : Branch) : (s.putDraft d).line q = s.line q := rfl
@[simp] theorem bring_putDraft (s : State) (d : Draft) (q : Branch) : (s.putDraft d).bring q = s.bring q := rfl
@[simp] theorem handleOf_putDraft (s : State) (d : Draft) (q : EntryNo) : (s.putDraft d).handleOf q = s.handleOf q := rfl

@[simp] theorem site_removeDraft (s : State) (n : SiteName) (q : SiteName) : (s.removeDraft n).site q = s.site q := rfl
@[simp] theorem upkeepOf_removeDraft (s : State) (n : SiteName) (q : SiteName) : (s.removeDraft n).upkeepOf q = s.upkeepOf q := rfl
@[simp] theorem attemptOf_removeDraft (s : State) (n : SiteName) (q : SiteName) : (s.removeDraft n).attemptOf q = s.attemptOf q := rfl
@[simp] theorem frozenOf_removeDraft (s : State) (n : SiteName) (q : SiteName) : (s.removeDraft n).frozenOf q = s.frozenOf q := rfl
@[simp] theorem entry_removeDraft (s : State) (n : SiteName) (q : EntryNo) : (s.removeDraft n).entry q = s.entry q := rfl
@[simp] theorem leaseOf_removeDraft (s : State) (n : SiteName) (q : EntryNo) : (s.removeDraft n).leaseOf q = s.leaseOf q := rfl
@[simp] theorem line_removeDraft (s : State) (n : SiteName) (q : Branch) : (s.removeDraft n).line q = s.line q := rfl
@[simp] theorem bring_removeDraft (s : State) (n : SiteName) (q : Branch) : (s.removeDraft n).bring q = s.bring q := rfl
@[simp] theorem handleOf_removeDraft (s : State) (n : SiteName) (q : EntryNo) : (s.removeDraft n).handleOf q = s.handleOf q := rfl

@[simp] theorem site_reply (s : State) (c : Byte) (t : Tag) (st : Status) (y : Body) (q : SiteName) : (s.reply c t st y).site q = s.site q := rfl
@[simp] theorem upkeepOf_reply (s : State) (c : Byte) (t : Tag) (st : Status) (y : Body) (q : SiteName) : (s.reply c t st y).upkeepOf q = s.upkeepOf q := rfl
@[simp] theorem attemptOf_reply (s : State) (c : Byte) (t : Tag) (st : Status) (y : Body) (q : SiteName) : (s.reply c t st y).attemptOf q = s.attemptOf q := rfl
@[simp] theorem frozenOf_reply (s : State) (c : Byte) (t : Tag) (st : Status) (y : Body) (q : SiteName) : (s.reply c t st y).frozenOf q = s.frozenOf q := rfl
@[simp] theorem entry_reply (s : State) (c : Byte) (t : Tag) (st : Status) (y : Body) (q : EntryNo) : (s.reply c t st y).entry q = s.entry q := rfl
@[simp] theorem leaseOf_reply (s : State) (c : Byte) (t : Tag) (st : Status) (y : Body) (q : EntryNo) : (s.reply c t st y).leaseOf q = s.leaseOf q := rfl
@[simp] theorem line_reply (s : State) (c : Byte) (t : Tag) (st : Status) (y : Body) (q : Branch) : (s.reply c t st y).line q = s.line q := rfl
@[simp] theorem bring_reply (s : State) (c : Byte) (t : Tag) (st : Status) (y : Body) (q : Branch) : (s.reply c t st y).bring q = s.bring q := rfl
@[simp] theorem draftOf_reply (s : State) (c : Byte) (t : Tag) (st : Status) (y : Body) (q : SiteName) : (s.reply c t st y).draftOf q = s.draftOf q := rfl
@[simp] theorem committing_reply (s : State) (c : Byte) (t : Tag) (st : Status) (y : Body) (q : SiteName) : (s.reply c t st y).committing q = s.committing q := rfl
@[simp] theorem handleOf_reply (s : State) (c : Byte) (t : Tag) (st : Status) (y : Body) (q : EntryNo) : (s.reply c t st y).handleOf q = s.handleOf q := rfl

end Sys2Proof.Machine
end

