-- ==== Sys2Proof/Laws/Records.lean ====
section
/-! SUPPORT. What a claim on a site record does: the record it leaves, the other records, and the soundness of the
records (R3, R5, R11, R62, R66, R78). -/

namespace Sys2Proof.Machine

open Sys2Proof

/-! ### The shared forms -/

@[simp] theorem whenever_true (s : State) (f : State → State) : s.whenever true f = f s := rfl

@[simp] theorem whenever_false (s : State) (f : State → State) : s.whenever false f = s := rfl

theorem whenever_elim {P : State → Prop} {s : State} {c : Bool} {f : State → State} (h : P s) (hf : P (f s)) :
    P (s.whenever c f) := by cases c <;> assumption

/-- What every round keeps, the whole of `each` keeps. -/
theorem each_elim {α : Type} {P : State → Prop} {xs : List α} {f : State → α → State} {s : State} (h : P s)
    (hf : ∀ s x, x ∈ xs → P s → P (f s x)) : P (s.each xs f) := by
  induction xs generalizing s with
  | nil => exact h
  | cons x xs ih => exact ih (hf s x (by simp) h) fun t y hy => hf t y (by simp [hy])

/-- What no round changes, the whole of `each` leaves. -/
theorem each_eq {α β : Type} {g : State → β} {xs : List α} {f : State → α → State} {s : State}
    (hf : ∀ s x, g (f s x) = g s) : g (s.each xs f) = g s :=
  each_elim (P := fun t => g t = g s) rfl fun t x _ h => (hf t x).trans h

theorem whenever_eq {β : Type} {g : State → β} {s : State} {c : Bool} {f : State → State} (hf : g (f s) = g s) :
    g (s.whenever c f) = g s := whenever_elim (P := fun t => g t = g s) rfl hf

/-! ### The fault set -/

/-- The fault set after its condition k is found present or not. -/
def FaultSet.condition (f : FaultSet) (k : FaultKind) (p : Bool) : FaultSet :=
  if p && !f.isPresent k && !f.isLatched k then (f.setPresent k p).latch k else f.setPresent k p

theorem FaultKind.bit_lt (k : FaultKind) : k.bit < 9 := by cases k <;> decide

theorem FaultKind.mask_get (k : FaultKind) (i : Nat) : k.mask.getLsbD i = decide (i = k.bit) := by
  have := k.bit_lt
  simp only [FaultKind.mask, BitVec.getLsbD_shiftLeft]
  by_cases h : i = k.bit
  · subst h; simp [this]
  · by_cases h2 : i < k.bit
    · simp [h, h2]
    · have : i - k.bit ≠ 0 := by omega
      simp [h, this]

theorem FaultKind.mask_getElem (k : FaultKind) (i : Nat) (h : i < 9) : k.mask[i] = decide (i = k.bit) := by
  rw [← BitVec.getLsbD_eq_getElem]; exact k.mask_get i

theorem FaultKind.bit_inj {k l : FaultKind} : k.bit = l.bit ↔ k = l := by cases k <;> cases l <;> decide

@[simp] theorem FaultSet.isPresent_setPresent (f : FaultSet) (k l : FaultKind) (p : Bool) :
    (f.setPresent k p).isPresent l = if l = k then p else f.isPresent l := by
  have hl := l.bit_lt
  by_cases h : l = k
  · subst h; cases p <;> simp [FaultSet.setPresent, FaultSet.isPresent, FaultKind.mask_getElem, hl]
  · have : ¬ l.bit = k.bit := fun hb => h (FaultKind.bit_inj.mp hb)
    cases p <;> simp [FaultSet.setPresent, FaultSet.isPresent, FaultKind.mask_getElem, h, this, hl]

@[simp] theorem FaultSet.isLatched_setPresent (f : FaultSet) (k l : FaultKind) (p : Bool) :
    (f.setPresent k p).isLatched l = f.isLatched l := rfl

@[simp] theorem FaultSet.isPresent_latch (f : FaultSet) (k l : FaultKind) :
    (f.latch k).isPresent l = f.isPresent l := rfl

@[simp] theorem FaultSet.isLatched_latch (f : FaultSet) (k l : FaultKind) :
    (f.latch k).isLatched l = (decide (l = k) || f.isLatched l) := by
  have hl := l.bit_lt
  by_cases h : l = k
  · subst h; simp [FaultSet.latch, FaultSet.isLatched, FaultKind.mask_getElem, hl]
  · have : ¬ l.bit = k.bit := fun hb => h (FaultKind.bit_inj.mp hb)
    simp [FaultSet.latch, FaultSet.isLatched, FaultKind.mask_getElem, h, this, hl]

@[simp] theorem FaultSet.isPresent_condition (f : FaultSet) (k l : FaultKind) (p : Bool) :
    (f.condition k p).isPresent l = if l = k then p else f.isPresent l := by
  unfold FaultSet.condition; split <;> simp

@[simp] theorem FaultSet.isLatched_condition (f : FaultSet) (k l : FaultKind) (p : Bool) :
    (f.condition k p).isLatched l = (f.isLatched l || (decide (l = k) && p && !f.isPresent k)) := by
  unfold FaultSet.condition
  by_cases h : l = k
  · subst h; cases p <;> cases hp : f.isPresent l <;> cases hl : f.isLatched l <;> simp [hl]
  · cases p <;> cases hp : f.isPresent k <;> cases hl : f.isLatched k <;> simp [h]

/-- A latch changes the site's fault set alone, among the records. -/
@[simp] theorem site_latchFault (s : State) (n m : SiteName) (k : FaultKind) :
    (s.latchFault n k).site m =
      if m = n then { s.site n with
        faults := if (s.site n).faults.isLatched k then (s.site n).faults else (s.site n).faults.latch k }
      else s.site m := by
  unfold State.latchFault
  by_cases hl : (s.site n).faults.isLatched k = true
  · by_cases hm : m = n
    · subst hm; simp [hl]
    · simp [hl, hm]
  · simp [hl]

/-- A condition changes the site's fault set alone, among the records. -/
@[simp] theorem site_setCondition (s : State) (n m : SiteName) (k : FaultKind) (p : Bool) :
    (s.setCondition n k p).site m =
      if m = n then { s.site n with faults := (s.site n).faults.condition k p } else s.site m := by
  unfold State.setCondition FaultSet.condition
  by_cases hm : m = n
  · subst hm
    cases p <;> cases hp : (s.site m).faults.isPresent k <;> cases hl : (s.site m).faults.isLatched k <;>
      simp [hp, hl]
  · cases p <;> cases hp : (s.site n).faults.isPresent k <;> simp [hp, hm]

/-! ### The record a claim leaves -/

/-- The record that a claim with a new content leaves at its site. -/
def SiteRecord.claimed (old r : SiteRecord) (committing : Bool) : SiteRecord :=
  let new := r.settled committing
  let dirty := new.dirty || decide (new.stored ≠ old.stored) || decide (new.image.isSome ≠ old.image.isSome)
  match new.node, new.comm with
  | some i, some c =>
    { new with
        dirty := dirty
        faults := new.faults.condition .limitClamped (decide (effectiveLimit c.block i.plate < c.block.currentLimit)) }
  | _, _ => { new with dirty := dirty }

@[simp] theorem site_setDue (s : State) (n m : SiteName) : (s.setDue n).site m = s.site m := rfl
@[simp] theorem site_zeroCounts (s : State) (n m : SiteName) : (s.zeroCounts n).site m = s.site m := rfl
@[simp] theorem site_clamped (s : State) (n m : SiteName) : (s.clamped n).site m = s.site m := rfl

theorem site_limitCondition (s : State) (n m : SiteName) :
    (s.limitCondition n).site m =
      match (s.site n).node, (s.site n).comm with
      | some i, some c =>
        if m = n then { s.site n with
          faults := (s.site n).faults.condition .limitClamped (decide (effectiveLimit c.block i.plate < c.block.currentLimit)) }
        else s.site m
      | _, _ => s.site m := by
  unfold State.limitCondition
  split <;> simp_all

/-- A claim leaves the claimed record at its site and every other record as it stands. -/
theorem site_claim (s : State) (n m : SiteName) (r : SiteRecord) :
    (s.claim n r).site m = if m = n then (s.site n).claimed r (s.committing n) else s.site m := by
  unfold State.claim
  simp only []
  rw [site_limitCondition]
  have hw : ∀ (t : State) (c d : Bool) (k : SiteName),
      ((t.whenever c fun s => s.clamped n).whenever d fun s => s.siteChanged n).site k = t.site k := by
    intro t c d k; cases c <;> cases d <;> simp
  simp only [hw, site_setSite, if_true]
  unfold SiteRecord.claimed
  by_cases hm : m = n
  · subst hm; simp only [if_true]
  · simp only [hm, if_false]
    split <;> rfl

theorem site_change (s : State) (n m : SiteName) (f : SiteRecord → SiteRecord) :
    (s.change n f).site m = if m = n then (s.site n).claimed (f (s.site n)) (s.committing n) else s.site m :=
  site_claim ..

/-! ### The fields of a claimed record -/

/-- A record that carries no field its state does not is fitted as it stands. -/
theorem fit_of_cleared {r : SiteRecord} (h : r.cleared = true) (hv : r.state ≠ .vacant) : r.fit = r := by
  obtain ⟨state, node, comm, found, delay, ir, readings, faults, errors, holder, stray, pending, dirty⟩ := r
  simp only [SiteRecord.cleared] at h
  cases state
  case vacant => exact absurd rfl hv
  case discovered =>
    cases node with
    | none => simp_all [SiteRecord.fit]
    | some i =>
      obtain ⟨serial, plate, hostPlate, mode, pollFrom⟩ := i
      simp_all [SiteRecord.fit]
  all_goals simp_all [SiteRecord.fit]

theorem fit_state (r : SiteRecord) : r.fit.state = r.state := by
  unfold SiteRecord.fit; split <;> simp_all [SiteRecord.blank]

theorem settled_rest (r : SiteRecord) (k : Bool) : { r.settled k with comm := none } = { r.fit with comm := none } := by
  unfold SiteRecord.settled SiteRecord.withTrim SiteRecord.bounded
  obtain ⟨state, node, comm, found, delay, ir, readings, faults, errors, holder, stray, pending, dirty⟩ := r.fit
  cases node <;> cases comm <;> rfl

theorem claimed_rest (old r : SiteRecord) (k : Bool) :
    { old.claimed r k with comm := none, dirty := false, faults := ⟨0, 0⟩ } =
      { r.fit with comm := none, dirty := false, faults := ⟨0, 0⟩ } := by
  have h := settled_rest r k
  unfold SiteRecord.claimed
  simp only []
  split
  all_goals exact congrArg (fun q : SiteRecord => { q with dirty := false, faults := ⟨0, 0⟩ }) h

/-- The commissioned content of a claimed record: the applied current bounded, the trim status settled. -/
theorem claimed_comm (old r : SiteRecord) (k : Bool) : (old.claimed r k).comm = (r.settled k).comm := by
  unfold SiteRecord.claimed; simp only []; split <;> simp_all

/-- The set-point block of a claimed record, and its refresh age, are those of the claim. -/
theorem settled_block (r : SiteRecord) (k : Bool) :
    (r.settled k).comm.map (fun c => (c.block, c.refreshFrom)) = r.fit.comm.map fun c => (c.block, c.refreshFrom) := by
  unfold SiteRecord.settled SiteRecord.withTrim SiteRecord.bounded
  obtain ⟨state, node, comm, found, delay, ir, readings, faults, errors, holder, stray, pending, dirty⟩ := r.fit
  cases node <;> cases comm <;> rfl

@[simp] theorem claimed_state (old r : SiteRecord) (k : Bool) : (old.claimed r k).state = r.state := by
  have := congrArg SiteRecord.state (claimed_rest old r k)
  exact (show (old.claimed r k).state = r.fit.state from this).trans (fit_state r)

theorem claimed_node (old r : SiteRecord) (k : Bool) : (old.claimed r k).node = r.fit.node := by
  have := congrArg SiteRecord.node (claimed_rest old r k)
  exact this

theorem claimed_found (old r : SiteRecord) (k : Bool) : (old.claimed r k).found = r.fit.found := by
  have := congrArg SiteRecord.found (claimed_rest old r k)
  exact this

theorem claimed_lineDelay (old r : SiteRecord) (k : Bool) : (old.claimed r k).lineDelay = r.fit.lineDelay := by
  have := congrArg SiteRecord.lineDelay (claimed_rest old r k)
  exact this

theorem claimed_irOffset (old r : SiteRecord) (k : Bool) : (old.claimed r k).irOffset = r.fit.irOffset := by
  have := congrArg SiteRecord.irOffset (claimed_rest old r k)
  exact this

theorem claimed_readings (old r : SiteRecord) (k : Bool) : (old.claimed r k).readings = r.fit.readings := by
  have := congrArg SiteRecord.readings (claimed_rest old r k)
  exact this

theorem claimed_lineErrors (old r : SiteRecord) (k : Bool) : (old.claimed r k).lineErrors = r.fit.lineErrors := by
  have := congrArg SiteRecord.lineErrors (claimed_rest old r k)
  exact this

theorem claimed_holder (old r : SiteRecord) (k : Bool) : (old.claimed r k).holder = r.fit.holder := by
  have := congrArg SiteRecord.holder (claimed_rest old r k)
  exact this

theorem claimed_stray (old r : SiteRecord) (k : Bool) : (old.claimed r k).stray = r.fit.stray := by
  have := congrArg SiteRecord.stray (claimed_rest old r k)
  exact this

theorem claimed_pending (old r : SiteRecord) (k : Bool) : (old.claimed r k).pending = r.fit.pending := by
  have := congrArg SiteRecord.pending (claimed_rest old r k)
  exact this

/-! ### Soundness -/

/-- The content a claim may be given: what its state asks for is there, and the claims of leases and the line error
count are in order. A claim itself clears what the state does not carry and bounds the applied current. -/
def SiteRecord.claimable (r : SiteRecord) : Bool := r.complete && r.claims

theorem SiteRecord.sound_claimable {r : SiteRecord} (h : r.sound = true) : r.claimable = true := by
  simp only [SiteRecord.sound, SiteRecord.claimable, Bool.and_eq_true] at *
  exact ⟨h.1.1.1, h.2⟩

theorem bound_le (b : Block) (p : Nameplate) (a : Nat) : boundApplied b p a ≤ effectiveLimit b p := by
  unfold boundApplied; cases b.mode <;> simp <;> omega

theorem bound_bound (b : Block) (p : Nameplate) (a : Nat) :
    boundApplied b p (boundApplied b p a) = boundApplied b p a := by
  unfold boundApplied; cases b.mode <;> simp

theorem trimStatus_isSome (m : SetMode) (a b : Bool) : (trimStatus m a b).isSome = (m == .trimmed) := by
  cases m <;> rfl

/-- A claim with a content that is in order leaves a sound record. -/
theorem claimed_sound (old r : SiteRecord) (k : Bool) (h : r.claimable = true) : (old.claimed r k).sound = true := by
  obtain ⟨state, node, comm, found, delay, ir, readings, faults, errors, holder, stray, pending, dirty⟩ := r
  simp only [SiteRecord.claimable, Bool.and_eq_true, SiteRecord.complete, SiteRecord.claims] at h
  cases state <;> cases node <;> cases comm <;> cases found <;>
    simp_all [SiteRecord.claimed, SiteRecord.settled, SiteRecord.fit, SiteRecord.bounded, SiteRecord.withTrim,
      SiteRecord.sound, SiteRecord.complete, SiteRecord.cleared, SiteRecord.withinLimit, SiteRecord.claims,
      SiteRecord.blank, bound_bound, trimStatus_isSome]

end Sys2Proof.Machine
end

