-- ==== Sys2Proof/Laws/Keeps.lean ====
section
/-! SUPPORT. What an operation keeps on its way: the relations that the lemmas on the shared operations are stated
with, and the lemmas on the operations over one site. The provers cite these instead of unfolding an operation. -/

namespace Sys2Proof.Machine

open Sys2Proof

/-! ### The relation of the operations about sites -/

/-- What an operation about the sites of `N` keeps on the way from `t₀` to `s`: the background, the soundness of the
records, of the pool and of the FIFOs, and the sites it is not about. -/
structure Fine (N : SiteName → Prop) (t₀ s : State) : Prop where
  background : s.background = t₀.background
  records : s.RecordsSound
  pool : s.PoolSound
  fifos : s.FifosSound
  own : ∀ m, ¬ N m → (s.site m).own = (t₀.site m).own
  upkeep : ∀ m, ¬ N m → s.upkeepOf m = t₀.upkeepOf m
  attempt : ∀ m, ¬ N m → s.attemptOf m = t₀.attemptOf m
  readings : ∀ m, ¬ N m → s.frozenOf m = t₀.frozenOf m

variable {N M : SiteName → Prop} {t₀ s t : State} {n : SiteName}

theorem Fine.refl (h : s.RecordsSound) (hp : s.PoolSound) (hf : s.FifosSound) : Fine N s s :=
  ⟨rfl, h, hp, hf, fun _ _ => rfl, fun _ _ => rfl, fun _ _ => rfl, fun _ _ => rfl⟩

theorem Fine.self (h : Fine N t₀ s) : Fine M s s := Fine.refl h.records h.pool h.fifos

theorem Fine.trans (h : Fine N t₀ s) (k : Fine M s t) (hMN : ∀ m, M m → N m) : Fine N t₀ t where
  background := k.background.trans h.background
  records := k.records
  pool := k.pool
  fifos := k.fifos
  own m hm := (k.own m fun c => hm (hMN m c)).trans (h.own m hm)
  upkeep m hm := (k.upkeep m fun c => hm (hMN m c)).trans (h.upkeep m hm)
  attempt m hm := (k.attempt m fun c => hm (hMN m c)).trans (h.attempt m hm)
  readings m hm := (k.readings m fun c => hm (hMN m c)).trans (h.readings m hm)

theorem Fine.mono (h : Fine M t₀ s) (hMN : ∀ m, M m → N m) : Fine N t₀ s where
  background := h.background
  records := h.records
  pool := h.pool
  fifos := h.fifos
  own m hm := h.own m fun c => hm (hMN m c)
  upkeep m hm := h.upkeep m fun c => hm (hMN m c)
  attempt m hm := h.attempt m fun c => hm (hMN m c)
  readings m hm := h.readings m fun c => hm (hMN m c)

/-- An update that leaves the tables of the sites, the drafts and the host-driven FIFOs as they stand. -/
theorem Fine.of_eq (h : Fine N t₀ s) (hb : t.background = s.background) (hs : t.sites = s.sites)
    (hd : t.drafts = s.drafts) (hl : t.FifosSound) (hu : t.upkeep = s.upkeep) (ha : t.attemptFrom = s.attemptFrom)
    (hf : t.frozenReadings = s.frozenReadings) : Fine N t₀ t where
  background := hb.trans h.background
  records m := by rw [site_congr hs]; exact h.records m
  pool := by simp only [State.PoolSound, hd]; exact h.pool
  fifos := hl
  own m hm := by rw [site_congr hs]; exact h.own m hm
  upkeep m hm := by rw [upkeepOf_congr hu]; exact h.upkeep m hm
  attempt m hm := by rw [show t.attemptOf m = s.attemptOf m by simp [State.attemptOf, ha]]; exact h.attempt m hm
  readings m hm := by rw [show t.frozenOf m = s.frozenOf m by simp [State.frozenOf, hf]]; exact h.readings m hm

theorem Fine.whenever {c : Bool} {f : State → State} (h : Fine N t₀ s) (hf : Fine N t₀ (f s)) :
    Fine N t₀ (s.whenever c f) := whenever_elim h hf

theorem Fine.each {α : Type} {xs : List α} {f : State → α → State} (h : Fine N t₀ s)
    (hf : ∀ s x, x ∈ xs → Fine N t₀ s → Fine N t₀ (f s x)) : Fine N t₀ (s.each xs f) :=
  each_elim (P := fun s => Fine N t₀ s) h hf

theorem Fine.sound (h : Fine N t₀ s) : s.Sound := ⟨h.records, h.pool, h.fifos⟩

theorem Fine.of_sound (h : s.Sound) : Fine N s s := Fine.refl h.records h.pool h.fifos

/-- Soundness reads the records, the drafts and the lines alone. -/
theorem sound_of_eq (h : s.Sound) (hs : t.sites = s.sites) (hd : t.drafts = s.drafts) (hl : t.lines = s.lines) :
    t.Sound := by
  refine ⟨fun m => by rw [site_congr hs]; exact h.records m, ?_, ?_⟩
  · simp only [State.PoolSound, hd]; exact h.pool
  · simp only [State.FifosSound, hl]; exact h.fifos

/-! ### Plain updates -/

theorem Fine.setEntry {e : EntryNo} {x : LeaseEntry} (h : Fine N t₀ s) : Fine N t₀ (s.setEntry e x) :=
  h.of_eq rfl rfl rfl h.fifos rfl rfl rfl

theorem Fine.setBring {b : Branch} {x : BringUp} (h : Fine N t₀ s) : Fine N t₀ (s.setBring b x) :=
  h.of_eq rfl rfl rfl h.fifos rfl rfl rfl

theorem Fine.raise {f : EventFlag} (h : Fine N t₀ s) : Fine N t₀ (s.raise f) :=
  h.of_eq rfl rfl rfl h.fifos rfl rfl rfl

theorem Fine.siteChanged {m : SiteName} (h : Fine N t₀ s) : Fine N t₀ (s.siteChanged m) :=
  h.of_eq rfl rfl rfl h.fifos rfl rfl rfl

theorem Fine.siteMoved {m k : SiteName} (h : Fine N t₀ s) : Fine N t₀ (s.siteMoved m k) :=
  h.of_eq rfl rfl rfl h.fifos rfl rfl rfl

theorem Fine.leaseChanged {e : EntryNo} (h : Fine N t₀ s) : Fine N t₀ (s.leaseChanged e) :=
  h.of_eq rfl rfl rfl h.fifos rfl rfl rfl

theorem Fine.setUpkeep {u : Upkeep} (h : Fine N t₀ s) (hn : N n) : Fine N t₀ (s.setUpkeep n u) :=
  { h with
    upkeep := fun m hm => by
      rw [upkeepOf_setUpkeep, if_neg fun e => hm (by rw [e]; exact hn)]; exact h.upkeep m hm }

theorem Fine.setAttempt {a : Option Nat} (h : Fine N t₀ s) (hn : N n) : Fine N t₀ (s.setAttempt n a) :=
  { h with
    attempt := fun m hm => by
      rw [attemptOf_setAttempt, if_neg fun e => hm (by rw [e]; exact hn)]; exact h.attempt m hm }

theorem Fine.setFrozen {a : Option Readings} (h : Fine N t₀ s) (hn : N n) : Fine N t₀ (s.setFrozen n a) :=
  { h with
    readings := fun m hm => by
      rw [frozenOf_setFrozen, if_neg fun e => hm (by rw [e]; exact hn)]; exact h.readings m hm }

theorem fifos_line (h : s.FifosSound) (b : Branch) : (s.line b).hostFifo.length ≤ 16 := by
  cases b
  · exact h.1
  · exact h.2

theorem setLine_fifos {b : Branch} {l : Line} (h : s.FifosSound) (hl : l.hostFifo.length ≤ 16) :
    (s.setLine b l).FifosSound := by
  cases b
  · exact ⟨hl, h.2⟩
  · exact ⟨h.1, hl⟩

theorem Fine.setLine {b : Branch} {l : Line} (h : Fine N t₀ s) (hl : l.hostFifo.length ≤ 16) :
    Fine N t₀ (s.setLine b l) :=
  h.of_eq rfl rfl rfl (setLine_fifos h.fifos hl) rfl rfl rfl

theorem push_length {l : Line} {i : HostItem} (h : l.hostFifo.length ≤ 16) : (l.push i).hostFifo.length ≤ 16 := by
  unfold Line.push Line.full fifoSize
  split
  · exact h
  · simp_all <;> omega

theorem drop_length {l : Line} {i : HostItem} (h : l.hostFifo.length ≤ 16) : (l.drop i).hostFifo.length ≤ 16 :=
  Nat.le_trans (List.length_filter_le ..) h

theorem Fine.pushHost {b : Branch} {i : HostItem} (h : Fine N t₀ s) : Fine N t₀ (s.pushHost b i) :=
  h.setLine (push_length (fifos_line h.fifos b))

theorem Fine.dropHost {b : Branch} {i : HostItem} (h : Fine N t₀ s) : Fine N t₀ (s.dropHost b i) :=
  h.setLine (drop_length (fifos_line h.fifos b))

theorem Fine.setDue (h : Fine N t₀ s) (hn : N n) : Fine N t₀ (s.setDue n) := h.setUpkeep hn

theorem Fine.zeroCounts (h : Fine N t₀ s) (hn : N n) : Fine N t₀ (s.zeroCounts n) := h.setUpkeep hn

/-! ### Drafts -/

theorem Fine.setDrafts {ds : List Draft} (h : Fine N t₀ s)
    (hd : (ds.map (·.site)).Sublist (s.drafts.map (·.site))) : Fine N t₀ { s with drafts := ds } where
  background := h.background
  records := h.records
  pool := by
    refine ⟨Nat.le_trans ?_ h.pool.1, h.pool.2.sublist hd⟩
    have := hd.length_le; simpa using this
  fifos := h.fifos
  own := h.own
  upkeep := h.upkeep
  attempt := h.attempt
  readings := h.readings

theorem Fine.removeDraft (h : Fine N t₀ s) : Fine N t₀ (s.removeDraft n) :=
  h.setDrafts (List.Sublist.map _ List.filter_sublist)

theorem map_site_put (ds : List Draft) (d : Draft) :
    (ds.map fun x => if x.site = d.site then d else x).map (·.site) = ds.map (·.site) := by
  rw [List.map_map]
  refine List.map_congr_left fun x _ => ?_
  simp only [Function.comp]
  split <;> simp_all

theorem Fine.putDraft {d : Draft} (h : Fine N t₀ s) : Fine N t₀ (s.putDraft d) :=
  h.setDrafts ((map_site_put _ _).symm ▸ List.Sublist.refl _)

/-! ### Records -/

theorem Fine.setSite {r : SiteRecord} (h : Fine N t₀ s) (hn : N n) (hr : r.sound = true) : Fine N t₀ (s.setSite n r) where
  background := h.background
  records m := by
    rw [site_setSite]
    split
    · exact hr
    · exact h.records m
  pool := h.pool
  fifos := h.fifos
  own m hm := by rw [site_setSite, if_neg fun e => hm (by rw [e]; exact hn)]; exact h.own m hm
  upkeep := h.upkeep
  attempt := h.attempt
  readings := h.readings

/-- A record with its faults changed, the condition of LIMIT_CLAMPED as it was, is as sound as before. -/
theorem sound_faults {r : SiteRecord} {f : FaultSet} (h : r.sound = true)
    (hf : f.isPresent .limitClamped = r.faults.isPresent .limitClamped) : SiteRecord.sound { r with faults := f } = true := by
  simp only [SiteRecord.sound, SiteRecord.complete, SiteRecord.cleared, SiteRecord.withinLimit, SiteRecord.claims] at *
  rw [hf]; exact h

theorem Fine.latchFault {k : FaultKind} (h : Fine N t₀ s) (hn : N n) : Fine N t₀ (s.latchFault n k) := by
  unfold State.latchFault
  simp only []
  split
  · exact h
  · exact ((h.setSite hn (sound_faults (f := (s.site n).faults.latch k) (h.records n) rfl)).siteChanged).raise

theorem Fine.setCondition {k : FaultKind} {p : Bool} (h : Fine N t₀ s) (hn : N n) (hk : k ≠ .limitClamped) :
    Fine N t₀ (s.setCondition n k p) := by
  have h' := h.setSite hn (r := { s.site n with faults := (s.site n).faults.setPresent k p })
    (sound_faults (h.records n) (by simp [Ne.symm hk]))
  unfold State.setCondition
  simp only []
  split
  · exact h'.latchFault hn
  · exact h'

/-- The state but for the records, the upkeep items, the event flags and the site change set. -/
def State.unrecorded (s : State) : State :=
  { s with
      sites := State.reset.sites
      upkeep := State.reset.upkeep
      host := { s.host with flags := 0, siteChanges := [] } }

theorem unrecorded_whenever {c : Bool} {f : State → State} (h : (f s).unrecorded = s.unrecorded) :
    (s.whenever c f).unrecorded = s.unrecorded := whenever_eq h

theorem unrecorded_latchFault (s : State) (n : SiteName) (k : FaultKind) :
    (s.latchFault n k).unrecorded = s.unrecorded := by
  unfold State.latchFault; simp only []; split <;> rfl

theorem unrecorded_setCondition (s : State) (n : SiteName) (k : FaultKind) (p : Bool) :
    (s.setCondition n k p).unrecorded = s.unrecorded := by
  unfold State.setCondition; simp only []; split
  · rw [unrecorded_latchFault]; rfl
  · rfl

theorem unrecorded_limitCondition (s : State) (n : SiteName) : (s.limitCondition n).unrecorded = s.unrecorded := by
  unfold State.limitCondition; split
  · exact unrecorded_setCondition ..
  · rfl

/-- A claim changes the records, the upkeep items of its site where it clamps, the event flags and the site change
set, and nothing else. -/
theorem unrecorded_claim (s : State) (n : SiteName) (r : SiteRecord) : (s.claim n r).unrecorded = s.unrecorded := by
  unfold State.claim
  simp only []
  rw [unrecorded_limitCondition, unrecorded_whenever (by rfl), unrecorded_whenever (by rfl)]
  rfl

theorem upkeepOf_latchFault (s : State) (n m : SiteName) (k : FaultKind) :
    (s.latchFault n k).upkeepOf m = s.upkeepOf m := by
  unfold State.latchFault; simp only []; split <;> rfl

theorem upkeepOf_setCondition (s : State) (n m : SiteName) (k : FaultKind) (p : Bool) :
    (s.setCondition n k p).upkeepOf m = s.upkeepOf m := by
  unfold State.setCondition; simp only []; split
  · rw [upkeepOf_latchFault]; rfl
  · rfl

/-- A claim changes the upkeep items of its site alone, and those only where it clamps the applied current. -/
theorem upkeepOf_claim (s : State) (n m : SiteName) (r : SiteRecord)
    (h : m ≠ n ∨ (r.settled (s.committing n)).comm.map (·.applied) = r.fit.comm.map (·.applied)) :
    (s.claim n r).upkeepOf m = s.upkeepOf m := by
  have hl : ∀ t : State, (t.limitCondition n).upkeepOf m = t.upkeepOf m := by
    intro t; unfold State.limitCondition; split
    · exact upkeepOf_setCondition ..
    · rfl
  unfold State.claim
  simp only []
  rw [hl, whenever_eq (g := fun t => t.upkeepOf m) rfl]
  rcases h with h | h
  · refine (whenever_eq (g := fun t => t.upkeepOf m) ?_).trans rfl
    simp [State.clamped, State.zeroCounts, State.setDue, h]
  · simp [h]

theorem Fine.claim {r : SiteRecord} (h : Fine N t₀ s) (hn : N n) (hr : r.claimable = true) :
    Fine N t₀ (s.claim n r) := by
  have hu := unrecorded_claim s n r
  refine ⟨(congrArg State.background hu).trans h.background, fun m => ?_, ?_, ?_, fun m hm => ?_, fun m hm => ?_,
    fun m hm => ?_, fun m hm => ?_⟩
  · rw [site_claim]; split
    · exact claimed_sound _ _ _ hr
    · exact h.records m
  · have := congrArg State.drafts hu
    simp only [State.PoolSound]; rw [show (s.claim n r).drafts = s.drafts from this]; exact h.pool
  · have := congrArg State.lines hu
    simp only [State.FifosSound]; rw [show (s.claim n r).lines = s.lines from this]; exact h.fifos
  · rw [site_claim, if_neg fun e => hm (by rw [e]; exact hn)]; exact h.own m hm
  · rw [upkeepOf_claim _ _ _ _ (.inl fun e => hm (by rw [e]; exact hn))]; exact h.upkeep m hm
  · exact (congrArg (fun t => t.attemptOf m) hu).trans (h.attempt m hm)
  · exact (congrArg (fun t => t.frozenOf m) hu).trans (h.readings m hm)

/-- A content that differs from a sound record in no field its state asks for, nor in its claims, may be claimed. -/
theorem claimable_of {r q : SiteRecord} (h : r.sound = true) (hs : q.state = r.state)
    (hn : q.node.isSome = r.node.isSome) (hc : q.comm.isSome = r.comm.isSome) (hf : q.found.isSome = r.found.isSome)
    (hk : q.claims = true) : q.claimable = true := by
  have := SiteRecord.sound_claimable h
  simp only [SiteRecord.claimable, SiteRecord.complete, Bool.and_eq_true] at *
  rw [hs, hn, hc, hf]
  exact ⟨this.1, hk⟩

theorem sound_claims {r : SiteRecord} (h : r.sound = true) : r.claims = true := by
  simp only [SiteRecord.sound, Bool.and_eq_true] at h; exact h.2

theorem sound_complete {r : SiteRecord} (h : r.sound = true) : r.complete = true := by
  simp only [SiteRecord.sound, Bool.and_eq_true] at h; exact h.1.1.1

theorem sound_cleared {r : SiteRecord} (h : r.sound = true) : r.cleared = true := by
  simp only [SiteRecord.sound, Bool.and_eq_true] at h; exact h.1.1.2

/-- A claim that changes fields of no presence rule and no claim of a lease. -/
theorem Fine.changeFree {f : SiteRecord → SiteRecord} (h : Fine N t₀ s) (hn : N n)
    (hs : ∀ r, (f r).state = r.state) (hi : ∀ r, (f r).node.isSome = r.node.isSome)
    (hc : ∀ r, (f r).comm.isSome = r.comm.isSome) (hf : ∀ r, (f r).found.isSome = r.found.isSome)
    (hk : ∀ r, (f r).claims = r.claims) : Fine N t₀ (s.change n f) :=
  h.claim hn (claimable_of (h.records n) (hs _) (hi _) (hc _) (hf _) ((hk _).trans (sound_claims (h.records n))))

theorem Fine.changeNode {f : NodeIdent → NodeIdent} (h : Fine N t₀ s) (hn : N n) : Fine N t₀ (s.changeNode n f) :=
  h.changeFree hn (fun _ => rfl) (fun r => by simp) (fun _ => rfl) (fun _ => rfl) fun _ => rfl

theorem Fine.changeComm {f : Commissioned → Commissioned} (h : Fine N t₀ s) (hn : N n) :
    Fine N t₀ (s.changeComm n f) :=
  h.changeFree hn (fun _ => rfl) (fun _ => rfl) (fun r => by simp) (fun _ => rfl) fun _ => rfl

theorem Fine.markDirty (h : Fine N t₀ s) (hn : N n) : Fine N t₀ (s.markDirty n) :=
  h.changeFree hn (fun _ => rfl) (fun _ => rfl) (fun _ => rfl) (fun _ => rfl) fun _ => rfl

theorem Fine.setPending {p : Option PendingCall} (h : Fine N t₀ s) (hn : N n) : Fine N t₀ (s.setPending n p) :=
  h.changeFree hn (fun _ => rfl) (fun _ => rfl) (fun _ => rfl) (fun _ => rfl) fun _ => rfl

theorem Fine.retrim (h : Fine N t₀ s) (hn : N n) : Fine N t₀ (s.retrim n) :=
  h.changeFree hn (fun _ => rfl) (fun _ => rfl) (fun _ => rfl) (fun _ => rfl) fun _ => rfl

theorem Fine.clearHolder (h : Fine N t₀ s) (hn : N n) : Fine N t₀ (s.clearHolder n) :=
  h.claim hn (claimable_of (h.records n) rfl rfl rfl rfl (by
    have := sound_claims (h.records n); simp only [SiteRecord.claims, Bool.and_eq_true] at *; simp [this.2]))

theorem Fine.clearStray (h : Fine N t₀ s) (hn : N n) : Fine N t₀ (s.clearStray n) :=
  h.claim hn (claimable_of (h.records n) rfl rfl rfl rfl (by
    have := sound_claims (h.records n); simp only [SiteRecord.claims, Bool.and_eq_true] at *; simp [this.2]))

theorem Fine.writeStray {k : Nat} (h : Fine N t₀ s) (hn : N n) : Fine N t₀ (s.writeStray n k) := by
  refine h.claim hn ?_
  simp only []
  split
  · exact SiteRecord.sound_claimable (h.records n)
  · refine claimable_of (h.records n) rfl rfl rfl rfl ?_
    have := sound_claims (h.records n); simp only [SiteRecord.claims, Bool.and_eq_true] at *; simp_all

/-! ### Pending and its place -/

theorem Fine.takePlace {p : Purpose} (h : Fine N t₀ s) (hn : N n) : Fine N t₀ (s.takePlace n p) := by
  unfold State.takePlace
  simp only []
  refine (h.setLine ?_).setPending hn
  split
  · exact fifos_line h.fifos _
  · exact push_length (drop_length (fifos_line h.fifos _))

theorem Fine.claimCall {p : Purpose} (h : Fine N t₀ s) (hn : N n) : Fine N t₀ (s.claimCall n p) := by
  unfold State.claimCall
  simp only []
  split
  · exact h
  · split
    · exact h.setPending hn
    · exact (h.setLine (push_length (fifos_line h.fifos _))).setPending hn

theorem Fine.claimRestore (h : Fine N t₀ s) (hn : N n) : Fine N t₀ (s.claimRestore n) := h.claimCall hn

theorem Fine.claimClean (h : Fine N t₀ s) (hn : N n) : Fine N t₀ (s.claimClean n) := by
  unfold State.claimClean
  simp only []
  split
  · exact h.claimCall hn
  · exact h

theorem Fine.unqueue (h : Fine N t₀ s) : Fine N t₀ (s.unqueue n) := h.dropHost

theorem Fine.detach (h : Fine N t₀ s) : Fine N t₀ (s.detach n) := by
  unfold State.detach
  simp only []
  split
  · split
    · exact h.setLine (fifos_line h.fifos _)
    · exact h
  · exact h

theorem Fine.freeDraft (h : Fine N t₀ s) (hn : N n) : Fine N t₀ (s.freeDraft n) := h.removeDraft.siteChanged.retrim hn

theorem Fine.dropDraft (h : Fine N t₀ s) (hn : N n) : Fine N t₀ (s.dropDraft n) := by
  unfold State.dropDraft
  split
  · exact (h.freeDraft hn).raise
  · exact h

theorem Fine.reopenDraft {c : CommitResult} (h : Fine N t₀ s) (hn : N n) : Fine N t₀ (s.reopenDraft n c) := by
  unfold State.reopenDraft
  split
  · split
    · exact h.putDraft.siteChanged.retrim hn
    · exact h
  · exact h

end Sys2Proof.Machine
end

