-- ==== Sys2Proof/Laws/Leases.lean ====
section
/-! SUPPORT. What the operations of the Lease Table and the Lease Sequencer keep: everything that is not the leases' own
or marked by them (R77, R78, R91). One lemma for each operation. -/

namespace Sys2Proof.Machine

open Sys2Proof

/-- What an operation over the leases keeps on the way from `t₀` to `s`. -/
structure LeaseOnly (t₀ s : State) : Prop where
  records : s.RecordsSound
  same : s.unleased = t₀.unleased

variable {N : SiteName → Prop} {t₀ s t : State} {n : SiteName} {e : EntryNo}

theorem LeaseOnly.refl (h : s.RecordsSound) : LeaseOnly s s := ⟨h, rfl⟩

theorem LeaseOnly.trans (h : LeaseOnly t₀ s) (k : LeaseOnly s t) : LeaseOnly t₀ t := ⟨k.records, k.same.trans h.same⟩

theorem LeaseOnly.own (h : LeaseOnly t₀ s) (m : SiteName) : (s.site m).own = (t₀.site m).own := by
  have hg : ∀ v : Vector SiteRecord 64, (v.map SiteRecord.own).get m = (v.get m).own := by
    intro v; simp [Vector.get]
  have := congrArg (fun t : State => t.sites.get m) h.same
  simp only [State.unleased, hg] at this
  exact this

/-- An operation over the leases keeps what any operation keeps. -/
theorem LeaseOnly.fine (k : LeaseOnly s t) (h : Fine N t₀ s) : Fine N t₀ t where
  background := (congrArg State.background k.same).trans h.background
  records := k.records
  pool := by
    have hd := congrArg State.drafts k.same
    have : t.drafts = s.drafts := hd
    simp only [State.PoolSound]; rw [this]; exact h.pool
  fifos := by
    have hw := congrArg (fun u : State => u.lines.west.hostFifo) k.same
    have he := congrArg (fun u : State => u.lines.east.hostFifo) k.same
    change t.lines.west.hostFifo = s.lines.west.hostFifo at hw
    change t.lines.east.hostFifo = s.lines.east.hostFifo at he
    simp only [State.FifosSound]; rw [hw, he]; exact h.fifos
  own m hm := (k.own m).trans (h.own m hm)
  upkeep m hm := (congrArg (fun u : State => u.upkeepOf m) k.same).trans (h.upkeep m hm)
  attempt m hm := (congrArg (fun u : State => u.attemptOf m) k.same).trans (h.attempt m hm)
  readings m hm := (congrArg (fun u : State => u.frozenOf m) k.same).trans (h.readings m hm)

theorem LeaseOnly.of_eq (h : LeaseOnly t₀ s) (hs : t.sites = s.sites) (k : t.unleased = s.unleased) : LeaseOnly t₀ t :=
  ⟨fun m => by rw [site_congr hs]; exact h.records m, k.trans h.same⟩

theorem LeaseOnly.whenever {c : Bool} {f : State → State} (h : LeaseOnly t₀ s) (hf : LeaseOnly t₀ (f s)) :
    LeaseOnly t₀ (s.whenever c f) := whenever_elim h hf

theorem LeaseOnly.each {α : Type} {xs : List α} {f : State → α → State} (h : LeaseOnly t₀ s)
    (hf : ∀ s x, LeaseOnly t₀ s → LeaseOnly t₀ (f s x)) : LeaseOnly t₀ (s.each xs f) :=
  each_elim (P := fun s => LeaseOnly t₀ s) h fun s x _ => hf s x

/-! ### Entries, outcomes and calls -/

theorem LeaseOnly.setEntry {x : LeaseEntry} (h : LeaseOnly t₀ s) : LeaseOnly t₀ (s.setEntry e x) := h.of_eq rfl rfl

theorem LeaseOnly.setLease {l : Lease} (h : LeaseOnly t₀ s) : LeaseOnly t₀ (s.setLease e l) := h.of_eq rfl rfl

theorem LeaseOnly.leaseChanged (h : LeaseOnly t₀ s) : LeaseOnly t₀ (s.leaseChanged e) := h.of_eq rfl rfl

theorem LeaseOnly.changeLease {f : Lease → Lease} (h : LeaseOnly t₀ s) : LeaseOnly t₀ (s.changeLease e f) := by
  unfold State.changeLease; split
  · exact h.setLease
  · exact h

theorem LeaseOnly.changeOutcome {f : LeaseSite → LeaseSite} (h : LeaseOnly t₀ s) :
    LeaseOnly t₀ (s.changeOutcome e n f) := by
  unfold State.changeOutcome; split
  · exact h.setLease.whenever h.setLease.leaseChanged
  · exact h

theorem LeaseOnly.setLine {b : Branch} {l : Line} (h : LeaseOnly t₀ s) (hl : l.hostSide = (s.line b).hostSide) :
    LeaseOnly t₀ (s.setLine b l) := by
  refine h.of_eq rfl ?_
  cases b <;> simp only [State.unleased, State.setLine, Pair.put] <;> rw [hl] <;> rfl

theorem LeaseOnly.pushLease {k : Handle} (h : LeaseOnly t₀ s) : LeaseOnly t₀ (s.pushLease k n) := h.setLine rfl

theorem LeaseOnly.dropLease {k : Handle} (h : LeaseOnly t₀ s) : LeaseOnly t₀ (s.dropLease k n) := h.setLine rfl

theorem LeaseOnly.removePolls {k : Handle} {p : SiteName → Bool} (h : LeaseOnly t₀ s) :
    LeaseOnly t₀ (s.removePolls k p) := h.of_eq rfl rfl

theorem LeaseOnly.placeCall {c : LeaseCall} (h : LeaseOnly t₀ s) : LeaseOnly t₀ (s.placeCall e n c) := by
  unfold State.placeCall; split
  · exact h
  · split
    · exact h.changeOutcome
    · exact h.changeOutcome.pushLease

theorem LeaseOnly.placeAll {p : LeaseSite → Bool} {c : LeaseCall} (h : LeaseOnly t₀ s) :
    LeaseOnly t₀ (s.placeAll e p c) := by
  refine h.each fun s n h => ?_
  split
  · split
    · exact h.placeCall
    · exact h
  · exact h

theorem LeaseOnly.withdrawCall (h : LeaseOnly t₀ s) : LeaseOnly t₀ (s.withdrawCall e n) := by
  unfold State.withdrawCall; split
  · split
    · exact h.changeOutcome.dropLease
    · exact h
  · exact h

/-! ### The claims of leases on the records -/

theorem setPresent_same {f : FaultSet} {k : FaultKind} {p : Bool} (h : f.isPresent k = p) : f.setPresent k p = f := by
  have : (if p then f.present ||| k.mask else f.present &&& ~~~k.mask) = f.present := by
    subst h
    apply BitVec.eq_of_getLsbD_eq
    intro i hi
    by_cases hk : i = k.bit
    · subst hk
      cases hp : f.isPresent k
      · simp only [FaultSet.isPresent] at hp
        simp [BitVec.getLsbD_and, hp]
      · simp only [FaultSet.isPresent] at hp
        simp [BitVec.getLsbD_or, hp]
    · cases hp : f.isPresent k <;> simp [FaultKind.mask_getElem, hk, hi]
  unfold FaultSet.setPresent
  rw [this]

theorem condition_same {f : FaultSet} {k : FaultKind} {p : Bool} (h : f.isPresent k = p) : f.condition k p = f := by
  unfold FaultSet.condition
  rw [setPresent_same h]
  cases p <;> simp [h]

/-- A claim that changes the holder or the stray time of a sound record leaves the rest of it, and its applied
current, as they are. -/
theorem claimed_held (old : SiteRecord) (x : Option Handle) (y : Option Nat) (k : Bool) (h : old.sound = true)
    (hv : old.state ≠ .vacant) :
    (old.claimed { old with holder := x, stray := y } k).own = old.own ∧
      (SiteRecord.settled { old with holder := x, stray := y } k).comm.map (·.applied) =
        (SiteRecord.fit { old with holder := x, stray := y }).comm.map (·.applied) := by
  obtain ⟨state, node, comm, found, delay, ir, readings, faults, errors, holder, stray, pending, dirty⟩ := old
  simp only [SiteRecord.sound, Bool.and_eq_true, SiteRecord.complete, SiteRecord.cleared, SiteRecord.withinLimit] at h
  cases state <;> cases node <;> cases comm <;> cases found <;>
    simp_all [SiteRecord.claimed, SiteRecord.settled, SiteRecord.fit, SiteRecord.bounded, SiteRecord.withTrim,
      SiteRecord.own, SiteRecord.stored, SiteRecord.image, SiteRecord.writtenCommissioned, condition_same]
  · rename_i i
    obtain ⟨serial, plate, hostPlate, mode, pollFrom⟩ := i
    simp_all
  · exact fun hne => absurd rfl hne

/-- A claim of a lease on a record that is not VACANT. -/
theorem LeaseOnly.claimHeld {x : Option Handle} {y : Option Nat} (h : LeaseOnly t₀ s) (hv : (s.site n).state ≠ .vacant)
    (hxy : !(x.isSome && y.isSome)) : LeaseOnly t₀ (s.claim n { s.site n with holder := x, stray := y }) := by
  have hc := claimed_held (s.site n) x y (s.committing n) (h.records n) hv
  have hr : SiteRecord.claimable { s.site n with holder := x, stray := y } = true := by
    refine claimable_of (h.records n) rfl rfl rfl rfl ?_
    have := sound_claims (h.records n)
    simp only [SiteRecord.claims, Bool.and_eq_true] at *
    exact ⟨hxy, this.2⟩
  have hsite : ∀ m, ((s.claim n { s.site n with holder := x, stray := y }).site m).own = (s.site m).own := by
    intro m
    rw [site_claim]
    split
    · rename_i hm; rw [hc.1, hm]
    · rfl
  refine ⟨fun m => ?_, Eq.trans ?_ h.same⟩
  · rw [site_claim]; split
    · exact claimed_sound _ _ _ hr
    · exact h.records m
  · have hu := unrecorded_claim s n { s.site n with holder := x, stray := y }
    have hk : (s.claim n { s.site n with holder := x, stray := y }).upkeep = s.upkeep := by
      apply Vector.ext
      intro i hi
      exact upkeepOf_claim s n ⟨i, hi⟩ _ (.inr hc.2)
    have hs : (s.claim n { s.site n with holder := x, stray := y }).sites.map SiteRecord.own
        = s.sites.map SiteRecord.own := by
      apply Vector.ext
      intro i hi
      simp only [Vector.getElem_map]
      exact hsite ⟨i, hi⟩
    generalize s.claim n { s.site n with holder := x, stray := y } = t at *
    have hF : ∀ u : State, u.unleased =
        { u.unrecorded with
          sites := u.sites.map SiteRecord.own
          upkeep := u.upkeep
          leases := State.reset.leases
          closeOrder := []
          lines := ⟨u.unrecorded.lines.west.hostSide, u.unrecorded.lines.east.hostSide⟩
          host := { u.unrecorded.host with leaseChanges := [] } } := fun _ => rfl
    rw [hF t, hF s, hu, hk, hs]

theorem sound_not_both {r : SiteRecord} (h : r.sound = true) : !(r.holder.isSome && r.stray.isSome) := by
  have := sound_claims h; simp only [SiteRecord.claims, Bool.and_eq_true] at this; exact this.1

theorem LeaseOnly.clearHolder (h : LeaseOnly t₀ s) (hv : (s.site n).state ≠ .vacant) : LeaseOnly t₀ (s.clearHolder n) :=
  h.claimHeld (x := none) (y := (s.site n).stray) hv (by simp)

theorem LeaseOnly.clearStray (h : LeaseOnly t₀ s) (hv : (s.site n).state ≠ .vacant) : LeaseOnly t₀ (s.clearStray n) :=
  h.claimHeld (x := (s.site n).holder) (y := none) hv (by simp)

theorem LeaseOnly.writeStray {k : Nat} (h : LeaseOnly t₀ s) (hv : (s.site n).state ≠ .vacant) :
    LeaseOnly t₀ (s.writeStray n k) := by
  cases hh : (s.site n).holder with
  | some x =>
    have := h.claimHeld (n := n) (x := (s.site n).holder) (y := (s.site n).stray) hv (sound_not_both (h.records n))
    unfold State.writeStray State.change
    simp only [hh, Option.isSome_some, if_true]
    rw [show ({ s.site n with holder := (s.site n).holder, stray := (s.site n).stray } : SiteRecord) = s.site n from rfl]
      at this
    exact this
  | none =>
    have := h.claimHeld (n := n) (x := none) (y := some ((s.site n).stray.elim k fun old => max old k)) hv (by simp)
    unfold State.writeStray State.change
    simp only [hh, Option.isSome_none, Bool.false_eq_true, if_false]
    rw [← hh] at this ⊢
    exact this

theorem held_not_vacant {r : SiteRecord} (h : r.sound = true) (hh : r.holder.isSome = true) : r.state ≠ .vacant := by
  intro hv
  have := sound_cleared h
  simp only [SiteRecord.cleared, hv, Bool.and_eq_true] at this
  simp_all

theorem strayed_not_vacant {r : SiteRecord} (h : r.sound = true) (hh : r.stray.isSome = true) : r.state ≠ .vacant := by
  intro hv
  have := sound_cleared h
  simp only [SiteRecord.cleared, hv, Bool.and_eq_true] at this
  simp_all

theorem own_state {r q : SiteRecord} (h : r.own = q.own) : r.state = q.state := by
  have := congrArg SiteRecord.state h; exact this

theorem LeaseOnly.leaveHold {k : Handle} {x : Option Nat} (h : LeaseOnly t₀ s) : LeaseOnly t₀ (s.leaveHold k n x) := by
  unfold State.leaveHold
  split
  · rename_i hh
    have hv := held_not_vacant (h.records n) (by simp [hh])
    have h' := h.clearHolder hv
    have hv' : ((s.clearHolder n).site n).state ≠ .vacant := by
      have := own_state ((h'.own n).trans (h.own n).symm)
      rw [this]; exact hv
    split
    · exact h'.writeStray hv'
    · exact h'
  · exact h

/-! ### Leaving and closing -/

theorem LeaseOnly.dropSite {f : Failure} {k : Bool} (h : LeaseOnly t₀ s) : LeaseOnly t₀ (s.dropSite e n f k) := by
  unfold State.dropSite
  simp only []
  split
  · exact h
  · split
    · exact h
    · exact h.withdrawCall.changeOutcome.removePolls.leaveHold

theorem LeaseOnly.setCloseOrder {o : List EntryNo} (h : LeaseOnly t₀ s) : LeaseOnly t₀ { s with closeOrder := o } :=
  h.of_eq rfl rfl

theorem LeaseOnly.closeLease {c : CloseCause} (h : LeaseOnly t₀ s) : LeaseOnly t₀ (s.closeLease e c) := by
  unfold State.closeLease
  simp only []
  split
  · exact h
  · refine LeaseOnly.leaseChanged (LeaseOnly.setCloseOrder (LeaseOnly.setLease ?_))
    exact LeaseOnly.of_eq (h.each fun s x h => h.leaveHold) rfl rfl

theorem LeaseOnly.closeIfDone (h : LeaseOnly t₀ s) : LeaseOnly t₀ (s.closeIfDone e) := by
  unfold State.closeIfDone; split
  · split
    · exact h.closeLease
    · exact h
  · exact h

/-! ### Stopping -/

theorem LeaseOnly.withdrawChange (h : LeaseOnly t₀ s) : LeaseOnly t₀ (s.withdrawChange e n) := by
  unfold State.withdrawChange; split
  · simp only []
    split
    · exact h.withdrawCall.changeOutcome
    · exact h.changeOutcome
  · exact h

theorem LeaseOnly.endChange {r : ChangeResult} (h : LeaseOnly t₀ s) : LeaseOnly t₀ (s.endChange e r) :=
  h.changeLease.leaseChanged

theorem LeaseOnly.cutShort (h : LeaseOnly t₀ s) : LeaseOnly t₀ (s.cutShort e) := by
  unfold State.cutShort; split
  · split
    · exact (h.each fun s x h => h.withdrawChange).endChange
    · exact h
  · exact h

theorem LeaseOnly.enterStopping {c : CloseCause} {p : LeaseSite → Bool} {k : LeaseCall} {w : Bool}
    (h : LeaseOnly t₀ s) : LeaseOnly t₀ (s.enterStopping e c p k w) := by
  unfold State.enterStopping
  simp only []
  split
  · exact h
  · have h' : LeaseOnly t₀ (((((s.cutShort e).removePolls (s.handleOf e) fun _ => true).changeLease e fun l =>
        { l with state := .stopping, stopCause := some c }).placeAll e p k).leaseChanged e) :=
      h.cutShort.removePolls.changeLease.placeAll.leaseChanged
    split
    · exact h'
    · exact h'.closeLease

theorem LeaseOnly.withdrawArms (h : LeaseOnly t₀ s) : LeaseOnly t₀ (s.withdrawArms e) := by
  refine h.each fun s n h => ?_
  split
  · split
    · exact h.withdrawCall
    · exact h
  · exact h

theorem LeaseOnly.stopArming {c : CloseCause} (h : LeaseOnly t₀ s) : LeaseOnly t₀ (s.stopArming e c) := by
  unfold State.stopArming
  exact h.withdrawArms.enterStopping

theorem LeaseOnly.stopRunning {c : CloseCause} (h : LeaseOnly t₀ s) : LeaseOnly t₀ (s.stopRunning e c) :=
  h.enterStopping

/-! ### Pending changes -/

theorem LeaseOnly.notInTime {b : Option Nat} (h : LeaseOnly t₀ s) : LeaseOnly t₀ (s.notInTime e b) := by
  unfold State.notInTime; split
  · exact h.each fun s x h => h.withdrawChange.changeOutcome
  · exact h

theorem LeaseOnly.dropFailed {k : Bool} (h : LeaseOnly t₀ s) : LeaseOnly t₀ (s.dropFailed e k) := by
  unfold State.dropFailed; split
  · exact h.each fun s x h => h.dropSite
  · exact h

theorem LeaseOnly.endReverts (h : LeaseOnly t₀ s) : LeaseOnly t₀ (s.endReverts e) := by
  unfold State.endReverts; split
  · split
    · split
      · exact h
      · exact h.endChange
    · exact h
  · exact h

theorem LeaseOnly.decideExtend {v : Nat} (h : LeaseOnly t₀ s) : LeaseOnly t₀ (s.decideExtend e v) := by
  have h0 := h.notInTime (e := e) (b := some v)
  unfold State.decideExtend
  simp only []
  split
  · exact h0
  · split
    · exact h0.changeLease.endChange
    · split
      · split
        · exact h0.changeLease.placeAll.leaseChanged.endReverts
        · exact h0.endChange
      · split
        · exact h0.dropFailed.changeLease.endChange
        · exact h0.dropFailed.changeLease.endChange.closeLease

theorem LeaseOnly.decideRepattern {p : Pattern} {b : Nat} (h : LeaseOnly t₀ s) :
    LeaseOnly t₀ (s.decideRepattern e p b) := by
  have h0 := h.notInTime (e := e) (b := none)
  unfold State.decideRepattern
  simp only []
  split
  · exact h0
  · split
    · exact h0.changeLease.endChange
    · split
      · exact h0.endChange.enterStopping
      · split
        · exact h0.dropFailed.placeAll.changeLease.endChange
        · exact h0.dropFailed.placeAll.changeLease.endChange.closeLease

theorem LeaseOnly.checkDecision (h : LeaseOnly t₀ s) : LeaseOnly t₀ (s.checkDecision e) := by
  unfold State.checkDecision; split
  · exact h
  · split
    · exact h
    · split
      · exact h
      · exact h.decideExtend
    · exact h.endReverts
    · split
      · exact h
      · exact h.decideRepattern

/-! ### Arming -/

theorem LeaseOnly.enterArmed (h : LeaseOnly t₀ s) : LeaseOnly t₀ (s.enterArmed e) :=
  h.changeLease.leaseChanged.checkDecision

theorem LeaseOnly.armedIfAll (h : LeaseOnly t₀ s) : LeaseOnly t₀ (s.armedIfAll e) := by
  unfold State.armedIfAll; split
  · split
    · exact h.enterArmed
    · exact h
  · exact h

theorem LeaseOnly.armDeadline (h : LeaseOnly t₀ s) : LeaseOnly t₀ (s.armDeadline e) := by
  have h0 := h.withdrawArms (e := e) |>.changeLease (e := e)
    (f := fun l => { l with sites := l.sites.map LeaseSite.atArmDeadline })
  unfold State.armDeadline
  simp only []
  split
  · exact h0
  · split
    · split
      · exact h0.enterArmed
      · exact h0.enterStopping
    · split
      · exact (h0.each fun s x h => h.dropSite).enterArmed
      · exact (h0.each fun s x h => h.dropSite).closeLease

/-! ### Lost and FRESH sites -/

theorem LeaseOnly.lostRunning {f : Failure} {b : Bool} (h : LeaseOnly t₀ s) :
    LeaseOnly t₀ (s.lostRunning e n f b) := by
  unfold State.lostRunning; split
  · exact h
  · split
    · exact h.changeOutcome.enterStopping
    · simp only []
      split
      · exact h.dropSite.leaseChanged.checkDecision
      · exact h.dropSite.leaseChanged.closeLease

theorem LeaseOnly.lostArmed {f : Failure} (h : LeaseOnly t₀ s) : LeaseOnly t₀ (s.lostArmed e n f) := by
  unfold State.lostArmed; split
  · exact h
  · split
    · exact h.changeOutcome.enterStopping
    · simp only []
      split
      · exact h.dropSite.leaseChanged.checkDecision
      · exact h.dropSite.leaseChanged.closeLease

theorem LeaseOnly.lostGranted (h : LeaseOnly t₀ s) : LeaseOnly t₀ (s.lostGranted e n) := by
  unfold State.lostGranted; split
  · exact h
  · split
    · exact h.changeOutcome.closeLease
    · simp only []
      split
      · exact h.dropSite.closeLease
      · exact h.dropSite

theorem LeaseOnly.leaseLost {k : Handle} (h : LeaseOnly t₀ s) : LeaseOnly t₀ (s.leaseLost n k) := by
  unfold State.leaseLost; split
  · exact h
  · split
    · exact h
    · split
      · exact h.lostGranted
      · exact h.changeOutcome.withdrawCall
      · exact h.lostArmed
      · exact h.lostRunning
      · exact h
      · exact h

theorem LeaseOnly.leaseFresh (h : LeaseOnly t₀ s) : LeaseOnly t₀ (s.leaseFresh n) := by
  unfold State.leaseFresh; split
  · exact h
  · simp only []
    split
    · exact h
    · split
      · exact h
      · split
        · exact h.changeOutcome
        · exact h.changeOutcome
        · split
          · exact h.changeOutcome.changeOutcome.withdrawCall
          · split
            · exact h.changeOutcome.changeOutcome
            · exact h.changeOutcome
        · exact h.changeOutcome.lostArmed
        · exact h.changeOutcome.lostRunning
        · exact h.changeOutcome.withdrawCall.changeOutcome.closeIfDone

theorem LeaseOnly.cycleLost {k : Handle} (h : LeaseOnly t₀ s) : LeaseOnly t₀ (s.cycleLost n k) := by
  unfold State.cycleLost; split
  · exact h
  · split
    · exact h.changeOutcome.lostRunning
    · exact h

theorem LeaseOnly.withdrawSiteCalls (h : LeaseOnly t₀ s) : LeaseOnly t₀ (s.withdrawSiteCalls n) := by
  refine h.each fun s e h => ?_
  split
  · split
    · exact h.withdrawCall.changeOutcome
    · exact h
  · exact h

theorem LeaseOnly.closeAllDone (h : LeaseOnly t₀ s) : LeaseOnly t₀ s.closeAllDone := h.each fun _ _ h => h.closeIfDone

/-! ### Ends of lease calls -/

theorem LeaseOnly.armEnd {r : End} (h : LeaseOnly t₀ s) : LeaseOnly t₀ (s.armEnd e n r) := by
  unfold State.armEnd; split
  · exact h
  · split
    · simp only []
      split
      · split
        · exact h.changeOutcome.changeLease.placeCall
        · exact h.changeOutcome.changeLease.changeOutcome
      · refine LeaseOnly.armedIfAll ?_
        split
        · split
          · exact h.changeOutcome.changeLease.changeOutcome.placeCall
          · exact h.changeOutcome.changeLease
        · exact h.changeOutcome.changeLease
    · exact h.changeOutcome

theorem LeaseOnly.stopEnd {r : End} (h : LeaseOnly t₀ s) : LeaseOnly t₀ (s.stopEnd e n r) := h.changeOutcome

theorem LeaseOnly.checkEnd {r : End} (h : LeaseOnly t₀ s) : LeaseOnly t₀ (s.checkEnd e n r) := by
  unfold State.checkEnd; split
  · exact h.changeOutcome
  · split
    · exact h.placeCall
    · exact h.changeOutcome
  · exact h.changeOutcome

theorem LeaseOnly.changeCallEnd {r : End} (h : LeaseOnly t₀ s) : LeaseOnly t₀ (s.changeCallEnd e n r) := by
  unfold State.changeCallEnd
  simp only []
  refine LeaseOnly.checkDecision ?_
  have h' : LeaseOnly t₀ (match r with
    | .refused .notCycling => s.cycleLost n (s.handleOf e)
    | _ => s) := by
    split
    · exact h.cycleLost
    · exact h
  split
  · exact h'.changeOutcome
  · exact h'

theorem LeaseOnly.placeWaiting (h : LeaseOnly t₀ s) : LeaseOnly t₀ (s.placeWaiting e n) := by
  unfold State.placeWaiting; split
  · split
    · split
      · exact h.changeOutcome.placeCall
      · exact h.changeOutcome
    · exact h
  · exact h

theorem LeaseOnly.leaseCallEnd {k : Handle} {r : End} (h : LeaseOnly t₀ s) : LeaseOnly t₀ (s.leaseCallEnd n k r) := by
  unfold State.leaseCallEnd
  simp only []
  split
  · exact h
  · split
    · exact h
    · split
      · exact h
      · refine LeaseOnly.closeIfDone (LeaseOnly.placeWaiting ?_)
        split
        · exact h.changeOutcome
        · split
          · exact h.changeOutcome.armEnd
          · exact h.changeOutcome.stopEnd
          · exact h.changeOutcome.stopEnd
          · exact h.changeOutcome.checkEnd
          · exact h.changeOutcome.changeCallEnd
          · exact h.changeOutcome.changeCallEnd

/-! ### Time -/

theorem LeaseOnly.leasesTimeLost (h : LeaseOnly t₀ s) : LeaseOnly t₀ s.leasesTimeLost := by
  refine h.each fun s e h => ?_
  split
  · exact h
  · split
    · exact h.closeLease
    · exact h.stopArming
    · exact h.stopArming
    · exact h.stopRunning
    · exact h
    · exact h

theorem LeaseOnly.leasesStepped {v : Nat} (h : LeaseOnly t₀ s) : LeaseOnly t₀ (s.leasesStepped v) := by
  refine h.each fun s e h => ?_
  split
  · split
    · exact h.closeLease
    · exact h
  · exact h

end Sys2Proof.Machine
end

