-- ==== Sys2Proof/Laws/Sites.lean ====
section
/-! SUPPORT. What the changes of a site's state, the ends of a commit, the Upkeep Engine and the takers of a poll answer
keep (R9 to R17, R53 to R67, R104, R105, R139). One lemma for each operation. -/

namespace Sys2Proof.Machine

open Sys2Proof

variable {N : SiteName → Prop} {t₀ s t : State} {n : SiteName} {e : EntryNo}

/-! ### The lease operations that other blocks call -/

theorem Fine.leaseLost {k : Handle} (h : Fine N t₀ s) : Fine N t₀ (s.leaseLost n k) :=
  (LeaseOnly.refl h.records).leaseLost.fine h

theorem Fine.leaseFresh (h : Fine N t₀ s) : Fine N t₀ (s.leaseFresh n) := (LeaseOnly.refl h.records).leaseFresh.fine h

theorem Fine.passMode {m : NodeMode} (h : Fine N t₀ s) : Fine N t₀ (s.passMode n m) := by
  unfold State.passMode; split
  · exact h.leaseFresh
  · exact h

theorem Fine.cycleLost {k : Handle} (h : Fine N t₀ s) : Fine N t₀ (s.cycleLost n k) :=
  (LeaseOnly.refl h.records).cycleLost.fine h

theorem Fine.withdrawSiteCalls (h : Fine N t₀ s) : Fine N t₀ (s.withdrawSiteCalls n) :=
  (LeaseOnly.refl h.records).withdrawSiteCalls.fine h

theorem Fine.closeAllDone (h : Fine N t₀ s) : Fine N t₀ s.closeAllDone :=
  (LeaseOnly.refl h.records).closeAllDone.fine h

theorem Fine.changeOutcome {f : LeaseSite → LeaseSite} (h : Fine N t₀ s) : Fine N t₀ (s.changeOutcome e n f) :=
  (LeaseOnly.refl h.records).changeOutcome.fine h

theorem Fine.leaseCallEnd {k : Handle} {r : End} (h : Fine N t₀ s) : Fine N t₀ (s.leaseCallEnd n k r) :=
  (LeaseOnly.refl h.records).leaseCallEnd.fine h

/-! ### What may be claimed in another state -/

/-- A sound record may enter any state that asks for no more than it has. -/
theorem claimable_become {r : SiteRecord} {st : SiteState} (h : r.sound = true) (hm : st ≠ .mismatch)
    (hv : r.state ≠ .vacant ∨ st = .vacant) (hd : r.state ≠ .discovered ∨ st = .vacant ∨ st = .discovered) :
    SiteRecord.claimable { r with state := st } = true := by
  have hc := sound_complete h
  have hk := sound_claims h
  obtain ⟨state, node, comm, found, delay, ir, readings, faults, errors, holder, stray, pending, dirty⟩ := r
  simp only [SiteRecord.claimable, SiteRecord.complete, SiteRecord.claims] at *
  cases state <;> cases st <;> simp_all

theorem claimable_vacant {r : SiteRecord} (h : r.claims = true) (hs : r.state = .vacant) : r.claimable = true := by
  simp [SiteRecord.claimable, SiteRecord.complete, hs, h]

/-! ### Changes of state -/

theorem Fine.endRelay {r : RelayResult} (h : Fine N t₀ s) : Fine N t₀ (s.endRelay r) :=
  Fine.raise (h.of_eq rfl rfl rfl h.fifos rfl rfl rfl)

theorem Fine.withdrawRelay (h : Fine N t₀ s) : Fine N t₀ (s.withdrawRelay n) := by
  unfold State.withdrawRelay; split
  · split
    · exact h.dropHost.endRelay
    · exact h
  · exact h

theorem Fine.withdrawOrphan (h : Fine N t₀ s) : Fine N t₀ (s.withdrawOrphan n) := by
  unfold State.withdrawOrphan
  simp only []
  split
  · exact (h.setLine (Nat.le_trans (List.length_filter_le ..) (fifos_line h.fifos _))).setBring
  · exact h

theorem Fine.restoreEnded (h : Fine N t₀ s) : Fine N t₀ (s.restoreEnded n) := h.setBring

theorem Fine.withdrawFromLine {p : PendingCall} (h : Fine N t₀ s) : Fine N t₀ (s.withdrawFromLine n p) := by
  unfold State.withdrawFromLine; split
  · exact h.detach
  · exact h.unqueue.restoreEnded

theorem Fine.requeue (h : Fine N t₀ s) (hn : N n) : Fine N t₀ (s.requeue n) := by
  unfold State.requeue; split
  · split
    · exact (h.setLine (push_length (fifos_line h.fifos _))).setPending hn
    · exact h
  · exact h

theorem Fine.leftCommissioned (h : Fine N t₀ s) (hn : N n) : Fine N t₀ (s.leftCommissioned n) := by
  have h' := (h.zeroCounts hn).withdrawSiteCalls (n := n)
  unfold State.leftCommissioned
  simp only []
  generalize (s.zeroCounts n).withdrawSiteCalls n = u at *
  exact h'.of_eq rfl rfl rfl h'.fifos rfl rfl rfl

theorem Fine.entered {st : SiteState} (h : Fine N t₀ s) (hn : N n) : Fine N t₀ (s.entered n st) := by
  unfold State.entered; split
  · exact h.setCondition hn (by decide)
  · exact h.setUpkeep hn
  · exact (((h.setUpkeep hn).setAttempt hn).setFrozen hn).withdrawOrphan
  all_goals exact h

theorem Fine.tellLoss {k : Option Handle} {st : SiteState} (h : Fine N t₀ s) : Fine N t₀ (s.tellLoss n k st) := by
  unfold State.tellLoss; split
  · split
    · exact h.leaseLost
    · exact h
  · exact h

theorem claimable_entering {r : SiteRecord} {p : Option PendingCall} {st : SiteState} (h : r.claimable = true) :
    (SiteRecord.entering { r with pending := p } st).claimable = true := by
  obtain ⟨state, node, comm, found, delay, ir, readings, faults, errors, holder, stray, pending, dirty⟩ := r
  simp only [SiteRecord.claimable, SiteRecord.complete, SiteRecord.claims] at *
  unfold SiteRecord.entering
  cases state <;> cases st <;> simp_all

/-- A record enters a state with a content that may be claimed. -/
theorem Fine.enter {r : SiteRecord} (h : Fine N t₀ s) (hn : N n) (hr : r.claimable = true) : Fine N t₀ (s.enter n r) := by
  unfold State.enter
  simp only []
  split
  · exact h.claim hn hr
  · have h0 : Fine N t₀ (((s.site n).pending.filter (withdrawsPending r.state)).elim s (s.withdrawFromLine n)) := by
      cases (s.site n).pending.filter (withdrawsPending r.state) with
      | none => exact h
      | some p => exact h.withdrawFromLine
    have h1 := h0.claim hn (claimable_entering (p := (s.site n).pending.filter fun p => !withdrawsPending r.state p)
      (st := (s.site n).state) hr)
    have h2 := h1.whenever (c := ((s.site n).pending.filter (withdrawsPending r.state)).any (·.purpose == .commit))
      (f := fun s => s.reopenDraft n .noAnswer) (h1.reopenDraft hn)
    have h3 := h2.whenever (c := dropsDraft r.state (s.site n).state) (f := fun s => s.dropDraft n) (h2.dropDraft hn)
    have h4 := h3.whenever (c := (s.site n).state == .commissioned) (f := fun s => s.leftCommissioned n)
      (h3.leftCommissioned hn)
    have h5 := h4.entered (st := r.state) hn
    have h6 := h5.whenever (c := r.state.isLoss) (f := fun s => s.withdrawRelay n) h5.withdrawRelay
    have h7 := (h6.tellLoss (n := n) (k := (s.site n).holder) (st := r.state)).closeAllDone
    exact h7.whenever (h7.requeue hn)

theorem Fine.become {st : SiteState} (h : Fine N t₀ s) (hn : N n) (hm : st ≠ .mismatch)
    (hv : (s.site n).state ≠ .vacant ∨ st = .vacant)
    (hd : (s.site n).state ≠ .discovered ∨ st = .vacant ∨ st = .discovered) : Fine N t₀ (s.become n st) :=
  h.enter hn (claimable_become (h.records n) hm hv hd)

theorem Fine.becomeVacant (h : Fine N t₀ s) (hn : N n) : Fine N t₀ (s.become n .vacant) :=
  h.become hn (by decide) (.inr rfl) (.inr (.inl rfl))

/-- A record that is neither VACANT nor DISCOVERED may enter any state but MISMATCH. -/
theorem Fine.becomeFrom {st from_ : SiteState} (h : Fine N t₀ s) (hn : N n) (hs : (s.site n).state = from_)
    (hm : st ≠ .mismatch) (hv : from_ ≠ .vacant) (hd : from_ ≠ .discovered) : Fine N t₀ (s.become n st) :=
  h.become hn hm (.inl (hs ▸ hv)) (.inl (hs ▸ hd))

theorem Fine.endPending (h : Fine N t₀ s) (hn : N n) : Fine N t₀ (s.endPending n) := (h.setPending hn).restoreEnded

theorem Fine.failCommit {c : CommitResult} (h : Fine N t₀ s) (hn : N n) : Fine N t₀ (s.failCommit n c) := by
  unfold State.failCommit
  simp only []
  split
  · rename_i hs
    exact (h.reopenDraft hn).becomeFrom hn hs (by decide) (by decide) (by decide)
  · exact (h.reopenDraft hn).endPending hn

/-! ### What the line does to a site -/

theorem Fine.failedAtThreshold (h : Fine N t₀ s) (hn : N n) : Fine N t₀ (s.failedAtThreshold n) := by
  unfold State.failedAtThreshold
  simp only []
  split <;> rename_i hs
  · exact h.becomeFrom hn hs (by decide) (by decide) (by decide)
  · exact h.becomeFrom hn hs (by decide) (by decide) (by decide)
  · exact h.becomeFrom hn hs (by decide) (by decide) (by decide)
  · split
    · exact h.failCommit hn
    · exact h.becomeFrom hn hs (by decide) (by decide) (by decide)
  all_goals exact h

theorem Fine.beyondBreak (h : Fine N t₀ s) (hn : N n) : Fine N t₀ (s.beyondBreak n) := by
  unfold State.beyondBreak
  simp only []
  split <;> rename_i hs
  · exact h.becomeFrom hn hs (by decide) (by decide) (by decide)
  · exact h.becomeFrom hn hs (by decide) (by decide) (by decide)
  · exact h.becomeFrom hn hs (by decide) (by decide) (by decide)
  · split
    · exact h.becomeVacant hn
    · exact h.becomeFrom hn hs (by decide) (by decide) (by decide)
  · exact h.becomeVacant hn
  all_goals exact h

theorem Fine.sitesBeyond {b : Branch} {p : Nat} (h : Fine N t₀ s)
    (hN : ∀ m ∈ branchSites b, p < positionOf m → N m) : Fine N t₀ (s.sitesBeyond b p) :=
  h.each fun s m hm h => by
    simp only [List.mem_filter, decide_eq_true_eq] at hm
    exact h.beyondBreak (hN m hm.1 hm.2)

theorem Fine.withdrawQueued (h : Fine N t₀ s) (hn : N n) : Fine N t₀ (s.withdrawQueued n) := by
  unfold State.withdrawQueued; split
  · split
    · exact h
    · exact h.withdrawFromLine.setPending hn
  · exact h

theorem Fine.rediscover {k : Nat} {p : Nameplate} {m : NodeMode} (h : Fine N t₀ s) (hn : N n) :
    Fine N t₀ (s.rediscover n k p m) := by
  unfold State.rediscover
  simp only []
  split
  · exact h.becomeVacant hn
  · exact ((h.dropDraft hn).withdrawQueued hn).changeFree hn (fun _ => rfl) (fun r => by simp) (fun _ => rfl)
      (fun _ => rfl) fun _ => rfl

theorem Fine.takeSerial {k : Nat} {p : Nameplate} {m : NodeMode} (h : Fine N t₀ s) (hn : N n) :
    Fine N t₀ (s.takeSerial n k p m) := by
  have hc := sound_complete (h.records n)
  have hk := sound_claims (h.records n)
  unfold State.takeSerial
  simp only []
  split
  · exact h
  · rename_i i hi
    split
    · split <;> rename_i hs
      · exact h.becomeFrom hn hs (by decide) (by decide) (by decide)
      · exact h.becomeFrom hn hs (by decide) (by decide) (by decide)
      · refine h.claim hn ?_
        simp only [SiteRecord.claimable, SiteRecord.complete, SiteRecord.claims, hs] at *
        simp_all
      all_goals exact h
    · split <;> rename_i hs
      · refine h.enter hn ?_
        simp only [SiteRecord.claimable, SiteRecord.complete, SiteRecord.claims, hs] at *
        simp_all
      · refine h.enter hn ?_
        simp only [SiteRecord.claimable, SiteRecord.complete, SiteRecord.claims, hs] at *
        simp_all
      · refine h.enter hn ?_
        simp only [SiteRecord.claimable, SiteRecord.complete, SiteRecord.claims, hs] at *
        simp_all
      · refine h.claim hn ?_
        simp only [SiteRecord.claimable, SiteRecord.complete, SiteRecord.claims, hs] at *
        simp_all
      · refine h.claim hn ?_
        simp only [SiteRecord.claimable, SiteRecord.complete, SiteRecord.claims, hs] at *
        simp_all
      · exact h.rediscover hn
      · exact h

/-! ### The Upkeep Engine -/

theorem Fine.acknowledge {v : Nat} (h : Fine N t₀ s) (hn : N n) : Fine N t₀ (s.acknowledge n v) := h.setUpkeep hn

theorem Fine.unconfirm {v : Nat} (h : Fine N t₀ s) (hn : N n) : Fine N t₀ (s.unconfirm n v) := h.setUpkeep hn

theorem Fine.refreshed (h : Fine N t₀ s) (hn : N n) : Fine N t₀ (s.refreshed n) := h.changeComm hn

theorem Fine.setMode {m : NodeMode} (h : Fine N t₀ s) (hn : N n) : Fine N t₀ (s.setMode n m) := h.changeNode hn

theorem Fine.reload {p : Nameplate} (h : Fine N t₀ s) (hn : N n) : Fine N t₀ (s.reload n p) := by
  unfold State.reload; split
  · split
    · exact h
    · exact (h.changeNode hn).siteChanged
  · exact h

theorem Fine.echoMatches (h : Fine N t₀ s) (hn : N n) : Fine N t₀ (s.echoMatches n) :=
  (h.setCondition hn (by decide)).setUpkeep hn

theorem Fine.echoDiffers (h : Fine N t₀ s) (hn : N n) : Fine N t₀ (s.echoDiffers n) := by
  have h' := h.setCondition (k := .setpointMismatch) (p := true) hn (by decide)
  unfold State.echoDiffers
  simp only []
  split
  · exact h'
  · exact h'.claimRestore hn

theorem Fine.checkEcho {c : Bool} (h : Fine N t₀ s) (hn : N n) : Fine N t₀ (s.checkEcho n c) := by
  unfold State.checkEcho; split
  · exact h.echoMatches hn
  · exact h.echoDiffers hn

theorem Fine.checkPollEcho {v : Nat} (h : Fine N t₀ s) (hn : N n) : Fine N t₀ (s.checkPollEcho n v) := by
  unfold State.checkPollEcho
  simp only []
  split
  · exact h
  · split
    · exact (h.acknowledge hn).echoMatches hn
    · exact h.checkEcho hn

theorem Fine.freshAnswer (h : Fine N t₀ s) (hn : N n) : Fine N t₀ (s.freshAnswer n) := by
  unfold State.freshAnswer
  simp only []
  refine Fine.leaseFresh ?_
  have h' := (h.whenever (c := (s.site n).node.bind (·.mode) == some .attended ||
    (s.site n).node.bind (·.mode) == some .standalone) (f := fun s => s.latchFault n .nodeRestarted)
      (h.latchFault hn)).setMode (m := .fresh) hn
  split
  · exact h'.setUpkeep hn
  · exact (h'.setUpkeep hn).claimRestore hn

theorem Fine.standaloneAnswer (h : Fine N t₀ s) (hn : N n) : Fine N t₀ (s.standaloneAnswer n) := by
  have h' := (h.setMode (m := .standalone) hn).siteChanged (m := n)
  exact h'.whenever (f := fun s => s.setDue n) (h'.setDue hn)

theorem Fine.trimAction {f : Block → Nat → Nat → Nat} (h : Fine N t₀ s) (hn : N n) : Fine N t₀ (s.trimAction n f) := by
  unfold State.trimAction
  simp only []
  split
  · split
    · exact ((h.changeComm hn).setDue hn).siteChanged
    · exact h
  · exact h

theorem Fine.outsideWindow {k : FaultKind} {a b : Nat} {g : State → Nat → State} {f : Block → Nat → Nat → Nat}
    (h : Fine N t₀ s) (hn : N n) (hk : k ≠ .limitClamped) (hg : ∀ s v, Fine N t₀ s → Fine N t₀ (g s v)) :
    Fine N t₀ (s.outsideWindow n k a b g f) := by
  unfold State.outsideWindow; split
  · exact (hg _ _ (h.setCondition hn hk)).trimAction hn
  · exact hg _ _ h

theorem Fine.checkEstimate {b : Block} {v : Int} (h : Fine N t₀ s) (hn : N n) : Fine N t₀ (s.checkEstimate n b v) := by
  unfold State.checkEstimate
  simp only []
  split
  · exact (h.setCondition hn (by decide)).outsideWindow hn (by decide) fun _ _ h => h.setUpkeep hn
  · split
    · exact (h.setCondition hn (by decide)).outsideWindow hn (by decide) fun _ _ h => h.setUpkeep hn
    · exact ((h.setCondition hn (by decide)).setCondition hn (by decide)).zeroCounts hn

theorem Fine.checkWindow {a : PollAnswer} (h : Fine N t₀ s) (hn : N n) : Fine N t₀ (s.checkWindow n a) := by
  unfold State.checkWindow
  simp only []
  split
  · split
    · exact h.checkEstimate hn
    · exact h
  · exact h

theorem Fine.takeReadings {a : PollAnswer} (h : Fine N t₀ s) (hn : N n) : Fine N t₀ (s.takeReadings n a) := by
  unfold State.takeReadings
  simp only []
  refine Fine.setCondition (Fine.setCondition ?_ hn (by decide)) hn (by decide)
  exact Fine.changeFree h hn (fun _ => rfl) (fun r => by simp) (fun _ => rfl) (fun _ => rfl) fun _ => rfl

theorem Fine.upkeepPoll {a : PollAnswer} (h : Fine N t₀ s) (hn : N n) : Fine N t₀ (s.upkeepPoll n a) := by
  unfold State.upkeepPoll
  split
  · split
    · exact h.freshAnswer hn
    · exact ((h.standaloneAnswer hn).checkPollEcho hn).checkWindow hn
    · exact ((h.setMode hn).checkPollEcho hn).checkWindow hn
  · refine Fine.claimClean ?_ hn
    split
    · exact h.standaloneAnswer hn
    · exact h.setMode hn

theorem Fine.takeIrOffset {a b : Int} {k : Nat} (h : Fine N t₀ s) (hn : N n) : Fine N t₀ (s.takeIrOffset n a b k) := by
  unfold State.takeIrOffset; split
  · refine Fine.zeroCounts ?_ hn
    exact Fine.changeFree h hn (fun _ => rfl) (fun _ => rfl) (fun _ => rfl) (fun _ => rfl) fun _ => rfl
  · exact h

theorem Fine.leasePollDone {k : Handle} {v : Nat} {a : PollAnswer} (h : Fine N t₀ s) (hn : N n) :
    Fine N t₀ (s.leasePollDone n k v a) := by
  unfold State.leasePollDone; split
  · split
    · simp only []
      split
      · exact h.changeOutcome.takeIrOffset hn
      · exact h.changeOutcome
    · exact h.changeOutcome
  · exact h

theorem Fine.noCycle {m : NodeMode} (h : Fine N t₀ s) (hn : N n) : Fine N t₀ (s.noCycle n m) := by
  unfold State.noCycle
  simp only []
  refine Fine.clearStray ?_ hn
  split
  · split
    · exact h.whenever h.changeOutcome
    · exact (h.whenever h.changeOutcome).cycleLost
  · exact h

theorem Fine.pollAnswer {l : Option (Handle × Nat)} {a : PollAnswer} (h : Fine N t₀ s) (hn : N n) :
    Fine N t₀ (s.pollAnswer n l a) := by
  have h0 := h.takeSerial (k := a.serial) (p := a.plate) (m := a.mode) hn
  have h1 := h0.takeReadings (a := a) hn
  unfold State.pollAnswer
  simp only []
  split
  · exact h0
  · have h2 (c : Bool) {t : State} (ht : Fine N t₀ t) :
        Fine N t₀ (if c then t.upkeepPoll n a else t.passMode n a.mode) := by
      split
      · exact ht.upkeepPoll hn
      · exact ht.passMode
    have h3 {t : State} (ht : Fine N t₀ t) :
        Fine N t₀ (match l with | some (k, v) => t.leasePollDone n k v a | none => t) := by
      split
      · exact ht.leasePollDone hn
      · exact ht
    split
    · exact (h3 (h2 _ h1)).noCycle hn
    · exact h3 (h2 _ h1)

end Sys2Proof.Machine
end

