-- ==== Sys2Proof/Laws/Line.lean ====
section
/-! SUPPORT. What bring-up, the Line Controllers and the arbiter keep (chapters 8 and 9). One lemma for each operation. -/

namespace Sys2Proof.Machine

open Sys2Proof

variable {N : SiteName → Prop} {t₀ s t : State} {n : SiteName} {e : EntryNo} {b : Branch}

/-! ### Bring-up -/

theorem Fine.changeBring {f : BringUp → BringUp} (h : Fine N t₀ s) : Fine N t₀ (s.changeBring b f) := h.setBring

theorem Fine.checkBringupDone (h : Fine N t₀ s) : Fine N t₀ s.checkBringupDone := by
  unfold State.checkBringupDone; split
  · exact Fine.raise (h.of_eq rfl rfl rfl h.fifos rfl rfl rfl)
  · exact h

theorem Fine.checkReady (h : Fine N t₀ s) : Fine N t₀ (s.checkReady b) := by
  unfold State.checkReady
  simp only []
  split
  · exact h.setBring.checkBringupDone
  · exact h

theorem Fine.enterApplying (h : Fine N t₀ s) (hN : ∀ m, N m) : Fine N t₀ (s.enterApplying b) := by
  unfold State.enterApplying
  simp only []
  exact (h.changeBring.each fun s x _ h => h.claimRestore (hN x)).checkReady

theorem Fine.trainingEnded (h : Fine N t₀ s) (hN : ∀ m, N m) : Fine N t₀ (s.trainingEnded b) := by
  unfold State.trainingEnded; split
  · exact h.enterApplying hN
  · exact h.changeBring.raise

theorem Fine.startTraining (h : Fine N t₀ s) (hN : ∀ m, N m) : Fine N t₀ (s.startTraining b) := by
  unfold State.startTraining; split
  · exact h.trainingEnded hN
  · exact h.changeBring.pushHost

theorem Fine.takeDelay {d : Nat} (h : Fine N t₀ s) (hn : N n) : Fine N t₀ (s.takeDelay n d) := by
  unfold State.takeDelay
  simp only []
  split
  · exact h
  · have h' : Fine N t₀ ((s.claim n { s.site n with lineDelay := some d }).siteChanged n) := by
      refine Fine.siteChanged (h.claim hn ?_)
      exact claimable_of (r := s.site n) (h.records n) rfl rfl rfl rfl (sound_claims (r := s.site n) (h.records n))
    exact h'.whenever (h'.setDue hn)

theorem Fine.positionMeasured {u : Training} {r : Nat} (h : Fine N t₀ s) (hN : ∀ m, N m) :
    Fine N t₀ (s.positionMeasured b u r) := by
  unfold State.positionMeasured
  simp only []
  split
  · exact h.trainingEnded hN
  · have h' : Fine N t₀ ((siteAt? b u.position).elim s fun n => s.takeDelay n ((u.sum + (r - u.before)) / 2)) := by
      cases siteAt? b u.position with
      | none => exact h
      | some m => exact h.takeDelay (hN m)
    split
    · exact h'.trainingEnded hN
    · exact h'.changeBring.pushHost

theorem Fine.echoEnd {r : End} {k : Nat} (h : Fine N t₀ s) (hN : ∀ m, N m) : Fine N t₀ (s.echoEnd b r k) := by
  unfold State.echoEnd; split
  · split
    · simp only []
      split
      · exact h.positionMeasured hN
      · exact h.changeBring.pushHost
    · exact h.trainingEnded hN
  · exact h

theorem Fine.checkOrphans (h : Fine N t₀ s) (hN : ∀ m, N m) : Fine N t₀ (s.checkOrphans b) := by
  unfold State.checkOrphans
  simp only []
  split
  · split
    · exact h.setBring.startTraining hN
    · exact h.setBring.raise
  · exact h

theorem Fine.advance (h : Fine N t₀ s) (hN : ∀ m, N m) : Fine N t₀ (s.advance b) := (h.checkOrphans hN).checkReady

theorem Fine.advanceBoth (h : Fine N t₀ s) (hN : ∀ m, N m) : Fine N t₀ s.advanceBoth := (h.advance hN).advance hN

/-- A branch that is READY moves on without touching a record. -/
theorem Fine.advanceReady (h : Fine N t₀ s) (hr : (s.bring b).phase = .ready) : Fine N t₀ (s.advance b) := by
  refine Fine.checkReady ?_
  unfold State.checkOrphans
  simp only []
  split
  · rw [if_neg (by simp [hr])]
    exact h.setBring.raise
  · exact h

theorem Fine.orphanEnd {k : Nat} {r : End} (h : Fine N t₀ s) (hn : N n) : Fine N t₀ (s.orphanEnd n k r) := by
  unfold State.orphanEnd
  simp only []
  refine Fine.changeBring ?_
  split
  · exact h.clearStray hn
  · exact h.writeStray hn

theorem blank_claimable {d : Bool} : SiteRecord.claimable { SiteRecord.blank with dirty := d } = true := rfl

theorem Fine.replace {r : SiteRecord} (h : Fine N t₀ s) (hn : N n) (hr : r.claimable = true) :
    Fine N t₀ (s.replace n r) := by
  unfold State.replace
  simp only []
  refine Fine.enter (Fine.dropDraft ?_ hn) hn hr
  split
  · exact h.withdrawFromLine.setPending hn
  · exact h

theorem movedRecord_claimable {r : SiteRecord} {k : Nat} (h : r.sound = true) : (movedRecord r k).claimable = true := by
  have hc := sound_complete h
  obtain ⟨state, node, comm, found, delay, ir, readings, faults, errors, holder, stray, pending, dirty⟩ := r
  simp only [SiteRecord.complete] at hc
  cases state <;>
    simp_all [movedRecord, SiteState.returned, SiteRecord.claimable, SiteRecord.complete, SiteRecord.claims,
      SiteRecord.blank]

theorem Fine.makeMove {u : State} {m : Move} (h : Fine N t₀ s) (hN : ∀ m, N m) (hu : u.RecordsSound) :
    Fine N t₀ (s.makeMove u m) :=
  ((h.replace (hN _) (movedRecord_claimable (hu _))).setUpkeep (hN _)).siteMoved.siteChanged

theorem foundRecord_claimable {a : EnumAnswer} {k : Nat} {y : Option Nat} {d : Bool} :
    (foundRecord a k y d).claimable = true := rfl

theorem Fine.enumCycle {a : EnumAnswer} (h : Fine N t₀ s) (hn : N n) : Fine N t₀ (s.enumCycle n a) :=
  h.whenever (h.clearStray hn)

theorem Fine.atHome {a : EnumAnswer} (h : Fine N t₀ s) (hn : N n) : Fine N t₀ (s.atHome n a) := by
  have hc := sound_complete (h.records n)
  have hk := sound_claims (h.records n)
  unfold State.atHome
  simp only []
  have h1 : Fine N t₀ (if (s.site n).state = .unreachable ∨ (s.site n).state = .mismatch then s.become n .commissioned
      else if (s.site n).state = .retiring then s.claim n { s.site n with found := none } else s) := by
    split
    · rename_i hs
      rcases hs with hs | hs
      · exact h.becomeFrom hn hs (by decide) (by decide) (by decide)
      · exact h.becomeFrom hn hs (by decide) (by decide) (by decide)
    · split
      · rename_i hs
        refine h.claim hn ?_
        simp only [SiteRecord.claimable, SiteRecord.complete, SiteRecord.claims, hs] at *
        simp_all
      · exact h
  generalize (if (s.site n).state = .unreachable ∨ (s.site n).state = .mismatch then s.become n .commissioned
      else if (s.site n).state = .retiring then s.claim n { s.site n with found := none } else s) = u at h1 ⊢
  have h2 := (h1.setMode (m := a.mode) hn).reload (p := a.plate) hn
  exact h2.passMode.enumCycle hn

theorem Fine.foundHere {a : EnumAnswer} {l : Bool} (h : Fine N t₀ s) (hn : N n) : Fine N t₀ (s.foundHere n a l) := by
  unfold State.foundHere
  simp only []
  split
  · exact (h.rediscover hn).enumCycle hn
  · exact h.replace hn foundRecord_claimable

theorem Fine.takeOutcome {u : State} {ms : List Move} {p : SiteName × EnumAnswer} (h : Fine N t₀ s) (hN : ∀ m, N m) :
    Fine N t₀ (s.takeOutcome u ms p) := by
  unfold State.takeOutcome
  simp only []
  split
  · exact h.atHome (hN _)
  · split
    · exact (h.takeSerial (hN _)).passMode
    · split
      · split
        · exact h
        · exact h.replace (hN _) blank_claimable
      · exact h.foundHere (hN _)

theorem Fine.vacateLeft {ms : List Move} {ns : List (SiteName × EnumAnswer)} (h : Fine N t₀ s) (hN : ∀ m, N m) :
    Fine N t₀ (s.vacateLeft ms ns) :=
  h.each fun _ x _ h => h.replace (hN x) blank_claimable

theorem Fine.beyondExtent (h : Fine N t₀ s) (hn : N n) : Fine N t₀ (s.beyondExtent n) := by
  unfold State.beyondExtent
  simp only []
  split <;> rename_i hs
  · exact h.becomeVacant hn
  · exact h.becomeFrom hn hs (by decide) (by decide) (by decide)
  · exact h.becomeFrom hn hs (by decide) (by decide) (by decide)
  · exact h.becomeFrom hn hs (by decide) (by decide) (by decide)
  · split
    · exact h
    · exact h.becomeFrom hn hs (by decide) (by decide) (by decide)
  all_goals exact h

theorem Fine.placeOrphan {p : SiteName × EnumAnswer} (h : Fine N t₀ s) (hN : ∀ m, N m) : Fine N t₀ (s.placeOrphan p) := by
  unfold State.placeOrphan
  simp only []
  split
  · exact h
  · refine Fine.changeBring (Fine.pushHost ?_)
    generalize (if (s.site p.1).state = .vacant then s.homeOf? p.2.serial else some p.1) = o
    cases o with
    | none => exact h
    | some m => exact h.latchFault (hN m)

theorem Fine.settleNodes {ms : List Move} {ns : List (SiteName × EnumAnswer)} (h : Fine N t₀ s) (hN : ∀ m, N m) :
    Fine N t₀ (s.settleNodes ms ns) := by
  have hs := h.records
  unfold State.settleNodes
  exact ((h.each fun _ _ _ h => h.makeMove hN hs).vacateLeft hN).each fun _ _ _ h => h.takeOutcome hN

theorem Fine.settleBeyond {ms : List Move} {ws : List EndedWalk} (h : Fine N t₀ s) (hN : ∀ m, N m) :
    Fine N t₀ (s.settleBeyond ms ws) :=
  h.each fun _ _ _ h => h.each fun _ m _ h => h.beyondExtent (hN m)

theorem Fine.latchLinkLost (h : Fine N t₀ s) (hN : ∀ m, N m) : Fine N t₀ s.latchLinkLost :=
  h.each fun _ m _ h => by
    split
    · exact h.latchFault (hN m)
    · exact h

theorem Fine.reconcile {ws : List EndedWalk} {k : Bool} (h : Fine N t₀ s) (hN : ∀ m, N m) :
    Fine N t₀ (s.reconcile ws k) := by
  unfold State.reconcile
  simp only []
  refine Fine.each ?_ fun _ x _ h => h.claimClean (hN _)
  refine Fine.each ?_ fun _ x _ h => h.placeOrphan hN
  refine Fine.each ?_ fun _ x _ h => h.changeBring
  have h1 := (h.settleNodes (ms := s.settleMoves 64 (s.wantedMoves (ws.flatMap (·.nodes))))
    (ns := ws.flatMap (·.nodes)) hN).settleBeyond (ms := s.settleMoves 64 (s.wantedMoves (ws.flatMap (·.nodes))))
      (ws := ws) hN
  exact h1.whenever (f := fun s => s.latchLinkLost) (h1.latchLinkLost hN)

theorem Fine.checkReconcile (h : Fine N t₀ s) (hN : ∀ m, N m) : Fine N t₀ (s.checkReconcile b) := by
  unfold State.checkReconcile
  split
  · simp only []
    split
    · exact (h.reconcile hN).each fun _ _ _ h => h.advance hN
    · exact h
  · split
    · exact (h.reconcile hN).advance hN
    · exact h

theorem Fine.endWalk {i j : Nat} {k : Bool} (h : Fine N t₀ s) (hN : ∀ m, N m) : Fine N t₀ (s.endWalk b i j k) := by
  unfold State.endWalk
  simp only []
  have h' := h.changeBring (b := b) (f := fun x => { x with walk := .walked i, extent := j, overlength := k })
  exact (h'.whenever (f := fun s => s.raise .lineBreak) h'.raise).checkReconcile hN

theorem Fine.enumEnd {q : Nat} {r : End} (h : Fine N t₀ s) (hN : ∀ m, N m) : Fine N t₀ (s.enumEnd b q r) := by
  unfold State.enumEnd; split
  · split
    · simp only []
      split
      · exact h.changeBring.endWalk hN
      · split
        · exact h.changeBring.pushHost
        · exact h.changeBring.endWalk hN
    all_goals exact h.endWalk hN
  · exact h

theorem Fine.startWalk (h : Fine N t₀ s) : Fine N t₀ (s.startWalk b) := h.changeBring.pushHost

theorem Fine.startDiscovery (h : Fine N t₀ s) : Fine N t₀ s.startDiscovery := by
  refine Fine.checkBringupDone (h.each fun s b _ h => ?_)
  split
  · exact h.changeBring.startWalk
  · exact h.changeBring

theorem Fine.takePartial (h : Fine N t₀ s) (hN : ∀ m, N m) : Fine N t₀ (s.takePartial b) := by
  unfold State.takePartial
  simp only []
  split
  · split
    · exact (h.setBring.enumEnd hN).advanceBoth hN
    · exact h
  · exact h

theorem Fine.askPartial {q : Nat} {a : EnumAnswer} (h : Fine N t₀ s) (hN : ∀ m, N m) :
    Fine N t₀ (s.askPartial b q a) := h.changeBring.takePartial hN

/-! ### Ends of the Pending calls -/

theorem Fine.unconfirmBlock {v : Nat} (h : Fine N t₀ s) (hn : N n) : Fine N t₀ (s.unconfirmBlock n v) := by
  unfold State.unconfirmBlock; split
  · exact h.unconfirm hn
  · exact h

theorem Fine.applied {v : Nat} (h : Fine N t₀ s) (hn : N n) : Fine N t₀ (s.applied n v) :=
  ((h.refreshed hn).acknowledge hn).setMode hn

theorem Fine.commitDone {a : ApplyAnswer} {v : Nat} (h : Fine N t₀ s) (hn : N n) : Fine N t₀ (s.commitDone n a v) := by
  unfold State.commitDone
  simp only []
  split
  · rename_i d i hd hi
    refine Fine.checkEcho (Fine.freeDraft (Fine.setUpkeep (Fine.endPending (Fine.enter h hn ?_) hn) hn) hn) hn
    have hk := sound_claims (h.records n)
    simp only [SiteRecord.claimable, SiteRecord.complete, SiteRecord.claims] at *
    simpa using hk
  · exact h.endPending hn

theorem Fine.adoptDone {a : ApplyAnswer} {v : Nat} (h : Fine N t₀ s) (hn : N n) : Fine N t₀ (s.adoptDone n a v) := by
  unfold State.adoptDone
  simp only []
  refine Fine.checkEcho (Fine.applied (Fine.reload (Fine.endPending ?_ hn) hn) hn) hn
  split
  · rename_i hs
    exact h.becomeFrom hn hs (by decide) (by decide) (by decide)
  · exact h

theorem Fine.restoreDone {a : ApplyAnswer} {v : Nat} (h : Fine N t₀ s) (hn : N n) : Fine N t₀ (s.restoreDone n a v) :=
  (((h.endPending hn).reload hn).applied hn).checkEcho hn

theorem Fine.retireDone (h : Fine N t₀ s) (hn : N n) : Fine N t₀ (s.retireDone n) := by
  have hk := sound_claims (h.records n)
  unfold State.retireDone
  simp only []
  split
  · exact h.endPending hn
  · split
    · split
      · refine (h.enter hn ?_).endPending hn
        simp only [SiteRecord.claimable, SiteRecord.complete, SiteRecord.claims] at *
        simpa using hk
      · split
        · exact (h.becomeVacant hn).endPending hn
        · refine (h.enter hn ?_).endPending hn
          simp only [SiteRecord.claimable, SiteRecord.complete, SiteRecord.claims] at *
          simpa using hk
    · exact h.endPending hn

theorem Fine.becomeMismatch (h : Fine N t₀ s) (hn : N n) (hf : (s.site n).found.isSome = true)
    (hs : (s.site n).state = .retiring) : Fine N t₀ (s.become n .mismatch) := by
  refine h.enter hn ?_
  have hc := sound_complete (h.records n)
  have hk := sound_claims (h.records n)
  simp only [SiteRecord.claimable, SiteRecord.complete, SiteRecord.claims, hs] at *
  simp_all

theorem Fine.retireFailed (h : Fine N t₀ s) (hn : N n) : Fine N t₀ (s.retireFailed n) := by
  unfold State.retireFailed
  simp only []
  refine Fine.endPending ?_ hn
  split
  · rename_i hs
    split
    · rename_i hf
      exact h.becomeMismatch hn hf hs
    · exact h.becomeFrom hn hs (by decide) (by decide) (by decide)
  · exact h

theorem Fine.pendingDone {p : Purpose} {d : DonePayload} {v : Nat} (h : Fine N t₀ s) (hn : N n) :
    Fine N t₀ (s.pendingDone n p d v) := by
  unfold State.pendingDone; split
  · exact h.commitDone hn
  · exact h.adoptDone hn
  · exact h.restoreDone hn
  · exact h.retireDone hn
  · exact (h.setMode hn).endPending hn
  · exact h.endPending hn

theorem Fine.pendingRefused {p : Purpose} {r : Reason} (h : Fine N t₀ s) (hn : N n) :
    Fine N t₀ (s.pendingRefused n p r) := by
  unfold State.pendingRefused; split
  · exact h.failCommit hn
  · simp only []
    refine Fine.setCondition (Fine.endPending ?_ hn) hn (by decide)
    split
    · rename_i hs
      exact h.becomeFrom hn hs (by decide) (by decide) (by decide)
    · exact h
  · exact ((h.endPending hn).setCondition hn (by decide)).setUpkeep hn
  · exact h.retireFailed hn
  · exact h.endPending hn

theorem Fine.pendingFailed {p : Purpose} {v : Nat} (h : Fine N t₀ s) (hn : N n) :
    Fine N t₀ (s.pendingFailed n p v) := by
  unfold State.pendingFailed; split
  · exact (h.unconfirmBlock hn).failCommit hn
  · simp only []
    refine Fine.endPending ?_ hn
    split
    · rename_i hs
      exact (h.unconfirmBlock hn).becomeFrom hn hs (by decide) (by decide) (by decide)
    · exact h.unconfirmBlock hn
  · exact (h.unconfirmBlock hn).endPending hn
  · exact h.retireFailed hn
  · exact h.endPending hn

theorem Fine.pendingBroken {p : Purpose} (h : Fine N t₀ s) (hn : N n) : Fine N t₀ (s.pendingBroken n p) := by
  unfold State.pendingBroken; split
  · exact h.failCommit hn
  all_goals exact h.endPending hn

theorem Fine.takeApplySerial {r : End} (h : Fine N t₀ s) (hn : N n) : Fine N t₀ (s.takeApplySerial n r) := by
  unfold State.takeApplySerial; split
  · exact h.takeSerial hn
  all_goals exact h

theorem Fine.pendingOutcome {v : Nat} {r : End} (h : Fine N t₀ s) (hn : N n) : Fine N t₀ (s.pendingOutcome n v r) := by
  unfold State.pendingOutcome; split
  · split
    · split
      · exact h.pendingDone hn
      · exact h.pendingRefused hn
      · exact h.pendingFailed hn
      · exact h.pendingBroken hn
    · exact h
  · exact h

theorem Fine.passFresh {r : End} (h : Fine N t₀ s) : Fine N t₀ (s.passFresh n r) := by
  unfold State.passFresh; split
  · exact h.passMode
  all_goals exact h

theorem Fine.pendingEnd {u : Transaction} {r : End} (h : Fine N t₀ s) (hn : N n) : Fine N t₀ (s.pendingEnd n u r) :=
  ((h.takeApplySerial hn).pendingOutcome hn).passFresh.restoreEnded

theorem Fine.detachedEnd {u : Transaction} {r : End} (h : Fine N t₀ s) (hn : N n) : Fine N t₀ (s.detachedEnd n u r) := by
  unfold State.detachedEnd
  simp only []
  refine Fine.restoreEnded (Fine.passFresh ?_)
  split
  · exact (h.takeSerial hn).whenever ((h.takeSerial hn).checkEcho hn)
  · exact h

/-! ### Ends of the other calls -/

theorem Fine.refreshEnd {v : Nat} {r : End} (h : Fine N t₀ s) (hn : N n) : Fine N t₀ (s.refreshEnd n v r) := by
  have h0 : Fine N t₀ { s with refreshing := s.refreshing.put (branchOf n) none } :=
    h.of_eq rfl rfl rfl h.fifos rfl rfl rfl
  unfold State.refreshEnd
  simp only []
  generalize ({ s with refreshing := s.refreshing.put (branchOf n) none } : State) = u at h0 ⊢
  split
  · split
    · exact h0
    · have h1 := h0.applied (v := v) hn
      refine Fine.passMode ?_
      refine Fine.whenever (f := fun s => s.checkEcho n _) ?_ (Fine.checkEcho ?_ hn)
      all_goals exact h1.whenever (f := fun s => s.siteChanged n) h1.siteChanged
  · split
    · exact h0.freshAnswer hn
    · exact h0
  · split
    · exact h0.echoDiffers hn
    · split
      · exact h0.setCondition hn (by decide)
      · exact h0
  · split
    · exact (h0.unconfirm hn).setDue hn
    · exact h0
  all_goals exact h0

theorem Fine.routinePollEnd {r : End} (h : Fine N t₀ s) (hn : N n) : Fine N t₀ (s.routinePollEnd n r) := by
  have h0 : Fine N t₀ { s with polling := s.polling.put (branchOf n) none } :=
    h.of_eq rfl rfl rfl h.fifos rfl rfl rfl
  unfold State.routinePollEnd
  simp only []
  split
  · exact h0.pollAnswer hn
  all_goals exact h0

theorem Fine.leasePollEnd {k : Handle} {v : Nat} {r : End} (h : Fine N t₀ s) (hn : N n) :
    Fine N t₀ (s.leasePollEnd n k v r) := by
  have hskip : Fine N t₀ (if s.handleOf k.entry = k ∧ (s.leaseOf k.entry).any Lease.live
      then s.changeOutcome k.entry n (·.skip) else s) := by
    split
    · exact h.changeOutcome
    · exact h
  unfold State.leasePollEnd
  split
  · exact h.pollAnswer hn
  all_goals exact hskip

theorem Fine.probeAgain (h : Fine N t₀ s) : Fine N t₀ (s.probeAgain b) := h.setLine (fifos_line h.fifos b)

theorem Fine.probeEnd {q : Nat} {r : End} (h : Fine N t₀ s) (hN : ∀ m, N m) : Fine N t₀ (s.probeEnd b q r) := by
  unfold State.probeEnd; split
  · exact h.askPartial hN
  · exact h
  · exact h
  all_goals exact h.probeAgain

theorem Fine.relayEnd {r : End} (h : Fine N t₀ s) : Fine N t₀ (s.relayEnd r) := by
  unfold State.relayEnd; split
  · exact h
  · simp only []
    split
    all_goals exact h.endRelay

theorem Fine.ownerEnd {u : Transaction} {r : End} (h : Fine N t₀ s) (hN : ∀ m, N m) : Fine N t₀ (s.ownerEnd b u r) := by
  unfold State.ownerEnd; split
  · exact h.pendingEnd (hN _)
  · exact h.detachedEnd (hN _)
  · exact h.refreshEnd (hN _)
  · exact h.routinePollEnd (hN _)
  · exact h.leasePollEnd (hN _)
  · exact h.leaseCallEnd
  · exact h.enumEnd hN
  · exact h.echoEnd hN
  · exact h.orphanEnd (hN _)
  · exact h.probeEnd hN
  · exact h.relayEnd

/-! ### Breaks and the Site Table's part -/

theorem Fine.recordBreak {p : Nat} (h : Fine N t₀ s) : Fine N t₀ (s.recordBreak b p) := by
  unfold State.recordBreak
  simp only []
  have h' : Fine N t₀ (s.setLine b { s.line b with brk := some ⟨p, s.timebase + 60 * microsPerSecond,
      (s.line b).hostFifo.contains .probe || (s.line b).held.contains .probe⟩ }) := h.setLine (fifos_line h.fifos b)
  exact h'.setBring.whenever h'.setBring.raise

theorem Fine.clearBreak {u : Transaction} (h : Fine N t₀ s) : Fine N t₀ (s.clearBreak b u) := by
  unfold State.clearBreak
  simp only []
  split
  · split
    · refine Fine.raise (h.setLine ?_)
      exact drop_length (i := .probe) (fifos_line h.fifos b)
    · exact h
  · exact h

theorem Fine.goodAnswer {u : Transaction} {r : End} (h : Fine N t₀ s) (hn : N n) : Fine N t₀ (s.goodAnswer n u r) := by
  have h0 : Fine N t₀ (s.change n fun x => { x with lineErrors := 0 }) := by
    refine h.claim hn (claimable_of (h.records n) rfl rfl rfl rfl ?_)
    have := sound_claims (h.records n)
    simp only [SiteRecord.claims, Bool.and_eq_true] at *
    exact ⟨this.1, by simp⟩
  unfold State.goodAnswer
  simp only []
  generalize (s.change n fun x => { x with lineErrors := 0 }) = w at h0 ⊢
  have h1 := h0.whenever (c := r == .refused .fresh && ((w.site n).state != .mismatch && (w.site n).found.isNone) &&
    !(u.owner == .refresh n && w.isCommissioned n) && u.call != .poll) (f := fun s => s.setMode n .fresh) (h0.setMode hn)
  exact h1.whenever (h1.clearStray hn)

theorem Fine.countFailure (h : Fine N t₀ s) (hn : N n) : Fine N t₀ (s.countFailure n) := by
  unfold State.countFailure
  split
  · exact h
  · simp only []
    have h0 : Fine N t₀ (s.change n fun r => { r with lineErrors := min (r.lineErrors + 1) 15 }) := by
      refine h.claim hn (claimable_of (h.records n) rfl rfl rfl rfl ?_)
      have := sound_claims (h.records n)
      simp only [SiteRecord.claims, Bool.and_eq_true] at *
      exact ⟨this.1, by simp <;> omega⟩
    split
    · exact h0.failedAtThreshold hn
    · exact h0

theorem Fine.siteTableEnd {u : Transaction} {r : End} (h : Fine N t₀ s) (hN : ∀ m, N m) :
    Fine N t₀ (s.siteTableEnd b u r) := by
  have hg : Fine N t₀ ((siteAt? b u.dest).elim (s.clearBreak b u) fun n => (s.clearBreak b u).goodAnswer n u r) := by
    cases siteAt? b u.dest with
    | none => exact h.clearBreak
    | some m => exact h.clearBreak.goodAnswer (hN m)
  unfold State.siteTableEnd
  split
  · exact hg
  · exact hg
  · split
    · exact h
    · cases siteAt? b u.dest with
      | none => exact h
      | some m => exact h.countFailure (hN m)
  · exact (h.sitesBeyond fun m _ _ => hN m).recordBreak

theorem Fine.endCall {u : Transaction} {r : End} (h : Fine N t₀ s) (hN : ∀ m, N m) : Fine N t₀ (s.endCall b u r) := by
  unfold State.endCall
  simp only []
  have h0 : Fine N t₀ (s.setLine b { s.line b with activity := .idle, txn := none }) := h.setLine (fifos_line h.fifos b)
  exact ((h0.siteTableEnd hN).ownerEnd hN).advanceBoth hN

theorem Fine.unsentEnd {u : Transaction} {p : Nat} (h : Fine N t₀ s) (hN : ∀ m, N m) :
    Fine N t₀ (s.unsentEnd b u p) := by
  unfold State.unsentEnd; split
  · exact h
  · exact h.ownerEnd hN

theorem Fine.endBeyondBreak {u : Transaction} {p : Nat} (h : Fine N t₀ s) (hN : ∀ m, N m) :
    Fine N t₀ (s.endBeyondBreak b u p) :=
  ((h.sitesBeyond fun m _ _ => hN m).unsentEnd hN).advanceBoth hN

theorem Fine.endNoCarrier {u : Transaction} (h : Fine N t₀ s) (hN : ∀ m, N m) : Fine N t₀ (s.endNoCarrier b u) :=
  ((h.siteTableEnd hN).unsentEnd hN).advanceBoth hN

theorem Fine.resend {u : Transaction} (h : Fine N t₀ s) : Fine N t₀ (s.resend b u) := h.setLine (fifos_line h.fifos b)

theorem Fine.attemptFailed {u : Transaction} (h : Fine N t₀ s) (hN : ∀ m, N m) : Fine N t₀ (s.attemptFailed b u) := by
  unfold State.attemptFailed; split
  · exact h.endCall hN
  · exact h.resend

/-! ### The arbiter -/

theorem Fine.sendSync {y : Sync} (h : Fine N t₀ s) : Fine N t₀ (s.sendSync b y) := h.setLine (fifos_line h.fifos b)

theorem Fine.expireSync (h : Fine N t₀ s) : Fine N t₀ (s.expireSync b) := by
  unfold State.expireSync
  simp only []
  split
  · split
    · exact h.setLine (fifos_line h.fifos b)
    · exact h
  · exact h

theorem Fine.launch {c : Bool} {u : Transaction} {f : State → State} (h : Fine N t₀ s) (hN : ∀ m, N m)
    (hf : ∀ s, Fine N t₀ s → Fine N t₀ (f s)) : Fine N t₀ (s.launch b c u f) := by
  unfold State.launch; split
  · exact h.endBeyondBreak hN
  · split
    · exact h.endNoCarrier hN
    · exact (hf s h).setLine (fifos_line (hf s h).fifos b)

theorem Fine.pendingSent {p : Purpose} (h : Fine N t₀ s) (hn : N n) : Fine N t₀ (s.pendingSent n p) :=
  h.whenever (f := fun s => s.setUpkeep n _) (h.setUpkeep hn)

theorem Fine.grantPending {c : Bool} (h : Fine N t₀ s) (hN : ∀ m, N m) : Fine N t₀ (s.grantPending b c n) := by
  unfold State.grantPending; split
  · exact h
  · split
    · exact h
    · exact (h.setPending (hN n)).launch hN fun s h => h.pendingSent (hN n)

theorem Fine.grantHost {c : Bool} {i : HostItem} (h : Fine N t₀ s) (hN : ∀ m, N m) : Fine N t₀ (s.grantHost b c i) := by
  unfold State.grantHost; split
  · exact h.grantPending hN
  · split
    · refine Fine.launch ?_ hN fun s h => h
      exact h.of_eq rfl rfl rfl h.fifos rfl rfl rfl
    · exact h
  · exact h.launch hN fun s h => h
  · exact h.launch hN fun s h => h
  · exact h.launch hN fun s h => h
  · split
    · exact h.launch hN fun s h => h
    · exact h

theorem Fine.grantLeaseCall {c : Bool} {i : LeaseItem} (h : Fine N t₀ s) (hN : ∀ m, N m) :
    Fine N t₀ (s.grantLeaseCall b c i) := by
  unfold State.grantLeaseCall
  simp only []
  split
  · exact h
  · exact h.changeOutcome.launch hN fun s h => h.whenever h.changeOutcome

theorem Fine.pollSent (h : Fine N t₀ s) (hn : N n) : Fine N t₀ (s.pollSent n) := h.setAttempt hn

theorem Fine.grantRefresh {c : Bool} (h : Fine N t₀ s) (hN : ∀ m, N m) : Fine N t₀ (s.grantRefresh b c n) := by
  unfold State.grantRefresh; split
  · exact h
  · refine h.launch hN fun s h => ?_
    have h' := h.setUpkeep (u := { s.upkeepOf n with due := false }) (hN n)
    exact h'.of_eq rfl rfl rfl h'.fifos rfl rfl rfl

theorem Fine.grantPoll {c : Bool} (h : Fine N t₀ s) (hN : ∀ m, N m) : Fine N t₀ (s.grantPoll b c n) := by
  refine h.launch hN fun s h => ?_
  have h' := h.pollSent (hN n)
  exact h'.of_eq rfl rfl rfl h'.fifos rfl rfl rfl

theorem Fine.grantLeasePoll {c : Bool} {q : LeasePoll} (h : Fine N t₀ s) (hN : ∀ m, N m) :
    Fine N t₀ (s.grantLeasePoll b c q) := h.launch hN fun _ h => h.pollSent (hN _)

theorem Fine.grant {c : Bool} {w : Work} (h : Fine N t₀ s) (hN : ∀ m, N m) : Fine N t₀ (s.grant b c w) := by
  unfold State.grant
  simp only []
  have hl := fifos_line h.fifos b
  split
  · exact h.sendSync
  · exact Fine.grantLeaseCall (h.setLine hl) hN
  · exact h.grantRefresh hN
  · exact Fine.grantHost (h.setLine (by simp <;> omega)) hN
  · exact Fine.grantLeasePoll (h.setLine hl) hN
  · exact h.grantPoll hN

end Sys2Proof.Machine
end

