-- ==== Sys2Proof/Laws/Commands.lean ====
section
/-! SUPPORT. What the operations behind the host requests and the timed events keep: soundness, and for the operations
that stay clear of the clock, the store and the requests' own items, the background too. -/

namespace Sys2Proof.Machine

open Sys2Proof

variable {N : SiteName → Prop} {t₀ s t : State} {n : SiteName} {e : EntryNo} {b : Branch}

/-! ### Answers and moments -/

theorem reply_sound {c : Byte} {t : Tag} {st : Status} {y : Body} (h : s.Sound) : (s.reply c t st y).Sound :=
  sound_of_eq h rfl rfl rfl

theorem atMoment_sound {k : Nat} (h : s.Sound) : (s.atMoment k).Sound := sound_of_eq h rfl rfl rfl

theorem pending_sound {q : List Instr} (h : s.Sound) : State.Sound { s with pending := q } := sound_of_eq h rfl rfl rfl

theorem host_sound {x : HostPort} (h : s.Sound) : State.Sound { s with host := x } := sound_of_eq h rfl rfl rfl

/-! ### The Section Clock -/

theorem setClock_sound {c : Clock} (h : s.Sound) : (s.setClock c).Sound := sound_of_eq h rfl rfl rfl

theorem raise_sound {f : EventFlag} (h : s.Sound) : (s.raise f).Sound := sound_of_eq h rfl rfl rfl

theorem LeaseOnly.sound (k : LeaseOnly s t) (h : s.Sound) : t.Sound :=
  (k.fine (Fine.of_sound (N := fun _ => True) h)).sound

theorem whenever_sound {c : Bool} {f : State → State} (h : s.Sound) (hf : (f s).Sound) : (s.whenever c f).Sound :=
  whenever_elim (P := State.Sound) h hf

theorem each_sound {α : Type} {xs : List α} {f : State → α → State} (h : s.Sound)
    (hf : ∀ s x, State.Sound s → (f s x).Sound) : (s.each xs f).Sound :=
  each_elim (P := State.Sound) h fun s x _ h => hf s x h

theorem setLine_sound {l : Line} (h : s.Sound) (hl : l.hostFifo.length ≤ 16) : (s.setLine b l).Sound :=
  ((Fine.of_sound (N := fun _ => True) h).setLine hl).sound

theorem produceSync_sound {a c : Nat} (h : s.Sound) : (s.produceSync a c).Sound :=
  each_sound h fun _ b h => setLine_sound h (fifos_line h.fifos b)

theorem withdrawSyncs_sound (h : s.Sound) : s.withdrawSyncs.Sound :=
  ⟨h.records, h.pool, ⟨h.fifos.1, h.fifos.2⟩⟩

theorem clearStrays_sound {p : Nat → Bool} (h : s.Sound) : (s.clearStrays p).Sound :=
  each_sound h fun _ n h => whenever_sound (f := fun s => s.clearStray n) h
    ((Fine.of_sound (N := fun _ => True) h).clearStray trivial).sound

theorem newSecond_sound {a c : Nat} (h : s.Sound) : (s.newSecond a c).Sound := by
  unfold State.newSecond
  exact whenever_sound (f := fun s => s.clearStrays fun _ => true) (setClock_sound h)
    (clearStrays_sound (setClock_sound h))

theorem syncedSecond_sound {a c : Nat} (h : s.Sound) : (s.syncedSecond a c).Sound :=
  produceSync_sound (newSecond_sound h)

theorem leasesTimeLost_sound (h : s.Sound) : s.leasesTimeLost.Sound := (LeaseOnly.refl h.records).leasesTimeLost.sound h

theorem leasesStepped_sound {v : Nat} (h : s.Sound) : (s.leasesStepped v).Sound :=
  (LeaseOnly.refl h.records).leasesStepped.sound h

theorem enterLost_sound (h : s.Sound) : s.enterLost.Sound :=
  raise_sound (leasesTimeLost_sound (withdrawSyncs_sound (setClock_sound h)))

theorem timebaseSecond_sound {k : Bool} (h : s.Sound) : (s.timebaseSecond k).Sound := by
  unfold State.timebaseSecond
  simp only []
  split
  · split
    · split
      · exact newSecond_sound (setClock_sound h)
      · exact enterLost_sound (newSecond_sound (setClock_sound h))
    · exact syncedSecond_sound (setClock_sound h)
  · exact newSecond_sound h
  · exact h
  · exact h

theorem missingEdge_sound (h : s.Sound) : s.missingEdge.Sound := by
  unfold State.missingEdge
  simp only []
  split
  · exact raise_sound (setClock_sound h)
  · exact whenever_sound (f := fun s => s.raise .timeChanged) (setClock_sound h) (raise_sound (setClock_sound h))

theorem stepTo_sound {a c : Nat} (h : s.Sound) : (s.stepTo a c).Sound := by
  unfold State.stepTo
  simp only []
  refine whenever_sound (f := fun s => s.produceSync _ _) ?_ (produceSync_sound ?_)
  all_goals exact raise_sound (clearStrays_sound (leasesStepped_sound (setClock_sound h)))

theorem relock_sound {k : Nat} (h : s.Sound) : (s.relock k).Sound := by
  unfold State.relock
  simp only []
  split
  · exact produceSync_sound (setClock_sound (raise_sound (setClock_sound h)))
  · exact syncedSecond_sound (raise_sound (setClock_sound h))

theorem dropRequest_sound (h : s.Sound) : s.dropRequest.Sound := raise_sound (setClock_sound h)

theorem goodUnset_sound {a c : Nat} (h : s.Sound) : (s.goodUnset a c).Sound := by
  unfold State.goodUnset
  simp only []
  split
  · exact setClock_sound h
  · exact raise_sound (syncedSecond_sound (setClock_sound h))
  · exact h

theorem goodLocked_sound {a : Nat} (h : s.Sound) : (s.goodLocked a).Sound := syncedSecond_sound h

theorem goodEdge_sound {a c : Nat} (h : s.Sound) : (s.goodEdge a c).Sound := by
  unfold State.goodEdge
  simp only []
  split
  · exact goodUnset_sound h
  · split
    · split
      · exact goodLocked_sound (dropRequest_sound (setClock_sound h))
      · exact stepTo_sound (setClock_sound h)
    · exact goodLocked_sound (setClock_sound h)
  all_goals
    have h1 : State.Sound (match s.clock.setRequest with
      | some v => if (s.clock.setRequest.isSome && !s.leaseActive) = true then s.stepTo v a else s.dropRequest
      | none => s) := by
      split
      · split
        · exact stepTo_sound h
        · exact dropRequest_sound h
      · exact h
    have h2 := whenever_sound (c := s.clock.goodRun == 3 && !(s.clock.setRequest.isSome && !s.leaseActive))
      (f := fun s => s.relock a) h1 (relock_sound h1)
    exact whenever_sound (f := fun s => s.setClock (s.clock.takeInterval c)) h2 (setClock_sound h2)

/-! ### The site requests -/


theorem retire_sound (h : s.Sound) : (s.retire n).1.Sound := by
  have hf : Fine (fun _ => True) s s := Fine.of_sound h
  unfold State.retire
  split <;> rename_i hs <;> dsimp only
  · exact ((hf.becomeFrom trivial hs (by decide) (by decide) (by decide)).takePlace trivial).sound
  · exact (((hf.becomeVacant trivial).markDirty trivial).advanceBoth fun _ => trivial).sound
  · refine (((((hf.enter (r := (s.site n).foundTaken) trivial ?_).markDirty trivial).claimClean trivial).advance
      fun _ => trivial).advance fun _ => trivial).sound
    have hc := sound_complete (h.records n)
    have hk := sound_claims (h.records n)
    generalize s.site n = r at *
    obtain ⟨state, node, comm, found, delay, ir, readings, faults, errors, holder, stray, pending, dirty⟩ := r
    simp only [SiteRecord.claimable, SiteRecord.complete, SiteRecord.claims, SiteRecord.foundTaken] at *
    cases found <;> simp_all
  all_goals exact h

theorem adopted_claimable {r : SiteRecord} (h : r.sound = true) (hs : r.state = .mismatch) : r.adopted.claimable = true := by
  have hc := sound_complete h
  have hk := sound_claims h
  obtain ⟨state, node, comm, found, delay, ir, readings, faults, errors, holder, stray, pending, dirty⟩ := r
  simp only [SiteRecord.claimable, SiteRecord.complete, SiteRecord.claims, SiteRecord.adopted] at *
  cases found <;> simp_all

theorem Fine.adopt (h : Fine N t₀ s) (hn : N n) (hs : (s.site n).state = .mismatch) : Fine N t₀ (s.adopt n) :=
  ((h.enter hn (adopted_claimable (h.records n) hs)).setUpkeep hn).takePlace hn

theorem Fine.clearFaults {v : BitVec 9} (h : Fine N t₀ s) (hn : N n) : Fine N t₀ (s.clearFaults n v) := by
  unfold State.clearFaults
  simp only []
  split
  · exact h
  · refine Fine.siteChanged (h.setSite hn ?_)
    exact sound_faults (f := (s.site n).faults.clear v) (h.records n) rfl

theorem Vector_get_map {α β : Type} {k : Nat} (f : α → β) (v : Vector α k) (i : Fin k) :
    (v.map f).get i = f (v.get i) := by simp [Vector.get]

theorem freeze_sound (h : s.Sound) : s.freeze.Sound := by
  refine ⟨fun m => ?_, h.pool, h.fifos⟩
  have hs := h.records m
  have : s.freeze.site m = { s.site m with readings := (s.site m).readings.map Readings.restarted } :=
    Vector_get_map _ s.sites m
  rw [this]
  generalize s.site m = r at *
  obtain ⟨state, node, comm, found, delay, ir, readings, faults, errors, holder, stray, pending, dirty⟩ := r
  simp only [SiteRecord.sound, SiteRecord.complete, SiteRecord.cleared, SiteRecord.withinLimit, SiteRecord.claims] at *
  cases state <;> simp_all

theorem release_sound (h : s.Sound) : s.release.Sound := sound_of_eq h rfl rfl rfl

/-! ### Drafts -/

theorem Fine.touchDraft {d : Draft} (h : Fine N t₀ s) : Fine N t₀ (s.touchDraft d) := h.putDraft

theorem newDraft_site (r : SiteRecord) (k : Nat) : (newDraft n r k).site = n := by
  unfold newDraft; split <;> rfl

/-- A draft of a site that has none may join a pool of fewer than 8. -/
theorem openDraft_sound (h : s.Sound) (hd : s.draftOf n = none) (hl : s.drafts.length < 8) : (s.openDraft n).Sound := by
  refine ⟨h.records, ⟨?_, ?_⟩, h.fifos⟩
  · show (s.drafts ++ [newDraft n (s.site n) s.timebase]).length ≤ 8
    simp <;> omega
  · show ((s.drafts ++ [newDraft n (s.site n) s.timebase]).map (·.site)).Nodup
    rw [List.map_append, List.nodup_append]
    refine ⟨h.pool.2, by simp, ?_⟩
    intro a ha c hc
    simp only [List.map_cons, List.map_nil, List.mem_singleton, newDraft_site] at hc
    subst hc
    intro hac
    subst hac
    obtain ⟨d, hdm, hds⟩ := List.mem_map.mp ha
    have := List.find?_eq_none.mp hd d hdm
    simp [hds] at this

theorem Fine.startCommit {d : Draft} (h : Fine N t₀ s) : Fine N t₀ (s.startCommit d) := h.putDraft.siteChanged

theorem withDraft_claimable {r : SiteRecord} {d : Draft} {k : Nat} {st : SiteState} (h : r.sound = true)
    (hn : r.node.isSome = true) (hm : st ≠ .mismatch) :
    SiteRecord.claimable { r.withDraft d k with state := st } = true := by
  have hk := sound_claims h
  obtain ⟨state, node, comm, found, delay, ir, readings, faults, errors, holder, stray, pending, dirty⟩ := r
  simp only [SiteRecord.claimable, SiteRecord.complete, SiteRecord.claims, SiteRecord.withDraft] at *
  cases node <;> cases st <;> simp_all

theorem Fine.commitFirst {d : Draft} (h : Fine N t₀ s) (hn : N n) (hs : (s.site n).node.isSome = true) :
    Fine N t₀ (s.commitFirst n d) := by
  unfold State.commitFirst
  simp only []
  exact (h.startCommit.enter hn (withDraft_claimable (h.records n) hs (by decide))).takePlace hn

theorem Fine.commitAmend {d : Draft} (h : Fine N t₀ s) (hn : N n) : Fine N t₀ (s.commitAmend n d) :=
  h.startCommit.takePlace hn

theorem Fine.commitUnreachable {d : Draft} (h : Fine N t₀ s) (hn : N n) (hs : (s.site n).state = .unreachable) :
    Fine N t₀ (s.commitUnreachable n d) := by
  unfold State.commitUnreachable
  simp only []
  have h1 : Fine N t₀ (s.change n fun r => r.withDraft d ((s.site n).comm.elim s.timebase (·.refreshFrom))) := by
    refine h.claim hn ?_
    have hc := sound_complete (h.records n)
    have hk := sound_claims (h.records n)
    generalize s.site n = r at *
    obtain ⟨state, node, comm, found, delay, ir, readings, faults, errors, holder, stray, pending, dirty⟩ := r
    simp only [SiteRecord.claimable, SiteRecord.complete, SiteRecord.claims, SiteRecord.withDraft] at *
    cases node <;> simp_all
  exact ((h1.whenever (f := fun s => s.setDue n) (h1.setDue hn)).freeDraft hn).claimRestore hn

theorem Fine.commit {d : Draft} (h : Fine N t₀ s) (hn : N n) : Fine N t₀ (s.commit n d).1 := by
  unfold State.commit
  split <;> rename_i hs <;> dsimp only
  · refine h.commitFirst hn ?_
    have hc := sound_complete (h.records n)
    simp only [SiteRecord.complete, hs] at hc
    exact hc
  · exact h.commitAmend hn
  · exact h.commitUnreachable hn hs
  all_goals exact h

theorem Fine.expireDraft (h : Fine N t₀ s) (hn : N n) : Fine N t₀ (s.expireDraft n) := by
  unfold State.expireDraft; split
  · split
    · exact h.dropDraft hn
    · exact h
  · exact h

/-! ### The lease requests and timed events -/

/-- A site with no holder and no stray time takes a holder. -/
theorem LeaseOnly.holdSite {k : Handle} (h : LeaseOnly t₀ s) (hv : (s.site n).state ≠ .vacant)
    (hs : (s.site n).stray = none) : LeaseOnly t₀ (s.change n fun r => { r with holder := some k }) :=
  h.claimHeld (x := some k) (y := (s.site n).stray) hv (by simp [hs])

/-- A holder given to a site leaves its state and its stray time. -/
theorem change_holder (s : State) (n m : SiteName) (k : Handle) (h : (s.site n).state = .commissioned) :
    ((s.change n fun r => { r with holder := some k }).site m).state = (s.site m).state ∧
      ((s.change n fun r => { r with holder := some k }).site m).stray = (s.site m).stray := by
  rw [site_change]
  split
  · rename_i hm
    subst hm
    refine ⟨claimed_state .., ?_⟩
    rw [claimed_stray]
    simp [SiteRecord.fit, h]
  · exact ⟨rfl, rfl⟩

/-- Sites that a grant has checked take its handle. -/
theorem Fine.hold {k : Handle} {ns : List SiteName} (h : Fine N t₀ s) (hN : ∀ m ∈ ns, N m)
    (hs : ∀ m ∈ ns, (s.site m).state = .commissioned ∧ (s.site m).stray = none) : Fine N t₀ (s.hold k ns) := by
  have := each_elim (P := fun t => Fine N t₀ t ∧ ∀ m ∈ ns, (t.site m).state = .commissioned ∧ (t.site m).stray = none)
    (xs := ns) (f := fun s n => (s.change n fun r => { r with holder := some k }).zeroCounts n) ⟨h, hs⟩ ?_
  · exact this.1
  · rintro t m hm ⟨ht, hc⟩
    refine ⟨Fine.zeroCounts (ht.claim (hN m hm) ?_) (hN m hm), fun q hq => ?_⟩
    · refine claimable_of (r := t.site m) (ht.records m) rfl rfl rfl rfl ?_
      have := sound_claims (ht.records m)
      simp only [SiteRecord.claims, Bool.and_eq_true] at *
      exact ⟨by simp [(hc m hm).2], this.2⟩
    · have := change_holder t m q k (hc m hm).1
      exact ⟨this.1.trans (hc q hq).1, this.2.trans (hc q hq).2⟩

theorem Fine.setCloseOrder {o : List EntryNo} (h : Fine N t₀ s) : Fine N t₀ { s with closeOrder := o } :=
  h.of_eq rfl rfl rfl h.fifos rfl rfl rfl

/-- A grant over checked sites. -/
theorem Fine.grantLease {l : Lease} (h : Fine N t₀ s) (hN : ∀ x ∈ l.sites, N x.site)
    (hs : ∀ x ∈ l.sites, (s.site x.site).state = .commissioned ∧ (s.site x.site).stray = none) :
    Fine N t₀ (s.grantLease e l) := by
  unfold State.grantLease
  simp only []
  have h' : Fine N t₀ { s.setEntry e ⟨s.takenGeneration e, some l⟩ with
      closeOrder := (s.setEntry e ⟨s.takenGeneration e, some l⟩).closeOrder.filter (· != e) } := h.setEntry.setCloseOrder
  refine Fine.leaseChanged (h'.hold ?_ ?_)
  · intro m hm
    obtain ⟨x, hx, rfl⟩ := List.mem_map.mp hm
    exact hN x hx
  · intro m hm
    obtain ⟨x, hx, rfl⟩ := List.mem_map.mp hm
    exact hs x hx

theorem LeaseOnly.dismiss (h : LeaseOnly t₀ s) : LeaseOnly t₀ (s.dismiss e) :=
  LeaseOnly.leaseChanged (LeaseOnly.setCloseOrder h.setEntry)

theorem LeaseOnly.failArmedAway (h : LeaseOnly t₀ s) : LeaseOnly t₀ (s.failArmedAway e) := by
  unfold State.failArmedAway; split
  · exact h.each fun _ _ h => h.changeOutcome
  · exact h

theorem LeaseOnly.releaseLease {st : LeaseState} (h : LeaseOnly t₀ s) : LeaseOnly t₀ (s.releaseLease e st) := by
  unfold State.releaseLease; split
  · exact h.closeLease
  · exact h.failArmedAway.stopArming
  · exact h.failArmedAway.stopArming
  · exact h.stopRunning
  · exact h
  · exact h

theorem LeaseOnly.startChange {l : Lease} {p : PendingChange} {c : LeaseCall} (h : LeaseOnly t₀ s) :
    LeaseOnly t₀ (s.startChange e l p c) := by
  unfold State.startChange
  simp only []
  exact h.setLease.leaseChanged.placeAll.checkDecision

theorem LeaseOnly.extendLease {l : Lease} {v : Nat} (h : LeaseOnly t₀ s) : LeaseOnly t₀ (s.extendLease e l v) := by
  unfold State.extendLease; split
  · exact h.setLease.leaseChanged
  · exact h.startChange

theorem LeaseOnly.placePoll {a c : Nat} (h : LeaseOnly t₀ s) : LeaseOnly t₀ (s.placePoll e n a c) := by
  unfold State.placePoll
  simp only []
  have h' : LeaseOnly t₀ (s.setLine (branchOf n) { s.line (branchOf n) with
      leasePolls := addPoll ⟨n, s.handleOf e, a, c⟩ (s.line (branchOf n)).leasePolls }) := h.setLine rfl
  exact h'.whenever h'.changeOutcome

theorem LeaseOnly.cycleEnd {l : Lease} {r : RunRecord} (h : LeaseOnly t₀ s) : LeaseOnly t₀ (s.cycleEnd e l r) := by
  unfold State.cycleEnd
  simp only []
  exact h.setLease.each fun _ _ h => h.placePoll

/-! ### The store and resets -/

theorem report_sound {k : SlotName} {o : LoadOutcome} (h : s.Sound) : (s.report k o).Sound := sound_of_eq h rfl rfl rfl

theorem dirty_sound {r : SiteRecord} {d : Bool} (h : r.sound = true) : SiteRecord.sound { r with dirty := d } = true := h

theorem storeDirty_sound (h : s.Sound) : (s.storeDirty n).Sound :=
  ((Fine.of_sound (N := fun _ => True) h).setSite trivial (dirty_sound (d := true) (h.records n))).sound

theorem loadedRecord_claimable {x : SiteImage} {k : Nat} : (loadedRecord x k).claimable = true := rfl

/-- A loaded record is bounded by the claim that loads it, so that the other records are all that must be sound. -/
theorem loadRecord_sound {x : SiteImage} (h : s.Sound) : (s.loadRecord n x).Sound := by
  have hc : ∀ m, (((s.setSite n (loadedRecord x s.timebase)).change n id).site m).sound = true := by
    intro m
    rw [site_change]
    split
    · refine claimed_sound _ _ _ ?_
      simp only [site_setSite, if_true, id]
      exact loadedRecord_claimable
    · rename_i hm
      simp only [site_setSite, hm, if_false]
      exact h.records m
  have hu := unrecorded_claim (s.setSite n (loadedRecord x s.timebase)) n
    (id ((s.setSite n (loadedRecord x s.timebase)).site n))
  refine ⟨hc, ?_, ?_⟩
  · have := congrArg State.drafts hu
    show State.PoolSound _
    simp only [State.PoolSound]
    rw [show (s.loadRecord n x).drafts = s.drafts from this]; exact h.pool
  · have := congrArg State.lines hu
    show State.FifosSound _
    simp only [State.FifosSound]
    rw [show (s.loadRecord n x).lines = s.lines from this]; exact h.fifos

theorem loadSlot_sound (h : s.Sound) : (s.loadSlot n).Sound := by
  unfold State.loadSlot; split
  · exact report_sound (storeDirty_sound h)
  · exact report_sound (storeDirty_sound h)
  · split
    · exact report_sound (storeDirty_sound h)
    · exact h
  · split
    · exact report_sound (storeDirty_sound h)
    · split
      · exact report_sound (storeDirty_sound h)
      · split
        · exact report_sound (storeDirty_sound (loadRecord_sound h))
        · exact loadRecord_sound h

theorem loadSites_sound (h : s.Sound) : s.loadSites.Sound := each_sound h fun _ _ h => loadSlot_sound h

theorem setSlotDirty_sound {k : SlotName} {d : Bool} (h : s.Sound) : (s.setSlotDirty k d).Sound := by
  unfold State.setSlotDirty; split
  · exact ((Fine.of_sound (N := fun _ => True) h).setSite trivial (dirty_sound (d := d) (h.records _))).sound
  · exact sound_of_eq h rfl rfl rfl

theorem startWrite_sound {k : SlotName} {d : Bool} (h : s.Sound) : (s.startWrite k d).Sound :=
  sound_of_eq (setSlotDirty_sound (k := k) (d := false) h) rfl rfl rfl

theorem endPass_sound {d : Bool} (h : s.Sound) : (s.endPass d).Sound := by
  have h' : State.Sound { s with store := { s.store with pass := none } } := sound_of_eq h rfl rfl rfl
  unfold State.endPass
  simp only []
  split
  · exact ((Fine.of_sound (N := fun _ => True) h').startDiscovery).sound
  · exact raise_sound h'

theorem passFrom_sound {ks : List SlotName} {d : Bool} (h : s.Sound) : (s.passFrom ks d).Sound := by
  unfold State.passFrom; split
  · exact startWrite_sound h
  · exact endPass_sound h

theorem writeGood_sound {p : Pass} (h : s.Sound) : (s.writeGood p).Sound :=
  passFrom_sound (sound_of_eq h rfl rfl rfl)

theorem writeFailed_sound {p : Pass} (h : s.Sound) : (s.writeFailed p).Sound := by
  unfold State.writeFailed
  simp only []
  exact passFrom_sound (report_sound (setSlotDirty_sound (sound_of_eq h rfl rfl rfl)))

theorem taken_sound {c : SectionConfig} {k : Nat} (h : s.Sound) :
    State.Sound { s with config := c, bootCount := k } := sound_of_eq h rfl rfl rfl

theorem takeSection_sound (h : s.Sound) : s.takeSection.Sound := by
  unfold State.takeSection
  simp only []
  split
  · exact report_sound (taken_sound h)
  · exact report_sound (taken_sound h)
  · split
    · exact report_sound (taken_sound h)
    · exact whenever_sound (f := fun s => s.report .section_ .corrected) (taken_sound h) (report_sound (taken_sound h))

theorem bootStep_sound (h : s.Sound) : s.bootStep.Sound :=
  startWrite_sound (sound_of_eq (takeSection_sound h) rfl rfl rfl)

theorem beginBoot_sound (h : s.Sound) : s.beginBoot.Sound := by
  unfold State.beginBoot; split
  · exact bootStep_sound h
  · exact h

theorem idle_sound (h : s.Sound) : s.idle.Sound := by
  unfold State.idle; split
  · exact bootStep_sound h
  · exact sound_of_eq h rfl rfl rfl

theorem blank_sound : SiteRecord.blank.sound = true := rfl

theorem reset_site (n : SiteName) : State.reset.site n = SiteRecord.blank := by
  simp [State.site, State.reset, Vector.get]

theorem reset_sound : State.reset.Sound := by
  refine ⟨fun n => ?_, ⟨?_, ?_⟩, ?_, ?_⟩
  · rw [reset_site]; rfl
  · show (0 : Nat) ≤ 8; omega
  · exact List.nodup_nil
  · show (0 : Nat) ≤ 16; omega
  · show (0 : Nat) ≤ 16; omega

theorem afterReset_sound {p : StrapPins} {x : HostPort} : (s.afterReset p x).Sound :=
  sound_of_eq reset_sound rfl rfl rfl

theorem startUp_sound (h : s.Sound) : s.startUp.Sound := loadSites_sound (sound_of_eq h rfl rfl rfl)

/-- The state but for what the loading of a slot writes: the records, the upkeep items, the load report, the event flags
and the site change set. -/
def State.unloaded (s : State) : State := { s.unrecorded with store := { s.store with report := [] } }

theorem unloaded_of_unrecorded (h : t.unrecorded = s.unrecorded) : t.unloaded = s.unloaded :=
  show State.unloaded t.unrecorded = State.unloaded s.unrecorded from congrArg State.unloaded h

theorem unloaded_report (s : State) (k : SlotName) (o : LoadOutcome) : (s.report k o).unloaded = s.unloaded := rfl

theorem unloaded_storeDirty (s : State) (n : SiteName) : (s.storeDirty n).unloaded = s.unloaded := rfl

theorem unloaded_loadRecord (s : State) (n : SiteName) (x : SiteImage) : (s.loadRecord n x).unloaded = s.unloaded :=
  (show ∀ u : State, (u.siteChanged n).unloaded = u.unloaded from fun _ => rfl) _ |>.trans
    ((unloaded_of_unrecorded (unrecorded_claim (s.setSite n (loadedRecord x s.timebase)) n _)).trans rfl)

theorem unloaded_loadSlot (s : State) (n : SiteName) : (s.loadSlot n).unloaded = s.unloaded := by
  unfold State.loadSlot; split
  · rw [unloaded_report, unloaded_storeDirty]
  · rw [unloaded_report, unloaded_storeDirty]
  · split
    · rw [unloaded_report, unloaded_storeDirty]
    · rfl
  · split
    · rw [unloaded_report, unloaded_storeDirty]
    · split
      · rw [unloaded_report, unloaded_storeDirty]
      · split
        · rw [unloaded_report, unloaded_storeDirty, unloaded_loadRecord]
        · exact unloaded_loadRecord s n _

/-- Steps 1 and 2 of the start-up sequence latch the strap and write what the loading of the slots writes, and nothing
else. -/
theorem unloaded_startUp (s : State) : s.startUp.unloaded = { s.unloaded with strap := strapOf s.pins } :=
  each_eq (g := State.unloaded) unloaded_loadSlot

/-- Whatever levels it reads, a soft reset leaves the restart answer with the tag of its request. -/
theorem sectionReset_answer (s : State) (tag : Tag) : ∃ t, execSectionReset tag (some ()) s = .next t
    ∧ t.host.answer = .ready ⟨codeByte (.sectionReset tag (some ())), tag, .ok, .empty⟩ :=
  ⟨_, rfl, congrArg (fun u => u.host.answer) (unloaded_startUp _)⟩

/-! ### The section requests -/

theorem Fine.startRelay {xs : List RelaySlot} (h : Fine N t₀ s) : Fine N t₀ (s.startRelay n xs) := by
  have h' : Fine N t₀ { s with relay := ⟨.queued, some (n, xs), none⟩ } := h.of_eq rfl rfl rfl h.fifos rfl rfl rfl
  exact h'.pushHost

theorem configure_sound {c : SectionConfig} (h : s.Sound) : (s.configure c).Sound := by
  unfold State.configure
  simp only []
  generalize (if s.store.stepThree = .idle then StepThree.idle else .configured) = k
  have h0 : State.Sound { s with config := c, store := { s.store with sectionDirty := true, stepThree := k } } :=
    sound_of_eq h rfl rfl rfl
  generalize ({ s with config := c, store := { s.store with sectionDirty := true, stepThree := k } } : State) = u at h0 ⊢
  have h1 : (u.whenever (c.holdPeriod != s.config.holdPeriod) fun s => s.allDue).Sound :=
    whenever_sound (f := fun s => s.allDue) h0 (each_sound h0 fun _ _ h => ((Fine.of_sound (N := fun _ => True) h).setDue trivial).sound)
  generalize (u.whenever (c.holdPeriod != s.config.holdPeriod) fun s => s.allDue) = v at h1 ⊢
  have h2 : (v.whenever (c.holdoverLimit != s.config.holdoverLimit && v.holdoverExceeded) fun s => s.enterLost).Sound :=
    whenever_sound (f := fun s => s.enterLost) h1 (enterLost_sound h1)
  exact whenever_sound (f := fun s => s.each siteNames fun s n => s.expireDraft n) h2
    (each_sound h2 fun _ _ h => ((Fine.of_sound (N := fun _ => True) h).expireDraft trivial).sound)

end Sys2Proof.Machine
end

