-- ==== Sys2Proof/Tests/Slice0.lean ====
section
/-! SUPPORT. Tests on small states: ill-formed commands that the check refuses, one or two steps of each command, and
for each statement with hypotheses a state and operands that meet them. -/

namespace Sys2Proof.Tests

open Sys2Proof Sys2Proof.Machine

set_option Elab.async false

/-! ### Small states -/

/-- An identity with a serial. -/
def ident (serial : Nat) : NodeIdent := ⟨serial, ⟨3000, 100⟩, false, some .attended, 90000000⟩

/-- A set-point block that passes validation. -/
def block : Block := ⟨.current, 500, 50, 1000, 100, 0, 1000, 1, -850, -1200, 3⟩

/-- A record in a state, complete as the state asks. -/
def record (st : SiteState) (serial : Nat) : SiteRecord :=
  match st with
  | .vacant => SiteRecord.blank
  | .discovered => { SiteRecord.blank with state := st, node := some (ident serial), lineDelay := some 100 }
  | _ => { SiteRecord.blank with
      state := st, node := some (ident serial), comm := some ⟨block, 500, 80000000, none⟩, lineDelay := some 100
      found := if st = .mismatch then some ⟨77, ⟨2000, 100⟩, .standalone⟩ else none }

/-- A branch that is READY with two nodes. -/
def readyBranch : BringUp := { BringUp.blank with phase := .ready, extent := 2 }

/-- A clock LOCKED at second 1000, whose second began at 99.5 s of timebase. -/
def clock : Clock := ⟨.locked, some 1000, none, some 99500000, some 99500000, 3, [], none, none, none⟩

/-- Bring-up done at 100 s of timebase, W1 and W2 COMMISSIONED. -/
def up : State :=
  ({ State.reset with
      timebase := 100000000, bringupDone := true, bringup := ⟨readyBranch, readyBranch⟩, clock := clock }.setSite 0
    (record .commissioned 101)).setSite 1 (record .commissioned 102)

/-- W1 in another state. -/
def at1 (st : SiteState) : State := up.setSite 0 (record st 101)

/-- A draft of W1. -/
def draft : Draft := ⟨0, false, block, false, none, none, 40000000, none⟩

/-- W1 in a state with a draft. -/
def drafted (st : SiteState) (d : Draft) : State := { at1 st with drafts := [d] }

/-- An outcome with a status. -/
def outcome (n : SiteName) (status : OutcomeStatus) : LeaseSite := ⟨n, status, none, 0, none, none, none, [], .armDone, none⟩

/-- A lease over W2 and W1 from second 1100 to 1200. -/
def lease (st : LeaseState) (status : OutcomeStatus) : Lease :=
  ⟨st, 9, 1, 0, ⟨10, 5, 10⟩, 1100, 1200, .strict, [outcome 1 status, outcome 0 status], none, none, none, none, none⟩

/-- The lease in entry 1, holding its sites. -/
def holding (l : Lease) : State :=
  ((up.setEntry 0 ⟨0, some l⟩).setSite 0 { record .commissioned 101 with holder := some ⟨0, 0⟩ }).setSite 1
    { record .commissioned 102 with holder := some ⟨0, 0⟩ }

/-- Section time at another second. -/
def State.at (s : State) (second : Nat) : State := { s with clock := { s.clock with count := some second } }

/-- Section time in another state. -/
def State.inTime (s : State) (st : TimeState) : State := { s with clock := { s.clock with state := st } }

/-- A transaction in flight on the west branch. -/
def State.inFlight (s : State) (x : Transaction) : State :=
  s.setLine .west { s.line .west with activity := .awaitingAnswer, txn := some x }

/-- A routine poll of W1. -/
def poll (second : Bool) : Transaction := ⟨.poll, 1, second, 86000, 100000000, .routinePoll 0⟩

/-- A pass that writes a slot. -/
def State.writing (s : State) (w : WriteImage) (again boot : Bool) : State :=
  { s with store := { s.store with pass := some ⟨w, again, boot⟩ } }

/-- The state after a command. -/
def after (c : Instr) (s : State) : State :=
  match exec c s with
  | .next t => t
  | _ => s

/-- Status of the answer a request built. -/
def statusOf (s : State) : Option Status :=
  match s.host.answer with
  | .built a => some a.status
  | _ => none

/-- What the invariant asks, computed. -/
theorem sound_of {s : State} (h : s.RecordsSound ∧ s.PoolSound ∧ s.FifosSound) : s.Sound := ⟨h.1, h.2.1, h.2.2⟩

/-- What bring-up asks, computed. -/
theorem broughtUp_of {s : State} (h : s.bringupDone = true ∧ (s.bring .west).phase = .ready
    ∧ (s.bring .east).phase = .ready) : s.BroughtUp :=
  ⟨h.1, fun b => by
    cases b
    · exact h.2.1
    · exact h.2.2⟩

/-- What the section configuration asks, computed. -/
theorem inRanges_of {c : SectionConfig} (h : (1 ≤ c.refreshInterval ∧ c.refreshInterval ≤ 30)
    ∧ (2 ≤ c.holdPeriod ∧ c.holdPeriod ≤ 120 ∧ 2 * c.refreshInterval ≤ c.holdPeriod)
    ∧ (10 ≤ c.pollPeriod ∧ c.pollPeriod ≤ 600) ∧ (1 ≤ c.threshold ∧ c.threshold ≤ 15)
    ∧ (10 ≤ c.holdoverLimit ∧ c.holdoverLimit ≤ 600) ∧ (1 ≤ c.draftLifetime ∧ c.draftLifetime ≤ 60)) :
    ConfigInRanges c := ⟨h.1, h.2.1, h.2.2.1, h.2.2.2.1, h.2.2.2.2.1, h.2.2.2.2.2⟩

/-- What a pattern asks, computed. -/
theorem pattern_of {p : Pattern} (h : (5 ≤ p.onTime ∧ p.onTime ≤ 600) ∧ (3 ≤ p.offTime ∧ p.offTime ≤ 300)
    ∧ (5 ≤ p.offRead ∧ p.offRead + 5 ≤ 10 * p.offTime)) : PatternInRanges p := ⟨h.1, h.2.1, h.2.2⟩

/-! ### Well-formed commands -/

/-- Each operand too large for its field, or a value that does not fit its form, is ill formed. -/
theorem test_illFormed : ∀ c ∈ [Instr.siteRead 0 (some 256), .retire 0 (some 256), .adopt 0 (some 256),
    .draftOpen 0 (some 256), .draftRead 0 (some 256), .draftCommit 0 (some 256), .draftDiscard 0 (some 256),
    .discover 0 (some 256), .train 0 (some 256), .siteFind 0 (some 4294967296), .timeSet 0 (some 4294967296),
    .clearFaults 0 (some ⟨256, 1⟩), .clearFaults 0 (some ⟨1, 65536⟩),
    .draftSet 0 (some ⟨256, 0, 0⟩), .draftSet 0 (some ⟨1, 256, 0⟩), .draftSet 0 (some ⟨1, 0, 256⟩),
    .draftSet 0 (some ⟨1, 0, -1⟩), .draftSet 0 (some ⟨1, 1, 65536⟩), .draftSet 0 (some ⟨1, 1, -1⟩),
    .draftSet 0 (some ⟨1, 8, 32768⟩), .draftSet 0 (some ⟨1, 8, -32769⟩), .draftSet 0 (some ⟨1, 14, 1⟩),
    .leaseExtend 0 (some ⟨⟨256, 0⟩, 0⟩), .leaseExtend 0 (some ⟨⟨1, 256⟩, 0⟩),
    .leaseExtend 0 (some ⟨⟨1, 0⟩, 4294967296⟩), .leaseRepattern 0 (some ⟨⟨256, 0⟩, ⟨5, 3, 5⟩⟩),
    .leaseRepattern 0 (some ⟨⟨1, 0⟩, ⟨65536, 3, 5⟩⟩), .leaseRepattern 0 (some ⟨⟨1, 0⟩, ⟨5, 65536, 5⟩⟩),
    .leaseRepattern 0 (some ⟨⟨1, 0⟩, ⟨5, 3, 65536⟩⟩), .leaseRelease 0 (some ⟨256, 0⟩), .leaseDismiss 0 (some ⟨1, 256⟩),
    .leaseRead 0 (some ⟨⟨256, 0⟩, none⟩), .leaseRead 0 (some ⟨⟨1, 0⟩, some 256⟩),
    .relay 0 (some ⟨256, []⟩), .relay 0 (some ⟨1, List.replicate 256 ⟨.read, .start, .ack⟩⟩),
    .eventMask 0 (some 65536)], c.wellFormed = false := by decide +kernel

/-- Each field of a LEASE REQUEST and of a SECTION CONFIG that does not fit is refused. -/
theorem test_illFormedLong :
    (∀ a ∈ [(⟨256, 1, ⟨5, 3, 5⟩, 0, 0, .strict, 0⟩ : LeaseRequestArgs), ⟨1, 256, ⟨5, 3, 5⟩, 0, 0, .strict, 0⟩,
      ⟨1, 1, ⟨65536, 3, 5⟩, 0, 0, .strict, 0⟩, ⟨1, 1, ⟨5, 3, 5⟩, 4294967296, 0, .strict, 0⟩,
      ⟨1, 1, ⟨5, 3, 5⟩, 0, 4294967296, .strict, 0⟩, ⟨1, 1, ⟨5, 3, 5⟩, 0, 0, .strict, 65536⟩],
      (Instr.leaseRequest 0 (some a)).wellFormed = false)
    ∧ ∀ c ∈ [(⟨256, 30, 60, 3, true, 120, 15⟩ : SectionConfig), ⟨10, 256, 60, 3, true, 120, 15⟩,
      ⟨10, 30, 65536, 3, true, 120, 15⟩, ⟨10, 30, 60, 256, true, 120, 15⟩, ⟨10, 30, 60, 3, true, 65536, 15⟩,
      ⟨10, 30, 60, 3, true, 120, 256⟩], (Instr.sectionConfig 0 (some c)).wellFormed = false := by decide +kernel

/-! ### Frames -/

/-- The check value of R156: CRC-16 of "123456789" is 29B1h. -/
theorem test_crc : crc16 [0x31, 0x32, 0x33, 0x34, 0x35, 0x36, 0x37, 0x38, 0x39] = 0x29B1#16 := by decide +kernel

/-- A POLL to position 3: kind 05h, hop count 03h, length 00h and the CRC. -/
theorem test_pollFrame : ((Call.poll).frame 3).take 3 = [0x05#8, 0x03#8, 0x00#8] ∧ ((Call.poll).frame 3).length = 5
    ∧ crcGood ((Call.poll).frame 3) = true := by decide +kernel

/-- A SITE READ of W1 as R207 lays it out is read back; a flipped bit fails the CRC. -/
theorem test_requestFrame : judgeFrame (requestFrame 1 0xABCD#16 [0x01#8] ++ [0x00#8])
      = .taken 0x01#8 0xABCD#16 (.siteRead 0xABCD#16 (some 1))
    ∧ (requestFrame 1 0xABCD#16 [0x01#8]).take 5 = [0x01#8, 0x01#8, 0xAB#8, 0xCD#8, 0x01#8]
    ∧ judgeFrame ((requestFrame 1 0xABCD#16 [0x01#8]).set 4 0x03#8) = .frameError 0x01#8 0xABCD#16 := by decide +kernel

/-- The markers of UNSNAP by their place in R145's list, and 00h shifted out beyond the frame's last byte. -/
theorem test_frameBytes : Body.bytes (.unsnapped true) = [0x00#8] ∧ Body.bytes (.unsnapped false) = [0x01#8]
    ∧ (after (.exchangeEnd 100000000 [1, 2, 3]) { up with host := { up.host with exchange := some ⟨false, [5#8]⟩ } }).host.shifted
      = [5#8, 0#8, 0#8] := by decide +kernel

/-- No word of the opcode table spells a command, and none is put in the queue. -/
theorem test_noWords : decodeTableWord 8 5 = none ∧ up.withFetchWord 8 5 = up := ⟨rfl, rfl⟩

/-! ### Steps -/

/-- Step 1 latches BRANCH1 high and BRANCH0 low as EAST; step 3, on the empty queue, writes boot count 1. -/
theorem test_powerOnReset :
    (after (.powerOnReset .powerOn ⟨true, false⟩) up).strap = .east
    ∧ (after (.powerOnReset .powerOn ⟨true, false⟩) up).idle.bootCount = 1
    ∧ (after (.powerOnReset .brownOut ⟨true, false⟩) up).host.supplyLow = true := by
  decide +kernel

/-- A pin reset keeps the slots and restarts the timebase. -/
theorem test_pinReset :
    (after (.pinReset ⟨false, true⟩) up).timebase = 0
    ∧ (after (.pinReset ⟨false, true⟩) up).host.cause = .pin ∧ (after (.pinReset ⟨false, true⟩) up).strap = .west := by
  decide +kernel

/-- An exchange takes a good request and leaves it being served; ANSWER_READY makes the built answer ready. -/
theorem test_exchange :
    (after (.exchangeEnd 100000000 (requestFrame 0x50 7 [])) (after (.exchangeStart 100000000) up)).host.answer
      = .serving 0x50#8 7#16 (.sectionRead 7#16 (some ()))
    ∧ (after .answerReady (after (.timeSet 7 (some 5)) up)).host.answer = .ready ⟨0x32#8, 7#16, .accepted, .empty⟩ := by
  decide +kernel

/-- NOP changes nothing. -/
theorem test_nop :
    after .nop up = up := by
  decide +kernel

/-- SITE READ of a site that is not one of the 64 is answered RANGE. -/
theorem test_siteRead :
    statusOf (after (.siteRead 7 (some 65)) up) = some .range ∧ statusOf (after (.siteRead 7 (some 1)) up) = some .ok := by
  decide +kernel

/-- SITE FIND searches in pipeline order: W2 before W1. -/
theorem test_siteFind :
    statusOf (after (.siteFind 7 (some 101)) up) = some .ok ∧ statusOf (after (.siteFind 7 (some 5)) up) = some .unknown
    ∧ up.findSerial 102 = some (1, false) := by
  decide +kernel

/-- SITE LIST has W32 first and E32 last. -/
theorem test_siteList :
    pipelineOrder.head? = some 31 ∧ pipelineOrder.getLast? = some 63 ∧ statusOf (after (.siteList 7 (some ())) up) = some .ok := by
  decide +kernel

/-- RETIRE of a COMMISSIONED site queues its RELEASE; of an UNREACHABLE one it is VACANT at once. -/
theorem test_retire :
    ((after (.retire 7 (some 1)) up).site 0).state = .retiring
    ∧ ((after (.retire 7 (some 1)) up).line .west).hostFifo = [.pending 0]
    ∧ (after (.retire 7 (some 1)) (at1 .unreachable)).site 0 = { SiteRecord.blank with dirty := true } := by
  decide +kernel

/-- ADOPT takes the Found node into the record. -/
theorem test_adopt :
    ((after (.adopt 7 (some 1)) (at1 .mismatch)).site 0).node.map (·.serial) = some 77
    ∧ ((after (.adopt 7 (some 1)) (at1 .mismatch)).site 0).state = .commissioning := by
  decide +kernel

/-- A latch whose condition is present stays. -/
theorem test_clearFaults :
    ((after (.clearFaults 7 (some ⟨1, 3⟩)) (up.setSite 0 { record .commissioned 101 with faults := ⟨7, 1⟩ })).site 0).faults
      = ⟨5, 1⟩
    ∧ (after (.clearFaults 7 (some ⟨0, 0⟩)) up).faultReleased = false := by
  decide +kernel

/-- DRAFT OPEN copies the block of a COMMISSIONED site. -/
theorem test_draftOpen :
    (after (.draftOpen 7 (some 1)) up).drafts = [{ draft with idleFrom := 100000000 }] := by
  decide +kernel

/-- DRAFT SET writes a target current of 6000, and refuses 6001. -/
theorem test_draftSet :
    ((after (.draftSet 7 (some ⟨1, 1, 6000⟩)) (drafted .commissioned draft)).draftOf 0).map (·.block.targetCurrent)
      = some 6000
    ∧ statusOf (after (.draftSet 7 (some ⟨1, 1, 6001⟩)) (drafted .commissioned draft)) = some .range := by
  decide +kernel

/-- DRAFT READ sets the idle age to 0. -/
theorem test_draftRead :
    statusOf (after (.draftRead 7 (some 1)) (drafted .commissioned draft)) = some .ok
    ∧ (after (.draftRead 7 (some 1)) (drafted .commissioned draft)).drafts = [{ draft with idleFrom := 100000000 }] := by
  decide +kernel

/-- DRAFT COMMIT on a DISCOVERED site makes it COMMISSIONING; a target above the limit names field 1. -/
theorem test_draftCommit :
    ((after (.draftCommit 7 (some 1)) (drafted .discovered draft)).site 0).state = .commissioning
    ∧ ((after (.draftCommit 7 (some 1)) (drafted .discovered { draft with block := { block with currentLimit := 499 } })).draftOf
        0).bind (·.lastResult) = some (.range 1) := by
  decide +kernel

/-- DRAFT DISCARD frees the draft without DRAFT_DROPPED. -/
theorem test_draftDiscard :
    (after (.draftDiscard 7 (some 1)) (drafted .commissioned draft)).drafts = []
    ∧ (after (.draftDiscard 7 (some 1)) (drafted .commissioned draft)).flagSet .draftDropped = false := by
  decide +kernel

/-- A grant over W2 and W1 takes entry 1 and holds both. -/
theorem test_leaseRequest :
    statusOf (after (.leaseRequest 7 (some ⟨2, 1, ⟨10, 5, 10⟩, 1040, 1041, .strict, 9⟩)) up) = some .ok
    ∧ ((after (.leaseRequest 7 (some ⟨2, 1, ⟨10, 5, 10⟩, 1040, 1041, .strict, 9⟩)) up).site 1).holder = some ⟨0, 0⟩
    ∧ statusOf (after (.leaseRequest 7 (some ⟨2, 1, ⟨10, 5, 10⟩, 1039, 1041, .strict, 9⟩)) up) = some .range := by
  decide +kernel

/-- LEASE READ of a FREE entry is answered UNKNOWN. -/
theorem test_leaseRead :
    statusOf (after (.leaseRead 7 (some ⟨⟨1, 0⟩, none⟩)) up) = some .unknown
    ∧ statusOf (after (.leaseRead 7 (some ⟨⟨1, 0⟩, some 2⟩)) (holding (lease .granted .waiting))) = some .ok := by
  decide +kernel

/-- An extension of a RUNNING lease places an EXTEND for each CYCLING site. -/
theorem test_leaseExtend :
    (((after (.leaseExtend 7 (some ⟨⟨1, 0⟩, 1201⟩)) (holding (lease .running .cycling))).line .west).leaseFifo
      = [⟨⟨0, 0⟩, 0⟩, ⟨⟨0, 0⟩, 1⟩])
    ∧ statusOf (after (.leaseExtend 7 (some ⟨⟨1, 0⟩, 1200⟩)) (holding (lease .running .cycling))) = some .range := by
  decide +kernel

/-- The boundary of a repattern is the first at least 10 s on: 1112.0 at second 1102. -/
theorem test_leaseRepattern :
    ((after (.leaseRepattern 7 (some ⟨⟨1, 0⟩, ⟨5, 3, 5⟩⟩)) (State.at (holding (lease .running .cycling)) 1102)).leaseOf 0).bind
      (·.change) = some (.repattern ⟨5, 3, 5⟩ 11120) := by
  decide +kernel

/-- LEASE RELEASE of a GRANTED lease closes it and frees its sites. -/
theorem test_leaseRelease :
    (((after (.leaseRelease 7 (some ⟨1, 0⟩)) (holding (lease .granted .waiting))).leaseOf 0).map (·.state)) = some .closed
    ∧ ((after (.leaseRelease 7 (some ⟨1, 0⟩)) (holding (lease .granted .waiting))).site 0).holder = none := by
  decide +kernel

/-- LEASE DISMISS frees a CLOSED entry with the next generation. -/
theorem test_leaseDismiss :
    (after (.leaseDismiss 7 (some ⟨1, 0⟩)) (holding (lease .closed .stopped))).entry 0 = ⟨1, none⟩
    ∧ statusOf (after (.leaseDismiss 7 (some ⟨1, 0⟩)) (holding (lease .armed .armed))) = some .state := by
  decide +kernel

/-- SNAP freezes the view at section time, and a second one takes no newer. -/
theorem test_snap :
    (after (.snap 7 (some ())) up).snapTime = some 1000
    ∧ (after (.snap 7 (some ())) (State.at (after (.snap 7 (some ())) up) 1001)).snapTime = some 1000 := by
  decide +kernel

/-- UNSNAP releases the view. -/
theorem test_unsnap :
    (after (.unsnap 7 (some ())) (after (.snap 7 (some ())) up)).frozen = false ∧ statusOf (after (.unsnap 7 none) up) = some .range := by
  decide +kernel

/-- TIME SET waits for the next edge, and is refused while a lease is ARMED. -/
theorem test_timeSet :
    (after (.timeSet 7 (some 5000)) up).clock.setRequest = some 5000
    ∧ statusOf (after (.timeSet 7 (some 5000)) (holding (lease .armed .armed))) = some .leaseActive := by
  decide +kernel

/-- DISCOVER places an ENUM to position 1. -/
theorem test_discover :
    ((after (.discover 7 (some 1)) up).line .west).hostFifo = [.enum 1]
    ∧ statusOf (after (.discover 7 (some 3)) up) = some .range := by
  decide +kernel

/-- TRAIN places an ECHO to position 1. -/
theorem test_train :
    ((after (.train 7 (some 2)) up).line .east).hostFifo = [.echo 1]
    ∧ statusOf (after (.train 7 (some 1)) (holding (lease .armed .armed))) = some .leaseActive := by
  decide +kernel

/-- PERSIST with nothing dirty is OK at once; with a dirty record its pass begins there. -/
theorem test_persist :
    (after (.persist 7 (some ())) up).flagSet .persistDone = true
    ∧ ((after (.persist 7 (some ())) (up.setSite 0 { record .commissioned 101 with dirty := true })).site 0).dirty = false := by
  decide +kernel

/-- A WRITE slot with NACK is refused; a READ with NACK_STOP is queued. -/
theorem test_relay :
    statusOf (after (.relay 7 (some ⟨1, [⟨.write 5, .start, .nack⟩]⟩)) up) = some .range
    ∧ (after (.relay 7 (some ⟨1, [⟨.read, .start, .nackStop⟩]⟩)) up).relay.state = .queued := by
  decide +kernel

/-- RELAY RESULT with none held is answered UNKNOWN. -/
theorem test_relayResult :
    statusOf (after (.relayResult 7 (some ())) up) = some .unknown := by
  decide +kernel

/-- SECTION READ is served right after a reset. -/
theorem test_sectionRead :
    statusOf (after (.sectionRead 7 (some ())) State.reset) = some .ok ∧ statusOf (after (.sectionRead 7 none) up) = some .range := by
  decide +kernel

/-- A hold period below twice the refresh interval is refused; a longer one makes every block due. -/
theorem test_sectionConfig :
    statusOf (after (.sectionConfig 7 (some ⟨10, 19, 60, 3, true, 120, 15⟩)) up) = some .range
    ∧ ((after (.sectionConfig 7 (some ⟨10, 20, 60, 3, true, 120, 15⟩)) up).upkeepOf 0).due = true
    ∧ ((after (.sectionConfig 7 (some ⟨10, 20, 60, 3, true, 120, 15⟩)) up).upkeepOf 5).due = false := by
  decide +kernel

/-- CHANGES clears the flags and the change sets. -/
theorem test_changes :
    (after (.changes 7 (some ())) (up.siteChanged 3)).host.siteChanges = []
    ∧ (after (.changes 7 (some ())) (up.siteChanged 3)).host.flags = 0 := by
  decide +kernel

/-- A mask that enables a set flag asserts ATTN. -/
theorem test_eventMask :
    (after (.eventMask 7 (some 1)) (up.siteChanged 3)).attnAsserted = true ∧ (up.siteChanged 3).attnAsserted = false := by
  decide +kernel

/-- A soft reset carries the tag of its request, whatever levels it reads. -/
theorem test_sectionReset : ∃ t, exec (.sectionReset 7 (some ())) up = .next t
    ∧ t.host.answer = .ready ⟨0x54#8, 7#16, .ok, .empty⟩ := sectionReset_answer up 7

/-- A SECTION CONFIG taken before step 3 stays in force, and step 3 increases the boot count. -/
theorem test_configBeforeBoot :
    (after (.sectionConfig 7 (some ⟨30, 120, 600, 15, false, 600, 60⟩))
      (after (.powerOnReset .powerOn ⟨true, true⟩) up)).idle.config = ⟨30, 120, 600, 15, false, 600, 60⟩
    ∧ (after (.sectionConfig 7 (some ⟨30, 120, 600, 15, false, 600, 60⟩))
      (after (.powerOnReset .powerOn ⟨true, true⟩) up)).idle.bootCount = 1 := by
  decide +kernel

/-- Counting ENABLED is 00h on the wire and DISABLED 01h. -/
theorem test_countingBytes :
    configBytes SectionConfig.default = [0x0A#8, 0x1E#8, 0x00#8, 0x3C#8, 0x03#8, 0x00#8, 0x00#8, 0x78#8, 0x0F#8]
    ∧ (configBytes { SectionConfig.default with counting := false }).getD 5 0 = 0x01#8 := by decide +kernel

/-- An edge one second on marks second 1001 with its SYNC; one 500 us further is the last that is good. -/
theorem test_ppsEdge :
    (after (.ppsEdge 100500000) up).clock.count = some 1001
    ∧ ((after (.ppsEdge 100500000) up).line .east).sync = some ⟨1001, 100500000⟩
    ∧ (after (.ppsEdge 100500500) up).clock.state = .locked ∧ (after (.ppsEdge 100500501) up).clock.state = .holdover := by
  decide +kernel

/-- 1.5 s without an edge make HOLDOVER and produce the overdue second at its point. -/
theorem test_ppsExpiry :
    (after (.ppsExpiry 101000000) up).clock.state = .holdover
    ∧ (after (.ppsExpiry 101000000) up).clock.instant = some 100500000
    ∧ (after (.ppsExpiry 100999999) up).clock.state = .locked := by
  decide +kernel

/-- The 121st holdover second makes time LOST. -/
theorem test_timebaseSecond :
    (after (.timebaseSecond 100500000 false)
      { up with clock := { clock with state := .holdover, holdover := some 120 } }).clock.state = .lost
    ∧ (after (.timebaseSecond 100500000 false)
      { up with clock := { clock with state := .holdover, holdover := some 119 } }).clock.state = .holdover := by
  decide +kernel

/-- HOLDOVER beyond its limit is LOST. -/
theorem test_holdoverExpiry :
    (after .holdoverExpiry { up with clock := { clock with state := .holdover, holdover := some 121 } }).clock.state = .lost := by
  decide +kernel

/-- A SYNC of 1,000,000 us is withdrawn. -/
theorem test_syncExpiry :
    ((after (.syncExpiry .west 101000000) (after (.ppsEdge 100000000) { up with clock := { clock with reference := none } })).line
      .west).sync = none
    ∧ ((after (.syncExpiry .west 101500000) (after (.ppsEdge 100500000) up)).line .west).sync = none := by
  decide +kernel

/-- A stray time that section time has passed is cleared. -/
theorem test_strayTimeExpiry :
    ((after (.strayTimeExpiry 0) (up.setSite 0 { record .commissioned 101 with stray := some 999 })).site 0).stray = none
    ∧ ((after (.strayTimeExpiry 0) (up.setSite 0 { record .commissioned 101 with stray := some 1000 })).site 0).stray
      = some 1000 := by
  decide +kernel

/-- A SYNC goes out first; with none, the site of the greatest poll age is polled, the lower position first. -/
theorem test_arbiterGrant :
    ((after (.arbiterGrant .west 100500100 true) (after (.ppsEdge 100500000) up)).line .west).activity = .sendingSync
    ∧ ((after (.arbiterGrant .west 150000000 true) up).line .west).txn.map (·.owner) = some (.routinePoll 0) := by
  decide +kernel

/-- The branch is free when the SYNC has left. -/
theorem test_syncSent :
    ((after (.syncSent .west 5) (up.setLine .west { up.line .west with activity := .sendingSync })).line .west).activity = .idle := by
  decide +kernel

/-- A BREAK from the coordinator side of W1 makes both sites UNREACHABLE. -/
theorem test_answerFrame :
    ((after (.answerFrame .west 100000000 (breakFrame 0)) (State.inFlight up (poll false))).site 1).state = .unreachable
    ∧ ((after (.answerFrame .west 100000000 [1, 2, 3]) (State.inFlight up (poll false))).line .west).txn.map (·.second)
      = some true := by
  decide +kernel

/-- A second timeout counts one line error. -/
theorem test_replyTimeout :
    ((after (.replyTimeout .west 100086000) (State.inFlight up (poll true))).site 0).lineErrors = 1
    ∧ ((after (.replyTimeout .west 100085999) (State.inFlight up (poll true))).line .west).txn.isSome = true := by
  decide +kernel

/-- A draft expires 15 minutes after its last request. -/
theorem test_draftExpiry :
    (after (.draftExpiry 0 940000000) (drafted .commissioned draft)).drafts = []
    ∧ (after (.draftExpiry 0 939999999) (drafted .commissioned draft)).drafts = [draft] := by
  decide +kernel

/-- Arming begins 30 s before the start. -/
theorem test_leaseArming :
    ((after (.leaseArming 0) (State.at (holding (lease .granted .waiting)) 1070)).leaseOf 0).map (·.state) = some .arming
    ∧ ((after (.leaseArming 0) (State.at (holding (lease .granted .waiting)) 1069)).leaseOf 0).map (·.state) = some .granted := by
  decide +kernel

/-- With every site ARMED the lease is ARMED at start less 5 s. -/
theorem test_armDeadline :
    ((after (.armDeadline 0) (State.at (holding (lease .arming .armed)) 1095)).leaseOf 0).map (·.state) = some .armed
    ∧ ((after (.armDeadline 0) (State.at (holding (lease .arming .waiting)) 1095)).leaseOf 0).map (·.closeCause)
      = some (some .armFailed) := by
  decide +kernel

/-- At the start the sites are CYCLING. -/
theorem test_leaseStart :
    ((after (.leaseStart 0) (State.at (holding (lease .armed .armed)) 1100)).leaseOf 0).map (·.sites.map (·.status))
      = some [.cycling, .cycling] := by
  decide +kernel

/-- The first boundary of the pattern lies 1.5 s after the start. -/
theorem test_cycleEnd :
    ((after (.cycleEnd 0 100500000) (State.at (holding { lease .running .cycling with run := some ⟨11000, 1, []⟩ }) 1101)).line
      .west).leasePolls.length = 2
    ∧ ((after (.cycleEnd 0 100500000) (State.at (holding { lease .running .cycling with run := some ⟨11000, 1, []⟩ }) 1100)).line
      .west).leasePolls = [] := by
  decide +kernel

/-- An extension that no expected site took is REFUSED_BY_SITE. -/
theorem test_extendDeadline :
    ((after (.extendDeadline 0) (State.at (holding { lease .running .cycling with
      change := some (.extend 1300 false)
      sites := [{ outcome 1 .cycling with change := some (some .noAnswer) }] }) 1198)).leaseOf 0).bind (·.lastResult)
      = some .refusedBySite := by
  decide +kernel

/-- A repattern that every site took has T as its origin. -/
theorem test_repatternDeadline :
    ((after (.repatternDeadline 0 100000000) (State.at (holding { lease .running .cycling with
      change := some (.repattern ⟨5, 3, 5⟩ 11150), run := some ⟨11000, 3, []⟩ }) 1113)).leaseOf 0).bind
      (fun l => l.run.map (·.origin)) = some 11150 := by
  decide +kernel

/-- The end of the window places a CHECK for each site. -/
theorem test_windowEnd :
    ((after (.windowEnd 0) (State.at (holding (lease .running .cycling)) 1200)).leaseOf 0).map (·.stopCause) = some (some .ended)
    ∧ ((after (.windowEnd 0) (State.at (holding (lease .running .cycling)) 1199)).leaseOf 0).map (·.state) = some .running := by
  decide +kernel

/-- A probe falls due 60 s after the break. -/
theorem test_probeDue :
    ((after (.probeDue .west 160000000) (up.setLine .west { up.line .west with brk := some ⟨3, 160000000, false⟩ })).line
      .west).hostFifo = [.probe] := by
  decide +kernel

/-- A held item takes a free slot. -/
theorem test_heldItemPlaced :
    ((after (.heldItemPlaced .west) (up.setLine .west { up.line .west with held := [.probe] })).line .west).hostFifo = [.probe] := by
  decide +kernel

/-- A Partial request asks the position after its own. -/
theorem test_partialDiscovery :
    ((after (.partialDiscovery .west)
      { up with bringup := ⟨{ readyBranch with request := some (2, ⟨5, ⟨100, 100⟩, .fresh, .none, none, false⟩) }, readyBranch⟩ }).line
      .west).hostFifo = [.enum 3] := by
  decide +kernel

/-- A partial discovery at the west's extent of a serial that an east site recorded takes the east's last orphan with it, and
the east's job ends. -/
theorem test_partialDiscovery_other :
    let a : EnumAnswer := ⟨133, ⟨3000, 100⟩, .attended, .none, none, true⟩
    let e : BringUp := { readyBranch with job := .discover, walk := .orphans, orphans := [32] }
    let s := { (up.setSite 32 { record .unreachable 133 with state := .discovered, comm := none }) with
      bringup := ⟨{ readyBranch with request := some (3, a) }, e⟩
      lines := up.lines.put .east { up.line .east with hostFifo := [.orphan 32 true 1200] } }
    ((after (.partialDiscovery .west) s).site 32).state = .vacant
    ∧ ((after (.partialDiscovery .west) s).bring .east).job = .none := by
  decide +kernel

/-- The last slot ends the pass with PERSIST_DONE; a first bad read-back writes again. -/
theorem test_slotWriteDone :
    (after (.slotWriteDone .good) (State.writing up (.site 0 none) false false)).flagSet .persistDone = true
    ∧ (after (.slotWriteDone .bad) (State.writing up (.site 0 none) false false)).store.pass
      = some ⟨.site 0 none, true, false⟩ := by
  decide +kernel

/-- From a power-on with empty slots: the end of the boot count's write asks both branches for position 1. -/
theorem test_bringUp :
    ((after (.slotWriteDone .good) (after (.powerOnReset .powerOn ⟨true, true⟩) State.reset)).line .west).hostFifo = [.enum 1]
    ∧ ((after (.slotWriteDone .good) (after (.powerOnReset .powerOn ⟨true, true⟩) State.reset)).bring .east).phase
      = .discovering := by
  decide +kernel

/-! ### What the statements assume -/

/-- A branch with a full host-driven FIFO. -/
def State.fullWest (s : State) : State := s.setLine .west { s.line .west with hostFifo := List.replicate 16 .probe }

/-- A branch with a break recorded, a SYNC waiting or calls in its queues. -/
def State.west (s : State) (f : Line → Line) : State := s.setLine .west (f (s.line .west))

/-- W1 with its Pending call. -/
def State.pended (s : State) (p : PendingCall) : State := s.setSite 0 { s.site 0 with pending := some p }

/-- What a commit answers. -/
def applied : ApplyAnswer := ⟨101, ⟨3000, 100⟩, .attended, 500⟩

/-- What a poll answers. -/
def polled : PollAnswer := ⟨101, ⟨3000, 100⟩, .attended, .none, none, 500, 480, 50, some (-900), none, true, false⟩

/-- The timebase at another point. -/
def State.passed (s : State) (t : Nat) : State := { s with timebase := t }

/-- No node stands on the branches. -/
def empty : State := { up with sites := State.reset.sites }

/-- A store whose W1 slot reads as given, before the reset that loads it. -/
def slotted (x : Slot (Option SiteImage)) : State :=
  { up with store := { up.store with siteSlots := up.store.siteSlots.set 0 x } }

/-- A lease ARMING with W2 failed and W1 ARMED. -/
def mixed (strictness : Strictness) : Lease :=
  { lease .arming .armed with
      sites := [{ outcome 1 .waiting with failure := some .noAnswer }, outcome 0 .armed], strictness := strictness }

/-- A lease RUNNING over W2 with an extension pending that ended so there. -/
def extending (x : ChangeEnd) : Lease :=
  { lease .running .cycling with
      change := some (.extend 1300 false), sites := [{ outcome 1 .cycling with change := some (some x) }] }

/-- A lease RUNNING over W2 with a repattern pending that was taken there. -/
def repatterning : Lease :=
  { lease .running .cycling with
      change := some (.repattern ⟨5, 3, 5⟩ 11150), run := some ⟨11000, 3, []⟩
      sites := [{ outcome 1 .cycling with change := some (some .done) }] }

/-- An image in its ranges. -/
def image : SiteImage := ⟨101, ⟨3000, 100⟩, false, block, 500, none⟩

/-- An empty queue, with step 3 to come and without. -/
theorem witness_StepTakesFront : (∃ s : State,
      s.pending = [] ∧ s.store.stepThree = .idle)
    ∧ (∃ s : State,
      s.pending = [] ∧ s.store.stepThree ≠ .idle ∧ s.store.pass = none) := by
  refine ⟨⟨up, ?_⟩, ⟨{ up with store := { up.store with stepThree := .waiting } }, ?_⟩⟩ <;> decide +kernel

/-- A slot of W1 in each reading, and W2 with the serial of W1; each reading of the section slot, with and without a SECTION CONFIG before step 3. -/
theorem witness_StartUpSteps : (∃ (s : State) (pins : StrapPins),
      s.store.pass = none ∧ (strapOf pins).selects (branchOf 0) = false)
    ∧ (∃ s : State,
      s.store.pass = none ∧ s.store.siteSlots.get 0 = .erased)
    ∧ (∃ s : State,
      s.store.pass = none ∧ s.store.siteSlots.get 0 = .damaged)
    ∧ (∃ s : State,
      s.store.pass = none ∧ s.store.siteSlots.get 0 = .holds none false)
    ∧ (∃ s : State,
      s.store.pass = none ∧ s.store.siteSlots.get 0 = .holds none true)
    ∧ (∃ s : State,
      s.store.pass = none ∧ s.store.siteSlots.get 0 = .holds (some { image with serial := 0 }) false
      ∧ imageInRange { image with serial := 0 } = false)
    ∧ (∃ s : State,
      s.store.pass = none ∧ s.store.siteSlots.get 0 = .holds (some image) true ∧ imageInRange image = true)
    ∧ (∃ (s : State) (m n : SiteName),
      s.store.pass = none ∧ m < n ∧ (s.store.siteSlots.get m) = .holds (some image) false
      ∧ (s.store.siteSlots.get n) = .holds (some image) false)
    ∧ (∃ s : State,
      s.store.pass = none ∧ s.store.stepThree ≠ .idle ∧ s.store.sectionSlot = .erased)
    ∧ (∃ s : State,
      s.store.pass = none ∧ s.store.stepThree = .configured ∧ s.store.sectionSlot = .damaged)
    ∧ (∃ (s : State) (x : SectionImage),
      ConfigInRanges x.config ∧ s.store.pass = none ∧ s.store.stepThree ≠ .idle ∧ s.store.sectionSlot = .holds x true)
    ∧ (∃ (s : State) (x : SectionImage),
      ¬ ConfigInRanges x.config ∧ s.store.pass = none ∧ s.store.stepThree = .configured
      ∧ s.store.sectionSlot = .holds x false) := by
  refine ⟨⟨up, ⟨true, false⟩, ?_⟩, ⟨slotted .erased, ?_⟩, ⟨slotted .damaged, ?_⟩, ⟨slotted (.holds none false), ?_⟩,
    ⟨slotted (.holds none true), ?_⟩, ⟨slotted (.holds (some { image with serial := 0 }) false), ?_⟩, ⟨slotted
    (.holds (some image) true), ?_⟩,
    ⟨{ up with store := { up.store with siteSlots := (up.store.siteSlots.set 0 (.holds (some image) false)).set 1 (.holds (some image) false) } },
    0, 1, ?_⟩, ⟨{ up with store := { up.store with stepThree := .waiting } }, ?_⟩,
    ⟨{ up with store := { up.store with stepThree := .configured, sectionSlot := .damaged } }, ?_⟩,
    ⟨{ up with store := { up.store with stepThree := .waiting, sectionSlot := .holds ⟨⟨30, 60, 10, 1, false, 10, 1⟩, 4294967295⟩ true } },
    ⟨⟨30, 60, 10, 1, false, 10, 1⟩, 4294967295⟩, inRanges_of (by decide), ?_⟩,
    ⟨{ up with store := { up.store with stepThree := .configured, sectionSlot := .holds ⟨⟨31, 62, 10, 1, false, 10, 1⟩, 5⟩ false } },
    ⟨⟨31, 62, 10, 1, false, 10, 1⟩, 5⟩, (fun h => absurd h.refresh (by decide)), ?_⟩⟩ <;> decide +kernel

/-- Codes 0 and 65 name no site, code 1 none on an unstrapped branch; branch codes 0 and 3 name no branch. -/
theorem witness_RangeRefused : (∃ s : State,
      (∀ n : SiteName, siteCode n = 0 → ¬ s.Names n) ∧ ∀ n : SiteName, siteCode n = 65 → ¬ s.Names n)
    ∧ (∃ s : State,
      ∀ n : SiteName, siteCode n = 1 → ¬ s.Names n)
    ∧ (∃ s : State,
      (1 = 1 → s.strap.selects .west = false) ∧ (1 = 2 → s.strap.selects .east = false))
    ∧ (∃ s : State,
      (3 = 1 → s.strap.selects .west = false) ∧ (3 = 2 → s.strap.selects .east = false)) := by
  refine ⟨⟨up, ?_⟩, ⟨{ up with strap := .east }, ?_⟩, ⟨{ up with strap := .east }, ?_⟩, ⟨up, ?_⟩⟩ <;> decide +kernel

/-- Before bring-up is done, a site, a branch and the handle of a lease. -/
theorem witness_StartingRefused : ∃ (s : State) (n : SiteName) (b : Branch) (e : EntryNo),
    s.bringupDone = false ∧ s.Names n ∧ s.strap.selects b = true ∧ (s.leaseOf e).isSome = true
    ∧ (s.entry e).generation = 0 := by
  refine ⟨{ holding (lease .closed .stopped) with bringupDone := false }, 0, .west, 0, ?_⟩ <;> decide +kernel

/-- An answer ready, being served and built, and an exchange in progress. -/
theorem witness_ExchangeStart : (∃ (s : State) (a : Answer),
      s.host.exchange = none ∧ s.host.answer = .ready a)
    ∧ (∃ s : State,
      s.host.exchange = none ∧ s.host.answer = .serving 1 7 .nop)
    ∧ (∃ (s : State) (a : Answer),
      s.host.exchange = none ∧ s.host.answer = .built a)
    ∧ (∃ s : State,
      s.host.exchange ≠ none ∧ s.host.answer = .ready ⟨0, 0, .ok, .empty⟩) := by
  refine ⟨⟨up, ⟨0, 0, .ok, .empty⟩, ?_⟩, ⟨{ up with host := { up.host with answer := .serving 1 7 .nop } }, ?_⟩,
    ⟨{ up with host := { up.host with answer := .built ⟨0, 0, .ok, .empty⟩ } }, ⟨0, 0, .ok, .empty⟩, ?_⟩,
    ⟨{ up with host := { up.host with exchange := some ⟨true, []⟩ } }, ?_⟩⟩ <;> decide +kernel

/-- A request of the catalogue with its payload; an exchange that began not ready and none in progress; no byte, a cut frame, 251 bytes, a bad CRC, code 07h. -/
theorem witness_ExchangeEnd : (∃ (s : State) (miso payload : List Byte) (i : Instr) (code : Nat) (tag : Tag),
      s.host.exchange = some ⟨true, miso⟩ ∧ i.wellFormed = true ∧ requestCode? i = some code
      ∧ requestPayload? i = some payload ∧ payload.length ≤ 250 ∧ requestTag? i = some tag)
    ∧ (∃ s : State,
      s.host.exchange = some ⟨false, []⟩)
    ∧ (∃ s : State,
      s.host.exchange = none)
    ∧ (∃ (s : State) (len : Byte) (rest : List Byte),
      s.host.exchange = some ⟨true, []⟩ ∧ (len :: rest).length < len.toNat + 6)
    ∧ (∃ (s : State) (len : Byte) (rest : List Byte),
      s.host.exchange = some ⟨true, []⟩ ∧ 250 < len.toNat ∧ len.toNat + 6 ≤ (len :: rest).length)
    ∧ (∃ (s : State) (len : Byte) (rest : List Byte),
      s.host.exchange = some ⟨true, []⟩ ∧ len.toNat ≤ 250 ∧ len.toNat + 6 ≤ (len :: rest).length
      ∧ crcGood ((len :: rest).take (len.toNat + 6)) = false)
    ∧ (∃ (s : State) (mosi : List Byte),
      s.host.exchange = some ⟨true, []⟩ ∧ crcGood mosi = true ∧ byteAt mosi 1 = 7#8 ∧ readRequest 7 0 [] = none) := by
  refine ⟨⟨{ up with host := { up.host with exchange := some ⟨true, []⟩ } }, [], [0x40#8], .retire 7 (some 64), 4,
    7, ?_⟩, ⟨{ up with host := { up.host with exchange := some ⟨false, []⟩ } }, ?_⟩, ⟨up, ?_⟩,
    ⟨{ up with host := { up.host with exchange := some ⟨true, []⟩ } }, 0, [1, 0, 0, 0], ?_⟩,
    ⟨{ up with host := { up.host with exchange := some ⟨true, []⟩ } }, 251, List.replicate 256 0, ?_⟩,
    ⟨{ up with host := { up.host with exchange := some ⟨true, []⟩ } }, 0, [1, 0, 0, 0, 0], ?_⟩,
    ⟨{ up with host := { up.host with exchange := some ⟨true, []⟩ } }, requestFrame 7 0 [], ?_⟩⟩ <;> decide +kernel

/-- A well-formed request with the longest payload of its code. -/
theorem witness_RequestRoundTrip : ∃ (i : Instr) (code : Nat) (tag : Tag) (payload : List Byte),
    i.wellFormed = true ∧ requestCode? i = some code ∧ requestPayload? i = some payload ∧ payload.length ≤ 250
    ∧ requestTag? i = some tag := by
  refine ⟨.leaseRequest 7 (some ⟨255, 255, ⟨65535, 65535, 65535⟩, 4294967295, 4294967295, .lenient, 65535⟩), 0x20,
    7,
    (requestPayload? (.leaseRequest 7 (some ⟨255, 255, ⟨65535, 65535, 65535⟩, 4294967295, 4294967295, .lenient, 65535⟩))).getD
    [], ?_⟩ <;> decide +kernel

/-- The masks at the bounds of their range: 4095 is taken, and 4096 answered RANGE. -/
theorem witness_HostView : 4095 < 4096 ∧ 4096 ≤ 4096 ∧ (after (.eventMask 7 (some 4095)) up).host.mask = 0xFFF#12
    ∧ statusOf (after (.eventMask 7 (some 4095)) up) = some .ok
    ∧ statusOf (after (.eventMask 7 (some 4096)) up) = some .range
    ∧ (after (.eventMask 7 (some 4096)) up).host.mask = up.host.mask := by decide +kernel

/-- Values at the bounds of their ranges, and each of the six parameters out of its range. -/
theorem witness_ConfigRequest : (∃ (s : State) (c : SectionConfig),
      s.Sound ∧ ConfigInRanges c ∧ c.holdPeriod ≠ s.config.holdPeriod)
    ∧ (∃ c : SectionConfig,
      ¬ ConfigInRanges c ∧ c = ⟨0, 30, 60, 3, true, 120, 15⟩)
    ∧ (∃ c : SectionConfig,
      ¬ ConfigInRanges c ∧ c = ⟨10, 19, 60, 3, true, 120, 15⟩)
    ∧ (∃ c : SectionConfig,
      ¬ ConfigInRanges c ∧ c = ⟨10, 30, 9, 3, true, 120, 15⟩)
    ∧ (∃ c : SectionConfig,
      ¬ ConfigInRanges c ∧ c = ⟨10, 30, 60, 16, true, 120, 15⟩)
    ∧ (∃ c : SectionConfig,
      ¬ ConfigInRanges c ∧ c = ⟨10, 30, 60, 3, true, 601, 15⟩)
    ∧ (∃ c : SectionConfig,
      ¬ ConfigInRanges c ∧ c = ⟨10, 30, 60, 3, true, 120, 0⟩) := by
  refine ⟨⟨up, ⟨30, 120, 600, 15, false, 600, 60⟩, sound_of (by decide +kernel), inRanges_of (by decide), ?_⟩, ⟨⟨0,
    30, 60, 3, true, 120, 15⟩, (fun h => absurd h.refresh (by decide)), ?_⟩, ⟨⟨10, 19, 60, 3, true, 120, 15⟩,
    (fun h => absurd h.hold (by decide)), ?_⟩, ⟨⟨10, 30, 9, 3, true, 120, 15⟩, (fun h => absurd h.poll (by decide)),
    ?_⟩, ⟨⟨10, 30, 60, 16, true, 120, 15⟩, (fun h => absurd h.threshold (by decide)), ?_⟩, ⟨⟨10, 30, 60, 3, true,
    601, 15⟩, (fun h => absurd h.holdover (by decide)), ?_⟩, ⟨⟨10, 30, 60, 3, true, 120, 0⟩,
    (fun h => absurd h.lifetime (by decide)), ?_⟩⟩ <;> decide +kernel

/-- A name on a strapped branch. -/
theorem witness_SiteReadList : ∃ (s : State) (n : SiteName),
    s.Names n := by
  refine ⟨up, 63, ?_⟩ <;> decide +kernel

/-- A serial of a record, of a Found node alone, and of neither. -/
theorem witness_SiteFind : (∃ (s : State) (n : SiteName) (serial : Nat),
      serial ≠ 0 ∧ (s.site n).node.map (·.serial) = some serial
      ∧ ∀ m, pipelineIndex m < pipelineIndex n → (s.site m).node.map (·.serial) ≠ some serial)
    ∧ (∃ (s : State) (n : SiteName) (serial : Nat),
      serial ≠ 0 ∧ (∀ m, (s.site m).node.map (·.serial) ≠ some serial) ∧ (s.site n).found.map (·.serial) = some serial
      ∧ ∀ m, pipelineIndex m < pipelineIndex n → (s.site m).found.map (·.serial) ≠ some serial)
    ∧ (∃ (s : State) (serial : Nat),
      serial ≠ 0 ∧ (∀ m, (s.site m).node.map (·.serial) ≠ some serial)
      ∧ ∀ m, (s.site m).found.map (·.serial) ≠ some serial) := by
  refine ⟨⟨up, 0, 101, ?_⟩, ⟨at1 .mismatch, 0, 77, ?_⟩, ⟨up, 4294967295, ?_⟩⟩ <;> decide +kernel

/-- RETIRE with a free place in the FIFO, and a full FIFO with a queued RESTORE to take over; an UNREACHABLE and a MISMATCH site; ADOPT. -/
theorem witness_RetireAdopt : (∃ (s : State) (n : SiteName),
      s.Sound ∧ s.Names n ∧ s.bringupDone = true ∧ (s.site n).state = .commissioned ∧ (s.site n).holder = none
      ∧ (s.site n).stray = none ∧ s.committing n = false ∧ s.applyInFlight n = false
      ∧ (s.line (branchOf n)).hostFifo.length < 16)
    ∧ (∃ (s : State) (n : SiteName),
      s.Sound ∧ s.Names n ∧ s.bringupDone = true ∧ (s.site n).state = .commissioned ∧ (s.site n).holder = none
      ∧ (s.site n).stray = none ∧ s.committing n = false ∧ s.applyInFlight n = false
      ∧ (s.line (branchOf n)).hostFifo.length = 16
      ∧ (s.site n).pending.map (fun p => (p.purpose, p.stage)) = some (.restore, .queued)
      ∧ HostItem.pending n ∈ (s.line (branchOf n)).hostFifo)
    ∧ (∃ (s : State) (n : SiteName),
      s.Sound ∧ s.BroughtUp ∧ s.Names n ∧ (s.site n).state = .unreachable ∧ (s.site n).holder = none
      ∧ (s.site n).stray = none ∧ s.committing n = false)
    ∧ (∃ (s : State) (n : SiteName) (i : NodeIdent) (f : FoundNode),
      s.Sound ∧ s.BroughtUp ∧ s.Names n ∧ (s.site n).state = .mismatch ∧ (s.site n).node = some i
      ∧ (s.site n).found = some f ∧ (s.site n).holder = none ∧ (s.site n).stray = none ∧ s.committing n = false
      ∧ ∀ m, m ≠ n → (s.site m).node.map (·.serial) ≠ some f.serial)
    ∧ (∃ (s : State) (n : SiteName) (i : NodeIdent) (c : Commissioned) (f : FoundNode),
      s.Sound ∧ s.Names n ∧ s.bringupDone = true ∧ (s.site n).comm = some c
      ∧ (s.line (branchOf n)).hostFifo.length < 16 ∧ (s.site n).state = .mismatch ∧ (s.site n).node = some i
      ∧ (s.site n).found = some f ∧ (s.site n).holder = none ∧ (s.site n).stray = none ∧ s.committing n = false
      ∧ ∀ m, m ≠ n → (s.site m).node.map (·.serial) ≠ some f.serial) := by
  refine ⟨⟨up, 0, sound_of (by decide +kernel), ?_⟩, ⟨State.west (State.pended up ⟨.restore, .queued, none⟩) fun l
    => { l with hostFifo := .pending 0 :: List.replicate 15 .probe }, 0, sound_of (by decide +kernel), ?_⟩, ⟨at1
    .unreachable, 0, sound_of (by decide +kernel), broughtUp_of (by decide +kernel), ?_⟩, ⟨at1 .mismatch, 0, ident
    101, ⟨77, ⟨2000, 100⟩, .standalone⟩, sound_of (by decide +kernel), broughtUp_of (by decide +kernel), ?_⟩, ⟨at1
    .mismatch, 0, ident 101, ⟨block, 500, 80000000, none⟩, ⟨77, ⟨2000, 100⟩, .standalone⟩, sound_of
    (by decide +kernel), ?_⟩⟩ <;> decide +kernel

/-- RETIRE held, in a state it is not for, in conflict, with no place; ADOPT and DRAFT OPEN in the order of their checks. -/
theorem witness_SiteRequestsRefused : (∃ s : State,
      s.Names 0 ∧ s.bringupDone = true ∧ (s.site 0).holder ≠ none)
    ∧ (∃ s : State,
      s.Names 0 ∧ s.bringupDone = true ∧ (s.site 0).stray ≠ none)
    ∧ (∃ s : State,
      s.Names 0 ∧ s.bringupDone = true ∧ (s.site 5).state = .vacant ∧ s.Names 5)
    ∧ (∃ s : State,
      s.Names 0 ∧ s.bringupDone = true ∧ (s.site 0).state = .mismatch ∧ (s.site 0).found.map (·.serial) = some 102
      ∧ (s.site 1).node.map (·.serial) = some 102
      ∧ ∀ k : SiteName, k < 1 → k ≠ 0 → (s.site k).node.map (·.serial) ≠ some 102)
    ∧ (∃ s : State,
      s.Names 0 ∧ s.bringupDone = true ∧ (s.site 0).state = .commissioned ∧ 16 ≤ (s.line (branchOf 0)).hostFifo.length
      ∧ (s.site 0).pending = none)
    ∧ (∃ s : State,
      s.Names 0 ∧ s.bringupDone = true ∧ (s.site 0).state = .commissioned ∧ s.applyInFlight 0 = true)
    ∧ (∃ s : State,
      s.Names 0 ∧ s.bringupDone = true ∧ (s.site 0).state = .mismatch ∧ (s.site 0).holder = none
      ∧ (s.site 0).stray = none ∧ (∀ m : SiteName, m ≠ 0 → (s.site m).node.map (·.serial) ≠ some 77)
      ∧ (s.site 0).found.map (·.serial) = some 77 ∧ 16 ≤ (s.line (branchOf 0)).hostFifo.length)
    ∧ (∃ s : State,
      s.Names 0 ∧ s.bringupDone = true ∧ s.draftOf 0 ≠ none)
    ∧ (∃ s : State,
      s.Names 0 ∧ s.bringupDone = true ∧ s.draftOf 0 = none ∧ (s.site 0).state = .mismatch)
    ∧ (∃ s : State,
      s.Names 0 ∧ s.bringupDone = true ∧ s.draftOf 0 = none ∧ (s.site 0).state = .discovered
      ∧ s.discovering (branchOf 0) = true)
    ∧ (∃ s : State,
      s.Names 0 ∧ s.bringupDone = true ∧ s.draftOf 0 = none ∧ (s.site 0).state = .commissioned
      ∧ s.discovering (branchOf 0) = false ∧ 8 ≤ s.drafts.length) := by
  refine ⟨⟨holding (lease .granted .waiting), ?_⟩, ⟨up.setSite 0
    { record .commissioned 101 with stray := some 1200 }, ?_⟩, ⟨up, ?_⟩, ⟨up.setSite 0
    { record .mismatch 101 with found := some ⟨102, ⟨2000, 100⟩, .fresh⟩ }, ?_⟩, ⟨State.fullWest up, ?_⟩,
    ⟨State.inFlight up ⟨.apply block 500 none 30, 1, false, 86000, 0, .pending 0⟩, ?_⟩, ⟨State.fullWest
    (at1 .mismatch), ?_⟩, ⟨drafted .commissioned draft, ?_⟩, ⟨at1 .mismatch, ?_⟩,
    ⟨{ at1 .discovered with bringup := ⟨{ readyBranch with job := .discover }, readyBranch⟩ }, ?_⟩,
    ⟨{ up with drafts := [9, 10, 11, 12, 13, 14, 15, 16].map fun n => { draft with site := n } }, ?_⟩⟩ <;> decide +kernel

/-- A name; the selections 0 and 512 that are none, and 1 and 511 that are. -/
theorem witness_ClearFaults : ∃ (s : State) (n : SiteName),
    s.Names n ∧ (0 = 0 ∨ 512 ≤ 0) ∧ (512 = 0 ∨ 512 ≤ 512) ∧ (1 ≤ 1 ∧ 1 < 512) ∧ 1 ≤ 511 ∧ 511 < 512 := by
  refine ⟨up, 0, ?_⟩ <;> decide +kernel

/-- The view not frozen and frozen. -/
theorem witness_SnapView : (∃ s : State,
      s.frozen = false)
    ∧ (∃ s : State,
      s.frozen = true)
    ∧ (∃ (s : State) (n : SiteName),
      s.frozen = true ∧ s.Names n) := by
  refine ⟨⟨up, ?_⟩, ⟨{ up with frozen := true, snapTime := some 5 }, ?_⟩,
    ⟨{ up with frozen := true, snapTime := some 5 }, 0, ?_⟩⟩ <;> decide +kernel

/-- Each state that opens a draft, with seven in the pool; an OPEN draft; its lifetime reached, not reached, and a COMMITTING draft. -/
theorem witness_DraftEdit : (∃ (s : State) (n : SiteName),
      s.Sound ∧ s.Names n ∧ s.bringupDone = true ∧ s.draftOf n = none ∧ s.discovering (branchOf n) = false
      ∧ s.drafts.length < 8 ∧ (s.site n).state = .discovered)
    ∧ (∃ (s : State) (n : SiteName) (i : NodeIdent) (c : Commissioned),
      s.Sound ∧ s.Names n ∧ s.bringupDone = true ∧ s.draftOf n = none ∧ s.discovering (branchOf n) = false
      ∧ s.drafts.length < 8 ∧ (s.site n).state = .commissioned ∧ (s.site n).node = some i ∧ (s.site n).comm = some c)
    ∧ (∃ (s : State) (n : SiteName) (i : NodeIdent) (c : Commissioned),
      s.Sound ∧ s.Names n ∧ s.bringupDone = true ∧ s.draftOf n = none ∧ s.discovering (branchOf n) = false
      ∧ s.drafts.length < 8 ∧ (s.site n).state = .unreachable ∧ (s.site n).node = some i ∧ (s.site n).comm = some c)
    ∧ (∃ (s : State) (n : SiteName) (d : Draft),
      s.Names n ∧ s.bringupDone = true ∧ s.draftOf n = some d ∧ d.committing = false)
    ∧ (∃ (s : State) (n : SiteName) (d : Draft),
      s.Sound ∧ s.Names n ∧ s.bringupDone = true ∧ s.draftOf n = some d ∧ d.committing = false)
    ∧ (∃ (s : State) (n : SiteName) (moment : Nat) (d : Draft),
      s.Sound ∧ s.draftOf n = some d ∧ d.committing = false
      ∧ s.config.draftLifetime * 60 ≤ (max s.timebase moment - d.idleFrom) / 1000000)
    ∧ (∃ (s : State) (n : SiteName) (moment : Nat) (d : Draft),
      s.draftOf n = some d ∧ (max s.timebase moment - d.idleFrom) / 1000000 < s.config.draftLifetime * 60)
    ∧ (∃ (s : State) (n : SiteName) (d : Draft),
      s.draftOf n = some d ∧ d.committing = true) := by
  refine ⟨⟨{ at1 .discovered with drafts := [9, 10, 11, 12, 13, 14, 15].map fun n => { draft with site := n } }, 0,
    sound_of (by decide +kernel), ?_⟩, ⟨up, 0, ident 101, ⟨block, 500, 80000000, none⟩, sound_of
    (by decide +kernel), ?_⟩, ⟨at1 .unreachable, 0, ident 101, ⟨block, 500, 80000000, none⟩, sound_of
    (by decide +kernel), ?_⟩, ⟨drafted .commissioned draft, 0, draft, ?_⟩, ⟨drafted .commissioned draft, 0, draft,
    sound_of (by decide +kernel), ?_⟩, ⟨drafted .commissioned draft, 0, 940000000, draft, sound_of
    (by decide +kernel), ?_⟩, ⟨drafted .commissioned draft, 0, 939999999, draft, ?_⟩, ⟨drafted .commissioned
    { draft with committing := true }, 0, { draft with committing := true }, ?_⟩⟩ <;> decide +kernel

/-- A draft, none, one that is COMMITTING; each check of validation. -/
theorem witness_DraftReadRefused : (∃ (s : State) (n : SiteName) (d : Draft),
      s.Names n ∧ s.bringupDone = true ∧ s.draftOf n = some d ∧ d.committing = false)
    ∧ (∃ (s : State) (n : SiteName),
      s.Names n ∧ s.bringupDone = true ∧ s.draftOf n = none)
    ∧ (∃ (s : State) (n : SiteName) (d : Draft),
      s.Names n ∧ s.bringupDone = true ∧ s.draftOf n = some d ∧ d.committing = true)
    ∧ (∀ x ∈ [({ draft with hostPlate := true, ratedVoltage := some 100 }, 12),
        ({ draft with hostPlate := true, ratedCurrent := some 3000 }, 13),
        ({ draft with block := { block with currentLimit := 499 } }, 1),
        ({ draft with block := { block with trimFloor := 501 } }, 5),
        ({ draft with block := { block with trimCeiling := 499 } }, 6),
        ({ draft with block := { block with trimCeiling := 1001 } }, 6),
        ({ draft with block := { block with targetVoltage := 101 } }, 2),
        ({ draft with block := { block with voltageLimit := 101 } }, 4),
        ({ draft with block := { block with overprotectLimit := -850 } }, 9),
        ({ draft with block := { block with windowCount := 9 } }, 10)], validate x.1 ⟨3000, 100⟩ = some x.2) := by
  refine ⟨⟨drafted .commissioned draft, 0, draft, ?_⟩, ⟨up, 0, ?_⟩, ⟨drafted .commissioned
    { draft with committing := true }, 0, { draft with committing := true }, ?_⟩, ?_⟩ <;> decide +kernel

/-- Each ground of BUSY with the checks before it passed: a walk, an APPLY and a CLEAN in flight, a full FIFO with nothing
Pending to take the place of, and an APPLY in flight to an UNREACHABLE site. -/
theorem witness_DraftReadRefused_busy :
    ∀ k ∈ [({ drafted .discovered draft with bringup := ⟨{ readyBranch with job := .discover }, readyBranch⟩ } : State),
        State.inFlight (drafted .commissioned draft) ⟨.apply block 500 none 30, 1, false, 86000, 0, .pending 0⟩,
        State.pended (drafted .discovered draft) ⟨.clean, .inFlight, none⟩, State.fullWest (drafted .commissioned draft),
        State.inFlight (drafted .unreachable draft) ⟨.apply block 500 none 30, 1, false, 86000, 0, .pending 0⟩],
      k.Names 0 ∧ k.bringupDone = true ∧ k.draftOf 0 = some draft ∧ (k.site 0).node = some (ident 101)
      ∧ validate draft (ident 101).plate = none
      ∧ (k.discovering .west = true ∨ (k.site 0).state ≠ .unreachable
        ∧ (k.applyInFlight 0 = true ∨ (k.site 0).pending.map (fun p => (p.purpose, p.stage)) = some (.clean, .inFlight)
          ∨ 16 ≤ (k.line .west).hostFifo.length ∧ (k.site 0).pending = none)
        ∨ (k.site 0).state = .unreachable ∧ k.applyInFlight 0 = true) := by decide +kernel

/-- A DISCOVERED, a COMMISSIONED and an UNREACHABLE site with a valid draft. -/
theorem witness_DraftCommit : (∃ (s : State) (n : SiteName) (d : Draft) (i : NodeIdent),
      s.Sound ∧ s.Names n ∧ s.bringupDone = true ∧ s.draftOf n = some d ∧ d.committing = false
      ∧ (s.site n).state = .discovered ∧ (s.site n).node = some i ∧ validate d i.plate = none ∧ s.commitBusy n = false
      ∧ (s.placeToTake n [.restore, .clean] = true → HostItem.pending n ∈ (s.line (branchOf n)).hostFifo))
    ∧ (∃ (s : State) (n : SiteName) (d : Draft) (i : NodeIdent),
      s.Sound ∧ s.Names n ∧ s.bringupDone = true ∧ s.draftOf n = some d ∧ d.committing = false
      ∧ (s.site n).state = .commissioned ∧ (s.site n).node = some i ∧ validate d i.plate = none
      ∧ s.commitBusy n = false
      ∧ (s.placeToTake n [.restore, .clean] = true → HostItem.pending n ∈ (s.line (branchOf n)).hostFifo))
    ∧ (∃ (s : State) (n : SiteName) (d : Draft) (i : NodeIdent) (c : Commissioned),
      s.Sound ∧ s.Names n ∧ s.bringupDone = true ∧ s.draftOf n = some d ∧ d.committing = false
      ∧ (s.site n).state = .unreachable ∧ (s.site n).node = some i ∧ validate d i.plate = none
      ∧ s.commitBusy n = false ∧ (s.site n).comm = some c) := by
  refine ⟨⟨drafted .discovered draft, 0, draft, ident 101, sound_of (by decide +kernel), ?_⟩, ⟨drafted .commissioned
    draft, 0, draft, ident 101, sound_of (by decide +kernel), ?_⟩, ⟨drafted .unreachable draft, 0, draft, ident 101,
    ⟨block, 500, 80000000, none⟩, sound_of (by decide +kernel), ?_⟩⟩ <;> decide +kernel

/-- The first FREE entry, and the head of the close order where every entry holds a lease, with the window at its lower bounds; each check failing first. -/
theorem witness_LeaseRequest : (∃ (s : State) (a : LeaseRequestArgs) (first last : SiteName) (now : Nat) (e : EntryNo),
      s.Sound ∧ s.SpanNamed a first last ∧ PatternInRanges a.pattern ∧ s.bringupDone = true ∧ s.clock.state = .locked
      ∧ s.clock.count = some now ∧ WindowInRanges now a.start a.stop
      ∧ (∀ n, InSpan first last n → (s.site n).state = .commissioned ∧ (s.site n).lineDelay ≠ none
      ∧ (s.site n).holder = none ∧ (s.site n).stray = none ∧ s.trainingOn (branchOf n) = false
      ∧ s.discovering (branchOf n) = false) ∧ s.leaseOf e = none ∧ ∀ k, k < e → s.leaseOf k ≠ none)
    ∧ (∃ (s : State) (a : LeaseRequestArgs) (first last : SiteName) (now : Nat) (e : EntryNo),
      s.Sound ∧ s.SpanNamed a first last ∧ PatternInRanges a.pattern ∧ s.bringupDone = true ∧ s.clock.state = .locked
      ∧ s.clock.count = some now ∧ WindowInRanges now a.start a.stop
      ∧ (∀ n, InSpan first last n → (s.site n).state = .commissioned ∧ (s.site n).lineDelay ≠ none
      ∧ (s.site n).holder = none ∧ (s.site n).stray = none ∧ s.trainingOn (branchOf n) = false
      ∧ s.discovering (branchOf n) = false) ∧ (∀ k, s.leaseOf k ≠ none) ∧ s.closeOrder.head? = some e)
    ∧ (∃ s : State,
      s.bringupDone = true ∧ s.clock.state ≠ .locked)
    ∧ (∃ (s : State) (a : LeaseRequestArgs),
      (∀ first last, ¬ s.SpanNamed a first last) ∧ s.bringupDone = true ∧ s.clock.state = .locked)
    ∧ (∃ (s : State) (a : LeaseRequestArgs),
      ¬ PatternInRanges a.pattern ∧ s.bringupDone = true ∧ s.clock.state = .locked)
    ∧ (∃ (s : State) (a : LeaseRequestArgs),
      s.bringupDone = true ∧ s.clock.state = .locked ∧ ¬ WindowInRanges (s.clock.count.getD 0) a.start a.stop)
    ∧ (∃ (s : State) (a : LeaseRequestArgs) (first last : SiteName),
      s.SpanNamed a first last ∧ PatternInRanges a.pattern ∧ s.bringupDone = true ∧ s.clock.state = .locked
      ∧ WindowInRanges (s.clock.count.getD 0) a.start a.stop ∧ ∃ n, InSpan first last n ∧ (s.site n).lineDelay = none)
    ∧ (∃ (s : State) (a : LeaseRequestArgs) (first last : SiteName),
      s.SpanNamed a first last ∧ PatternInRanges a.pattern ∧ s.bringupDone = true ∧ s.clock.state = .locked
      ∧ WindowInRanges (s.clock.count.getD 0) a.start a.stop
      ∧ (∀ n, InSpan first last n → (s.site n).state = .commissioned ∧ (s.site n).lineDelay ≠ none)
      ∧ ∃ n, InSpan first last n ∧ (s.site n).holder ≠ none)
    ∧ (∃ (s : State) (a : LeaseRequestArgs) (first last : SiteName),
      s.SpanNamed a first last ∧ PatternInRanges a.pattern ∧ s.bringupDone = true ∧ s.clock.state = .locked
      ∧ WindowInRanges (s.clock.count.getD 0) a.start a.stop ∧ (∀ n, InSpan first last n → (s.site n).holder = none
      ∧ (s.site n).stray = none) ∧ ∃ n, InSpan first last n ∧ s.trainingOn (branchOf n) = true)
    ∧ (∃ (s : State) (a : LeaseRequestArgs) (first last : SiteName),
      s.SpanNamed a first last ∧ PatternInRanges a.pattern ∧ s.bringupDone = true ∧ s.clock.state = .locked
      ∧ WindowInRanges (s.clock.count.getD 0) a.start a.stop
      ∧ (∀ n, InSpan first last n → s.trainingOn (branchOf n) = false ∧ s.discovering (branchOf n) = false)
      ∧ (∀ e, s.leaseOf e ≠ none) ∧ s.closeOrder = []) := by
  refine ⟨⟨up, ⟨2, 1, ⟨5, 3, 5⟩, 1040, 1041, .strict, 9⟩, 1, 0, 1000, 0, sound_of (by decide +kernel),
    ⟨(by decide +kernel), (by decide +kernel), by decide⟩, pattern_of (by decide), ?_⟩,
    ⟨{ up with leases := Vector.replicate 16 ⟨255, some (lease .closed .stopped)⟩, closeOrder := [5, 3] }, ⟨2, 1,
    ⟨5, 3, 5⟩, 1040, 1041, .strict, 9⟩, 1, 0, 1000, 5, sound_of (by decide +kernel), ⟨(by decide +kernel),
    (by decide +kernel), by decide⟩, pattern_of (by decide), ?_⟩, ⟨State.inTime up .holdover, ?_⟩, ⟨up, ⟨65, 1, ⟨5,
    3, 5⟩, 1040, 1041, .strict, 9⟩,
    (fun first _ h => absurd h.begins.1 ((by decide +kernel : ∀ n : SiteName, 65 ≠ siteCode n) first)), ?_⟩, ⟨up,
    ⟨2, 1, ⟨5, 3, 26⟩, 1040, 1041, .strict, 9⟩, (fun h => absurd h.offRead (by decide)), ?_⟩, ⟨up, ⟨2, 1, ⟨5, 3, 5⟩,
    1040, 44241, .strict, 9⟩, ?_⟩, ⟨up.setSite 0 { record .commissioned 101 with lineDelay := none }, ⟨2, 1, ⟨5, 3,
    5⟩, 1040, 1041, .strict, 9⟩, 1, 0, ⟨(by decide +kernel), (by decide +kernel), by decide⟩, pattern_of
    (by decide), ?_⟩, ⟨holding (lease .granted .waiting), ⟨2, 1, ⟨5, 3, 5⟩, 1040, 1041, .strict, 9⟩, 1, 0,
    ⟨(by decide +kernel), (by decide +kernel), by decide⟩, pattern_of (by decide), ?_⟩,
    ⟨{ up with bringup := ⟨{ readyBranch with job := .train }, readyBranch⟩ }, ⟨2, 1, ⟨5, 3, 5⟩, 1040, 1041,
    .strict, 9⟩, 1, 0, ⟨(by decide +kernel), (by decide +kernel), by decide⟩, pattern_of (by decide), ?_⟩,
    ⟨{ up with leases := Vector.replicate 16 ⟨0, some (lease .armed .armed)⟩ }, ⟨2, 1, ⟨5, 3, 5⟩, 1040, 1041,
    .strict, 9⟩, 1, 0, ⟨(by decide +kernel), (by decide +kernel), by decide⟩, pattern_of (by decide), ?_⟩⟩ <;> decide +kernel

/-- Entry numbers 0, 17 and 16; a FREE entry and another generation; an index in the span and one beyond it. -/
theorem witness_LeaseReadChecked : (∃ s : State,
      (0 = 0 ∨ 16 < 0) ∧ (17 = 0 ∨ 16 < 17) ∧ 16 = (15 : EntryNo).val + 1 ∧ s.leaseOf 15 = none ∧ s.bringupDone = true)
    ∧ (∃ s : State,
      (s.entry 0).generation ≠ 1 ∧ (s.leaseOf 0).isSome = true)
    ∧ (∃ (s : State) (l : Lease),
      s.leaseOf 0 = some l ∧ max ((some 2).getD 1) 1 ≤ l.sites.length ∧ l.sites.length < max ((some 3).getD 1) 1) := by
  refine ⟨⟨up, ?_⟩, ⟨holding (lease .granted .waiting), ?_⟩, ⟨holding (lease .granted .waiting), lease .granted
    .waiting, ?_⟩⟩ <;> decide +kernel

/-- Before bring-up is done; a live lease; a CLOSED one at generations 0 and 255. -/
theorem witness_LeaseDismiss : (∃ (s : State) (l : Lease),
      s.leaseOf 0 = some l ∧ s.bringupDone = false)
    ∧ (∃ (s : State) (l : Lease),
      s.leaseOf 0 = some l ∧ s.bringupDone = true ∧ l.state ≠ .closed)
    ∧ (∃ (s : State) (l : Lease),
      s.leaseOf 0 = some l ∧ s.bringupDone = true ∧ l.state = .closed ∧ (s.entry 0).generation < 256)
    ∧ (∃ (s : State) (l : Lease),
      s.leaseOf 0 = some l ∧ s.bringupDone = true ∧ l.state = .closed ∧ (s.entry 0).generation = 255) := by
  refine ⟨⟨{ holding (lease .closed .stopped) with bringupDone := false }, lease .closed .stopped, ?_⟩, ⟨holding
    (lease .stopping .cycling), lease .stopping .cycling, ?_⟩, ⟨holding (lease .closed .stopped), lease .closed
    .stopped, ?_⟩, ⟨up.setEntry 0 ⟨255, some (lease .closed .stopped)⟩, lease .closed .stopped, ?_⟩⟩ <;> decide +kernel

/-- Each check failing first; LEASE EXTEND of a GRANTED and of a RUNNING lease at its bounds; LEASE REPATTERN of a RUNNING one. -/
theorem witness_LeaseChange : (∃ (s : State) (l : Lease),
      s.leaseOf 0 = some l ∧ s.bringupDone = true ∧ l.state = .closed)
    ∧ (∃ (s : State) (l : Lease),
      s.leaseOf 0 = some l ∧ s.bringupDone = true ∧ l.state = .running ∧ l.change ≠ none)
    ∧ (∃ (s : State) (l : Lease),
      s.leaseOf 0 = some l ∧ s.bringupDone = true ∧ l.state = .granted ∧ l.change = none ∧ ¬ (l.stop < 1200
      ∧ 1200 ≤ l.start + 43200) ∧ ¬ (l.stop < 44301 ∧ 44301 ≤ l.start + 43200))
    ∧ (∃ (s : State) (l : Lease),
      s.leaseOf 0 = some l ∧ s.bringupDone = true ∧ l.state = .running ∧ l.change = none ∧ (l.stop < 1201
      ∧ 1201 ≤ l.start + 43200) ∧ l.stop < s.clock.count.getD 0 + 10)
    ∧ (∃ (p : Pattern) (s : State) (l : Lease),
      ¬ PatternInRanges p ∧ s.leaseOf 0 = some l ∧ s.bringupDone = true ∧ l.state = .running ∧ l.change = none)
    ∧ (∃ (s : State) (l : Lease),
      s.leaseOf 0 = some l ∧ s.bringupDone = true ∧ l.change = none ∧ l.state = .granted ∧ l.stop < 44300
      ∧ 44300 ≤ l.start + 43200 ∧ s.clock.count.getD 0 + 10 ≤ l.stop)
    ∧ (∃ (s : State) (l : Lease) (n : SiteName) (x : LeaseSite),
      s.leaseOf 0 = some l ∧ s.bringupDone = true ∧ l.change = none ∧ l.state = .running ∧ l.stop < 1201
      ∧ s.clock.count.getD 0 + 10 ≤ l.stop ∧ l.siteOf n = some x ∧ x.status = .cycling
      ∧ (s.site n).state = .commissioned)
    ∧ (∃ (p : Pattern) (s : State) (l : Lease) (j : Nat) (n : SiteName) (x : LeaseSite),
      PatternInRanges p ∧ s.leaseOf 0 = some l ∧ s.bringupDone = true ∧ l.change = none ∧ l.state = .running
      ∧ 0 < l.pattern.onTime + l.pattern.offTime
      ∧ s.clock.count.getD 0 * 10 + 100 ≤ l.start * 10 + j * (l.pattern.onTime + l.pattern.offTime)
      ∧ (∀ k, k < j → l.start * 10 + k * (l.pattern.onTime + l.pattern.offTime) < s.clock.count.getD 0 * 10 + 100)
      ∧ l.start * 10 + j * (l.pattern.onTime + l.pattern.offTime) < l.stop * 10 ∧ l.run = none ∧ l.siteOf n = some x
      ∧ x.status = .cycling ∧ (s.site n).state = .commissioned) := by
  refine ⟨⟨holding (lease .closed .stopped), lease .closed .stopped, ?_⟩, ⟨holding
    { lease .running .cycling with change := some (.extend 1300 false) },
    { lease .running .cycling with change := some (.extend 1300 false) }, ?_⟩, ⟨holding (lease .granted .waiting),
    lease .granted .waiting, ?_⟩, ⟨State.at (holding (lease .running .cycling)) 1191, lease .running .cycling, ?_⟩,
    ⟨⟨4, 3, 5⟩, holding (lease .running .cycling), lease .running .cycling, (fun h => absurd h.onTime (by decide)),
    ?_⟩, ⟨holding (lease .granted .waiting), lease .granted .waiting, ?_⟩, ⟨State.at
    (holding (lease .running .cycling)) 1190, lease .running .cycling, 0, outcome 0 .cycling, ?_⟩, ⟨⟨5, 3, 5⟩,
    State.at (holding (lease .running .cycling)) 1102, lease .running .cycling, 8, 0, outcome 0 .cycling, pattern_of
    (by decide), ?_⟩⟩ <;> decide +kernel

/-- A GRANTED, an ARMED, a RUNNING, a STOPPING and a CLOSED lease. -/
theorem witness_LeaseRelease : (∃ (s : State) (l : Lease),
      s.Sound ∧ s.leaseOf 0 = some l ∧ s.bringupDone = true ∧ l.state = .granted ∧ (s.site 0).holder = some ⟨0, 0⟩)
    ∧ (∃ (s : State) (l : Lease) (n : SiteName) (x : LeaseSite),
      s.leaseOf 0 = some l ∧ s.bringupDone = true ∧ l.state = .armed ∧ l.siteOf n = some x ∧ x.status = .armed
      ∧ (s.site n).state = .commissioned)
    ∧ (∃ (s : State) (l : Lease) (n : SiteName) (x : LeaseSite),
      s.leaseOf 0 = some l ∧ s.bringupDone = true ∧ l.state = .running ∧ l.siteOf n = some x ∧ x.status = .cycling
      ∧ (s.site n).state = .commissioned)
    ∧ (∃ (s : State) (l : Lease),
      s.leaseOf 0 = some l ∧ s.bringupDone = true ∧ l.state = .stopping)
    ∧ (∃ (s : State) (l : Lease),
      s.leaseOf 0 = some l ∧ s.bringupDone = true ∧ l.state = .closed) := by
  refine ⟨⟨holding (lease .granted .waiting), lease .granted .waiting, sound_of (by decide +kernel), ?_⟩, ⟨holding
    (lease .armed .armed), lease .armed .armed, 0, outcome 0 .armed, ?_⟩, ⟨holding (lease .running .cycling), lease
    .running .cycling, 0, outcome 0 .cycling, ?_⟩, ⟨holding (lease .stopping .cycling), lease .stopping .cycling,
    ?_⟩, ⟨holding (lease .closed .stopped), lease .closed .stopped, ?_⟩⟩ <;> decide +kernel

/-- An ARMING lease with a site ARMED, with an ARM in flight alone, and with neither; a RUNNING one with no site left. -/
theorem witness_LeaseRelease_arming :
    ∀ k ∈ [mixed .strict, { lease .arming .waiting with sites := [{ outcome 1 .waiting with call := some ⟨.arm, true, true⟩ }] },
        lease .arming .waiting, lease .running .stopped],
      (((holding k).RecordsSound ∧ (holding k).PoolSound ∧ (holding k).FifosSound) ∧ (holding k).leaseOf 0 = some k
        ∧ (k.sites.map (·.site)).Nodup ∧ ∀ x ∈ k.sites, x.status ≠ .dropped)
      ∧ ((k.state = .arming ∧ ∃ x ∈ k.sites, x.status = .armed ∧ ((holding k).site x.site).state = .commissioned)
        ∨ (k.state = .arming ∧ ∃ x ∈ k.sites, x.call = some ⟨.arm, true, true⟩)
        ∨ ((k.state = .arming ∨ k.state = .running) ∧ ∀ x ∈ k.sites, x.status ≠ .armed ∧ x.status ≠ .cycling
          ∧ x.call = none)) := by decide +kernel

/-- Arming due and one second too early; the start due and one second too early. -/
theorem witness_LeaseArmStart : (∃ (s : State) (l : Lease),
      s.leaseOf 0 = some l ∧ l.state = .granted ∧ s.clock.state = .holdover ∧ l.start - 30 ≤ s.clock.count.getD 0)
    ∧ (∃ (s : State) (l : Lease),
      s.leaseOf 0 = some l ∧ ¬ l.start - 30 ≤ s.clock.count.getD 0)
    ∧ (∃ (s : State) (l : Lease),
      s.leaseOf 0 = some l ∧ l.state = .armed ∧ s.clock.state = .locked ∧ l.start ≤ s.clock.count.getD 0)
    ∧ (∃ (s : State) (l : Lease),
      s.leaseOf 0 = some l ∧ ¬ l.start ≤ s.clock.count.getD 0) := by
  refine ⟨⟨State.inTime (State.at (holding (lease .granted .waiting)) 1070) .holdover, lease .granted .waiting, ?_⟩,
    ⟨State.at (holding (lease .granted .waiting)) 1069, lease .granted .waiting, ?_⟩, ⟨State.at
    (holding (lease .armed .armed)) 1100, lease .armed .armed, ?_⟩, ⟨State.at (holding (lease .armed .armed)) 1099,
    lease .armed .armed, ?_⟩⟩ <;> decide +kernel

/-- The deadline not reached; every site ARMED; a failed site under STRICT and under LENIENT. -/
theorem witness_ArmDeadline : (∃ (s : State) (l : Lease),
      s.Sound ∧ s.leaseOf 0 = some l ∧ ¬ l.start - 5 ≤ s.clock.count.getD 0)
    ∧ (∃ (s : State) (l : Lease),
      s.Sound ∧ s.leaseOf 0 = some l ∧ l.state = .arming ∧ s.clock.state = .locked
      ∧ l.start - 5 ≤ s.clock.count.getD 0 ∧ l.change = none ∧ l.sites ≠ [] ∧ ∀ x ∈ l.sites, x.status = .armed
      ∧ x.failure = none ∧ x.call = none)
    ∧ (∃ (s : State) (l : Lease) (x y : LeaseSite),
      s.Sound ∧ s.leaseOf 0 = some l ∧ l.state = .arming ∧ s.clock.state = .locked
      ∧ l.start - 5 ≤ s.clock.count.getD 0 ∧ l.change = none ∧ l.strictness = .strict ∧ l.siteOf 1 = some x
      ∧ x.failure ≠ none ∧ l.siteOf 0 = some y ∧ y.status = .armed ∧ (s.site 0).state = .commissioned)
    ∧ (∃ (s : State) (l : Lease),
      s.Sound ∧ s.leaseOf 0 = some l ∧ l.state = .arming ∧ s.clock.state = .locked
      ∧ l.start - 5 ≤ s.clock.count.getD 0 ∧ l.change = none ∧ l.strictness = .lenient
      ∧ ∃ x ∈ l.sites, x.status = .armed ∧ ∀ y ∈ l.sites, y.site = x.site → y.failure = none ∧ y.status ≠ .waiting) := by
  refine ⟨⟨State.at (holding (lease .arming .armed)) 1094, lease .arming .armed, sound_of (by decide +kernel), ?_⟩,
    ⟨State.at (holding (lease .arming .armed)) 1095, lease .arming .armed, sound_of (by decide +kernel), ?_⟩,
    ⟨State.at (holding (mixed .strict)) 1095, mixed .strict, { outcome 1 .waiting with failure := some .noAnswer },
    outcome 0 .armed, sound_of (by decide +kernel), ?_⟩, ⟨State.at (holding (mixed .lenient)) 1095, mixed .lenient,
    sound_of (by decide +kernel), ?_⟩⟩ <;> decide +kernel

/-- No run record; a boundary reached, and one tenth of a second too early; a poll that still waits; an older pattern. -/
theorem witness_CycleEnd : (∃ s : State,
      (s.leaseOf 0).bind (·.run) = none)
    ∧ (∃ (s : State) (moment : Nat) (l : Lease) (r : RunRecord),
      s.leaseOf 0 = some l ∧ l.run = some r ∧ l.state = .running
      ∧ r.origin + r.next * (l.pattern.onTime + l.pattern.offTime) < l.stop * 10
      ∧ r.origin + r.next * (l.pattern.onTime + l.pattern.offTime) = s.clock.count.getD 0 * 10 + (max s.timebase moment - s.clock.instant.getD 0) / 100000)
    ∧ (∃ (s : State) (moment : Nat) (l : Lease) (r : RunRecord),
      s.leaseOf 0 = some l ∧ l.run = some r ∧ l.state = .running
      ∧ s.clock.count.getD 0 * 10 + (max s.timebase moment - s.clock.instant.getD 0) / 100000 < r.origin + r.next * (l.pattern.onTime + l.pattern.offTime))
    ∧ (∃ (s : State) (l : Lease),
      s.leaseOf 0 = some l ∧ l.state = .running ∧ l.siteOf 0 = some (outcome 0 .cycling)
      ∧ (s.site 0).state = .commissioned ∧ (s.line .west).leasePolls = [⟨0, ⟨0, 0⟩, 0, 1100⟩])
    ∧ (∃ (s : State) (l : Lease),
      s.leaseOf 0 = some l ∧ l.run = some ⟨11150, 1, [⟨11000, 15, 10, 11150⟩]⟩ ∧ l.state = .running
      ∧ 11000 + 10 * 15 ≤ s.clock.count.getD 0 * 10) := by
  refine ⟨⟨holding (lease .running .cycling), ?_⟩, ⟨State.at
    (holding { lease .running .cycling with run := some ⟨11000, 1, []⟩ }) 1101, 100000000,
    { lease .running .cycling with run := some ⟨11000, 1, []⟩ }, ⟨11000, 1, []⟩, ?_⟩, ⟨State.passed
    (State.at (holding { lease .running .cycling with run := some ⟨11000, 1, []⟩ }) 1101) 99999999, 99999999,
    { lease .running .cycling with run := some ⟨11000, 1, []⟩ }, ⟨11000, 1, []⟩, ?_⟩, ⟨State.west
    (State.at (holding { lease .running .cycling with run := some ⟨11000, 1, []⟩ }) 1101) fun l =>
    { l with leasePolls := [⟨0, ⟨0, 0⟩, 0, 1100⟩] }, { lease .running .cycling with run := some ⟨11000, 1, []⟩ },
    ?_⟩, ⟨State.at (holding { lease .running .cycling with run := some ⟨11150, 1, [⟨11000, 15, 10, 11150⟩]⟩ }) 1115,
    { lease .running .cycling with run := some ⟨11150, 1, [⟨11000, 15, 10, 11150⟩]⟩ }, ?_⟩⟩ <;> decide +kernel

/-- An extension not due, taken, and refused; a repattern one tenth too early, and taken at its deadline. -/
theorem witness_ChangeDecided : (∃ (s : State) (l : Lease),
      s.leaseOf 0 = some l ∧ l.change = some (.extend 1300 false) ∧ ¬ l.stop - 2 ≤ s.clock.count.getD 0)
    ∧ (∃ (s : State) (l : Lease),
      s.leaseOf 0 = some l ∧ l.change = some (.extend 1300 false) ∧ s.clock.state = .locked
      ∧ l.stop - 2 ≤ s.clock.count.getD 0 ∧ ∀ x ∈ l.sites, x.change = some (some .done))
    ∧ (∃ (s : State) (l : Lease),
      s.leaseOf 0 = some l ∧ l.change = some (.extend 1300 false) ∧ s.clock.state = .locked
      ∧ l.stop - 2 ≤ s.clock.count.getD 0 ∧ l.strictness = .strict ∧ (∀ x ∈ l.sites, x.change ≠ some none
      ∧ x.change ≠ some (some .done)) ∧ ∃ x ∈ l.sites, x.change ≠ none)
    ∧ (∃ (s : State) (moment : Nat) (l : Lease) (r : RunRecord),
      s.leaseOf 0 = some l ∧ l.change = some (.repattern ⟨5, 3, 5⟩ 11150) ∧ l.run = some r
      ∧ s.clock.count.getD 0 * 10 + (max s.timebase moment - s.clock.instant.getD 0) / 100000 + 21 = 11150)
    ∧ (∃ (s : State) (moment : Nat) (l : Lease) (r : RunRecord),
      s.leaseOf 0 = some l ∧ l.change = some (.repattern ⟨5, 3, 5⟩ 11150) ∧ l.run = some r
      ∧ s.clock.count.getD 0 * 10 + (max s.timebase moment - s.clock.instant.getD 0) / 100000 + 20 = 11150
      ∧ ∀ x ∈ l.sites, x.change = some (some .done)) := by
  refine ⟨⟨State.at (holding (extending .done)) 1197, (extending .done), ?_⟩, ⟨State.at (holding (extending .done))
    1198, (extending .done), ?_⟩, ⟨State.at (holding (extending .brk)) 1198, (extending .brk), ?_⟩, ⟨State.passed
    (State.at (holding repatterning) 1112) 100499999, 100499999, repatterning, ⟨11000, 3, []⟩, ?_⟩, ⟨State.at
    (holding repatterning) 1112, 100500000, repatterning, ⟨11000, 3, []⟩, ?_⟩⟩ <;> decide +kernel

/-- The End reached, and one second too early. -/
theorem witness_WindowEnd : (∃ (s : State) (l : Lease) (x : LeaseSite),
      s.leaseOf 0 = some l ∧ l.state = .running ∧ s.clock.state = .locked ∧ l.stop ≤ s.clock.count.getD 0
      ∧ l.siteOf 0 = some x ∧ x.status = .cycling ∧ (s.site 0).state = .commissioned)
    ∧ (∃ (s : State) (l : Lease),
      s.leaseOf 0 = some l ∧ ¬ l.stop ≤ s.clock.count.getD 0) := by
  refine ⟨⟨State.at (holding (lease .running .cycling)) 1200, lease .running .cycling, outcome 0 .cycling, ?_⟩,
    ⟨State.at (holding (lease .running .cycling)) 1199, lease .running .cycling, ?_⟩⟩ <;> decide +kernel

/-- A lease that prevents TIME SET and one that does not; the bounds of a good edge; both edges that lock. -/
theorem witness_TimeSetEdges : (∃ (s : State) (l : Lease),
      s.leaseOf 0 = some l ∧ l.state = .arming)
    ∧ (∃ s : State,
      ∀ e : EntryNo, (s.leaseOf e).all (fun l => l.state == .granted) = true)
    ∧ (∃ s : State,
      s.clock.reference = none)
    ∧ (∃ (s : State) (r : Nat),
      s.clock.reference = some r ∧ 999500 = max s.timebase 100499500 - r ∧ max s.timebase 100500500 - r = 1000500)
    ∧ (∃ (s : State) (r : Nat),
      s.clock.reference = some r ∧ ¬ (999500 ≤ max s.timebase 100499499 - r ∧ max s.timebase 100499499 - r ≤ 1000500)
      ∧ ¬ (999500 ≤ max s.timebase 100500501 - r ∧ max s.timebase 100500501 - r ≤ 1000500))
    ∧ (∃ (s : State) (r v : Nat),
      s.clock.state = .unset ∧ s.clock.reference = some r ∧ s.clock.setRequest = some v)
    ∧ (∃ (s : State) (r v : Nat),
      s.clock.state = .unset ∧ s.clock.reference = some r ∧ s.clock.setRequest = none ∧ s.clock.provisional = some v
      ∧ v < 4294967295) := by
  refine ⟨⟨holding (lease .arming .waiting), lease .arming .waiting, ?_⟩, ⟨holding (lease .granted .waiting), ?_⟩,
    ⟨State.reset, ?_⟩, ⟨up, 99500000, ?_⟩, ⟨up, 99500000, ?_⟩,
    ⟨{ up with clock := { Clock.blank with reference := some 99500000, setRequest := some 0 } }, 99500000, 0, ?_⟩,
    ⟨{ up with clock := { Clock.blank with reference := some 99500000, provisional := some 4294967294 } }, 99500000,
    4294967294, ?_⟩⟩ <;> decide +kernel

/-- The last second before the wrap; a request taken as a step, and one that a lease drops; an edge exactly halfway, which takes the earlier second, and one just past it. -/
theorem witness_PpsGood : (∃ (s : State) (moment r count : Nat),
      s.Sound ∧ s.clock.state = .locked ∧ s.clock.count = some count ∧ count ≤ 4294967295 ∧ s.clock.reference = some r
      ∧ 999500 ≤ max s.timebase moment - r ∧ max s.timebase moment - r ≤ 1000500 ∧ s.clock.setRequest = none)
    ∧ (∃ (s : State) (moment r count v : Nat),
      s.Sound ∧ s.clock.state = .locked ∧ s.clock.count = some count ∧ count ≤ 4294967295 ∧ s.clock.reference = some r
      ∧ 999500 ≤ max s.timebase moment - r ∧ max s.timebase moment - r ≤ 1000500 ∧ s.clock.setRequest = some v
      ∧ s.leaseActive = false)
    ∧ (∃ (s : State) (moment r count v : Nat),
      s.Sound ∧ s.clock.state = .locked ∧ s.clock.count = some count ∧ count ≤ 4294967295 ∧ s.clock.reference = some r
      ∧ 999500 ≤ max s.timebase moment - r ∧ max s.timebase moment - r ≤ 1000500 ∧ s.clock.setRequest = some v
      ∧ s.leaseActive = true)
    ∧ (∃ (s : State) (moment r count instant k : Nat),
      s.clock.state = .lost ∧ s.clock.count = some count ∧ s.clock.instant = some instant ∧ s.clock.reference = some r
      ∧ s.clock.setRequest = none ∧ 2 ≤ s.clock.goodRun ∧ count + k < 4294967295 ∧ 999500 ≤ max s.timebase moment - r
      ∧ max s.timebase moment - r ≤ 1000500 ∧ instant ≤ max s.timebase moment
      ∧ 2 * (max s.timebase moment - instant) = (2 * k + 1) * s.clock.estimate
      ∧ (0 < k → (2 * k - 1) * s.clock.estimate < 2 * (max s.timebase moment - instant)))
    ∧ (∃ (s : State) (moment r count instant k : Nat),
      s.clock.state = .holdover ∧ s.clock.count = some count ∧ s.clock.instant = some instant
      ∧ s.clock.reference = some r ∧ s.clock.setRequest = none ∧ 2 ≤ s.clock.goodRun ∧ count + k < 4294967295
      ∧ 999500 ≤ max s.timebase moment - r ∧ max s.timebase moment - r ≤ 1000500 ∧ instant ≤ max s.timebase moment
      ∧ 2 * (max s.timebase moment - instant) ≤ (2 * k + 1) * s.clock.estimate
      ∧ (0 < k → (2 * k - 1) * s.clock.estimate < 2 * (max s.timebase moment - instant))) := by
  refine ⟨⟨State.at up 4294967295, 100500000, 99500000, 4294967295, sound_of (by decide +kernel), ?_⟩,
    ⟨{ up with clock := { clock with setRequest := some 0 } }, 100500000, 99500000, 1000, 0, sound_of
    (by decide +kernel), ?_⟩, ⟨{ holding (lease .armed .armed) with clock := { clock with setRequest := some 5 } },
    100500000, 99500000, 1000, 5, sound_of (by decide +kernel), ?_⟩,
    ⟨{ up with clock := { clock with state := .lost, goodRun := 2, instant := some 100000000 } }, 100500000,
    99500000, 1000, 100000000, 0, ?_⟩,
    ⟨{ up with clock := { clock with state := .holdover, goodRun := 2, instant := some 99999999 } }, 100500000,
    99500000, 1000, 99999999, 1, ?_⟩⟩ <;> decide +kernel

/-- A rejected edge in LOCKED and in UNSET; the expiry just before 1.5 s, at it, and with no reference; a second not due, in LOST, in HOLDOVER below and at its limit; HOLDOVER beyond its limit and not. -/
theorem witness_TimeKeeping : (∃ (s : State) (moment r : Nat),
      s.clock.reference = some r ∧ ¬ (999500 ≤ max s.timebase moment - r ∧ max s.timebase moment - r ≤ 1000500)
      ∧ s.clock.state = .locked)
    ∧ (∃ (s : State) (moment r : Nat),
      s.clock.reference = some r ∧ ¬ (999500 ≤ max s.timebase moment - r ∧ max s.timebase moment - r ≤ 1000500)
      ∧ s.clock.state ≠ .locked)
    ∧ (∃ (s : State) (moment r : Nat),
      s.clock.reference = some r ∧ max s.timebase moment < r + 1500000)
    ∧ (∃ s : State,
      s.clock.reference = none)
    ∧ (∃ (s : State) (moment r : Nat),
      s.clock.reference = some r ∧ r + 1500000 ≤ max s.timebase moment ∧ s.clock.state ≠ .locked)
    ∧ (∃ (s : State) (moment r count instant : Nat),
      s.clock.reference = some r ∧ r + 1500000 ≤ max s.timebase moment ∧ s.clock.state = .locked
      ∧ s.clock.count = some count ∧ count < 4294967295 ∧ s.clock.instant = some instant ∧ 1 ≤ s.config.holdoverLimit)
    ∧ (∃ (s : State) (moment count instant : Nat),
      s.clock.count = some count ∧ count < 4294967295 ∧ s.clock.instant = some instant
      ∧ max s.timebase moment < instant + s.clock.estimate)
    ∧ (∃ (s : State) (moment count instant : Nat),
      s.clock.count = some count ∧ count < 4294967295 ∧ s.clock.instant = some instant
      ∧ instant + s.clock.estimate ≤ max s.timebase moment ∧ s.clock.state = .lost)
    ∧ (∃ (s : State) (moment count instant k : Nat),
      s.clock.count = some count ∧ count < 4294967295 ∧ s.clock.instant = some instant
      ∧ instant + s.clock.estimate ≤ max s.timebase moment ∧ s.clock.state = .holdover ∧ s.clock.holdover = some k
      ∧ k < s.config.holdoverLimit ∧ k ≤ 600)
    ∧ (∃ (s : State) (moment count instant k : Nat),
      s.clock.count = some count ∧ count < 4294967295 ∧ s.clock.instant = some instant
      ∧ instant + s.clock.estimate ≤ max s.timebase moment ∧ s.clock.state = .holdover ∧ s.clock.holdover = some k
      ∧ k = s.config.holdoverLimit ∧ k ≤ 600)
    ∧ (∃ s : State,
      s.Sound ∧ s.clock.state = .holdover ∧ s.config.holdoverLimit < s.clock.holdover.getD 0)
    ∧ (∃ s : State,
      s.Sound ∧ ¬ s.config.holdoverLimit < s.clock.holdover.getD 0) := by
  refine ⟨⟨up, 100499499, 99500000, ?_⟩, ⟨State.inTime up .unset, 100500501, 99500000, ?_⟩, ⟨up, 100999999,
    99500000, ?_⟩, ⟨State.reset, ?_⟩, ⟨State.inTime up .holdover, 101000000, 99500000, ?_⟩, ⟨State.at up 4294967294,
    101000000, 99500000, 4294967294, 99500000, ?_⟩,
    ⟨{ up with clock := { clock with state := .holdover, holdover := some 5 } }, 100499999, 1000, 99500000, ?_⟩,
    ⟨{ up with clock := { clock with state := .lost, holdover := some 5 } }, 100500000, 1000, 99500000, ?_⟩,
    ⟨{ up with clock := { clock with state := .holdover, holdover := some 119 } }, 100500000, 1000, 99500000, 119,
    ?_⟩, ⟨{ up with clock := { clock with state := .holdover, holdover := some 120 } }, 100500000, 1000, 99500000,
    120, ?_⟩, ⟨{ up with clock := { clock with state := .holdover, holdover := some 121 } }, sound_of
    (by decide +kernel), ?_⟩, ⟨{ up with clock := { clock with state := .holdover, holdover := some 120 } },
    sound_of (by decide +kernel), ?_⟩⟩ <;> decide +kernel

/-- A branch that is not IDLE, one with a SYNC at the end of its time, one with no work, and each class with work. -/
theorem witness_ArbiterClasses : (∃ s : State,
      (s.line .west).activity ≠ .idle)
    ∧ (∃ (s : State) (y : Sync),
      (s.line .west).activity = .idle ∧ (s.line .west).sync = some y ∧ max s.timebase 100999999 < y.instant + 1000000)
    ∧ (∃ s : State,
      (s.line .west).activity = .idle ∧ (s.line .west).sync = none ∧ (s.line .west).brk = none
      ∧ (s.line .west).leaseFifo = [] ∧ (s.line .west).hostFifo = [] ∧ (s.line .west).leasePolls = []
      ∧ s.overdueRefresh .west = none ∧ s.routineRefresh .west = none ∧ s.routinePoll .west = none
      ∧ (s.site 0).node ≠ none)
    ∧ (∃ (s : State) (y : Sync),
      (s.line .west).activity = .idle ∧ (s.line .west).sync = some y ∧ y.instant + 1000000 = max s.timebase 101000000)
    ∧ (∃ (s : State) (k : Lease) (x : LeaseSite) (c : PlacedCall),
      (s.line .west).activity = .idle ∧ (s.line .west).sync = none ∧ (s.line .west).brk = none
      ∧ (s.line .west).leaseFifo = [⟨⟨0, 0⟩, 0⟩] ∧ s.leaseOf 0 = some k ∧ k.siteOf 0 = some x ∧ x.call = some c)
    ∧ (∃ s : State,
      (s.line .west).activity = .idle ∧ (s.line .west).sync = none ∧ (s.line .west).brk = none
      ∧ (s.line .west).leaseFifo = [] ∧ s.overdueRefresh .west = some 0)
    ∧ (∃ s : State,
      (s.line .west).activity = .idle ∧ (s.line .west).sync = none ∧ (s.line .west).brk = none
      ∧ (s.line .west).leaseFifo = [] ∧ s.overdueRefresh .west = none ∧ (s.line .west).hostFifo = [.relay]
      ∧ s.relay.state = .queued)
    ∧ (∃ s : State,
      (s.line .west).activity = .idle ∧ (s.line .west).sync = none ∧ (s.line .west).brk = none
      ∧ (s.line .west).leaseFifo = [] ∧ s.overdueRefresh .west = none ∧ (s.line .west).hostFifo = []
      ∧ (s.line .west).leasePolls = [⟨0, ⟨0, 0⟩, 1, 1101⟩])
    ∧ (∃ s : State,
      (s.line .west).activity = .idle ∧ (s.line .west).sync = none ∧ (s.line .west).brk = none
      ∧ (s.line .west).leaseFifo = [] ∧ s.overdueRefresh .west = none ∧ (s.line .west).hostFifo = []
      ∧ (s.line .west).leasePolls = [] ∧ s.routineRefresh .west = some 0)
    ∧ (∃ s : State,
      (s.line .west).activity = .idle ∧ (s.line .west).sync = none ∧ (s.line .west).brk = none
      ∧ (s.line .west).leaseFifo = [] ∧ s.overdueRefresh .west = none ∧ (s.line .west).hostFifo = []
      ∧ (s.line .west).leasePolls = [] ∧ s.routineRefresh .west = none ∧ s.routinePoll .west = some 0) := by
  refine ⟨⟨State.inFlight up (poll false), ?_⟩, ⟨State.west up fun l => { l with sync := some ⟨1000, 100000000⟩ },
    ⟨1000, 100000000⟩, ?_⟩, ⟨up, ?_⟩, ⟨State.west up fun l => { l with sync := some ⟨1000, 100000000⟩ },
    ⟨1000, 100000000⟩, ?_⟩, ⟨State.west
    (holding { lease .arming .waiting with sites := [{ outcome 0 .waiting with call := some ⟨.arm, false, true⟩ }] })
    fun l => { l with leaseFifo := [⟨⟨0, 0⟩, 0⟩] },
    { lease .arming .waiting with sites := [{ outcome 0 .waiting with call := some ⟨.arm, false, true⟩ }] },
    { outcome 0 .waiting with call := some ⟨.arm, false, true⟩ }, ⟨.arm, false, true⟩, ?_⟩, ⟨State.passed up
    680000000, ?_⟩,
    ⟨{ State.west up fun l => { l with hostFifo := [.relay] } with relay := ⟨.queued, some (0, [⟨.read, .start, .nackStop⟩]), none⟩ },
    ?_⟩, ⟨State.west up fun l => { l with leasePolls := [⟨0, ⟨0, 0⟩, 1, 1101⟩] }, ?_⟩, ⟨State.passed up 380000000,
    ?_⟩, ⟨State.passed up 150000000, ?_⟩⟩ <;> decide +kernel

/-- Each purpose at the head of the FIFO. -/
theorem witness_ArbiterClasses_pending : (∃ (s : State) (d : Draft),
      s.Sound ∧ (s.line .west).activity = .idle ∧ (s.line .west).sync = none ∧ (s.line .west).brk = none
      ∧ (s.line .west).leaseFifo = [] ∧ s.overdueRefresh .west = none ∧ (s.line .west).hostFifo = [.pending 0]
      ∧ (s.site 0).node = some (ident 101) ∧ (s.site 0).pending.map (·.purpose) = some .commit ∧ s.draftOf 0 = some d)
    ∧ (∃ (s : State) (c : Commissioned),
      s.Sound ∧ (s.line .west).activity = .idle ∧ (s.line .west).sync = none ∧ (s.line .west).brk = none
      ∧ (s.line .west).leaseFifo = [] ∧ s.overdueRefresh .west = none ∧ (s.line .west).hostFifo = [.pending 0]
      ∧ (s.site 0).node = some (ident 101) ∧ (s.site 0).pending.map (·.purpose) = some .adopt
      ∧ (s.site 0).comm = some c)
    ∧ (∃ (s : State) (c : Commissioned),
      s.Sound ∧ (s.line .west).activity = .idle ∧ (s.line .west).sync = none ∧ (s.line .west).brk = none
      ∧ (s.line .west).leaseFifo = [] ∧ s.overdueRefresh .west = none ∧ (s.line .west).hostFifo = [.pending 0]
      ∧ (s.site 0).node = some (ident 101) ∧ (s.site 0).pending.map (·.purpose) = some .restore
      ∧ (s.site 0).comm = some c)
    ∧ (∃ s : State,
      s.Sound ∧ (s.line .west).activity = .idle ∧ (s.line .west).sync = none ∧ (s.line .west).brk = none
      ∧ (s.line .west).leaseFifo = [] ∧ s.overdueRefresh .west = none ∧ (s.line .west).hostFifo = [.pending 0]
      ∧ (s.site 0).node = some (ident 101) ∧ (s.site 0).pending.map (·.purpose) = some .retire)
    ∧ (∃ s : State,
      s.Sound ∧ (s.line .west).activity = .idle ∧ (s.line .west).sync = none ∧ (s.line .west).brk = none
      ∧ (s.line .west).leaseFifo = [] ∧ s.overdueRefresh .west = none ∧ (s.line .west).hostFifo = [.pending 0]
      ∧ (s.site 0).node = some (ident 101) ∧ (s.site 0).pending.map (·.purpose) = some .clean) := by
  refine ⟨⟨State.west
    (State.pended (drafted .commissioned { draft with committing := true }) ⟨.commit, .queued, none⟩) fun l =>
    { l with hostFifo := [.pending 0] }, { draft with committing := true }, sound_of (by decide +kernel), ?_⟩,
    ⟨State.west (State.pended (at1 .commissioning) ⟨.adopt, .queued, none⟩) fun l =>
    { l with hostFifo := [.pending 0] }, ⟨block, 500, 80000000, none⟩, sound_of (by decide +kernel), ?_⟩,
    ⟨State.west (State.pended (up) ⟨.restore, .queued, none⟩) fun l => { l with hostFifo := [.pending 0] }, ⟨block,
    500, 80000000, none⟩, sound_of (by decide +kernel), ?_⟩, ⟨State.west
    (State.pended (at1 .retiring) ⟨.retire, .queued, none⟩) fun l => { l with hostFifo := [.pending 0] }, sound_of
    (by decide +kernel), ?_⟩, ⟨State.west (State.pended (at1 .discovered) ⟨.clean, .queued, none⟩) fun l =>
    { l with hostFifo := [.pending 0] }, sound_of (by decide +kernel), ?_⟩⟩ <;> decide +kernel

/-- No transaction; each frame that is no answer; a bad one; the timeout before its time and at it; a second failure below and at the threshold. -/
theorem witness_LineFailure : (∃ s : State,
      (s.line .west).txn = none)
    ∧ (∃ (s : State) (x : Transaction),
      (s.line .west).txn = some x ∧ x.second = false ∧ readAnswerFrame (answerBytes 0x80 2 0 []) = .done 2 []
      ∧ x.dest = 1 ∧ readAnswerFrame (refusedFrame 2 .range) = .refused 2 .range
      ∧ readAnswerFrame (breakFrame 1) = .brk 1 ∧ readAnswerFrame (answerBytes 0x85 1 0 []) = .other
      ∧ readAnswerFrame [0x80#8] = .bad)
    ∧ (∃ (s : State) (x : Transaction),
      (s.line .west).txn = some x ∧ max s.timebase 100085999 < x.sentAt + x.timeout
      ∧ x.sentAt + x.timeout = max s.timebase 100086000)
    ∧ (∃ (s : State) (x : Transaction),
      s.Sound ∧ s.BroughtUp ∧ (s.line .west).txn = some x ∧ x.owner = .routinePoll 0 ∧ x.dest = positionOf 0
      ∧ x.second = true ∧ x.sentAt + x.timeout ≤ max s.timebase 100086000 ∧ (s.site 0).state = .commissioned
      ∧ (s.site 0).lineErrors + 1 < s.config.threshold ∧ s.config.counting = true)
    ∧ (∃ (s : State) (x : Transaction),
      s.Sound ∧ s.BroughtUp ∧ (s.line .west).txn = some x ∧ x.owner = .routinePoll 0 ∧ x.dest = positionOf 0
      ∧ x.second = true ∧ x.sentAt + x.timeout ≤ max s.timebase 100086000 ∧ (s.site 0).state = .commissioned
      ∧ (s.site 0).lineErrors + 1 = s.config.threshold) := by
  refine ⟨⟨up, ?_⟩, ⟨State.inFlight up (poll false), poll false, ?_⟩, ⟨State.inFlight up (poll false), poll false,
    ?_⟩, ⟨State.inFlight up (poll true), poll true, sound_of (by decide +kernel), broughtUp_of (by decide +kernel),
    ?_⟩, ⟨State.inFlight (up.setSite 0 { record .commissioned 101 with lineErrors := 2 }) (poll true), poll true,
    sound_of (by decide +kernel), broughtUp_of (by decide +kernel), ?_⟩⟩ <;> decide +kernel

/-! ### The ends of transactions -/

/-- A call to W1 in its second attempt. -/
def flying (call : Call) (owner : Owner) : Transaction := ⟨call, 1, true, 86000, 100000000, owner⟩

/-- The frame that gives an end to a call to a position. -/
def endFrame (dest : Nat) : End → List Byte
  | .done d => doneFrame dest d
  | .refused q => refusedFrame dest q
  | .brk p => breakFrame p
  | .failure => [0x80#8]

/-- The frame gives the end, computed. -/
def endsAs (x : Transaction) (r : End) : Bool :=
  match r with
  | .done d => readAnswerFrame (endFrame x.dest r) == .done x.dest d.bytes && x.call.readDone d.bytes == some d
  | .refused q => readAnswerFrame (endFrame x.dest r) == .refused x.dest q
  | .brk p => readAnswerFrame (endFrame x.dest r) == .brk p && decide (p < x.dest)
  | .failure => x.second && readAnswerFrame (endFrame x.dest r) == .bad

/-- The answer frame on the west branch that gives an end. -/
def ending (x : Transaction) (r : End) : Instr := .answerFrame .west 100000000 (endFrame x.dest r)

theorem ends_of {s : State} {x : Transaction} {r : End} (ht : (s.line .west).txn = some x) (h : endsAs x r = true) :
    s.Ends .west 100000000 (ending x r) x r := by
  refine ⟨ht, ?_⟩
  cases r with
  | done d =>
    simp only [endsAs, Bool.and_eq_true, beq_iff_eq] at h
    exact ⟨_, _, rfl, h.1, h.2⟩
  | refused q =>
    simp only [endsAs, beq_iff_eq] at h
    exact ⟨_, rfl, h⟩
  | brk p =>
    simp only [endsAs, Bool.and_eq_true, beq_iff_eq, decide_eq_true_eq] at h
    exact ⟨_, rfl, h.1, h.2⟩
  | failure =>
    simp only [endsAs, Bool.and_eq_true, beq_iff_eq] at h
    exact ⟨h.1, Or.inr ⟨_, rfl, h.2⟩⟩

/-- W1 and W2 with these records. -/
def pair (r q : SiteRecord) : State := (up.setSite 0 r).setSite 1 q

theorem up_records : up.RecordsSound := by decide +kernel

/-- The records are sound where W1 and W2 have sound ones and the rest is as in `up`. -/
theorem records_pair {s : State} {r q : SiteRecord} (h : s.sites = (pair r q).sites) (hk : r.sound = true ∧ q.sound = true) :
    s.RecordsSound := by
  intro n
  show (s.sites.get n).sound = true
  rw [h]
  show ((pair r q).site n).sound = true
  simp only [pair, site_setSite]
  split
  · exact hk.2
  · split
    · exact hk.1
    · exact up_records n

/-- What every end asks of a state but for its records, computed. -/
abbrev Met (s : State) (x : Transaction) (r : End) : Prop :=
  s.PoolSound ∧ s.FifosSound ∧ (s.line .west).txn = some x ∧ endsAs x r = true

/-- Cases that meet what an end asks meet it in the words of the statements. -/
theorem met_of {α : Type} {xs : List α} {s : α → State} {x : α → Transaction} {r : α → End} {G P : α → Prop}
    (hs : ∀ k, G k → (s k).RecordsSound) (h : ∀ k ∈ xs, (G k ∧ Met (s k) (x k) (r k)) ∧ P k) :
    ∀ k ∈ xs, ((s k).Sound ∧ (s k).Ends .west 100000000 (ending (x k) (r k)) (x k) (r k)) ∧ P k := by
  intro k hk
  obtain ⟨⟨hg, hp, hf, ht, he⟩, hr⟩ := h k hk
  exact ⟨⟨⟨hs k hg, hp, hf⟩, ends_of ht he⟩, hr⟩

/-- Cases whose records are sound and whose pool and FIFOs are, computed, meet the invariant. -/
theorem sound_cases {α : Type} {xs : List α} {s : α → State} {G P : α → Prop} (hs : ∀ k, G k → (s k).RecordsSound)
    (h : ∀ k ∈ xs, (G k ∧ (s k).PoolSound ∧ (s k).FifosSound) ∧ P k) : ∀ k ∈ xs, (s k).Sound ∧ P k :=
  fun k hk => ⟨⟨hs k (h k hk).1.1, (h k hk).1.2.1, (h k hk).1.2.2⟩, (h k hk).2⟩

/-- Bring-up is done and both branches are READY, computed. -/
abbrev Up (s : State) : Prop := s.bringupDone = true ∧ (s.bring .west).phase = .ready ∧ (s.bring .east).phase = .ready

/-- A routine poll of W1. -/
def polling : Transaction := flying .poll (.routinePoll 0)

/-- W2 COMMISSIONED. -/
def other : SiteRecord := record .commissioned 102

/-- W1 in a state with a Pending call. -/
def withCall (st : SiteState) (p : Purpose) (stage : Stage) : SiteRecord :=
  { record st 101 with pending := some ⟨p, stage, none⟩ }

/-- Every state of the record; each mode; an echo that differs; a RESTORE carried; a cycle seen beside a stray time. -/
theorem witness_PollAnswered :
    ∀ k ∈ [(record .commissioned 101, polled), (record .unreachable 101, polled), (record .mismatch 101, polled),
        (record .discovered 101, polled), (record .retiring 101, polled), (withCall .commissioning .adopt .queued, polled),
        (record .commissioned 101, { polled with mode := .fresh }), (record .commissioned 101, { polled with mode := .standalone }),
        (record .commissioned 101, { polled with echo := 499 }), (withCall .commissioned .restore .queued, { polled with echo := 499 }),
        (record .discovered 101, { polled with mode := .fresh }),
        ({ record .commissioned 101 with stray := some 1200 }, { polled with cycle := .running, cycleEnd := some 1200 })],
      let s := State.inFlight (pair k.1 other) polling
      (s.Sound ∧ s.Ends .west 100000000 (ending polling (.done (.poll k.2))) polling (.done (.poll k.2)))
      ∧ Up s ∧ (s.site 0).node = some (ident 101) ∧ k.2.serial = 101 :=
  met_of (fun _ => records_pair rfl) (by decide +kernel)

/-- Another serial at each state of the record, and at a DISCOVERED one whose new serial stands elsewhere. -/
theorem witness_SerialSeen :
    ∀ k ∈ [(record .commissioned 101, 77), (record .unreachable 101, 77), (withCall .commissioning .adopt .queued, 77),
        (record .mismatch 101, 77), (record .retiring 101, 77), (record .discovered 101, 77), (record .discovered 101, 102)],
      let s := State.inFlight (pair k.1 other) polling
      let r : End := .done (.poll { polled with serial := k.2 })
      (s.Sound ∧ s.Ends .west 100000000 (ending polling r) polling r)
      ∧ Up s ∧ (s.site 0).node = some (ident 101) ∧ k.2 ≠ 101 ∧ (s.site 1).node.map (·.serial) = some 102 :=
  met_of (fun _ => records_pair rfl) (by decide +kernel)

/-- W1 COMMISSIONED and TRIMMED with an IR offset of -100 mV. -/
def trimmed : SiteRecord :=
  { record .commissioned 101 with
    comm := some ⟨{ block with mode := .trimmed }, 500, 80000000, some .active⟩, irOffset := some ⟨-100, 900⟩ }

/-- The estimate above, at and below each limit, below and at the window count. -/
theorem witness_PollWindow :
    ∀ k ∈ [(0, 0, -949), (2, 0, -949), (2, 0, -950), (0, 0, -1300), (0, 0, -1301), (0, 2, -1301)],
      let a : PollAnswer := { polled with on := some k.2.2, overcurrent := false }
      let s := State.inFlight ((pair trimmed other).setUpkeep 0 { Upkeep.blank with underCount := k.1, overCount := k.2.1 }) polling
      (s.Sound ∧ s.Ends .west 100000000 (ending polling (.done (.poll a))) polling (.done (.poll a)))
      ∧ Up s ∧ (s.site 0).state = .commissioned ∧ (s.site 0).irOffset = some ⟨-100, 900⟩ ∧ (s.site 0).holder = none
      ∧ (s.site 0).stray = none ∧ a.cycle = .none ∧ a.mode ≠ .fresh :=
  met_of (fun _ => records_pair rfl) (by decide +kernel)

/-- A lease poll of a CYCLING site of a RUNNING lease: an instant-OFF potential with the offset at a bound and beyond it;
none; a REFUSED answer; a failure below the threshold. -/
theorem witness_PollWindow_survey :
    ∀ r ∈ [End.done (.poll { polled with cycle := .running, instantOff := some (-900, 1) }),
        .done (.poll { polled with cycle := .running, on := some (-2900), instantOff := some (-900, 1) }),
        .done (.poll { polled with cycle := .running, on := some (-2901), instantOff := some (-900, 1) }),
        .done (.poll { polled with cycle := .running }), .refused .range, .failure],
      let x := flying .poll (.leasePoll 0 ⟨0, 0⟩ 1 1101)
      let s := State.inFlight (holding (lease .running .cycling)) x
      (s.Sound ∧ s.Ends .west 100000000 (ending x r) x r)
      ∧ Up s ∧ (s.site 0).state = .commissioned ∧ (s.site 0).node = some (ident 101) ∧ (s.site 0).holder = some ⟨0, 0⟩
      ∧ s.handleOf 0 = ⟨0, 0⟩ ∧ s.leaseOf 0 = some (lease .running .cycling)
      ∧ (lease .running .cycling).siteOf 0 = some (outcome 0 .cycling)
      ∧ (s.site 0).lineErrors + 1 < (if s.config.counting then s.config.threshold else 1) :=
  met_of (fun _ => records_pair rfl) (by decide +kernel)

/-- W1 in a state with its commit in flight, after a number of failures. -/
def committed (st : SiteState) (errors : Nat) : State :=
  let r := { record st 101 with pending := some ⟨.commit, .inFlight, some 500⟩, lineErrors := errors }
  State.inFlight { pair r other with drafts := [{ draft with committing := true }] }
    (flying (.apply block 500 (some 100) 30) (.pending 0))

/-- A commit that ends REFUSED, as a failure below and at the threshold, as a break and with another serial, in each
state. -/
theorem witness_CommitEnds_failed :
    ∀ k ∈ [SiteState.commissioning, .commissioned, .unreachable].flatMap fun st =>
        [(st, 0, End.refused .range), (st, 0, .failure), (st, 2, .failure), (st, 0, .brk 0),
          (st, 0, .done (.apply { applied with serial := 77 }))],
      let x := flying (.apply block 500 (some 100) 30) (.pending 0)
      let s := committed k.1 k.2.1
      (s.Sound ∧ s.Ends .west 100000000 (ending x k.2.2) x k.2.2)
      ∧ Up s ∧ (s.site 0).node = some (ident 101) ∧ (s.site 0).pending = some ⟨.commit, .inFlight, some 500⟩
      ∧ s.draftOf 0 = some { draft with committing := true } ∧ (s.site 0).state = k.1 :=
  met_of (fun _ => records_pair rfl) (by decide +kernel)

/-- The call of a purpose. -/
def callOf (p : Purpose) : Call := if p = .retire ∨ p = .clean then .release else .apply block 500 (some 100) 30

/-- The phases a Pending call ends in. -/
def phases : List BringUp :=
  [readyBranch, { readyBranch with phase := .applying, walk := .applying, restores := [0] },
    { readyBranch with phase := .discovering, walk := .orphans, orphans := [1] }]

/-- Each purpose in each state it is sent in, with a line error count and each end of its call. -/
def callEnds : List (SiteState × Purpose × Nat × End) :=
  ([(SiteState.commissioning, Purpose.adopt), (.commissioned, .restore), (.unreachable, .restore)].flatMap fun c =>
    [(c.1, c.2, 0, End.done (.apply applied)), (c.1, c.2, 0, .done (.apply { applied with echo := 499 })),
      (c.1, c.2, 0, .refused .range), (c.1, c.2, 0, .failure), (c.1, c.2, 2, .failure), (c.1, c.2, 0, .brk 0)])
  ++ [(.retiring, .retire, 0, .done .plain), (.retiring, .retire, 0, .refused .range), (.retiring, .retire, 0, .failure),
    (.retiring, .retire, 2, .failure), (.retiring, .retire, 0, .brk 0), (.discovered, .clean, 0, .done .plain),
    (.discovered, .clean, 0, .refused .range), (.discovered, .clean, 0, .failure), (.discovered, .clean, 0, .brk 0)]

/-- The cases of `callEnds` with bring-up done and while it runs. -/
theorem witness_PendingEnds :
    ∀ k ∈ phases.flatMap fun b => callEnds.map fun c => (b, c),
      let c := k.2
      let x := flying (callOf c.2.1) (.pending 0)
      let s := State.inFlight { pair { withCall c.1 c.2.1 .inFlight with lineErrors := c.2.2.1 } other with
        bringup := ⟨k.1, readyBranch⟩ } x
      (s.Sound ∧ s.Ends .west 100000000 (ending x c.2.2.2) x c.2.2.2)
      ∧ ((s.bring .west).phase = .discovering → (s.bring .west).walk = .orphans → 0 < (s.bring .west).extent)
      ∧ (s.bring .east).phase = .ready ∧ (s.site 0).node = some (ident 101)
      ∧ (s.site 0).pending = some ⟨c.2.1, .inFlight, none⟩ ∧ (s.site 0).state = c.1 :=
  met_of (fun _ => records_pair rfl) (by decide +kernel)

/-- A lease poll of a STRICT lease that another serial answers: the lease stops, and the site, still CYCLING, takes the
instant-OFF reading of the answer, or a skipped cycle where it has none. -/
theorem test_leasePoll_otherSerial :
    let x := flying .poll (.leasePoll 0 ⟨0, 0⟩ 1 1101)
    let s := State.inFlight (holding (lease .running .cycling)) x
    let y (a : PollAnswer) : Option LeaseSite :=
      ((after (ending x (.done (.poll a))) s).leaseOf 0).bind fun l => if l.state = .stopping then l.siteOf 0 else none
    (y { polled with serial := 777, cycle := .running, cycleEnd := some 1200, instantOff := some (-800, 1) }).map
      (fun z => (z.status, z.lastOff, z.skipped)) = some (.cycling, some (-800), 0)
    ∧ (y { polled with serial := 777 }).map (fun z => (z.status, z.lastOff, z.skipped)) = some (.cycling, none, 1) := by
  decide +kernel

/-- A REFRESH to a COMMISSIONED and to a RETIRING site, with each end. -/
theorem witness_RefreshEnds :
    ∀ k ∈ [SiteState.commissioned, .retiring].flatMap fun st =>
        [(st, 0, End.done (.refresh .attended 500)), (st, 0, .done (.refresh .standalone 499)), (st, 0, .refused .fresh),
          (st, 0, .refused .range), (st, 0, .failure), (st, 2, .failure)],
      let x := flying (.refresh 500 (some 100) 30) (.refresh 0)
      let s := State.inFlight (pair { record k.1 101 with lineErrors := k.2.1 } other) x
      (s.Sound ∧ s.Ends .west 100000000 (ending x k.2.2) x k.2.2)
      ∧ Up s ∧ (s.site 0).node = some (ident 101) ∧ (s.site 0).comm = some ⟨block, 500, 80000000, none⟩
      ∧ (s.site 0).state = k.1 :=
  met_of (fun _ => records_pair rfl) (by decide +kernel)

/-- A break at the coordinator and one between W1 and W2. -/
theorem witness_BreakAnswered : (∃ (s : State) (x : Transaction),
      s.Sound ∧ s.BroughtUp ∧ (s.line .west).txn = some x ∧ x.owner = .routinePoll 0 ∧ x.dest = positionOf 0
      ∧ readAnswerFrame (breakFrame 0) = .brk 0 ∧ 0 < x.dest)
    ∧ (∃ (s : State) (x : Transaction),
      s.Sound ∧ s.BroughtUp ∧ (s.line .west).txn = some x ∧ x.owner = .routinePoll 1 ∧ x.dest = positionOf 1
      ∧ readAnswerFrame (breakFrame 1) = .brk 1 ∧ 1 < x.dest) := by
  refine ⟨⟨State.inFlight up (poll false), poll false, sound_of (by decide +kernel), broughtUp_of
    (by decide +kernel), ?_⟩, ⟨State.inFlight up { poll false with dest := 2, owner := .routinePoll 1 },
    { poll false with dest := 2, owner := .routinePoll 1 }, sound_of (by decide +kernel), broughtUp_of
    (by decide +kernel), ?_⟩⟩ <;> decide +kernel

/-- A first commit and one on a COMMISSIONED site. -/
theorem witness_CommitEnds : (∃ (s : State) (x : Transaction) (i : NodeIdent) (d : Draft) (p : PendingCall),
      s.Sound ∧ s.BroughtUp ∧ (s.line .west).txn = some x ∧ x.owner = .pending 0 ∧ x.dest = positionOf 0
      ∧ x.call = .apply block 500 (some 100) 30 ∧ (s.line .west).brk = none
      ∧ readAnswerFrame (doneFrame 1 (.apply applied)) = .done x.dest (DonePayload.apply applied).bytes
      ∧ x.call.readDone (DonePayload.apply applied).bytes = some (.apply applied) ∧ (s.site 0).state = .commissioning
      ∧ (s.site 0).node = some i ∧ (s.site 0).pending = some p ∧ p.purpose = .commit ∧ p.stage = .inFlight
      ∧ s.draftOf 0 = some d ∧ (s.site 0).holder = none ∧ applied.serial = i.serial ∧ applied.echo = 500)
    ∧ (∃ (s : State) (x : Transaction) (i : NodeIdent) (d : Draft) (p : PendingCall),
      s.Sound ∧ s.BroughtUp ∧ (s.line .west).txn = some x ∧ x.owner = .pending 0 ∧ x.dest = positionOf 0
      ∧ x.call = .apply block 500 (some 100) 30 ∧ (s.line .west).brk = none
      ∧ readAnswerFrame (doneFrame 1 (.apply applied)) = .done x.dest (DonePayload.apply applied).bytes
      ∧ x.call.readDone (DonePayload.apply applied).bytes = some (.apply applied) ∧ (s.site 0).state = .commissioned
      ∧ (s.site 0).node = some i ∧ (s.site 0).pending = some p ∧ p.purpose = .commit ∧ p.stage = .inFlight
      ∧ s.draftOf 0 = some d ∧ (s.site 0).holder = none ∧ applied.serial = i.serial ∧ applied.echo = 500) := by
  refine ⟨⟨State.inFlight
    (State.pended (drafted .commissioning { draft with committing := true }) ⟨.commit, .inFlight, some 500⟩) ⟨.apply
    block 500 (some 100) 30, 1, false, 86000, 100000000, .pending 0⟩, ⟨.apply block 500 (some 100) 30, 1, false,
    86000, 100000000, .pending 0⟩, ident 101, { draft with committing := true }, ⟨.commit, .inFlight, some 500⟩,
    sound_of (by decide +kernel), broughtUp_of (by decide +kernel), ?_⟩, ⟨State.inFlight
    (State.pended (drafted .commissioned { draft with committing := true }) ⟨.commit, .inFlight, some 500⟩) ⟨.apply
    block 500 (some 100) 30, 1, false, 86000, 100000000, .pending 0⟩, ⟨.apply block 500 (some 100) 30, 1, false,
    86000, 100000000, .pending 0⟩, ident 101, { draft with committing := true }, ⟨.commit, .inFlight, some 500⟩,
    sound_of (by decide +kernel), broughtUp_of (by decide +kernel), ?_⟩⟩ <;> decide +kernel

/-! ### Lease calls, bring-up and the smaller ends -/

/-- A lease with W2 in a status and W1 as given. -/
def calling (st : LeaseState) (other : LeaseSite) (y : LeaseSite) : Lease := { lease st .waiting with sites := [other, y] }

/-- W1 with a call in flight. -/
def called (status : OutcomeStatus) (call : LeaseCall) : LeaseSite :=
  { outcome 0 status with call := some ⟨call, true, true⟩ }

/-- Expected in a pending change, and not yet ended. -/
def expected (x : LeaseSite) : LeaseSite := { x with change := some none }

/-- A lease RUNNING with an extension pending. -/
def toExtend (other y : LeaseSite) : Lease := { calling .running other y with change := some (.extend 1300 false) }

/-- A lease RUNNING with a repattern pending. -/
def toRepattern (other y : LeaseSite) : Lease :=
  { calling .running other y with change := some (.repattern ⟨5, 3, 5⟩ 11150), run := some ⟨11000, 3, []⟩ }

/-- W2 with a call left. -/
def busyOther (status : OutcomeStatus) : LeaseSite := { outcome 1 status with call := some ⟨.stop, false, true⟩ }

/-- A call of each kind with each end, as the last of its lease and not. -/
theorem witness_LeaseCallEnds :
    ∀ k ∈ [(calling .arming (outcome 1 .armed) (called .waiting .arm), LeaseCall.arm, Call.disarm, End.done .plain),
        (calling .arming (outcome 1 .waiting) (called .waiting .arm), .arm, .disarm, .done .plain),
        (calling .arming (outcome 1 .waiting) (called .waiting .arm), .arm, .disarm, .refused .occupied),
        (calling .arming (outcome 1 .waiting) (called .waiting .arm), .arm, .disarm, .failure),
        (calling .stopping (outcome 1 .waiting) (called .waiting .arm), .arm, .disarm, .done .plain),
        (calling .stopping (outcome 1 .stopped) (called .armed .disarm), .disarm, .disarm, .done .plain),
        (calling .stopping (busyOther .cycling) (called .cycling .stop), .stop, .disarm, .refused .notCycling),
        (calling .stopping (outcome 1 .stopped) (called .cycling .stop), .stop, .disarm, .refused .range),
        (calling .stopping (busyOther .cycling) (called .cycling .stop), .stop, .disarm, .failure),
        (calling .stopping (outcome 1 .stopped) (called .cycling .check), .check, .check, .done (.check .none none)),
        (calling .stopping (outcome 1 .stopped) (called .cycling .check), .check, .check, .done (.check .running (some 1200))),
        (calling .stopping (outcome 1 .stopped) (called .cycling .check), .check, .check, .failure),
        (toExtend (expected (outcome 1 .cycling)) (expected (called .cycling (.extend 1300))), .extend 1300, .disarm, .done .plain),
        (toExtend (expected (outcome 1 .cycling)) (expected (called .cycling (.extend 1300))), .extend 1300, .disarm, .refused .range),
        (toExtend (expected (outcome 1 .cycling)) (expected (called .cycling (.extend 1300))), .extend 1300, .disarm, .failure),
        (toExtend { outcome 1 .cycling with change := some (some .done) } (expected (called .cycling (.extend 1300))),
          .extend 1300, .disarm, .done .plain),
        (toRepattern (expected (outcome 1 .cycling)) (expected (called .cycling (.repattern ⟨5, 3, 5⟩ 11150))),
          .repattern ⟨5, 3, 5⟩ 11150, .disarm, .done .plain),
        (toRepattern (expected (outcome 1 .cycling)) (expected (called .cycling (.repattern ⟨5, 3, 5⟩ 11150))),
          .repattern ⟨5, 3, 5⟩ 11150, .disarm, .refused .range),
        (toRepattern (expected (outcome 1 .cycling)) (expected (called .cycling (.repattern ⟨5, 3, 5⟩ 11150))),
          .repattern ⟨5, 3, 5⟩ 11150, .disarm, .failure)],
      let x := flying k.2.2.1 (.leaseCall 0 ⟨0, 0⟩)
      let s := State.inFlight (holding k.1) x
      (s.Sound ∧ s.Ends .west 100000000 (ending x k.2.2.2) x k.2.2.2)
      ∧ Up s ∧ (s.site 0).state = .commissioned ∧ s.handleOf 0 = ⟨0, 0⟩ ∧ s.leaseOf 0 = some k.1
      ∧ (k.1.sites.map (·.site)).Nodup ∧ (k.1.siteOf 0).map (fun y => (y.call, y.waiting)) = some (some ⟨k.2.1, true, true⟩, [])
      ∧ (k.1.siteOf 0).all (·.status != .dropped) = true
      ∧ (s.site 0).lineErrors + 1 < (if s.config.counting then s.config.threshold else 1) :=
  met_of (fun _ => records_pair rfl) (by decide +kernel)

/-- W1 held by a lease, one failure below the threshold. -/
def losing (l : Lease) : State :=
  { pair { record .commissioned 101 with holder := some ⟨0, 0⟩, lineErrors := 2 }
      { record .commissioned 102 with holder := some ⟨0, 0⟩ } with leases := (up.setEntry 0 ⟨0, some l⟩).leases }

/-- A lease with W2 and W1 in a status, LENIENT. -/
def lenient (st : LeaseState) (status : OutcomeStatus) : Lease := { lease st status with strictness := .lenient }

/-- A site lost, FRESH, and seen with no cycle exactly 2 s before the End, in every live state of its lease, STRICT and
LENIENT, with another site left and none. -/
theorem witness_LeaseLoss :
    ∀ k ∈ [(lease .granted .waiting, End.failure), (lenient .granted .waiting, .failure),
        (lease .granted .waiting, .done (.poll { polled with mode := .fresh })), (lease .arming .waiting, .failure),
        (lease .arming .armed, .done (.poll { polled with mode := .fresh })), (lease .armed .armed, .failure),
        (calling .armed (outcome 1 .stopped) (outcome 0 .armed), .failure), (lenient .armed .armed, .failure),
        (lease .running .cycling, .failure), (lease .running .cycling, .done (.poll polled)),
        (lenient .running .cycling, .done (.poll polled)), (lenient .running .cycling, .done (.poll { polled with mode := .fresh })),
        (calling .stopping (busyOther .cycling) (outcome 0 .cycling), .failure),
        (calling .stopping (busyOther .cycling) (outcome 0 .cycling), .done (.poll { polled with mode := .fresh }))],
      let s := State.inFlight (State.at (losing k.1) 1198) polling
      (s.Sound ∧ s.Ends .west 100000000 (ending polling k.2) polling k.2)
      ∧ Up s ∧ (s.site 0).state = .commissioned ∧ (s.site 0).node = some (ident 101) ∧ (s.site 0).holder = some ⟨0, 0⟩
      ∧ s.handleOf 0 = ⟨0, 0⟩ ∧ s.leaseOf 0 = some k.1 ∧ k.1.state ≠ .closed ∧ (k.1.sites.map (·.site)).Nodup
      ∧ (k.1.siteOf 0).map (fun y => (y.call, y.waiting)) = some (none, []) ∧ k.1.change = none
      ∧ (∀ z ∈ k.1.sites, z.status ≠ .dropped) ∧ (s.line .west).leasePolls = [] ∧ (∀ e : EntryNo, e ≠ 0 → s.leaseOf e = none)
      ∧ (k.2 = .failure ∧ s.config.threshold ≤ min ((s.site 0).lineErrors + 1) 15
        ∨ k.2 = .done (.poll { polled with mode := .fresh })
        ∨ k.2 = .done (.poll polled) ∧ k.1.state = .running ∧ s.clock.count.getD 0 + 2 ≤ k.1.stop) :=
  met_of (fun _ => records_pair rfl) (by decide +kernel)

/-- What the call of a pending change carries. -/
def carried : LeaseCall → Call
  | .extend newEnd => .extend newEnd
  | .repattern p boundary => .repattern p boundary
  | _ => .disarm

/-- W2 with an end in a pending change. -/
def toldOther (x : ChangeEnd) : LeaseSite := { outcome 1 .cycling with change := some (some x) }

set_option synthInstance.maxSize 400 in
/-- The last answer to a change with a failed site: an extension and a repattern, STRICT and LENIENT, the failed site this
one and the other. -/
theorem witness_ChangeFailed :
    ∀ k ∈ ([(toldOther .done, End.refused .range), (toldOther .done, .failure), (toldOther .noAnswer, .done .plain),
          (toldOther .noAnswer, .refused .range)].flatMap fun c =>
        [(toExtend c.1 (expected (called .cycling (.extend 1300))), LeaseCall.extend 1300, c.2),
          ({ toExtend c.1 (expected (called .cycling (.extend 1300))) with strictness := .lenient }, .extend 1300, c.2),
          (toRepattern c.1 (expected (called .cycling (.repattern ⟨5, 3, 5⟩ 11150))), .repattern ⟨5, 3, 5⟩ 11150, c.2),
          ({ toRepattern c.1 (expected (called .cycling (.repattern ⟨5, 3, 5⟩ 11150))) with strictness := .lenient },
            .repattern ⟨5, 3, 5⟩ 11150, c.2)]),
      let x := flying (carried k.2.1) (.leaseCall 0 ⟨0, 0⟩)
      let s := State.inFlight (holding k.1) x
      (s.Sound ∧ s.Ends .west 100000000 (ending x k.2.2) x k.2.2)
      ∧ Up s ∧ (s.site 0).state = .commissioned ∧ s.handleOf 0 = ⟨0, 0⟩ ∧ s.leaseOf 0 = some k.1 ∧ k.1.state = .running
      ∧ (k.1.sites.map (·.site)).Nodup
      ∧ (k.1.siteOf 0).map (fun y => (y.status, y.change, y.call, y.waiting))
        = some (.cycling, some none, some ⟨k.2.1, true, true⟩, [])
      ∧ (∀ z ∈ k.1.sites, z.site ≠ 0 → z.call = none ∧ z.waiting = [] ∧ z.change ≠ some none)
      ∧ (s.site 0).lineErrors + 1 < s.config.threshold ∧ (k.2.2 ≠ .done .plain ∨ k.1.sites.any (·.failedIn) = true) :=
  met_of (fun _ => records_pair rfl) (by decide +kernel)

set_option synthInstance.maxSize 400 in
/-- The deadlines of an extension and a repattern with a site that has not answered, its call queued and in flight, STRICT
and LENIENT. -/
theorem witness_ChangeFailed_deadline :
    ∀ l ∈ ([true, false].flatMap fun flight =>
          [toExtend (toldOther .done) (expected { outcome 0 .cycling with call := some ⟨.extend 1300, flight, true⟩ }),
            toRepattern (toldOther .done) (expected { outcome 0 .cycling with call := some ⟨.repattern ⟨5, 3, 5⟩ 11150, flight, true⟩ })]).flatMap
        fun l => [l, { l with strictness := .lenient }],
      let s := State.at (holding l) 1198
      s.Sound ∧ s.leaseOf 0 = some l ∧ (l.sites.map (·.site)).Nodup
      ∧ (∀ z ∈ l.sites, z.waiting = [] ∧ (z.change ≠ some none → z.call = none) ∧ (z.status = .dropped → z.change = none))
      ∧ (∀ z ∈ l.sites, z.change = some none → (z.call.all fun k => k.counts && k.call.isChange) = true)
      ∧ s.clock.state = .locked ∧ l.stop - 2 ≤ s.clock.count.getD 0 ∧ 11150 ≤ s.clock.count.getD 0 * 10 + 20
      ∧ (l.sites.map fun z => z.decidedAt none).any (·.failedIn) = true :=
  sound_cases (fun _ => records_pair rfl) (by decide +kernel)

/-- A lease ARMING at its arm deadline with no ARMED site to keep or to disarm: STRICT with both sites waiting, and with the
ARMED one UNREACHABLE; LENIENT with its ARMED site failed. -/
theorem witness_ArmDeadline_closes :
    ∀ k ∈ [(lease .arming .waiting, SiteState.commissioned), (mixed .strict, .unreachable),
        ({ mixed .lenient with sites := [outcome 1 .dropped, { outcome 0 .armed with failure := some .lost }] }, .commissioned)],
      let l := k.1
      let s := State.at ((holding l).setSite 0 { record k.2 101 with holder := some ⟨0, 0⟩ }) 1095
      s.Sound ∧ s.leaseOf 0 = some l ∧ l.state = .arming ∧ s.clock.state = .locked ∧ l.start - 5 ≤ s.clock.count.getD 0
      ∧ l.change = none ∧ (l.sites.map (·.site)).Nodup
      ∧ l.sites.any (fun x => x.status != .dropped && (x.failure.isSome || x.status == .waiting)) = true
      ∧ (∀ x ∈ l.sites, x.status = .dropped → x.call = none ∧ x.waiting = [])
      ∧ (l.strictness = .strict → ∀ x ∈ l.sites, x.status = .armed → (s.site x.site).state ≠ .commissioned)
      ∧ (l.strictness = .lenient → ∀ x ∈ l.sites, x.status = .armed → x.failure ≠ none) :=
  sound_cases (fun _ => records_pair rfl) (by decide +kernel)

/-- A lease RUNNING at its end with no site to ask, with and without a pending change: W1 STOPPED, and W1 UNREACHABLE. -/
theorem witness_WindowEnd_closes :
    ∀ k ∈ [(calling .running (outcome 1 .dropped) (outcome 0 .stopped), SiteState.commissioned),
        (calling .running (outcome 1 .dropped) (outcome 0 .cycling), .unreachable),
        (toExtend (outcome 1 .dropped) (expected (outcome 0 .cycling)), .unreachable)],
      let l := k.1
      let s := State.at ((holding l).setSite 0 { record k.2 101 with holder := some ⟨0, 0⟩ }) 1200
      s.Sound ∧ s.leaseOf 0 = some l ∧ l.state = .running ∧ s.clock.state = .locked ∧ l.stop ≤ s.clock.count.getD 0
      ∧ (∀ x ∈ l.sites, x.status = .cycling → (s.site x.site).state ≠ .commissioned)
      ∧ (∀ x ∈ l.sites, x.status = .dropped → x.call = none ∧ x.waiting = []) :=
  sound_cases (fun _ => records_pair rfl) (by decide +kernel)

/-- Good edges in HOLDOVER and LOST: the first of a run, with a request that a lease drops and without, and the third with
one that a lease drops. -/
theorem witness_PpsGood_run :
    ∀ k ∈ [(TimeState.holdover, 0, none), (.lost, 1, none), (.holdover, 1, some 5), (.holdover, 2, some 5)],
      let s : State := { holding (lease .armed .armed) with
        clock := { clock with state := k.1, goodRun := k.2.1, setRequest := k.2.2, instant := some 100000000 } }
      (s.clock.state = .holdover ∨ s.clock.state = .lost) ∧ s.clock.count = some 1000 ∧ s.clock.instant = some 100000000
      ∧ s.clock.reference = some 99500000 ∧ (s.clock.setRequest = none ∨ s.leaseActive = true)
      ∧ (s.clock.goodRun < 2 ∨ 2 ≤ s.clock.goodRun) ∧ 999500 ≤ max s.timebase 100500000 - 99500000
      ∧ max s.timebase 100500000 - 99500000 ≤ 1000500
      ∧ 2 * (max s.timebase 100500000 - 100000000) ≤ (2 * 0 + 1) * s.clock.estimate := by decide +kernel

/-- A step in LOCKED, in HOLDOVER and in LOST, forward past a GRANTED lease's arming time and backward before it, W1 with a
stray time that the step passes and one that it does not; and in HOLDOVER onto the instant of its second. -/
theorem witness_PpsGood_step :
    ∀ k ∈ [(TimeState.locked, 3, 1071, some 1070), (.holdover, 0, 1070, some 1071), (.holdover, 2, 900, some 900),
        (.lost, 2, 1071, none), (.lost, 0, 900, some 899)],
      let l := calling .granted (outcome 1 .waiting) (outcome 0 .dropped)
      let s : State := { ((holding l).setSite 0 { record .commissioned 101 with stray := k.2.2.2 }).setSite 1
          { record .commissioned 102 with holder := some ⟨0, 0⟩ } with
        clock := { clock with
          state := k.1, goodRun := k.2.1, setRequest := some k.2.2.1, instant := some 100500000
          holdover := if k.1 = .locked then none else some 7 } }
      s.Sound ∧ (s.clock.state = .locked ∨ s.clock.state = .holdover ∨ s.clock.state = .lost)
      ∧ s.clock.reference = some 99500000 ∧ s.clock.setRequest = some k.2.2.1 ∧ s.leaseActive = false
      ∧ max s.timebase 100500000 - 99500000 = 1000000 ∧ s.leaseOf 0 = some l ∧ l.state = .granted
      ∧ (s.site 0).stray = k.2.2.2 :=
  sound_cases (fun _ => records_pair rfl) (by decide +kernel)

/-- Breaks with more to change: a draft beyond, of a DISCOVERED site and of a COMMISSIONED one, a queued commit, and a queued
and a running Pending call of another purpose. -/
theorem witness_BreakAnswered_drafts :
    ∀ k ∈ [(SiteState.discovered, none), (.commissioned, none), (.commissioned, some ⟨.commit, .queued, none⟩),
        (.commissioned, some ⟨.restore, .queued, none⟩), (.commissioned, some ⟨.restore, .inFlight, none⟩),
        (.commissioning, some (PendingCall.mk .commit .queued none)), (.commissioning, some ⟨.adopt, .queued, none⟩),
        (.mismatch, none), (.retiring, some ⟨.retire, .queued, none⟩)],
      let r := { record k.1 102 with pending := k.2 }
      let s := State.inFlight { pair (record .commissioned 101) r with
        drafts := [{ draft with site := 1, committing := k.2.any (·.purpose == .commit) }] } polling
      s.Sound ∧ Up s ∧ (s.line .west).txn = some polling ∧ polling.owner = .routinePoll 0 ∧ polling.dest = positionOf 0
      ∧ readAnswerFrame (breakFrame 0) = .brk 0 ∧ 0 < polling.dest ∧ (s.site 1).state = k.1 ∧ (s.draftOf 1).isSome = true :=
  sound_cases (fun _ => records_pair rfl) (by decide +kernel)

/-- A node as an ENUM reports it. -/
def node (serial : Nat) (mode : NodeMode) (cycle : CycleState) (last : Bool) : EnumAnswer :=
  ⟨serial, ⟨3000, 100⟩, mode, cycle, if cycle = .none then none else some 1200, last⟩

/-- An ENUM of a walk in its second attempt. -/
def asking (q : Nat) : Transaction := ⟨.enum, q, true, 86000, 100000000, .discovery⟩

/-- The west branch DISCOVERING at start-up, the east one not yet walked. -/
def discovering : State :=
  { empty with
      bringupDone := false
      bringup := ⟨{ BringUp.blank with phase := .discovering, walk := .asking 1 },
        { BringUp.blank with phase := .discovering, walk := .asking 1 }⟩ }

/-- A walk that goes on, with room in the FIFO and without; its ends at the end flag, at 32, at a break, at a refused and
at a failed ENUM. -/
theorem witness_DiscoveryWalk :
    ∀ k ∈ [(discovering, 31, End.done (.enum (node 101 .fresh .none false))),
        (State.fullWest discovering, 1, .done (.enum (node 101 .fresh .none false))),
        (discovering, 1, .done (.enum (node 101 .fresh .none true))), (discovering, 32, .done (.enum (node 101 .fresh .none false))),
        (discovering, 2, .brk 0), (discovering, 1, .brk 0),
        ({ discovering with sites := up.sites }, 2, .brk 1), (discovering, 2, .refused .range), (discovering, 1, .failure)],
      let s := State.inFlight k.1 (asking k.2.1)
      (s.Sound ∧ s.Ends .west 100000000 (ending (asking k.2.1) k.2.2) (asking k.2.1) k.2.2)
      ∧ 1 ≤ k.2.1 ∧ k.2.1 ≤ 32 ∧ (s.bring .west).walk = .asking 1 ∧ (s.bring .west).restores = []
      ∧ (s.bring .west).orphans = [] ∧ (s.bring .west).phase = .discovering ∧ (s.bring .east).phase = .discovering
      ∧ (s.bring .east).walk = .asking 1 ∧ s.strap.selects .west = true ∧ s.strap.selects .east = true :=
  met_of (fun _ h => h) (by decide +kernel)

/-- The serials apart where only W1 and W2 have a node, computed. -/
theorem serials_of {s : State} (h : ∀ n : SiteName, 1 < n → (s.site n).node = none)
    (apart : (s.site 0).node = none ∨ (s.site 0).node.map (·.serial) ≠ (s.site 1).node.map (·.serial)) : s.SerialsSound := by
  have two : ∀ m i, (s.site m).node = some i → m = 0 ∨ m = 1 := fun m i hi => by
    by_cases hm : 1 < m
    · rw [h m hm] at hi; cases hi
    · rcases Nat.le_one_iff_eq_zero_or_eq_one.mp (Nat.le_of_not_lt hm) with hm | hm
      · exact Or.inl (Fin.ext hm)
      · exact Or.inr (Fin.ext hm)
  intro m n i j hi hj hs
  rcases two m i hi with rfl | rfl <;> rcases two n j hj with rfl | rfl
  · rfl
  · rcases apart with ha | ha
    · rw [ha] at hi; cases hi
    · exact absurd (by rw [hi, hj]; exact congrArg some hs) ha
  · rcases apart with ha | ha
    · rw [ha] at hj; cases hj
    · exact absurd (by rw [hi, hj]; exact congrArg some hs.symm) ha
  · rfl

theorem up_nodes : ∀ n : SiteName, 1 < n → (up.site n).node = none := by decide +kernel

/-- The serials apart where W1 and W2 have the two records and the rest is as in `up`. -/
theorem serials_pair {s : State} {r q : SiteRecord} (h : s.sites = (pair r q).sites)
    (apart : r.node = none ∨ r.node.map (·.serial) ≠ q.node.map (·.serial)) : s.SerialsSound := by
  have hs : ∀ n, s.site n = (pair r q).site n := fun n => congrArg (·.get n) h
  refine serials_of (fun n hn => ?_) (by rw [hs, hs]; exact apart)
  rw [hs]
  have h0 : n ≠ 0 := by rintro rfl; exact absurd hn (by decide)
  have h1 : n ≠ 1 := by rintro rfl; exact absurd hn (by decide)
  simp only [pair, site_setSite, if_neg h0, if_neg h1]
  exact up_nodes n hn

/-- The end of an ENUM at a position ends the walk, computed. -/
def endsWalk (q : Nat) : End → Bool
  | .done (.enum a) => a.endFlag || q == 32
  | .done _ => false
  | _ => true

/-- The range, the extent and Overlength of a walk that an end ends, computed. -/
def rangeOf (q : Nat) (found : List (Nat × EnumAnswer)) : End → List (Nat × EnumAnswer) × Nat × Bool
  | .done (.enum a) => (found ++ [(q, a)], q, !a.endFlag)
  | .brk p => (found.filter (fun x => decide (x.1 ≤ p)), p, false)
  | _ => (found, q - 1, false)

theorem walkEnds_of {q : Nat} {found : List (Nat × EnumAnswer)} {r : End} (h : endsWalk q r = true) :
    WalkEnds q found r (rangeOf q found r).1 (rangeOf q found r).2.1 (rangeOf q found r).2.2 := by
  cases r with
  | done d => cases d <;> simp_all [endsWalk, rangeOf, WalkEnds]
  | refused q => exact ⟨rfl, rfl, rfl⟩
  | failure => exact ⟨rfl, rfl, rfl⟩
  | brk p => exact ⟨rfl, rfl, rfl⟩

/-- A walk on the west branch whose last ENUM is in flight. -/
structure LastEnum where
  w1    : SiteRecord
  w2    : SiteRecord
  first : Nat
  found : List (Nat × EnumAnswer)
  q     : Nat
  r     : End

/-- The walk that the end ends. -/
def LastEnum.here (k : LastEnum) : EndedWalk :=
  ⟨.west, k.first, (rangeOf k.q k.found k.r).2.1, nodesAt .west (rangeOf k.q k.found k.r).1⟩

/-- The west branch with a job whose walk has found these nodes. -/
def LastEnum.byJob (k : LastEnum) (job : Job) : State :=
  State.inFlight { pair k.w1 k.w2 with
    bringup := ⟨{ readyBranch with job := job, walk := .asking k.first, found := k.found }, readyBranch⟩ } (asking k.q)

/-- The west branch at start-up with these nodes found, and the east branch as it is. -/
def LastEnum.atStart (k : LastEnum) (strap : Strap) (east : BringUp) : State :=
  State.inFlight { pair k.w1 k.w2 with
    strap := strap, bringupDone := false
    bringup := ⟨{ BringUp.blank with phase := .discovering, walk := .asking k.first, found := k.found }, east⟩ } (asking k.q)

/-- Two nodes at home; exchanged; one that is new beside one that has left; a node that reports a cycle, whose record stands
elsewhere and at a VACANT site; a partial walk; position 32 without the end flag; ends by REFUSED, as failures below and at
the threshold, and by breaks beyond the found nodes and among them. -/
def lastEnums : List LastEnum :=
  let home := [(1, node 101 .attended .none false)]
  let blank := SiteRecord.blank
  let mine := record .commissioned 101
  let (left, right) := (record .unreachable 101, record .unreachable 102)
  [⟨mine, other, 1, home, 2, .done (.enum (node 102 .attended .none true))⟩,
    ⟨mine, other, 1, [(1, node 102 .attended .none false)], 2, .done (.enum (node 101 .attended .none true))⟩,
    ⟨mine, other, 1, [], 1, .done (.enum (node 900 .fresh .none true))⟩,
    ⟨mine, other, 1, [], 1, .done (.enum (node 102 .attended .running true))⟩,
    ⟨blank, blank, 1, [], 1, .done (.enum (node 900 .standalone .armed true))⟩,
    ⟨left, right, 2, [], 2, .done (.enum (node 102 .attended .none true))⟩,
    ⟨mine, other, 32, [], 32, .done (.enum (node 101 .attended .none false))⟩,
    ⟨left, right, 1, home, 2, .refused .range⟩, ⟨left, right, 1, [(1, node 102 .attended .running false)], 2, .failure⟩,
    ⟨mine, { other with lineErrors := 2 }, 1, home, 2, .failure⟩, ⟨left, right, 1, home, 2, .brk 1⟩,
    ⟨mine, other, 1, home, 2, .brk 0⟩]

/-- The records of a case are sound and their serials apart, computed. -/
abbrev LastEnum.Apart (k : LastEnum) : Prop :=
  (k.w1.sound = true ∧ k.w2.sound = true) ∧ (k.w1.node = none ∨ k.w1.node.map (·.serial) ≠ k.w2.node.map (·.serial))

/-- Cases whose records are sound and apart, and that meet what an end asks, meet it in the words of the statement. -/
theorem met_walk {xs : List LastEnum} {s : LastEnum → State} {P : LastEnum → Prop}
    (hs : ∀ k, (s k).sites = (pair k.w1 k.w2).sites) (h : ∀ k ∈ xs, (k.Apart ∧ Met (s k) (asking k.q) k.r) ∧ P k) :
    ∀ k ∈ xs, ((s k).Sound ∧ (s k).SerialsSound
      ∧ (s k).Ends .west 100000000 (ending (asking k.q) k.r) (asking k.q) k.r) ∧ P k :=
  fun k hk =>
    have met := met_of (s := s) (x := fun k => asking k.q) (r := (·.r)) (G := LastEnum.Apart) (P := P)
      (fun k g => records_pair (hs k) g.1) h k hk
    ⟨⟨met.1.1, serials_pair (hs k) (h k hk).1.1.2, met.1.2⟩, met.2⟩

/-- The cases of `lastEnums` as the walk of a DISCOVER and of a partial job meet what the statement asks of a job. -/
theorem witness_Reconciliation : ∀ job ∈ [Job.discover, .partly], ∀ k ∈ lastEnums,
    let s := k.byJob job
    (s.Sound ∧ s.SerialsSound ∧ s.Ends .west 100000000 (ending (asking k.q) k.r) (asking k.q) k.r)
    ∧ endsWalk k.q k.r = true ∧ Up s ∧ (s.bring .west).job ≠ .none ∧ (s.bring .west).walk = .asking k.first
    ∧ 1 ≤ k.first ∧ k.first ≤ k.q ∧ k.q ≤ 32
    ∧ (s.bring .west).found.map (·.1) = List.range' k.first (k.q - k.first) ∧ (k.here.nodes.map (·.2.serial)).Nodup := by
  intro job hj
  have h : ∀ job ∈ [Job.discover, .partly], ∀ k ∈ lastEnums,
      let s := k.byJob job
      (k.Apart ∧ Met s (asking k.q) k.r)
      ∧ endsWalk k.q k.r = true ∧ Up s ∧ (s.bring .west).job ≠ .none ∧ (s.bring .west).walk = .asking k.first
      ∧ 1 ≤ k.first ∧ k.first ≤ k.q ∧ k.q ≤ 32
      ∧ (s.bring .west).found.map (·.1) = List.range' k.first (k.q - k.first)
      ∧ (k.here.nodes.map (·.2.serial)).Nodup := by decide +kernel
  exact met_walk (s := fun k => k.byJob job) (fun _ => rfl) (h job hj)

/-- The east branch at start-up: walked with a node found and one cut off by its extent, with none found, and not strapped. -/
def eastWalks : List (Strap × BringUp) :=
  [(.both, { BringUp.blank with
      phase := .discovering, walk := .walked 1, extent := 1
      found := [(1, node 901 .fresh .none false), (2, node 902 .fresh .none true)] }),
    (.both, { BringUp.blank with phase := .discovering, walk := .walked 1 }), (.west, { BringUp.blank with phase := .ready })]

/-- The cases of `lastEnums` that walk from position 1, as the last walk of start-up and as the only one, meet what the
statement asks of step 5. -/
theorem witness_Reconciliation_start : ∀ east ∈ eastWalks, ∀ k ∈ lastEnums.filter (·.first == 1),
    let s := k.atStart east.1 east.2
    let y := s.bring .east
    let walks : List EndedWalk := s.strap.branches.map fun b => if b = .west then k.here else
      ⟨b, 1, (s.bring b).extent, nodesAt b ((s.bring b).found.filter fun p => decide (p.1 ≤ (s.bring b).extent))⟩
    (s.Sound ∧ s.SerialsSound ∧ s.Ends .west 100000000 (ending (asking k.q) k.r) (asking k.q) k.r)
    ∧ endsWalk k.q k.r = true ∧ (s.bring .west).walk = .asking k.first ∧ k.first = 1 ∧ k.first ≤ k.q ∧ k.q ≤ 32
    ∧ (s.bring .west).found.map (·.1) = List.range' k.first (k.q - k.first) ∧ (s.bring .west).phase = .discovering
    ∧ s.strap.selects .west = true
    ∧ (if s.strap.selects .east = true then y.phase = .discovering ∧ y.walk = .walked 1
        ∧ y.found.map (·.1) = List.range' 1 y.found.length else y.phase = .ready ∧ y.walk = .none)
    ∧ ((walks.flatMap (·.nodes)).map (·.2.serial)).Nodup := by
  intro east he
  have h : ∀ east ∈ eastWalks, ∀ k ∈ lastEnums.filter (·.first == 1),
      let s := k.atStart east.1 east.2
      let y := s.bring .east
      let walks : List EndedWalk := s.strap.branches.map fun b => if b = .west then k.here else
        ⟨b, 1, (s.bring b).extent, nodesAt b ((s.bring b).found.filter fun p => decide (p.1 ≤ (s.bring b).extent))⟩
      (k.Apart ∧ Met s (asking k.q) k.r)
      ∧ endsWalk k.q k.r = true ∧ (s.bring .west).walk = .asking k.first ∧ k.first = 1 ∧ k.first ≤ k.q ∧ k.q ≤ 32
      ∧ (s.bring .west).found.map (·.1) = List.range' k.first (k.q - k.first) ∧ (s.bring .west).phase = .discovering
      ∧ s.strap.selects .west = true
      ∧ (if s.strap.selects .east = true then y.phase = .discovering ∧ y.walk = .walked 1
          ∧ y.found.map (·.1) = List.range' 1 y.found.length else y.phase = .ready ∧ y.walk = .none)
      ∧ ((walks.flatMap (·.nodes)).map (·.2.serial)).Nodup := by decide +kernel
  exact met_walk (s := fun k => k.atStart east.1 east.2) (fun _ => rfl) (h east he)

/-- A Partial request kept from a probe's answer at the last node, and a probe that is answered by it, with the end flag and
at position 32 without it. -/
theorem witness_Reconciliation_partial : ∀ k ∈ [(1, node 101 .attended .none true), (2, node 900 .standalone .running true),
      (32, node 101 .attended .none false)],
    let kept := { up with bringup := ⟨{ readyBranch with request := some k }, readyBranch⟩ }
    let x : Transaction := { asking k.1 with owner := .probe }
    let probed := State.inFlight up x
    (probed.Sound ∧ probed.SerialsSound
      ∧ probed.Ends .west 100000000 (ending x (.done (.enum k.2))) x (.done (.enum k.2)))
    ∧ (kept.Sound ∧ kept.SerialsSound) ∧ Up kept ∧ Up probed ∧ (kept.bring .west).job = .none
    ∧ (probed.bring .west).job = .none ∧ (kept.bring .west).request = some k ∧ 1 ≤ k.1 ∧ k.1 ≤ 32
    ∧ (k.2.endFlag = true ∨ k.1 = 32) := by
  have serials : up.SerialsSound := serials_of up_nodes (by decide +kernel)
  have pool : up.PoolSound := by decide +kernel
  have fifos : up.FifosSound := by decide +kernel
  have h : ∀ k ∈ [(1, node 101 .attended .none true), (2, node 900 .standalone .running true),
      (32, node 101 .attended .none false)], endsAs { asking k.1 with owner := .probe } (.done (.enum k.2)) = true
      ∧ 1 ≤ k.1 ∧ k.1 ≤ 32 ∧ (k.2.endFlag = true ∨ k.1 = 32) := by decide +kernel
  exact fun k hk => ⟨⟨⟨up_records, pool, fifos⟩, serials, ends_of rfl (h k hk).1⟩, ⟨⟨up_records, pool, fifos⟩, serials⟩,
    ⟨rfl, rfl, rfl⟩, ⟨rfl, rfl, rfl⟩, rfl, rfl, rfl, (h k hk).2⟩

/-- An ECHO in its second attempt, sent 300 us ago. -/
def echoing (q : Nat) : Transaction := ⟨.echo, q, true, 86000, 99999700, .training⟩

/-- The west branch training by a job. -/
def training (w : Training) : State :=
  { up with bringup := ⟨{ readyBranch with job := .train, walk := .training w }, readyBranch⟩ }

/-- The west branch at start-up, the east one READY. -/
def starting (s : State) (b : BringUp) : State := { s with bringupDone := false, bringup := ⟨b, readyBranch⟩ }

/-- The west branch training at start-up. -/
def firstTraining (s : State) (w : Training) : State :=
  starting s { readyBranch with phase := .training, walk := .training w }

/-- An ECHO that is not the fourth, and the fourth, within the extent and at it, with a delay above 65,535, REFUSED and
failed, by a job and at start-up, with COMMISSIONED sites and without. -/
theorem witness_TrainingPhases :
    ∀ k ∈ [(training, (⟨1, 0, none, 2000, 0⟩ : Training), End.done .plain), (training, ⟨1, 3, some 2100, 2000, 0⟩, .done .plain),
        (training, ⟨2, 3, some 2200, 2100, 100⟩, .done .plain), (training, ⟨1, 3, none, 0, 131072⟩, .done .plain),
        (training, ⟨1, 0, none, 2000, 0⟩, .refused .range), (training, ⟨1, 0, none, 2000, 0⟩, .failure),
        (firstTraining up, ⟨2, 3, some 2200, 2100, 100⟩, .done .plain),
        (firstTraining empty, ⟨1, 0, none, 2000, 0⟩, .failure)],
      let w := k.2.1
      let x := echoing w.position
      let s := State.inFlight (k.1 w) x
      (s.Sound ∧ s.Ends .west 100000000 (ending x k.2.2) x k.2.2)
      ∧ (siteAt? .west w.position).isSome = true ∧ (s.bring .west).walk = .training w ∧ (s.bring .west).restores = []
      ∧ (s.line .west).brk = none ∧ ((s.bring .west).phase = .ready ∨ (s.bring .west).phase = .training)
      ∧ (s.bring .east).phase = .ready ∧ (s.bring .east).walk = .none :=
  met_of (fun _ h => h) (by decide +kernel)

/-- An end is no break answer, computed. -/
def whole : End → Bool
  | .brk _ => false
  | _ => true

/-- A STOP of an orphan at W1. -/
def orphaned : Transaction := flying .stop (.orphan 0 1200)

/-- Every end of an orphan call, at a COMMISSIONED and at a VACANT site: the last one by a job and at start-up with an extent,
and one with another to come. -/
theorem witness_TrainingPhases_orphans :
    ∀ k ∈ [record .commissioned 101, SiteRecord.blank].flatMap fun w =>
        ([BringUp.mk .ready .discover none [] 2 false .orphans [0] [], .mk .discovering .none none [] 2 false .orphans [0] []].flatMap
          fun b => [End.done .plain, .refused .notCycling, .refused .range, .failure, .brk 0].map fun r => (w, b, r))
        ++ [End.done .plain, .refused .range, .failure].map fun r =>
          (w, BringUp.mk .ready .discover none [] 2 false .orphans [0, 1] [], r),
      let s := State.inFlight (starting (pair k.1 other) k.2.1) orphaned
      (s.Sound ∧ s.Ends .west 100000000 (ending orphaned k.2.2) orphaned k.2.2)
      ∧ orphaned.dest = positionOf 0 ∧ (s.line .west).brk = none ∧ (s.bring .east).phase = .ready
      ∧ (s.bring .east).walk = .none ∧ (s.bring .west).walk = .orphans ∧ (0 : SiteName) ∈ (s.bring .west).orphans
      ∧ (s.site 0).holder = none ∧ (s.bring .west).restores = []
      ∧ ((s.bring .west).phase = .ready ∨ (s.bring .west).phase = .discovering)
      ∧ ((s.bring .west).orphans.filter (· != 0) = [] ∨ whole k.2.2 = true) :=
  met_of (fun _ => records_pair rfl) (by decide +kernel)

/-- A RESTORE in flight to W1. -/
def restoring : Transaction := flying (.apply block 500 (some 100) 30) (.pending 0)

/-- Every end of a RESTORE of step 8, of a COMMISSIONED and of an UNREACHABLE site: the last one, and one with another to
come. -/
theorem witness_TrainingPhases_restores :
    ∀ k ∈ [SiteState.commissioned, .unreachable].flatMap fun st =>
        [End.done (.apply applied), .done (.apply { applied with serial := 77 }), .refused .range, .failure, .brk 0].map
          (fun r => (st, ([] : List SiteName), r))
        ++ [End.done (.apply applied), .done (.apply { applied with serial := 77 }), .refused .range, .failure].map fun r =>
          (st, [1], r),
      let s := State.inFlight (starting (pair (withCall k.1 .restore .inFlight) other)
        { readyBranch with phase := .applying, walk := .applying, restores := 0 :: k.2.1 }) restoring
      (s.Sound ∧ s.Ends .west 100000000 (ending restoring k.2.2) restoring k.2.2)
      ∧ restoring.dest = positionOf 0 ∧ (s.line .west).brk = none ∧ (s.bring .east).phase = .ready
      ∧ (s.bring .east).walk = .none ∧ (s.site 0).pending = some ⟨.restore, .inFlight, none⟩
      ∧ (s.bring .west).phase = .applying ∧ (s.bring .west).walk = .applying ∧ (s.bring .west).job = .none
      ∧ (0 : SiteName) ∈ (s.bring .west).restores ∧ (s.bring .west).restores.Nodup ∧ (s.bring .west).orphans = []
      ∧ ((s.bring .west).restores.filter (· != 0) = [] ∨ whole k.2.2 = true) :=
  met_of (fun _ => records_pair rfl) (by decide +kernel)

/-- A relay slot that reads. -/
def slot : RelaySlot := ⟨.read, .start, .nackStop⟩

/-- A relay transfer in flight with each end. -/
theorem witness_RelayProbeEnds :
    ∀ r ∈ [End.done (.relay [.acked none]), .refused .range, .failure, .brk 0],
      let x := flying (.relay [slot]) .relay
      let s := State.inFlight { pair (record .commissioned 101) other with relay := ⟨.inFlight, some (0, [slot]), none⟩ } x
      (s.Sound ∧ s.Ends .west 100000000 (ending x r) x r)
      ∧ Up s ∧ s.relay = ⟨.inFlight, some (0, [slot]), none⟩ ∧ x.owner = .relay ∧ x.dest = positionOf 0 :=
  met_of (fun _ => records_pair rfl) (by decide +kernel)

/-- A transfer queued for W2 in each state from which a break takes it. -/
theorem witness_RelayProbeEnds_lost :
    ∀ st ∈ [SiteState.commissioned, .discovered, .retiring],
      let s := State.inFlight (State.west { pair (record .commissioned 101) (record st 102) with
        relay := ⟨.queued, some (1, [slot]), none⟩ } fun l => { l with hostFifo := [.relay] }) polling
      (s.Sound ∧ s.Ends .west 100000000 (ending polling (.brk 0)) polling (.brk 0))
      ∧ Up s ∧ s.relay = ⟨.queued, some (1, [slot]), none⟩ ∧ (s.site 1).state = st ∧ 0 < positionOf 1 :=
  met_of (fun _ => records_pair rfl) (by decide +kernel)

/-- A probe beyond a break at position 3. -/
def probing : Transaction := ⟨.enum, 4, true, 86000, 100000000, .probe⟩

/-- A probe that is answered, with a job on the branch and without; refused; failed; broken where the record stands and
nearer. -/
theorem witness_RelayProbeEnds_probe :
    ∀ k ∈ [(Job.none, End.done (.enum (node 900 .fresh .none false))), (.train, .done (.enum (node 900 .fresh .none false))),
        (.none, .refused .range), (.none, .failure), (.none, .brk 3), (.none, .brk 2)],
      let s := State.inFlight (State.west { pair (record .commissioned 101) other with
        bringup := ⟨{ readyBranch with job := k.1 }, readyBranch⟩ } fun l => { l with brk := some ⟨3, 90000000, true⟩ }) probing
      (s.Sound ∧ s.Ends .west 100000000 (ending probing k.2) probing k.2)
      ∧ Up s ∧ (s.line .west).brk = some ⟨3, 90000000, true⟩ ∧ (s.bring .west).walk = .none ∧ (s.bring .east).walk = .none :=
  met_of (fun _ => records_pair rfl) (by decide +kernel)

/-- An IDLE branch with these items, break and lease polls. -/
def granting (items : List HostItem) (brk : Option BreakRecord) (polls : List LeasePoll) : State :=
  State.west { up with relay := ⟨.queued, some (0, [slot]), none⟩ } fun l =>
    { l with hostFifo := items, brk := brk, leasePolls := polls }

/-- A relay transfer with a break nearer and without; a discovery ENUM; a probe; and a lease poll behind a break. -/
def grants : List (List HostItem × Option BreakRecord × List LeasePoll) :=
  [([.relay], none, []), ([.relay], some ⟨0, 160000000, false⟩, []), ([.enum 5], some ⟨0, 160000000, false⟩, []),
    ([.probe], some ⟨3, 90000000, true⟩, []), ([], some ⟨0, 160000000, false⟩, [⟨0, ⟨0, 0⟩, 1, 1101⟩])]

/-- The branch may grant in each of these. -/
theorem witness_RelayProbeEnds_grant :
    ∀ k ∈ grants,
      let s := granting k.1 k.2.1 k.2.2
      s.Sound ∧ Up s ∧ (s.line .west).activity = .idle ∧ (s.line .west).txn = none ∧ (s.line .west).sync = none
      ∧ (s.line .west).leaseFifo = [] ∧ s.overdueRefresh .west = none := by
  have h : ∀ k ∈ grants,
      let s := granting k.1 k.2.1 k.2.2
      (s.PoolSound ∧ s.FifosSound) ∧ Up s ∧ (s.line .west).activity = .idle ∧ (s.line .west).txn = none ∧ (s.line .west).sync = none
      ∧ (s.line .west).leaseFifo = [] ∧ s.overdueRefresh .west = none := by decide +kernel
  exact fun k hk => ⟨⟨up_records, (h k hk).1.1, (h k hk).1.2⟩, (h k hk).2⟩

/-- Each event at the point where its condition begins to hold, and just before it. -/
theorem witness_LineEvents : (∃ s : State,
      (s.line .west).activity = .sendingSync)
    ∧ (∃ (s : State) (y : Sync),
      (s.line .west).sync = some y ∧ max s.timebase 101000000 = y.instant + 1000000
      ∧ max s.timebase 100999999 < y.instant + 1000000)
    ∧ (∃ (s : State) (k : BreakRecord),
      (s.line .west).brk = some k ∧ k.placed = false ∧ k.probeAt = max s.timebase 160000000
      ∧ (s.line .west).hostFifo.length < 16)
    ∧ (∃ (s : State) (k : BreakRecord),
      (s.line .west).brk = some k ∧ k.placed = false ∧ max s.timebase 159999999 < k.probeAt
      ∧ 16 ≤ (s.line .west).hostFifo.length)
    ∧ (∃ (s : State) (rest : List HostItem),
      (s.line .west).held = .probe :: rest ∧ (s.line .west).hostFifo.length = 15)
    ∧ (∃ (s : State) (p : PendingCall) (rest : List HostItem),
      s.Sound ∧ (s.line .west).held = .pending 0 :: rest ∧ (s.line .west).hostFifo.length < 16
      ∧ (s.site 0).pending = some p)
    ∧ (∃ (s : State) (q : Nat) (a : EnumAnswer),
      (s.bring .west).request = some (q, a) ∧ (s.bring .west).phase = .ready ∧ (s.bring .west).job = .none
      ∧ a.endFlag = false ∧ q < 32 ∧ (s.bring .west).walk = .none ∧ (s.bring .east).walk = .none
      ∧ (s.bring .east).phase = .ready)
    ∧ (∃ s : State,
      (s.bring .west).request = none)
    ∧ (∃ (s : State) (now w : Nat),
      s.Sound ∧ s.clock.count = some now ∧ (s.site 0).stray = some w ∧ w + 1 = now)
    ∧ (∃ (s : State) (now w : Nat),
      s.Sound ∧ s.clock.count = some now ∧ (s.site 0).stray = some w ∧ now = w) := by
  refine ⟨⟨State.west up fun l => { l with activity := .sendingSync }, ?_⟩, ⟨State.west up fun l =>
    { l with sync := some ⟨1000, 100000000⟩ }, ⟨1000, 100000000⟩, ?_⟩, ⟨State.west up fun l =>
    { l with brk := some ⟨3, 160000000, false⟩ }, ⟨3, 160000000, false⟩, ?_⟩, ⟨State.west (State.fullWest up) fun l
    => { l with brk := some ⟨3, 160000000, false⟩ }, ⟨3, 160000000, false⟩, ?_⟩, ⟨State.west up fun l =>
    { l with held := [.probe], hostFifo := List.replicate 15 .relay }, [], ?_⟩, ⟨State.west
    (State.pended up ⟨.restore, .held, none⟩) fun l => { l with held := [.pending 0] }, ⟨.restore, .held, none⟩, [],
    sound_of (by decide +kernel), ?_⟩,
    ⟨{ up with bringup := ⟨{ readyBranch with request := some (31, ⟨5, ⟨100, 100⟩, .fresh, .none, none, false⟩) }, readyBranch⟩ },
    31, ⟨5, ⟨100, 100⟩, .fresh, .none, none, false⟩, ?_⟩, ⟨up, ?_⟩, ⟨up.setSite 0
    { record .commissioned 101 with stray := some 999 }, 1000, 999, sound_of (by decide +kernel), ?_⟩, ⟨up.setSite 0
    { record .commissioned 101 with stray := some 1000 }, 1000, 1000, sound_of (by decide +kernel), ?_⟩⟩ <;> decide +kernel

/-- Each refusal of DISCOVER, TRAIN and RELAY, their starts, and each answer of RELAY RESULT. -/
theorem witness_JobsRelay : (∃ (s : State) (k : Lease),
      s.strap.selects .west = true ∧ s.bringupDone = true ∧ (s.bring .west).phase = .ready ∧ s.leaseOf 0 = some k
      ∧ k.state ≠ .closed ∧ k.sites ≠ [])
    ∧ (∃ s : State,
      s.strap.selects .west = true ∧ s.bringupDone = true ∧ (s.bring .west).phase = .ready
      ∧ (∀ e : EntryNo, s.leaseOf e = none) ∧ (s.bring .west).job ≠ .none)
    ∧ (∃ s : State,
      s.strap.selects .west = true ∧ s.bringupDone = true ∧ (s.bring .west).phase = .ready
      ∧ (∀ e : EntryNo, s.leaseOf e = none) ∧ (s.bring .west).job = .none ∧ ∃ d ∈ s.drafts, d.committing = true
      ∧ branchOf d.site = .west)
    ∧ (∃ s : State,
      s.strap.selects .west = true ∧ s.bringupDone = true ∧ (s.bring .west).phase = .ready
      ∧ (∀ e : EntryNo, s.leaseOf e = none) ∧ (s.bring .west).job = .none ∧ (s.bring .west).request = none
      ∧ s.drafts = [] ∧ 0 < (s.bring .west).extent)
    ∧ (∃ s : State,
      s.strap.selects .west = true ∧ s.bringupDone = true ∧ (s.bring .west).phase = .ready
      ∧ (∀ e : EntryNo, s.leaseOf e = none) ∧ (s.bring .west).job = .none ∧ (s.bring .west).request = none
      ∧ (s.bring .west).extent = 0)
    ∧ (∃ s : State,
      s.Names 0 ∧ s.bringupDone = true ∧ (s.site 5).state = .vacant ∧ s.Names 5 ∧ s.relay.state = .idle
      ∧ s.relay.result = none ∧ (s.site 0).state = .commissioned ∧ (s.line .west).hostFifo.length < 16)
    ∧ (∃ s : State,
      s.Names 0 ∧ s.bringupDone = true ∧ (s.site 0).state = .discovered ∧ s.relay.state ≠ .idle)
    ∧ (∃ s : State,
      s.Names 0 ∧ s.bringupDone = true ∧ (s.site 0).state = .commissioned ∧ s.relay.state = .idle
      ∧ (s.line .west).hostFifo.length = 16)
    ∧ (∃ (s : State) (r : RelayResult),
      s.relay.state = .idle ∧ s.relay.result = some r) := by
  refine ⟨⟨holding (lease .granted .waiting), lease .granted .waiting, ?_⟩,
    ⟨{ up with bringup := ⟨{ readyBranch with job := .train }, readyBranch⟩ }, ?_⟩, ⟨drafted .commissioned
    { draft with committing := true }, ?_⟩, ⟨up, ?_⟩,
    ⟨{ up with bringup := ⟨{ readyBranch with extent := 0 }, readyBranch⟩ }, ?_⟩, ⟨up, ?_⟩,
    ⟨{ at1 .discovered with relay := ⟨.inFlight, some (0, []), none⟩ }, ?_⟩, ⟨State.fullWest up, ?_⟩,
    ⟨{ up with relay := ⟨.idle, none, some ⟨0, [.notSent], .noAnswer⟩⟩ }, ⟨0, [.notSent], .noAnswer⟩, ?_⟩⟩ <;> decide +kernel

/-- A pass running; nothing dirty; a site and the section dirty; each read-back; the write of step 3; a second bad read-back with a later slot and the section dirty. -/
theorem witness_StoreWrites : (∃ s : State,
      s.bringupDone = true ∧ s.store.pass ≠ none)
    ∧ (∃ s : State,
      s.bringupDone = true ∧ s.store.pass = none ∧ (∀ n, (s.site n).dirty = false) ∧ s.store.sectionDirty = false)
    ∧ (∃ s : State,
      s.bringupDone = true ∧ s.store.pass = none ∧ (s.site 0).dirty = true
      ∧ ∀ m : SiteName, m < 0 → (s.site m).dirty = false)
    ∧ (∃ s : State,
      s.bringupDone = true ∧ s.store.pass = none ∧ (∀ n, (s.site n).dirty = false) ∧ s.store.sectionDirty = true)
    ∧ (∃ (s : State) (p : Pass),
      s.store.pass = some p ∧ p.again = false)
    ∧ (∃ s : State,
      s.store.pass = some ⟨.site 0 none, false, false⟩ ∧ (s.site 1).dirty = true)
    ∧ (∃ s : State,
      s.store.pass = some ⟨.site 63 none, true, false⟩ ∧ (∀ m : SiteName, 63 < m → (s.site m).dirty = false)
      ∧ s.store.sectionDirty = false)
    ∧ (∃ (s : State) (x : SectionImage),
      s.store.pass = some ⟨.section_ x, false, true⟩ ∧ s.bringupDone = false ∧ s.line .west = Line.blank
      ∧ s.line .east = Line.blank ∧ s.bring .west = BringUp.blank ∧ s.bring .east = BringUp.blank)
    ∧ (∃ s : State,
      s.store.pass = some ⟨.site 0 none, true, false⟩ ∧ (s.site 1).dirty = true)
    ∧ (∃ s : State,
      s.store.pass = some ⟨.site 0 none, true, false⟩ ∧ (∀ m : SiteName, 0 < m → (s.site m).dirty = false)
      ∧ s.store.sectionDirty = true) := by
  refine ⟨⟨State.writing up (.site 0 none) false false, ?_⟩, ⟨up, ?_⟩, ⟨up.setSite 0
    { record .commissioned 101 with dirty := true }, ?_⟩,
    ⟨{ up with store := { up.store with sectionDirty := true } }, ?_⟩, ⟨State.writing up (.site 0 none) false false,
    ⟨.site 0 none, false, false⟩, ?_⟩, ⟨State.writing (up.setSite 1 { record .commissioned 101 with dirty := true })
    (.site 0 none) false false, ?_⟩, ⟨State.writing up (.site 63 none) true false, ?_⟩, ⟨State.writing State.reset
    (.section_ ⟨SectionConfig.default, 1⟩) false true, ⟨SectionConfig.default, 1⟩, ?_⟩, ⟨State.writing
    (up.setSite 1 { record .commissioned 102 with dirty := true }) (.site 0 none) true false, ?_⟩, ⟨State.writing
    { up with store := { up.store with sectionDirty := true } } (.site 0 none) true false, ?_⟩⟩ <;> decide +kernel

/-- A write of the section slot in a pass and at start-up, its first and its second, with a report entry of its own and one of
a site. -/
theorem witness_StoreWrites_section :
    ∀ again ∈ [false, true],
      (let s := State.writing { up with store := { up.store with report := [(.section_, .corrected), (.site 3, .lost)] } }
          (.section_ ⟨SectionConfig.default, 7⟩) again false
       s.store.pass = some ⟨.section_ ⟨SectionConfig.default, 7⟩, again, false⟩)
      ∧ let s := State.writing State.reset (.section_ ⟨SectionConfig.default, 1⟩) again true
        s.store.pass = some ⟨.section_ ⟨SectionConfig.default, 1⟩, again, true⟩ ∧ s.bringupDone = false
        ∧ s.line .west = Line.blank ∧ s.line .east = Line.blank ∧ s.bring .west = BringUp.blank
        ∧ s.bring .east = BringUp.blank := by decide +kernel

/-- A section slot that reads back badly twice leaves its section dirty and reported, and ends the pass. -/
theorem test_sectionWriteFailed :
    let s := after (.slotWriteDone .bad) (State.writing up (.section_ ⟨SectionConfig.default, 7⟩) true false)
    s.store.sectionDirty = true ∧ s.store.report = [(.section_, .writeFailed)] ∧ s.store.pass = none
    ∧ s.flagSet .persistDone = true := by
  decide +kernel

/-- The states whose image holds the record, and those whose image is empty. -/
theorem witness_StoreWrites_image :
    (∀ st ∈ [SiteState.commissioned, .unreachable, .mismatch, .retiring], ((at1 st).site 0).image.isSome = true)
    ∧ ((State.pended (at1 .commissioning) ⟨.adopt, .queued, none⟩).site 0).image.isSome = true
    ∧ ((State.pended (at1 .commissioning) ⟨.commit, .queued, none⟩).site 0).image = none
    ∧ ∀ st ∈ [SiteState.vacant, .discovered], ((at1 st).site 0).image = none := by decide +kernel

/-! ### The invariants -/

/-- What holds of an item that is present, computed. -/
theorem all_of {α : Type} {o : Option α} {p : α → Bool} (h : o.all p = true) : ∀ k, o = some k → p k = true := by
  intro k hk; subst hk; exact h

/-- The law of holders, computed. -/
theorem holders_of {s : State}
    (h : (∀ n, ((s.site n).holder.all fun h => s.handleOf h.entry == h && (s.leaseOf h.entry).any fun l =>
        l.state != .closed && (l.siteOf n).any (·.status != .dropped)) = true)
      ∧ ∀ (e : EntryNo) (n : SiteName), ((s.leaseOf e).any fun l => l.state != .closed && (l.siteOf n).any (·.status != .dropped))
        = true → (s.site n).holder = some (s.handleOf e)) : s.HoldersSound := by
  intro n k
  refine ⟨fun hk => ?_, fun ⟨he, l, x, hl, hs, hx, hd⟩ => ?_⟩
  · have := all_of (h.1 n) k hk
    simp only [Bool.and_eq_true, beq_iff_eq, Option.any_eq_true, bne_iff_ne] at this
    obtain ⟨he, l, hl, hs, x, hx, hd⟩ := this
    exact ⟨he, l, x, hl, hs, hx, hd⟩
  · rw [h.2 k.entry n (by simp [hl, hs, hx, hd]), he]

/-- The lease queues, computed. -/
theorem queues_of {s : State}
    (h : ∀ b ∈ [Branch.west, .east], (((s.line b).leasePolls.map (·.site)).Nodup ∧ ∀ q ∈ (s.line b).leasePolls, branchOf q.site = b)
      ∧ (s.line b).leaseFifo.Nodup ∧ ∀ i ∈ (s.line b).leaseFifo, branchOf i.site = b ∧ s.handleOf i.handle.entry = i.handle
        ∧ ((s.leaseOf i.handle.entry).any fun l => l.state != .closed && (l.siteOf i.site).any fun x => x.call.any (!·.inFlight))
          = true) : s.QueuesSound := by
  have all : ∀ b : Branch, b ∈ [Branch.west, .east] := fun b => by cases b <;> decide
  refine ⟨fun b => (h b (all b)).1, fun b => ⟨(h b (all b)).2.1, fun i hi => ?_⟩⟩
  obtain ⟨hb, he, ha⟩ := (h b (all b)).2.2 i hi
  simp only [Option.any_eq_true, Bool.and_eq_true, bne_iff_ne, Bool.not_eq_true'] at ha
  obtain ⟨l, hl, hs, x, hx, c, hc, hf⟩ := ha
  exact ⟨hb, he, l, x, c, hl, hs, hx, hc, hf⟩

/-- Section time, computed, where it is neither UNSET nor LOST. -/
theorem time_of {s : State}
    (h : (s.clock.state = .locked ∨ s.clock.state = .holdover) ∧ s.clock.count.isSome = true ∧ s.clock.count.all (· < 2 ^ 32) = true
      ∧ s.clock.instant.isSome = true ∧ s.clock.provisional = none ∧ s.clock.goodRun ≤ 3 ∧ s.clock.intervals = []
      ∧ (999500 ≤ s.clock.estimate ∧ s.clock.estimate ≤ 1000500)
      ∧ (s.clock.holdover = none ↔ s.clock.state = .locked) ∧ s.clock.holdover.all (· ≤ 601) = true
      ∧ s.clock.setRequest.all (· < 2 ^ 32) = true) : s.TimeSound := by
  obtain ⟨hs, hc, hc', hi, hp, hg, hv, he, hh, hh', hr⟩ := h
  refine ⟨fun h => ?_, ⟨⟨fun h => ?_, fun h => ?_⟩, fun k hk => ?_⟩, ⟨fun h => ?_, fun h => ?_⟩, fun k hk => ?_, hg, ?_, he,
    ⟨⟨fun h => Or.inr (hh.mp h), fun h => ?_⟩, fun k hk => ?_⟩, fun k hk => ?_⟩
  · rcases hs with hs | hs <;> rcases h with h | h <;> rw [hs] at h <;> cases h
  · rw [h] at hc; cases hc
  · rcases hs with hs | hs <;> rw [hs] at h <;> cases h
  · exact of_decide_eq_true (all_of hc' k hk)
  · rw [h] at hi; cases hi
  · rcases hs with hs | hs <;> rw [hs] at h <;> cases h
  · rw [hp] at hk; cases hk
  · rw [hv]; exact ⟨Nat.zero_le _, fun d hd => by cases hd⟩
  · rcases h with h | h
    · rcases hs with hs | hs <;> rw [hs] at h <;> cases h
    · exact hh.mpr h
  · exact of_decide_eq_true (all_of hh' k hk)
  · exact of_decide_eq_true (all_of hr k hk)

/-- Bring-up, computed, where both branches are READY or both LOADING. -/
theorem bringup_of {s : State}
    (h : ((s.bring .west).phase = .ready ∧ (s.bring .east).phase = .ready ∧ s.store.stepThree = .idle
        ∧ s.store.pass.any (·.boot) = false)
      ∨ (s.bringupDone = false ∧ (s.bring .west).phase = .loading ∧ (s.bring .east).phase = .loading
        ∧ (s.store.stepThree = .idle ∨ s.store.pass = none))) : s.BringupSound := by
  rcases h with ⟨hw, he, hi, hp⟩ | ⟨hd, hw, he, hp⟩
  · refine ⟨fun _ b => ?_, fun h => ?_, fun h => absurd hi h⟩
    · cases b <;> assumption
    rcases h with h | h
    · exact absurd hi h
    · rw [hp] at h; cases h
  · refine ⟨fun h => ?_, fun _ => ⟨hd, fun b => ?_⟩, fun h => hp.resolve_left h⟩
    · rw [hd] at h; cases h
    · cases b <;> assumption

/-- The close order, computed. -/
theorem closed_of {s : State}
    (h : s.closeOrder.Nodup ∧ ∀ e : EntryNo, s.closeOrder.contains e = (s.leaseOf e).any (·.state == .closed)
      ∧ ((s.leaseOf e).all fun l => l.state != .closed
        || l.change == none && l.sites.all fun x => x.call == none && x.waiting == [] && x.change == none) = true) :
    s.ClosedSound := by
  refine ⟨⟨h.1, fun e => ?_⟩, fun e l hl hc => ?_⟩
  · have := (h.2 e).1
    constructor
    · intro he
      rw [List.contains_iff_mem.mpr he] at this
      simpa [Option.any_eq_true] using this.symm
    · rintro ⟨l, hl, hc⟩
      exact List.contains_iff_mem.mp (by rw [this]; simp [hl, hc])
  · have := all_of (h.2 e).2 l hl
    simpa [hc, and_assoc] using this

/-- A lease ARMED that holds its sites, with a DISARM queued for W1, a lease poll and a command in front, beside a CLOSED
lease. -/
def kept : State :=
  State.west { (holding (calling .armed (outcome 1 .armed) { outcome 0 .armed with call := some ⟨.disarm, false, true⟩ })).setEntry 1
        ⟨3, some (lease .closed .dropped)⟩ with
      pending := [.nop], closeOrder := [1] } fun l =>
    { l with leaseFifo := [⟨⟨0, 0⟩, 0⟩], leasePolls := [⟨1, ⟨0, 0⟩, 1, 1101⟩] }

/-- All the invariants hold together in a state with a held lease, queued calls and polls and a command in front; those of
bring-up while step 3 waits and while its slot write runs; and those of section time in HOLDOVER at its last second. -/
theorem witness_Kept : (kept.Sound ∧ kept.BringupSound ∧ kept.SerialsSound ∧ kept.ClosedSound ∧ kept.HoldersSound ∧ kept.QueuesSound
      ∧ kept.TimeSound ∧ kept.pending = [.nop] ∧ ∀ c ∈ kept.pending, c.wellFormed = true)
    ∧ (State.writing State.reset (.section_ ⟨SectionConfig.default, 1⟩) false true).BringupSound
    ∧ (after (.pinReset ⟨true, true⟩) State.reset).BringupSound
    ∧ ({ up with clock := { clock with state := .holdover, holdover := some 601 } } : State).TimeSound :=
  ⟨⟨sound_of (by decide +kernel), bringup_of (by decide +kernel), serials_of (by decide +kernel) (by decide +kernel),
      closed_of (by decide +kernel), holders_of (by decide +kernel), queues_of (by decide +kernel), time_of (by decide +kernel), rfl, by decide +kernel⟩,
    bringup_of (by decide +kernel), bringup_of (by decide +kernel), time_of (by decide +kernel)⟩

end Sys2Proof.Tests
end

section
/-! SUPPORT. The pipeline order as a search, and the answer of SITE FIND (R19). -/

namespace Sys2Proof.Machine

open Sys2Proof

/-! ### Searching in pipeline order -/

theorem siteNames_length : siteNames.length = 64 := List.length_finRange

theorem pipelineIndex_siteAtPipeline (i : Fin 64) : pipelineIndex (siteAtPipeline i) = i.val := by
  by_cases west : i.val < 32
  · have : 31 - i.val < 32 := by omega
    simp only [siteAtPipeline, pipelineIndex, west, this, if_true]
    omega
  · simp [siteAtPipeline, pipelineIndex, west]

theorem pipelineIndex_lt (n : SiteName) : pipelineIndex n < 64 := by
  unfold pipelineIndex; split <;> omega

theorem siteAtPipeline_pipelineIndex (n : SiteName) : siteAtPipeline ⟨pipelineIndex n, pipelineIndex_lt n⟩ = n := by
  apply Fin.ext
  by_cases west : n.val < 32
  · have : 31 - n.val < 32 := by omega
    simp only [siteAtPipeline, pipelineIndex, west, this, if_true]
    omega
  · simp [siteAtPipeline, pipelineIndex, west]

theorem mem_pipelineOrder (n : SiteName) : n ∈ pipelineOrder :=
  List.mem_map.mpr ⟨_, List.mem_finRange _, siteAtPipeline_pipelineIndex n⟩

/-- A search in pipeline order gives the first site there that meets its condition. -/
theorem find_pipelineOrder_eq_some {p : SiteName → Bool} {n : SiteName} (hn : p n = true)
    (first : ∀ m, pipelineIndex m < pipelineIndex n → p m = false) : pipelineOrder.find? p = some n := by
  have length_eq : pipelineOrder.length = 64 := by rw [pipelineOrder, List.length_map, siteNames_length]
  have getElem_eq (i : Nat) (hi : i < 64) : pipelineOrder[i]'(length_eq ▸ hi) = siteAtPipeline ⟨i, hi⟩ := by
    simp [pipelineOrder, siteNames]
  refine List.find?_eq_some_iff_getElem.mpr ⟨hn, pipelineIndex n, length_eq ▸ pipelineIndex_lt n, ?_, fun j hj => ?_⟩
  · rw [getElem_eq _ (pipelineIndex_lt n), siteAtPipeline_pipelineIndex]
  · rw [getElem_eq _ (Nat.lt_trans hj (pipelineIndex_lt n)), first _ (by rwa [pipelineIndex_siteAtPipeline])]
    rfl

/-- A search in pipeline order leaves out no site. -/
theorem find_pipelineOrder_eq_none {p : SiteName → Bool} :
    pipelineOrder.find? p = none ↔ ∀ m, p m = false := by
  simp [List.find?_eq_none, mem_pipelineOrder]

/-! ### The site a serial stands at (R19) -/

theorem any_beq_iff {α : Type} {o : Option α} {f : α → Nat} {k : Nat} :
    (o.any fun x => f x == k) = true ↔ o.map f = some k := by
  cases o <;> simp

theorem any_beq_eq_false_iff {α : Type} {o : Option α} {f : α → Nat} {k : Nat} :
    (o.any fun x => f x == k) = false ↔ o.map f ≠ some k := by
  rw [← Bool.not_eq_true, any_beq_iff]

theorem State.findSerial_record {s : State} {serial : Nat} {n : SiteName}
    (hn : (s.site n).node.map (·.serial) = some serial)
    (first : ∀ m, pipelineIndex m < pipelineIndex n → (s.site m).node.map (·.serial) ≠ some serial) :
    s.findSerial serial = some (n, false) := by
  have records : pipelineOrder.find? (s.recordedIs · serial) = some n :=
    find_pipelineOrder_eq_some (any_beq_iff.mpr hn) fun m hm => any_beq_eq_false_iff.mpr (first m hm)
  rw [findSerial, records]; rfl

/-- A serial that stands in no record is searched for among the Found nodes alone. -/
theorem State.findSerial_unrecorded {s : State} {serial : Nat}
    (unrecorded : ∀ m, (s.site m).node.map (·.serial) ≠ some serial) :
    s.findSerial serial =
      (pipelineOrder.find? fun n => (s.site n).found.any fun f => f.serial == serial).map fun n => (n, true) := by
  have records : pipelineOrder.find? (s.recordedIs · serial) = none :=
    find_pipelineOrder_eq_none.mpr fun m => any_beq_eq_false_iff.mpr (unrecorded m)
  rw [findSerial, records]; rfl

theorem State.findSerial_found {s : State} {serial : Nat} {n : SiteName}
    (unrecorded : ∀ m, (s.site m).node.map (·.serial) ≠ some serial)
    (hn : (s.site n).found.map (·.serial) = some serial)
    (first : ∀ m, pipelineIndex m < pipelineIndex n → (s.site m).found.map (·.serial) ≠ some serial) :
    s.findSerial serial = some (n, true) := by
  rw [findSerial_unrecorded unrecorded,
    find_pipelineOrder_eq_some (any_beq_iff.mpr hn) fun m hm => any_beq_eq_false_iff.mpr (first m hm)]
  rfl

theorem State.findSerial_eq_none {s : State} {serial : Nat}
    (unrecorded : ∀ m, (s.site m).node.map (·.serial) ≠ some serial)
    (unfound : ∀ m, (s.site m).found.map (·.serial) ≠ some serial) : s.findSerial serial = none := by
  rw [findSerial_unrecorded unrecorded,
    find_pipelineOrder_eq_none.mpr fun m => any_beq_eq_false_iff.mpr (unfound m)]
  rfl

/-- Only a record in MISMATCH or RETIRING carries a Found node (R3). -/
theorem sound_found {r : SiteRecord} (h : r.sound = true) (hf : r.found.isSome = true) :
    r.state = .mismatch ∨ r.state = .retiring := by
  have cleared := sound_cleared h
  have present : r.found.isNone = false := by rw [← Option.not_isSome, hf]; rfl
  cases hs : r.state <;> simp [SiteRecord.cleared, hs, present] at cleared ⊢

/-! ### The answers of SITE FIND -/

theorem exec_siteFind_zero (tag : Tag) (s : State) :
    exec (.siteFind tag (some 0)) s = .next (s.reply 0x02#8 tag .range .empty) := rfl

theorem exec_siteFind_at {tag : Tag} {s : State} {serial : Nat} {n : SiteName} {asFound : Bool} (h0 : serial ≠ 0)
    (h : s.findSerial serial = some (n, asFound)) :
    exec (.siteFind tag (some serial)) s = .next (s.reply 0x02#8 tag .ok (.found n (s.site n).state asFound)) := by
  have unfolded : exec (.siteFind tag (some serial)) s = execSiteFind tag (some serial) s := rfl
  have nonzero : (some serial).filter (· ≠ 0) = some serial := by simp [h0]
  simp only [unfolded, execSiteFind, nonzero, h]
  rfl

theorem exec_siteFind_nowhere {tag : Tag} {s : State} {serial : Nat} (h0 : serial ≠ 0) (h : s.findSerial serial = none) :
    exec (.siteFind tag (some serial)) s = .next (s.reply 0x02#8 tag .unknown .empty) := by
  have unfolded : exec (.siteFind tag (some serial)) s = execSiteFind tag (some serial) s := rfl
  have nonzero : (some serial).filter (· ≠ 0) = some serial := by simp [h0]
  simp only [unfolded, execSiteFind, nonzero, h]
  rfl

/-- Settles O13: each answer follows from where the search for the serial ends. -/
theorem siteFind : Obligations.SiteFind := by
  intro tag s
  refine ⟨exec_siteFind_zero tag s, fun serial h0 => ⟨fun n hn first => ?record, fun unrecorded =>
    ⟨fun n hn first => ⟨?found, fun sound => ?state⟩, fun unfound => ?nowhere⟩⟩⟩
  case record => exact exec_siteFind_at h0 (State.findSerial_record hn first)
  case found => exact exec_siteFind_at h0 (State.findSerial_found unrecorded hn first)
  case state => exact sound_found (sound.records n) (by rw [← Option.isSome_map, hn]; rfl)
  case nowhere => exact exec_siteFind_nowhere h0 (State.findSerial_eq_none unrecorded unfound)

end Sys2Proof.Machine
end

section
/-! SUPPORT. The checks of a handle (R71), what an addition to the lease change set does (R95), and LEASE DISMISS (R94). -/

namespace Sys2Proof.Machine

open Sys2Proof

/-! ### The checks of a handle (R71) -/

theorem entryOf?_val_add_one (e : EntryNo) : entryOf? (e.val + 1) = some e := by
  have inside : 1 ≤ e.val + 1 ∧ e.val + 1 ≤ 16 := by omega
  simp [entryOf?, inside]

theorem State.findLease_present {s : State} {e : EntryNo} {l : Lease} (h : s.leaseOf e = some l) :
    s.findLease ⟨e.val + 1, (s.entry e).generation⟩ = .found e l := by
  simp [findLease, entryOf?_val_add_one, h]

theorem State.findLease_free {s : State} {e : EntryNo} (h : s.leaseOf e = none) (g : Nat) :
    s.findLease ⟨e.val + 1, g⟩ = .fails .unknown := by
  simp [findLease, entryOf?_val_add_one, h]

theorem State.findServed_present {s : State} {e : EntryNo} {l : Lease} (h : s.leaseOf e = some l) :
    s.findServed ⟨e.val + 1, (s.entry e).generation⟩ = if s.bringupDone then .found e l else .fails .starting := by
  simp [findServed, findLease_present h]

/-! ### Event flags and the lease change set (R95, R204) -/

theorem EventFlag.bit_lt (f : EventFlag) : f.bit < 12 := by cases f <;> decide

theorem EventFlag.bit_injective : Function.Injective EventFlag.bit := by
  intro f g; cases f <;> cases g <;> decide

theorem EventFlag.mask_getLsbD_bit (f g : EventFlag) : f.mask.getLsbD g.bit = decide (g = f) := by
  rw [mask, ← BitVec.twoPow_eq, BitVec.getLsbD_twoPow]
  simp [f.bit_lt, bit_injective.eq_iff, eq_comm]

@[simp] theorem flagSet_leaseChanged (s : State) (e : EntryNo) (f : EventFlag) :
    (s.leaseChanged e).flagSet f = (s.flagSet f || decide (f = .leasesChanged)) := by
  simp [State.flagSet, EventFlag.mask_getLsbD_bit]

theorem mem_insertEntry {e f : EntryNo} {es : List EntryNo} : f ∈ insertEntry e es ↔ f = e ∨ f ∈ es := by
  induction es with
  | nil => simp [insertEntry]
  | cons x xs ih =>
    unfold insertEntry
    split
    · next same => simp [same]
    · split
      · simp
      · simp [ih, or_left_comm]

@[simp] theorem inLeaseChanges_leaseChanged (s : State) (e f : EntryNo) :
    (s.leaseChanged e).inLeaseChanges f = (decide (f = e) || s.inLeaseChanges f) := by
  simp [State.inLeaseChanges, mem_insertEntry]

/-! ### A dismissed entry (R71, R73, R94) -/

theorem nextGeneration_eq {g : Nat} (h : g < 256) : nextGeneration g = if g = 255 then 0 else g + 1 := by
  unfold nextGeneration; split <;> omega

@[simp] theorem entry_dismiss (s : State) (e k : EntryNo) :
    (s.dismiss e).entry k = if k = e then ⟨nextGeneration (s.entry e).generation, none⟩ else s.entry k :=
  entry_setEntry ..

@[simp] theorem flagSet_dismiss (s : State) (e : EntryNo) (f : EventFlag) :
    (s.dismiss e).flagSet f = (s.flagSet f || decide (f = .leasesChanged)) :=
  flagSet_leaseChanged ..

@[simp] theorem inLeaseChanges_dismiss (s : State) (e f : EntryNo) :
    (s.dismiss e).inLeaseChanges f = (decide (f = e) || s.inLeaseChanges f) :=
  inLeaseChanges_leaseChanged ..

theorem leaseOf_dismiss_self (s : State) (e : EntryNo) : (s.dismiss e).leaseOf e = none := by
  simp [State.leaseOf]

/-- With some entry FREE, a grant takes a FREE one and leaves the close order alone (R73). -/
theorem State.entryToTake_free {s : State} {e : EntryNo} (h : s.leaseOf e = none) :
    ∃ k, s.entryToTake = some k ∧ s.leaseOf k = none := by
  have found : (entryNames.find? fun k => (s.leaseOf k).isNone).isSome = true :=
    List.find?_isSome.mpr ⟨e, List.mem_finRange e, by simp [h]⟩
  obtain ⟨k, hk⟩ := Option.isSome_iff_exists.mp found
  have free : (s.leaseOf k).isNone = true := by simpa using List.find?_some hk
  exact ⟨k, by simp [entryToTake, hk], by simpa using free⟩

/-! ### The answers of LEASE DISMISS, and the one of LEASE READ at a FREE entry -/

theorem exec_leaseDismiss_refused {tag : Tag} {s : State} {h : HandleArgs} {status : Status}
    (refused : s.findServed h = .fails status) :
    exec (.leaseDismiss tag (some h)) s = .next (s.reply 0x25#8 tag status .empty) := by
  have arm : exec (.leaseDismiss tag (some h)) s = execLeaseDismiss tag (some h) s := rfl
  simp only [arm, execLeaseDismiss, refused]
  rfl

theorem exec_leaseDismiss_found {tag : Tag} {s : State} {h : HandleArgs} {e : EntryNo} {l : Lease}
    (found : s.findServed h = .found e l) :
    exec (.leaseDismiss tag (some h)) s =
      if l.state = .closed then .next ((s.dismiss e).reply 0x25#8 tag .ok .empty)
      else .next (s.reply 0x25#8 tag .state .empty) := by
  have arm : exec (.leaseDismiss tag (some h)) s = execLeaseDismiss tag (some h) s := rfl
  simp only [arm, execLeaseDismiss, found]
  rfl

theorem exec_leaseRead_refused {tag : Tag} {s : State} {a : LeaseReadArgs} {status : Status}
    (refused : s.findLease a.handle = .fails status) :
    exec (.leaseRead tag (some a)) s = .next (s.reply 0x21#8 tag status .empty) := by
  have arm : exec (.leaseRead tag (some a)) s = execLeaseRead tag (some a) s := rfl
  simp only [arm, execLeaseRead, refused]
  rfl

/-- Settles O23: the checks of the handle decide which answer is given, and `State.dismiss` is what an OK leaves. -/
theorem leaseDismiss : Obligations.LeaseDismiss := by
  intro tag s e l present g run
  have served := State.findServed_present present
  refine ⟨fun starting => ?starting, fun done live => ?live, fun done closed bound =>
    ⟨s.dismiss e, ?ok, ?entry, fun k other => ?others, rfl, ?joined, ?raised, rfl, fun f other => ?flags, ?taken, ?old⟩⟩
  case starting => exact exec_leaseDismiss_refused (by simpa [starting] using served)
  case live =>
    have answer := exec_leaseDismiss_found (tag := tag) (by simpa [done] using served)
    rwa [if_neg live] at answer
  case ok =>
    have answer := exec_leaseDismiss_found (tag := tag) (by simpa [done] using served)
    rwa [if_pos closed] at answer
  case entry => rw [entry_dismiss, if_pos rfl, nextGeneration_eq bound]
  case others => rw [entry_dismiss, if_neg other]
  case joined => simp
  case raised => simp
  case flags => simp [other]
  case taken => exact State.entryToTake_free (leaseOf_dismiss_self s e)
  case old => exact exec_leaseRead_refused (State.findLease_free (leaseOf_dismiss_self s e) g)

end Sys2Proof.Machine
end

section
/-! SUPPORT. What SNAP and UNSNAP do to the Readings View (R144, R145), and SITE READ at a name the strap selects (R18). -/

namespace Sys2Proof.Machine

open Sys2Proof

/-! ### The view frozen and released (R144, R145) -/

@[simp] theorem frozenOf_freeze (s : State) (n : SiteName) : s.freeze.frozenOf n = (s.site n).readings :=
  Vector.getElem_map _ n.isLt

theorem site_freeze (s : State) (n : SiteName) :
    s.freeze.site n = { s.site n with readings := (s.site n).readings.map Readings.restarted } :=
  Vector.getElem_map _ n.isLt

@[simp] theorem frozenOf_release (s : State) (n : SiteName) : s.release.frozenOf n = none :=
  Vector.getElem_replicate n.isLt

@[simp] theorem site_release (s : State) (n : SiteName) : s.release.site n = s.site n := rfl

/-! ### The answers of SNAP and UNSNAP -/

theorem exec_snap (tag : Tag) (s : State) :
    exec (.snap tag (some ())) s =
      if s.frozen then .next (s.reply 0x30#8 tag .ok (.snapped s.snapTime true))
      else .next (s.freeze.reply 0x30#8 tag .ok (.snapped s.clock.count false)) := rfl

theorem exec_unsnap (tag : Tag) (s : State) :
    exec (.unsnap tag (some ())) s =
      if s.frozen then .next (s.release.reply 0x31#8 tag .ok (.unsnapped true))
      else .next (s.reply 0x31#8 tag .ok (.unsnapped false)) := rfl

/-! ### SITE READ at a name (R18, R143) -/

theorem siteOfCode?_siteCode (n : SiteName) : siteOfCode? (siteCode n) = some n := by
  have inside : 1 ≤ n.val + 1 ∧ n.val + 1 ≤ 64 := by omega
  simp [siteOfCode?, siteCode, inside]

theorem State.strapped?_siteCode {s : State} {n : SiteName} (named : s.Names n) :
    s.strapped? (siteCode n) = some n := by
  simp [strapped?, siteOfCode?_siteCode, named]

theorem exec_siteRead_named {s : State} {n : SiteName} (tag : Tag) (named : s.Names n) :
    exec (.siteRead tag (some (siteCode n))) s = .next (s.reply 0x01#8 tag .ok (.site (s.siteAnswer n))) := by
  have arm : exec (.siteRead tag (some (siteCode n))) s = execSiteRead tag (some (siteCode n)) s := rfl
  simp only [arm, execSiteRead, Option.bind_some, State.strapped?_siteCode named]
  rfl

theorem State.siteAnswer_readings_live {s : State} (live : s.frozen = false) (n : SiteName) :
    (s.siteAnswer n).readings = (s.site n).readings := by
  simp [siteAnswer, live]

/-- Settles O17: `State.freeze` and `State.release` are the states that SNAP and UNSNAP leave. -/
theorem snapView : Obligations.SnapView := by
  refine ⟨fun tag s => ⟨fun live => ⟨s.freeze, ?snap, rfl, rfl, frozenOf_freeze s, site_freeze s, rfl⟩,
      fun frozen => ?snapAgain⟩,
    fun tag s => ⟨fun frozen => ⟨s.release, ?unsnap, rfl, rfl, frozenOf_release s, site_release s, rfl,
      fun k n named => ⟨s.release.siteAnswer n, exec_siteRead_named k named, rfl, ?shown⟩⟩,
      fun live => ?unsnapAgain⟩⟩
  case snap => simp [exec_snap, live]
  case snapAgain => simp [exec_snap, frozen]
  case unsnap => simp [exec_unsnap, frozen]
  case shown => rw [State.siteAnswer_readings_live rfl, site_release]
  case unsnapAgain => simp [exec_unsnap, live]

end Sys2Proof.Machine
end
